-- ==== Sys2Proof/Word.lean ====
section
/-! DEFINITION. The words of the machine and their plainest arithmetic (R3 to R6). -/

namespace Sys2Proof

/-- A 64-bit word: an instruction word, a scalar register, an address (R60, R121). -/
abbrev Word := BitVec 64

/-- One byte of memory. -/
abbrev Byte := BitVec 8

/-- A lane mask: bit n stands for lane n (R5). -/
abbrev Mask := BitVec 64

/-- A value carried for one lane, wide enough for b128; narrower values are zero above their width (R130). -/
abbrev Val := BitVec 128

/-- One 128-byte line of memory, byte k in bits [8k+7:8k] (R202). -/
abbrev Line := BitVec 1024

/-- A sparse table: key and value pairs, keys strictly rising. Reads go through `KMap.get` with a default. -/
abbrev KMap (α : Type) := List (Nat × α)

/-- Lane `l` is in mask `m`. -/
def Mask.has (m : Mask) (l : Nat) : Bool := m.getLsbD l

/-- The mask holding lane `l` alone. -/
def Mask.one (l : Nat) : Mask := (1 : BitVec 64) <<< l

/-- The lanes of a mask, lowest first. -/
def Mask.lanes (m : Mask) : List Nat := (List.range 64).filter m.getLsbD

/-- The lowest lane of a mask, if it has one. -/
def Mask.lowest (m : Mask) : Option Nat := m.lanes.head?

/-- The mask of lanes 0 to n - 1. -/
def Mask.below (n : Nat) : Mask := BitVec.ofNat 64 (2 ^ n - 1)

/-- `m` names only lanes of `k`. -/
def Mask.within (m k : Mask) : Bool := m &&& ~~~k == 0

end Sys2Proof
end

