-- ==== Sys2Proof/Syntax.lean ====
section
/-! DEFINITION. The abstract syntax: the instructions of a block and the events of the device's agents, one
constructor per row of spec/opcode_table.json. -/

namespace Sys2Proof

/-- The type codes of R77, in code order. -/
inductive Ty where
  | i8 | i16 | i32 | i64 | n8 | n16 | n32 | n64 | f16 | bf16 | f32 | f16x2 | bf16x2 | e4m3 | e5m2 | b128
  deriving DecidableEq, Repr

/-- CVT's source format: a type of R77 but b128, or e8m0 (R78, R178). -/
inductive SrcFmt where
  | ty (t : Ty)
  | e8m0
  deriving DecidableEq, Repr

/-- Operand slots of an instruction (R70). -/
inductive Opnd where
  | a | b | c
  deriving DecidableEq, Repr

/-- A target byte (R70): discard, an operand slot of an instruction, or a write entry. -/
inductive Target where
  | nul
  | opnd (index : BitVec 6) (slot : Opnd)
  | out (entry : BitVec 6)
  deriving DecidableEq, Repr

/-- Rounding modes (R78, R108). -/
inductive Rnd where
  | rne | rtz | rup | rdn
  deriving DecidableEq, Repr

/-- CMP's conditions (R160). -/
inductive ICond where
  | eq | ne | lt | le | gt | ge | tst
  deriving DecidableEq, Repr

/-- FCMP's conditions (R171). -/
inductive FCond where
  | eq | ne | lt | le | gt | ge | un | ord
  deriving DecidableEq, Repr

/-- SHFL's modes (R185). -/
inductive ShflMode where
  | idx | up | down | xor
  deriving DecidableEq, Repr

/-- VOTE's modes (R185). -/
inductive VoteMode where
  | all | any | ballot | uni
  deriving DecidableEq, Repr

/-- REDUX's modes (R185). -/
inductive RedMode where
  | add | min | max | and | or | xor
  deriving DecidableEq, Repr

/-- A plain or immediate word's fields (R71): the type, the immediate when the word has one, two targets. -/
structure Plain where
  ty : Ty
  imm : Option (BitVec 28)
  ta : Target
  tb : Target
  deriving DecidableEq, Repr

/-- A memory word's fields (R71, R75). -/
structure MemW where
  ty : Ty
  count : BitVec 2
  win : BitVec 4
  scope : BitVec 2
  order : BitVec 2
  off : BitVec 20
  ta : Target
  tb : Target
  deriving DecidableEq, Repr

/-- A fan-out word's fields (R71). -/
structure Fan where
  ty : Ty
  ta : Target
  tb : Target
  tc : Target
  td : Target
  deriving DecidableEq, Repr

/-- An exit word's fields (R71, R76). -/
structure ExitW where
  num : BitVec 3
  indirect : Bool
  off : BitVec 32
  deriving DecidableEq, Repr

/-- The states a hob die is put in (R21, R409). -/
inductive DieMode where
  | run | ember | idle | off
  deriving DecidableEq, Repr

/-- The package limits that firmware sets by TIMEOUTS, in ns; none leaves one as it stands (R404). -/
structure Limits where
  lock : Option Nat
  hold : Option Nat
  barrier : Option Nat
  xshfl : Option Nat
  watchdog : Option Nat
  deriving DecidableEq, Repr

/-- A firmware image: its version and whether its signature verifies against the fused key (R400). -/
structure FwImage where
  version : Nat
  authentic : Bool
  deriving DecidableEq, Repr

/-- Where an ECC error strikes (R217, R369). -/
inductive ErrSite where
  /-- a 64-byte sector of memory, by physical address (HBM or its home's L2) -/
  | sector (pa : Nat)
  /-- a sector of a line held in a core's L1 -/
  | l1 (core pa : Nat)
  /-- a sector of a copy that another die's L2 holds -/
  | copy (die pa : Nat)
  /-- a sector of a decoded line in a die's L2 -/
  | decoded (die pa : Nat)
  /-- a sector of a line in the package cache -/
  | pkg (pa : Nat)
  /-- a scratchpad word of a workgroup's region: byte offset with the member in [21:20] -/
  | scratch (wg off : Nat)
  /-- a core's register file or operand memory (corrected errors only) -/
  | core (core : Nat)
  /-- a die's L2, HBM or link port (corrected errors only) -/
  | die (die : Nat)
  deriving DecidableEq, Repr

/-- The instructions and events of spec/opcode_table.json, one constructor per row. -/
inductive Instr where
  /-- NOP (R136): Fires with its block and does nothing. -/
  | nop (w : Plain)
  /-- MOV (R137): Delivers operand a unchanged to up to four targets. -/
  | mov (w : Fan)
  /-- CONST (R138): Yields a uniform constant built from the immediate shifted by the modifier. -/
  | const (shift : BitVec 4) (w : Plain)
  /-- CONSTH (R138): Replaces bits [63:36] of operand a with the immediate. -/
  | consth (w : Plain)
  /-- STEER (R139): Splits operand a between two targets by a per-lane condition. -/
  | steer (w : Plain)
  /-- MERGE (R140): Joins two tokens, preferring operand a in lanes where both are present. -/
  | merge (w : Plain)
  /-- SELECT (R141): Chooses a or b in each lane by condition c. -/
  | select (w : Plain)
  /-- NULLIFY (R142): Removes from a's mask the lanes that b covers. -/
  | nullify (w : Plain)
  /-- EXIT (R143): Chooses a direct or indirect successor for each lane of its operand. -/
  | exit (w : ExitW)
  /-- CALL (R144): Exits like EXIT and at commit writes the link address into v1:v0. -/
  | call (w : ExitW)
  /-- RET (R145): Indirect exit to the link address given in operand a. -/
  | ret (w : ExitW)
  /-- QUIT (R146): Ends the lanes of its mask at commit. -/
  | quit (w : Plain)
  /-- IDX (R147): Delivers each lane's 64-bit work identifier. -/
  | idx (w : Plain)
  /-- SPR (R148): Reads a special register as it stands at fire. -/
  | spr (w : Plain)
  /-- ADD (R152): Wrapping integer addition. -/
  | add (w : Plain)
  /-- SUB (R152): Wrapping integer subtraction. -/
  | sub (w : Plain)
  /-- ADDS (R152): Saturating integer addition. -/
  | adds (w : Plain)
  /-- SUBS (R152): Saturating integer subtraction. -/
  | subs (w : Plain)
  /-- ADDC (R153): Adds with carry in and delivers the sum and the carry out. -/
  | addc (w : Plain)
  /-- SUBB (R153): Subtracts with borrow in and delivers the difference and the borrow out. -/
  | subb (w : Plain)
  /-- MUL (R154): Low half of the integer product. -/
  | mul (w : Plain)
  /-- MULH (R154): High half of the integer product. -/
  | mulh (w : Plain)
  /-- MAD (R154): Wrapping multiply-add. -/
  | mad (w : Plain)
  /-- MIN (R155): Integer minimum. -/
  | min (w : Plain)
  /-- MAX (R155): Integer maximum. -/
  | max (w : Plain)
  /-- ABS (R155): Wrapping absolute value. -/
  | abs (w : Plain)
  /-- NEG (R155): Wrapping negation. -/
  | neg (w : Plain)
  /-- AND (R156): Bitwise AND. -/
  | and (w : Plain)
  /-- OR (R156): Bitwise OR. -/
  | or (w : Plain)
  /-- XOR (R156): Bitwise XOR. -/
  | xor (w : Plain)
  /-- ANDN (R156): Bitwise a AND NOT b. -/
  | andn (w : Plain)
  /-- NOT (R156): Bitwise complement. -/
  | not (w : Plain)
  /-- SHL (R157): Logical shift left. -/
  | shl (w : Plain)
  /-- SHR (R157): Logical shift right. -/
  | shr (w : Plain)
  /-- SAR (R157): Arithmetic shift right. -/
  | sar (w : Plain)
  /-- ROT (R157): Left rotation. -/
  | rot (w : Plain)
  /-- BFX (R158): Extracts a bit field. -/
  | bfx (w : Plain)
  /-- BFI (R158): Inserts a bit field. -/
  | bfi (w : Plain)
  /-- POPC (R159): Counts the set bits. -/
  | popc (w : Plain)
  /-- CLZ (R159): Counts the leading zeros. -/
  | clz (w : Plain)
  /-- CTZ (R159): Counts the trailing zeros. -/
  | ctz (w : Plain)
  /-- BREV (R159): Reverses the bit order. -/
  | brev (w : Plain)
  /-- BSWAP (R159): Reverses the byte order. -/
  | bswap (w : Plain)
  /-- CMP (R160): Integer compare giving 1 or 0. -/
  | cmp (c : ICond) (w : Plain)
  /-- CLMUL (R161): Low 64 bits of the carry-less product. -/
  | clmul (w : Plain)
  /-- CLMULH (R161): High bits of the carry-less product. -/
  | clmulh (w : Plain)
  /-- LEA (R162): Base plus scaled 32-bit index plus offset. -/
  | lea (scale : BitVec 3) (w : Plain)
  /-- WIDF (R163): Extracts a field of a work identifier. -/
  | widf (field : BitVec 3) (w : Plain)
  /-- FADD (R167): Rounded floating-point addition. -/
  | fadd (rm : Rnd) (w : Plain)
  /-- FSUB (R167): Rounded floating-point subtraction. -/
  | fsub (rm : Rnd) (w : Plain)
  /-- FMUL (R167): Rounded floating-point multiplication. -/
  | fmul (rm : Rnd) (w : Plain)
  /-- FFMA (R168): Fused multiply-add with one rounding. -/
  | ffma (rm : Rnd) (w : Plain)
  /-- FMIN (R169): Floating-point minimum, with -0 ordered below +0. -/
  | fmin (w : Plain)
  /-- FMAX (R169): Floating-point maximum, with -0 ordered below +0. -/
  | fmax (w : Plain)
  /-- FABS (R170): Clears the sign bit. -/
  | fabs (w : Plain)
  /-- FNEG (R170): Inverts the sign bit. -/
  | fneg (w : Plain)
  /-- FCMP (R171): Floating-point compare giving 1 or 0. -/
  | fcmp (c : FCond) (w : Plain)
  /-- FRCP (R172): Table reciprocal. -/
  | frcp (w : Plain)
  /-- FRSQ (R172): Table reciprocal square root. -/
  | frsq (w : Plain)
  /-- FEXP2 (R172): Table power of two. -/
  | fexp2 (w : Plain)
  /-- FLOG2 (R172): Table base-2 logarithm. -/
  | flog2 (w : Plain)
  /-- FSINP (R172): Table sin(pi x). -/
  | fsinp (w : Plain)
  /-- FCOSP (R172): Table cos(pi x). -/
  | fcosp (w : Plain)
  /-- FSQRT (R173): Correctly rounded square root. -/
  | fsqrt (rm : Rnd) (w : Plain)
  /-- FRND (R174): Rounds to an integral value. -/
  | frnd (rm : Rnd) (w : Plain)
  /-- FCLS (R175): Classifies a float into one set bit. -/
  | fcls (w : Plain)
  /-- FSCL (R176): Scales by a power of two. -/
  | fscl (rm : Rnd) (w : Plain)
  /-- FDOT2 (R177): Packed two-element dot product plus an f32 addend. -/
  | fdot2 (rm : Rnd) (w : Plain)
  /-- CVT (R178): Converts between number formats. -/
  | cvt (src : SrcFmt) (w : Plain)
  /-- PACK (R180): Rounds two f32 values into one packed pair. -/
  | pack (rm : Rnd) (w : Plain)
  /-- UNPK (R181): Splits a packed pair into two f32 values. -/
  | unpk (w : Plain)
  /-- LQD (R182): Decodes an lq2 code and scale into eight bf16 weights. -/
  | lqd (w : Plain)
  /-- SCLX (R183): Multiplies elements by an e8m0 scale, saturating on overflow. -/
  | sclx (w : Plain)
  /-- SHFL (R190): Exchanges values between member lanes once all have arrived. -/
  | shfl (m : ShflMode) (w : Plain)
  /-- VOTE (R191): Votes over member lanes. -/
  | vote (m : VoteMode) (w : Plain)
  /-- REDUX (R192): Reduces over member lanes in a fixed tree. -/
  | redux (m : RedMode) (w : Plain)
  /-- ELECT (R193): Gives 1 to the lowest or highest member lane. -/
  | elect (hi : Bool) (w : Plain)
  /-- XSHFL (R194): Offers the group's values for exchange with a group of another cluster. -/
  | xshfl (w : Plain)
  /-- MASK (R196): Removes lanes from the strand, parking them without a successor. -/
  | mask (keep : Bool) (w : Plain)
  /-- REGANG (R197): Exit by which lanes arrive at a label to rejoin. -/
  | regang (w : ExitW)
  /-- BAR (R200): Arrives at a workgroup barrier and waits on it at the next block. -/
  | bar (n : BitVec 4) (w : Plain)
  /-- ARRV (R200): Arrives at a workgroup barrier without waiting. -/
  | arrv (n : BitVec 4) (w : Plain)
  /-- LD (R243): Loads global memory. -/
  | ld (w : MemW)
  /-- LDS (R243): Loads scratchpad. -/
  | lds (w : MemW)
  /-- LDC (R243): Loads relative to %cbase. -/
  | ldc (w : MemW)
  /-- ST (R244): Buffers a global store and applies it at commit. -/
  | st (w : MemW)
  /-- STS (R244): Buffers a scratchpad store and applies it at commit. -/
  | sts (w : MemW)
  /-- PREF (R245): Prefetches a line into L2 or L1. -/
  | pref (l2 : Bool) (w : MemW)
  /-- AADD (R246): Atomic integer add at the home slice. -/
  | aadd (w : MemW)
  /-- AFADD (R246): Atomic f32 add at the home slice. -/
  | afadd (w : MemW)
  /-- AMIN (R246): Atomic minimum. -/
  | amin (w : MemW)
  /-- AMAX (R246): Atomic maximum. -/
  | amax (w : MemW)
  /-- AAND (R246): Atomic AND. -/
  | aand (w : MemW)
  /-- AOR (R246): Atomic OR. -/
  | aor (w : MemW)
  /-- AXOR (R246): Atomic XOR. -/
  | axor (w : MemW)
  /-- AXCHG (R246): Atomic exchange. -/
  | axchg (w : MemW)
  /-- ACAS (R246): Atomic compare-and-swap. -/
  | acas (w : MemW)
  /-- FENCE (R247): Full barrier at a scope up to die. -/
  | fence (sc : BitVec 3) (w : Plain)
  /-- FLSIG (R248): Starts a package-wide drain of the strand's stores at commit, optionally followed by a signal. -/
  | flsig (add : Bool) (w : MemW)
  /-- WIN (R250): Translates a base and yields a window token. -/
  | win (w : Plain)
  /-- INVL (R251): Drops lines, or all unlocked lines, from the core's L1. -/
  | invl (all : Bool) (w : MemW)
  /-- WBL (R252): Writes a line's dirty bytes back to its home. -/
  | wbl (w : MemW)
  /-- LLOCK (R255): Requests a line lock and waits for its grant. -/
  | llock (w : MemW)
  /-- LTRY (R259): Tries a line lock without waiting. -/
  | ltry (w : MemW)
  /-- LUNLK (R260): Releases a held line lock at commit. -/
  | lunlk (w : MemW)
  /-- OCLAIM (R266): Claims an operand slot or an accumulation tile. -/
  | oclaim (w : Plain)
  /-- ORLSE (R267): Releases a claimed slot or tile. -/
  | orlse (w : Plain)
  /-- OFILL (R268): Sends a command that fills an operand slot from memory. -/
  | ofill (w : MemW)
  /-- MMA (R269): Sends a matrix multiply-accumulate command. -/
  | mma (mix : Bool) (w : Plain)
  /-- ACCZ (R271): Sends a command that zeroes an accumulation tile. -/
  | accz (w : Plain)
  /-- ACCFL (R272): Sends a command that flushes a tile to memory by store or merge. -/
  | accfl (add : Bool) (w : MemW)
  /-- ACCRD (R273): Reads accumulator elements into registers. -/
  | accrd (w : Plain)
  /-- MSTAT (R274): Reports the state of a slot or tile. -/
  | mstat (w : Plain)
  /-- QCFG_BIND (R292): Binds a queue register to an endpoint at commit. -/
  | qcfgBind (w : Plain)
  /-- QCFG_DEQ (R292): Takes ownership of the core's deque. -/
  | qcfgDeq (w : Plain)
  /-- QCFG_UNDEQ (R292): Gives up the core's deque, discarding its entries. -/
  | qcfgUndeq (w : Plain)
  /-- QLEN (R293): Samples a bound queue's length. -/
  | qlen (w : Plain)
  /-- CPYC (R294): Checks a copy job card and queues it at commit. -/
  | cpyc (w : Plain)
  /-- GTHC (R294): Checks a gather job card and queues it at commit. -/
  | gthc (w : Plain)
  /-- COLC (R295): Checks a reduce job card and queues it at commit. -/
  | colc (w : Plain)
  /-- SEND (R296): Sends one item to a receive queue of any core. -/
  | send (w : Plain)
  /-- DQPUSH (R297): Pushes an entry at the bottom of the owned deque. -/
  | dqpush (w : Plain)
  /-- DQPOP (R298): Reserves the bottom entry of the owned deque. -/
  | dqpop (w : Plain)
  /-- DQSTEAL (R298): Reserves the top entry of a victim core's deque. -/
  | dqsteal (w : Plain)
  /-- LNCH (R299): Posts a launch record into a launch queue at commit. -/
  | lnch (w : Plain)
  /-- SIGNL (R300): Adds to a signal word at its home slice at commit. -/
  | signl (w : Plain)
  /-- XMATCH_OPEN (R317): Opens the core's ring and binds slots 20 to 31 of every member. -/
  | xmatchOpen (w : Plain)
  /-- XMATCH_RULE (R319): Reads and installs a match rule. -/
  | xmatchRule (w : Plain)
  /-- XMATCH_JOIN (R318): Makes the group the member's task group. -/
  | xmatchJoin (w : Plain)
  /-- XMATCH_START (R320): Arms the ring to run. -/
  | xmatchStart (w : Plain)
  /-- XCLR (R323): Invalidates a rule or clears the ring. -/
  | xclr (w : Plain)
  /-- XINJ (R321): Injects a tile into a ring slot by a fill job. -/
  | xinj (w : Plain)
  /-- XEJECT (R322): Copies a ring or task slot to memory or scratchpad. -/
  | xeject (w : Plain)
  /-- XCNT (R323): Reads a rule's completed count or the tick counter. -/
  | xcnt (w : Plain)
  /-- XSWEEP (R323): Starts a rule's sweep at once. -/
  | xsweep (w : Plain)
  /-- XSTAT (R323): Reads the ring word or a rule word. -/
  | xstat (w : Plain)
  /-- IPATCH (R337): Starts a job that loads patch entries into the shadow table. -/
  | ipatch (w : Plain)
  /-- ISET (R341): Writes an integrator field item. -/
  | iset (w : Plain)
  /-- IGET (R341): Reads an integrator field item. -/
  | iget (w : Plain)
  /-- ISTEP (R340): Adds pending steps to a halted domain. -/
  | istep (w : Plain)
  /-- IRUN (R338): Optionally activates the shadow patch, then starts domains. -/
  | irun (w : Plain)
  /-- IHALT (R339): Halts domains and optionally releases the field. -/
  | ihalt (w : Plain)
  /-- ISAVE (R344): Captures the field and starts a job that writes its image. -/
  | isave (w : Plain)
  /-- IREST (R344): Starts a job that reads and applies a field image. -/
  | irest (w : Plain)
  /-- IOUT (R342): Configures an output port's cell and enable. -/
  | iout (w : Plain)
  /-- RTCFG (R362): Starts a job that loads stage-cell shadow configuration. -/
  | rtcfg (w : Plain)
  /-- RTSWAP (R363): Drops the shadow, or drains the region and swaps it in. -/
  | rtswap (w : Plain)
  /-- RTSEND (R364): Injects one reduction token per lane. -/
  | rtsend (w : Plain)
  /-- QSC (R365): Injects a token that sets a cell's constant. -/
  | qsc (w : Plain)
  /-- EVCFG (R366): Configures an event-crossbar item, or releases the crossbar. -/
  | evcfg (w : Plain)
  /-- EVARM_ARM (R367): Sets a term's arm state. -/
  | evarmArm (w : Plain)
  /-- EVARM_WAIT (R367): Waits for a crossbar output and delivers the fire count. -/
  | evarmWait (w : Plain)
  /-- EVFIRE (R368): Pulses a software input of the crossbar. -/
  | evfire (w : Plain)
  /-- CNTRD (R376): Reads a counter. -/
  | cntrd (w : Plain)
  /-- CNTSET (R376): Sets a counter at commit. -/
  | cntset (w : Plain)
  /-- TIME (R376): Samples the time base and CLK in one clock. -/
  | time (w : Plain)
  /-- ENRD (R376): Reads damper state. -/
  | enrd (w : Plain)
  /-- ENRSV (R376): Claims energy in the current window or the next. -/
  | enrsv (w : Plain)
  /-- TRAP (R385): After commit, sends each resulting strand into its trap handler. -/
  | trap (w : Plain)
  /-- BRK (R386): After commit, parks each resulting strand with a BREAK record. -/
  | brk (w : Plain)
  /-- HCALL (R387): Places a call record in the firmware mailbox and parks. -/
  | hcall (w : Plain)
  /-- TRET (R388): Leaves trap mode and resumes at s3. -/
  | tret (w : Plain)
  /-- HOST_MEM_WRITE (R238): Host CXL.mem write to device memory, visible at package scope before its completion. -/
  | hostMemWrite (pa : Nat) (bytes : List Byte)
  /-- HOST_MEM_READ (R238): Host CXL.mem read served at the package cache or the home slice. -/
  | hostMemRead (pa n : Nat)
  /-- LAUNCH_PARSE (R28): The line monitor sees MARK 0xA5, checks the record and writes a status. -/
  | launchParse (q : Nat)
  /-- LAUNCH_DISPATCH (R48): The dispatcher serves a dispatchable launch at a queue head and hands range entries to distributors. -/
  | launchDispatch
  /-- WORKGROUP_PLACE (R49): A distributor places a workgroup that fits and has been admitted. -/
  | workgroupPlace (die : Nat)
  /-- DAMPER_WINDOW_START (R374): At each 10 ms window the damper computes Carry, clears sums and applies waiting claims. -/
  | damperWindowStart
  /-- BLOCK_FIRE (R41): A strand fires its next block once reads, pops, windows, barriers and HOLD allow. -/
  | blockFire (core entry : Nat)
  /-- BLOCK_COMMIT (R42): A resolved block applies all its effects at one point. -/
  | blockCommit (core entry : Nat)
  /-- LAUNCH_COMPLETE (R32): After the drain, the dispatcher adds DONEINC and pushes NOTIFY, or completes the launch as failed. -/
  | launchComplete (launch : Nat)
  /-- FAULT_TAKE (R378): A fault of the oldest uncommitted block discards blocks and routes the strand to its handler or to park. -/
  | faultTake (core entry : Nat)
  /-- BLOCK_STARVED_DRAIN (R134): A block that drains before it can commit faults BLOCK_STARVED. -/
  | blockStarvedDrain (core entry : Nat)
  /-- COLLECTIVE_COMPLETE (R188): A held collective completes when every named lane has arrived. -/
  | collectiveComplete (id : Nat)
  /-- COLLECTIVE_TIMEOUT (R188): A collective held past the barrier timeout faults BAR_TIMEOUT. -/
  | collectiveTimeout (id : Nat)
  /-- XSHFL_TIMEOUT (R195): An unpaired offer expires and faults XSHFL_TIMEOUT. -/
  | xshflTimeout (die id : Nat)
  /-- REGANG_COMPLETE (R198): Waiting members become one strand at the label. -/
  | regangComplete (group : Nat) (label : Word)
  /-- REGANG_TIMEOUT (R198): Waiting at a REGANG label past the barrier timeout faults BAR_TIMEOUT. -/
  | regangTimeout (group : Nat) (label : Word)
  /-- BAR_TIMEOUT (R201): A barrier generation breaks at its timeout and waiters fault. -/
  | barTimeout (wg bar : Nat)
  /-- TIME_SLICE_EXPIRY (R54): A workgroup's slice ends while an equal-level workgroup waits. -/
  | timeSliceExpiry (wg : Nat)
  /-- PREEMPT (R391): Stops a workgroup at block boundaries and writes its husk. -/
  | preempt (wg : Nat)
  /-- WORKGROUP_RESUME (R392): A pre-empted workgroup resumes where it fits and its husk is restored. -/
  | workgroupResume (wg : Nat)
  /-- WATCHDOG (R381): A workgroup passing the watchdog limit is stopped and parked. -/
  | watchdog (wg : Nat)
  /-- PAGE_WALK (R210): A walker translates a missed page and fills the TLBs or reports a fault. -/
  | pageWalk (core ctx va : Nat)
  /-- HOME_STORE_APPLY (R220): A posted store reaches its home, updates copies and is acknowledged. -/
  | homeStoreApply (id : Nat)
  /-- HOME_LINE_REQUEST (R236): A home slice handles one request for a line in arrival order. -/
  | homeLineRequest (id : Nat)
  /-- PROBE_ACT (R236): A held probe acts after the outstanding miss's reply is installed. -/
  | probeAct (die line : Nat)
  /-- ATOMIC_HOME_PERFORM (R230): The home slice performs an atomic, holding the line until commit or discard. -/
  | atomicHomePerform (id : Nat)
  /-- NEAR_CACHE_MERGE (R119): The home slice adders apply an ACCFL or COLC merge in arrival order. -/
  | nearCacheMerge (id : Nat)
  /-- FLSIG_TOKEN (R228): A home die returns a completion token; with all in, the signal is made. -/
  | flsigToken (id die : Nat)
  /-- LOCK_REQUEST_ARRIVAL (R216): A lock request is accepted at the home slice, granted, queued or turned back. -/
  | lockRequestArrival (id : Nat)
  /-- LOCK_RESEND (R216): A turned-back lock request is sent again after 256 clk. -/
  | lockResend (id : Nat)
  /-- LOCK_RELEASE_ARRIVAL (R260): A release reaches the home slice and the lock passes to the next waiter. -/
  | lockReleaseArrival (id : Nat)
  /-- HOLD_WINDOW_EXPIRY (R256): A grant held for an away waiter passes on or stays held. -/
  | holdWindowExpiry (line : Nat)
  /-- LOCK_TIMEOUT (R257): A resident waiter times out, its entry is removed and a probe chain runs. -/
  | lockTimeout (id : Nat)
  /-- COPY_JOB_START (R284): The engine scheduler starts the oldest card with no pending edge. -/
  | copyJobStart (core : Nat)
  /-- COPY_JOB_COMPLETE (R286): A copy-engine job completes with its status, record and pulse. -/
  | copyJobComplete (core id : Nat)
  /-- ENGINE_RECORD_DRAIN (R286): A buffered completion record enters its queue once there is room. -/
  | engineRecordDrain (core : Nat)
  /-- LINK_PORT_COMBINE (R295): A link port combines a COLC contribution and forwards at FANIN. -/
  | linkPortCombine (id : Nat)
  /-- LINK_PORT_WAIT_EXPIRY (R295): A held line is forwarded once WAIT has passed. -/
  | linkPortWaitExpiry (id : Nat)
  /-- MATRIX_COMMAND_START (R265): A matrix command starts once its resource order allows. -/
  | matrixCommandStart (core id : Nat)
  /-- MATRIX_COMMAND_COMPLETE (R264): An OFILL, MMA, ACCZ or ACCFL command completes. -/
  | matrixCommandComplete (core id : Nat)
  /-- RECEIVE_ARRIVAL (R280): A receive item enters the queue, spills, or is lost with a record. -/
  | receiveArrival (id : Nat)
  /-- EVENT_RECORD_OFFER (R288): A hob die offers its oldest held record to the event queue every 1 µs. -/
  | eventRecordOffer (die : Nat)
  /-- RING_START (R320): An armed ring enters RUN once all members joined, fills done and a rule is valid. -/
  | ringStart (die ring : Nat)
  /-- RING_TICK_END (R303): At the end of each tick the ring shifts one family and counts the tick. -/
  | ringTickEnd (die ring : Nat)
  /-- TASK_SPAWN (R305): At the end of a task copy the member spawns the task strand. -/
  | taskSpawn (die ring pos pair : Nat)
  /-- TASK_PAIR_FREE (R308): A task pair returns to FREE once its readers have completed. -/
  | taskPairFree (die ring pos pair : Nat)
  /-- RING_LAP_LIMIT (R309): The tick counter reaches 16 × LAPS with a clear met bit, starting a sweep. -/
  | ringLapLimit (die ring rule : Nat)
  /-- SWEEP_FETCH_COMPLETE (R309): A sweep fetch completes and spawns its task, or fails the ring. -/
  | sweepFetchComplete (die ring pair : Nat)
  /-- RING_COMPLETION_RECORD (R311): The completion record is pushed once task stores are visible and the queue has room. -/
  | ringCompletionRecord (die ring : Nat)
  /-- TASK_GROUP_RETURN (R313): A task group returns to its join block when no task runs. -/
  | taskGroupReturn (die ring pos : Nat)
  /-- RING_IDLE (R313): Members' ring slots return to FREE and the ring becomes IDLE. -/
  | ringIdle (die ring : Nat)
  /-- INTEGRATOR_STEP (R327): A domain steps by divider, event or pending count, updating its cells. -/
  | integratorStep (core : Nat) (doms : BitVec 4)
  /-- PATCH_JOB (R337): An IPATCH job loads and checks shadow entries, or stops dirty. -/
  | patchJob (core id : Nat)
  /-- ISAVE_JOB (R344): An ISAVE job writes the field image in address order. -/
  | isaveJob (core id : Nat)
  /-- IREST_JOB (R344): An IREST job checks the image and applies it in one clock, or sets RESTFAIL. -/
  | irestJob (core id : Nat)
  /-- RED_TOKEN_ARRIVAL (R349): A token arrives at a cell input and is queued or dropped. -/
  | redTokenArrival (id : Nat)
  /-- CELL_SERVE_KEY (R350): A cell combines a complete key and emits the result. -/
  | cellServeKey (die cell : Nat)
  /-- CELL_TIMEOUT (R351): An incomplete key times out and the cell emits a partial. -/
  | cellTimeout (die cell : Nat)
  /-- SINK_WRITE (R352): A token reaching a sink writes its 8-byte record. -/
  | sinkWrite (id : Nat)
  /-- CONFIG_TOKEN_APPLY (R365): A QSC token at the head of its input sets the cell's constant. -/
  | configTokenApply (die cell inp : Nat)
  /-- RTCFG_JOB (R354): An RTCFG job writes the shadow or marks it invalid. -/
  | rtcfgJob (core id : Nat)
  /-- DRAIN_TOKEN_PASS (R355): A cell forwards the drain once it has it on every input and no open key. -/
  | drainTokenPass (die cell : Nat)
  /-- REGION_SWAP (R355): Once the region is quiescent, cells and sinks take their shadows in one clock. -/
  | regionSwap (die id : Nat)
  /-- CROSSBAR_THRESHOLD (R359): A crossbar counter reaches its threshold and sets or pulses AT. -/
  | crossbarThreshold (core : Nat)
  /-- TERM_FIRE (R359): An armed term fires, pulsing its output, counting and clearing counters. -/
  | termFire (core : Nat)
  /-- EVARM_WAIT_TIMEOUT (R367): An EVARM.wait held past the barrier timeout before its output fires faults BAR_TIMEOUT. -/
  | evarmWaitTimeout (core entry index : Nat)
  /-- CROSSBAR_TIMER_EXPIRY (R358): A crossbar timer expires and pulses its input. -/
  | crossbarTimerExpiry (core timer : Nat)
  /-- ENERGY_SAMPLE (R369): Rail monitors update the energy counters every 10 µs. -/
  | energySample
  /-- HCALL_SERVICE (R387): Firmware serves or aborts a call, writes s0 and s1 and resumes the strands. -/
  | hcallService (slot : Nat) (stop : Bool)
  /-- DIE_STATE (R409): Management request that moves a hob die between RUN, EMBER, IDLE and OFF. -/
  | dieState (die : Nat) (mode : DieMode)
  /-- WARM_RESET (R405): Management request that resets one hob die under PRESERVE or KILL. -/
  | warmReset (die : Nat) (kill : Bool)
  /-- SET_BUDGET (R373): Management request that sets the damper budget from the next window. -/
  | setBudget (b : Word)
  /-- QUEUE_DESC (R30): Management request that writes a launch queue descriptor. -/
  | queueDesc (q : Nat) (enable : Bool) (prio slice ctx next : Nat)
  /-- SHOOTDOWN (R211): Management request that removes translations of a range and discards users. -/
  | shootdown (ctx lo hi : Nat)
  /-- STRAND_RESUME (R389): Fires a parked strand's block again. -/
  | strandResume (core entry : Nat)
  /-- STRAND_REDIRECT (R389): Continues a parked strand at a given address. -/
  | strandRedirect (core entry : Nat) (dest : Word)
  /-- CONTEXT_KILL (R390): Ends all work of a context. -/
  | contextKill (ctx : Nat)
  /-- TIMEOUTS (R404): Management request that sets the lock, hold, barrier, XSHFL and watchdog timeouts. -/
  | timeouts (t : Limits)
  /-- HEAT_WINDOW (R372): Management request that sets a heat pair's window. -/
  | heatWindow (die pair base size : Nat)
  /-- PACKAGE_COLD_RESET (R398): Power-on or PERST# runs the boot steps. -/
  | packageColdReset
  /-- RECOVERY_MAILBOX_LOAD (R400): The host loads the firmware image through the recovery mailbox. -/
  | recoveryMailboxLoad (img : FwImage)
  /-- PLDM_FIRMWARE_UPDATE (R400): Writes a new firmware image to flash for the next cold reset. -/
  | pldmFirmwareUpdate (img : FwImage)
  /-- PLDM_MONITORING (R403): Reports temperatures, rail power and energy counters. -/
  | pldmMonitoring (sensor : Nat)
  /-- GET_VERSION (R403): SPDM version request. -/
  | getVersion
  /-- GET_CAPABILITIES (R403): SPDM capabilities request. -/
  | getCapabilities
  /-- NEGOTIATE_ALGORITHMS (R403): SPDM algorithm negotiation. -/
  | negotiateAlgorithms (ecdsaP384 sha384 : Bool)
  /-- GET_DIGESTS (R403): SPDM certificate digests request. -/
  | getDigests
  /-- GET_CERTIFICATE (R403): SPDM certificate request. -/
  | getCertificate (slot offset len : Nat)
  /-- CHALLENGE (R403): SPDM authentication challenge. -/
  | challenge (nonce : Nat)
  /-- GET_MEASUREMENTS (R403): SPDM measurements of ROM, fuses and firmware. -/
  | getMeasurements (index : Nat)
  /-- LINK_FLIT_CRC_FAIL (R401): A flit failing CRC is replayed, then written poisoned and the port retrained. -/
  | linkFlitCrcFail (port pa : Nat)
  /-- LINK_DOWN (R401): A port that fails to retrain within 2 ms is down and traffic reroutes. -/
  | linkDown (port : Nat)
  /-- DIE_SPLIT (R408): A die with no path to the hearth die is split off and its contexts killed. -/
  | dieSplit (die : Nat)
  /-- UNCORRECTABLE_ERROR (R217): An uncorrectable ECC error sets poison on its sector. -/
  | uncorrectableError (site : ErrSite)
  /-- THERMAL_THROTTLE (R410): At 100 °C firmware moves a hob die to EMBER. -/
  | thermalThrottle (die : Nat)
  /-- THERMAL_RECOVER (R410): At 95 °C firmware returns the die to its requested state. -/
  | thermalRecover (die : Nat)
  /-- THERMAL_TRIP (R410): At 110 °C a hardware trip powers the package down. -/
  | thermalTrip
  /-- EVENT_QUEUE_TAKE (R288): Firmware or the host takes records from the event queue, freeing room for held records, dispatcher records and waiting EVENT pushes, and letting parked contexts be acted on. -/
  | eventQueueTake (n : Nat)
  /-- CXL_CACHE_HOST_SNOOP (R238): The host snoops or invalidates the device's cached copies of host-memory lines over CXL.cache. -/
  | cxlCacheHostSnoop (line : Nat) (inval : Bool)
  /-- CORRECTABLE_ERROR (R217): A correctable ECC error is corrected and counted in the core or die correctable-error counter. -/
  | correctableError (site : ErrSite)
  /-- FORMAT_WINDOW_WRITE (R128): Firmware changes a format window in all 16 memory controllers while no launch reads through it. -/
  | formatWindowWrite (n : Nat) (val : Val)
  /-- TRANSLATION_ROOT_WRITE (R208): Firmware writes or rewrites a context's translation root in the hearth-die root table. -/
  | translationRootWrite (ctx : Nat) (root : Option Nat)
  deriving DecidableEq, Repr

end Sys2Proof
end

