-- ==== Sys2Proof/Machine/Formats.lean ====
section
/-! DEFINITION. The encoding tables: type and modifier codes (R77, R78), the shape and class of every opcode (R79, R80
and the encoding table of each chapter), an instruction's fields as its word carries them, and the static checks on
them (R71 to R78). -/

namespace Sys2Proof

/-! ## Codes -/

/-- All types in code order (R77). -/
def Ty.all : List Ty :=
  [.i8, .i16, .i32, .i64, .n8, .n16, .n32, .n64, .f16, .bf16, .f32, .f16x2, .bf16x2, .e4m3, .e5m2, .b128]

/-- The code of a type (R77). -/
def Ty.bits : Ty → BitVec 4
  | .i8 => 0 | .i16 => 1 | .i32 => 2 | .i64 => 3 | .n8 => 4 | .n16 => 5 | .n32 => 6 | .n64 => 7
  | .f16 => 8 | .bf16 => 9 | .f32 => 10 | .f16x2 => 11 | .bf16x2 => 12 | .e4m3 => 13 | .e5m2 => 14 | .b128 => 15

/-- The type of a code (R77). -/
def Ty.ofBits (b : BitVec 4) : Ty := Ty.all.getD b.toNat .b128

/-- Width of a type in bits (R102 to R104, R130). -/
def Ty.width : Ty → Nat
  | .i8 | .n8 | .e4m3 | .e5m2 => 8
  | .i16 | .n16 | .f16 | .bf16 => 16
  | .i32 | .n32 | .f32 | .f16x2 | .bf16x2 => 32
  | .i64 | .n64 => 64
  | .b128 => 128

/-- Width at which a token of the type travels (R130). -/
def Ty.tokenWidth (t : Ty) : Nat := max 32 t.width

/-- The type is one of the i types (R102). -/
def Ty.signed : Ty → Bool
  | .i8 | .i16 | .i32 | .i64 => true
  | _ => false

/-- The type is one of the n types (R102). -/
def Ty.unsigned : Ty → Bool
  | .n8 | .n16 | .n32 | .n64 => true
  | _ => false

/-- Access size in bytes (R240). -/
def Ty.bytes (t : Ty) : Nat := t.width / 8

/-- CVT's source code (R78). -/
def SrcFmt.bits : SrcFmt → BitVec 4
  | .ty t => t.bits
  | .e8m0 => 15

/-- CVT's source of a code (R78). -/
def SrcFmt.ofBits (b : BitVec 4) : SrcFmt := if b = 15 then .e8m0 else .ty (Ty.ofBits b)

/-- Rounding code (R78). -/
def Rnd.bits : Rnd → BitVec 4
  | .rne => 0 | .rtz => 1 | .rup => 2 | .rdn => 3

/-- Rounding mode of a code (R78). -/
def Rnd.ofBits (b : BitVec 4) : Option Rnd := [Rnd.rne, .rtz, .rup, .rdn][b.toNat]?

/-- Condition code (R160). -/
def ICond.bits : ICond → BitVec 4
  | .eq => 0 | .ne => 1 | .lt => 2 | .le => 3 | .gt => 4 | .ge => 5 | .tst => 6

/-- Condition of a code (R160). -/
def ICond.ofBits (b : BitVec 4) : Option ICond := [ICond.eq, .ne, .lt, .le, .gt, .ge, .tst][b.toNat]?

/-- Condition code (R171). -/
def FCond.bits : FCond → BitVec 4
  | .eq => 0 | .ne => 1 | .lt => 2 | .le => 3 | .gt => 4 | .ge => 5 | .un => 6 | .ord => 7

/-- Condition of a code (R171). -/
def FCond.ofBits (b : BitVec 4) : Option FCond := [FCond.eq, .ne, .lt, .le, .gt, .ge, .un, .ord][b.toNat]?

/-- Mode code (R185). -/
def ShflMode.bits : ShflMode → BitVec 4
  | .idx => 0 | .up => 1 | .down => 2 | .xor => 3

/-- Mode of a code (R185). -/
def ShflMode.ofBits (b : BitVec 4) : Option ShflMode := [ShflMode.idx, .up, .down, .xor][b.toNat]?

/-- Mode code (R185). -/
def VoteMode.bits : VoteMode → BitVec 4
  | .all => 0 | .any => 1 | .ballot => 2 | .uni => 3

/-- Mode of a code (R185). -/
def VoteMode.ofBits (b : BitVec 4) : Option VoteMode := [VoteMode.all, .any, .ballot, .uni][b.toNat]?

/-- Mode code (R185). -/
def RedMode.bits : RedMode → BitVec 4
  | .add => 0 | .min => 1 | .max => 2 | .and => 3 | .or => 4 | .xor => 5

/-- Mode of a code (R185). -/
def RedMode.ofBits (b : BitVec 4) : Option RedMode := [RedMode.add, .min, .max, .and, .or, .xor][b.toNat]?

/-- A one-bit mode as a modifier. -/
def bit (b : Bool) : BitVec 4 := if b then 1 else 0

/-! ## Shapes and classes -/

/-- Expansion kinds of an immediate (R73, R74): t, z, s, CONST's and CONSTH's. -/
inductive ImmKind where
  | t | z | s | const | h
  deriving DecidableEq, Repr

/-- Limits that an entry sets on its immediate beyond its expansion kind. -/
inductive ImmLimit where
  | any
  | upTo (n : Nat)
  | belowW
  | bitField
  | claim
  | iget
  | istep
  | mma
  deriving DecidableEq, Repr

/-- How R75 restricts the order field. -/
inductive MemKind where
  | load | store | atomic | plain
  deriving DecidableEq, Repr

/-- Format families (R72, R79): plain and immediate counts, memory counts, fan-out, exit with its indirect rule. -/
inductive Family where
  | plain (count : Option Nat) (imm : Option (Nat × ImmKind)) (limit : ImmLimit)
  | mem (counts : List Nat) (kind : MemKind) (noWindow : Bool)
  | fan
  | exit (indirect : Option Bool)
  deriving DecidableEq, Repr

/-- Instruction classes (R80): store-class, effect, pure. -/
inductive Cls where
  | s | e | p
  deriving DecidableEq, Repr

/-- The modifier values an entry lists (R78). -/
inductive ModRule where
  | is (n : Nat)
  | upTo (n : Nat)
  | between (lo hi : Nat)
  deriving DecidableEq, Repr

/-- What the tables say of one opcode; `nul` says that both targets must be 0xFF. -/
structure OpSpec where
  fam : Family
  tys : List Ty
  mod : ModRule
  cls : Cls
  nul : Bool
  deriving DecidableEq, Repr

/-- No type: the field is 0 (R77). -/
def tNone : List Ty := [.i8]
/-- The i types. -/
def tI : List Ty := [.i8, .i16, .i32, .i64]
/-- The n types. -/
def tN : List Ty := [.n8, .n16, .n32, .n64]
/-- i and n types (R149). -/
def tIN : List Ty := [.i8, .i16, .i32, .i64, .n8, .n16, .n32, .n64]
/-- i, n and b128 (R149). -/
def tINB : List Ty := [.i8, .i16, .i32, .i64, .n8, .n16, .n32, .n64, .b128]
/-- BSWAP's types (R149). -/
def tSwap : List Ty := [.i16, .i32, .i64, .n16, .n32, .n64]
/-- f16, bf16, f32 (R164). -/
def tF : List Ty := [.f16, .bf16, .f32]
/-- Packed types (R164). -/
def tP : List Ty := [.f16x2, .bf16x2]
/-- F and P (R164). -/
def tFP : List Ty := [.f16, .bf16, .f32, .f16x2, .bf16x2]
/-- Set V of R185. -/
def tV : List Ty := [.i32, .i64, .n32, .n64, .f32, .f16x2, .bf16x2]
/-- I, N and F (R185). -/
def tINF : List Ty := [.i8, .i16, .i32, .i64, .n8, .n16, .n32, .n64, .f16, .bf16, .f32]
/-- Integer atomics (R239). -/
def tAtom : List Ty := [.i32, .i64, .n32, .n64]
/-- AXCHG and ACAS (R239). -/
def tAtomF : List Ty := [.i32, .i64, .n32, .n64, .f32]
/-- Every type. -/
def tAll : List Ty := Ty.all
/-- Codes 0x0 to 0xE (R136, R164). -/
def tConst : List Ty :=
  [.i8, .i16, .i32, .i64, .n8, .n16, .n32, .n64, .f16, .bf16, .f32, .f16x2, .bf16x2, .e4m3, .e5m2]

/-- Modifier rules of R78. -/
def mIs (n : Nat) : ModRule := .is n
/-- Modifiers 0 to n. -/
def mUpTo (n : Nat) : ModRule := .upTo n
/-- Rounding: [49:48] zero. -/
def mRnd : ModRule := .upTo 3
/-- Barrier numbers. -/
def mBar : ModRule := .between 1 15
/-- Fence scopes. -/
def mFence : ModRule := .between 1 4
/-- Any value. -/
def mAny : ModRule := .upTo 15

/-- The modifier value is one that the rule lists. -/
def ModRule.ok (r : ModRule) (m : BitVec 4) : Bool :=
  match r with
  | .is n => m.toNat == n
  | .upTo n => m.toNat ≤ n
  | .between lo hi => lo ≤ m.toNat && m.toNat ≤ hi

/-- The opcode map with shapes and classes (R79, R80). -/
def opSpec (op : Nat) : Option OpSpec :=
  match op with
  | 0x000 => some ⟨.plain (some 0) none (.any), tNone, mIs 0, .p, true⟩ -- NOP
  | 0x001 => some ⟨.fan, tAll, mIs 0, .p, false⟩ -- MOV
  | 0x002 => some ⟨.plain none (some (0, .const)) (.any), tConst, mAny, .p, false⟩ -- CONST
  | 0x003 => some ⟨.plain none (some (1, .h)) (.any), [.i64, .n64], mIs 0, .p, false⟩ -- CONSTH
  | 0x004 => some ⟨.plain (some 2) none (.any), tAll, mIs 0, .p, false⟩ -- STEER
  | 0x005 => some ⟨.plain (some 2) none (.any), tAll, mIs 0, .p, false⟩ -- MERGE
  | 0x006 => some ⟨.plain (some 3) none (.any), tAll, mIs 0, .p, false⟩ -- SELECT
  | 0x007 => some ⟨.plain (some 2) none (.any), tAll, mIs 0, .p, false⟩ -- NULLIFY
  | 0x008 => some ⟨.exit none, tNone, mAny, .e, false⟩ -- EXIT
  | 0x009 => some ⟨.exit none, tNone, mAny, .e, false⟩ -- CALL
  | 0x00A => some ⟨.exit (some true), tNone, mAny, .e, false⟩ -- RET
  | 0x00B => some ⟨.plain (some 1) none (.any), tNone, mIs 0, .e, true⟩ -- QUIT
  | 0x00C => some ⟨.plain (some 0) none (.any), [.n64], mIs 0, .p, false⟩ -- IDX
  | 0x00D => some ⟨.plain none (some (0, .z)) (.upTo 13), [.n32, .n64], mIs 0, .p, false⟩ -- SPR
  | 0x080 => some ⟨.plain (some 2) (some (1, .t)) (.any), tIN, mIs 0, .p, false⟩ -- ADD
  | 0x081 => some ⟨.plain (some 3) none (.any), tN, mIs 0, .p, false⟩ -- ADDC
  | 0x082 => some ⟨.plain (some 2) (some (1, .t)) (.any), tIN, mIs 0, .p, false⟩ -- SUB
  | 0x083 => some ⟨.plain (some 3) none (.any), tN, mIs 0, .p, false⟩ -- SUBB
  | 0x084 => some ⟨.plain (some 2) (some (1, .t)) (.any), tIN, mIs 0, .p, false⟩ -- ADDS
  | 0x085 => some ⟨.plain (some 2) (some (1, .t)) (.any), tIN, mIs 0, .p, false⟩ -- SUBS
  | 0x086 => some ⟨.plain (some 2) (some (1, .t)) (.any), tIN, mIs 0, .p, false⟩ -- MUL
  | 0x087 => some ⟨.plain (some 2) (some (1, .t)) (.any), tIN, mIs 0, .p, false⟩ -- MULH
  | 0x088 => some ⟨.plain (some 3) (some (2, .t)) (.any), tIN, mIs 0, .p, false⟩ -- MAD
  | 0x089 => some ⟨.plain (some 2) (some (1, .t)) (.any), tIN, mIs 0, .p, false⟩ -- MIN
  | 0x08A => some ⟨.plain (some 2) (some (1, .t)) (.any), tIN, mIs 0, .p, false⟩ -- MAX
  | 0x08B => some ⟨.plain (some 1) none (.any), tI, mIs 0, .p, false⟩ -- ABS
  | 0x08C => some ⟨.plain (some 1) none (.any), tIN, mIs 0, .p, false⟩ -- NEG
  | 0x08D => some ⟨.plain (some 2) (some (1, .t)) (.any), tINB, mIs 0, .p, false⟩ -- AND
  | 0x08E => some ⟨.plain (some 2) (some (1, .t)) (.any), tINB, mIs 0, .p, false⟩ -- OR
  | 0x08F => some ⟨.plain (some 2) (some (1, .t)) (.any), tINB, mIs 0, .p, false⟩ -- XOR
  | 0x090 => some ⟨.plain (some 2) (some (1, .t)) (.any), tINB, mIs 0, .p, false⟩ -- ANDN
  | 0x091 => some ⟨.plain (some 1) none (.any), tINB, mIs 0, .p, false⟩ -- NOT
  | 0x092 => some ⟨.plain (some 2) (some (1, .z)) (.belowW), tIN, mIs 0, .p, false⟩ -- SHL
  | 0x093 => some ⟨.plain (some 2) (some (1, .z)) (.belowW), tIN, mIs 0, .p, false⟩ -- SHR
  | 0x094 => some ⟨.plain (some 2) (some (1, .z)) (.belowW), tIN, mIs 0, .p, false⟩ -- SAR
  | 0x095 => some ⟨.plain (some 2) (some (1, .z)) (.belowW), tIN, mIs 0, .p, false⟩ -- ROT
  | 0x096 => some ⟨.plain (some 2) (some (1, .z)) (.bitField), tIN, mIs 0, .p, false⟩ -- BFX
  | 0x097 => some ⟨.plain (some 3) (some (2, .z)) (.bitField), tIN, mIs 0, .p, false⟩ -- BFI
  | 0x098 => some ⟨.plain (some 1) none (.any), tIN, mIs 0, .p, false⟩ -- POPC
  | 0x099 => some ⟨.plain (some 1) none (.any), tIN, mIs 0, .p, false⟩ -- CLZ
  | 0x09A => some ⟨.plain (some 1) none (.any), tIN, mIs 0, .p, false⟩ -- CTZ
  | 0x09B => some ⟨.plain (some 1) none (.any), tIN, mIs 0, .p, false⟩ -- BREV
  | 0x09C => some ⟨.plain (some 1) none (.any), tSwap, mIs 0, .p, false⟩ -- BSWAP
  | 0x09D => some ⟨.plain (some 2) (some (1, .t)) (.any), tIN, mUpTo 6, .p, false⟩ -- CMP
  | 0x09E => some ⟨.plain (some 2) none (.any), [.n64], mIs 0, .p, false⟩ -- CLMUL
  | 0x09F => some ⟨.plain (some 2) none (.any), [.n64], mIs 0, .p, false⟩ -- CLMULH
  | 0x0A0 => some ⟨.plain (some 3) (some (2, .s)) (.any), [.i64, .n64], mUpTo 7, .p, false⟩ -- LEA
  | 0x0A1 => some ⟨.plain (some 1) none (.any), [.n32, .n64], mUpTo 5, .p, false⟩ -- WIDF
  | 0x100 => some ⟨.plain (some 2) (some (1, .t)) (.any), tFP, mRnd, .p, false⟩ -- FADD
  | 0x101 => some ⟨.plain (some 2) (some (1, .t)) (.any), tFP, mRnd, .p, false⟩ -- FSUB
  | 0x102 => some ⟨.plain (some 2) (some (1, .t)) (.any), tFP, mRnd, .p, false⟩ -- FMUL
  | 0x103 => some ⟨.plain (some 3) (some (2, .t)) (.any), tFP, mRnd, .p, false⟩ -- FFMA
  | 0x104 => some ⟨.plain (some 2) (some (1, .t)) (.any), tFP, mIs 0, .p, false⟩ -- FMIN
  | 0x105 => some ⟨.plain (some 2) (some (1, .t)) (.any), tFP, mIs 0, .p, false⟩ -- FMAX
  | 0x106 => some ⟨.plain (some 1) none (.any), tFP, mIs 0, .p, false⟩ -- FABS
  | 0x107 => some ⟨.plain (some 1) none (.any), tFP, mIs 0, .p, false⟩ -- FNEG
  | 0x108 => some ⟨.plain (some 2) (some (1, .t)) (.any), tF, mUpTo 7, .p, false⟩ -- FCMP
  | 0x109 => some ⟨.plain (some 1) none (.any), [.f32], mIs 0, .p, false⟩ -- FRCP
  | 0x10A => some ⟨.plain (some 1) none (.any), [.f32], mIs 0, .p, false⟩ -- FRSQ
  | 0x10B => some ⟨.plain (some 1) none (.any), tF, mRnd, .p, false⟩ -- FSQRT
  | 0x10C => some ⟨.plain (some 1) none (.any), [.f32], mIs 0, .p, false⟩ -- FEXP2
  | 0x10D => some ⟨.plain (some 1) none (.any), [.f32], mIs 0, .p, false⟩ -- FLOG2
  | 0x10E => some ⟨.plain (some 1) none (.any), [.f32], mIs 0, .p, false⟩ -- FSINP
  | 0x10F => some ⟨.plain (some 1) none (.any), [.f32], mIs 0, .p, false⟩ -- FCOSP
  | 0x110 => some ⟨.plain (some 1) none (.any), tFP, mRnd, .p, false⟩ -- FRND
  | 0x111 => some ⟨.plain (some 1) none (.any), tF, mIs 0, .p, false⟩ -- FCLS
  | 0x112 => some ⟨.plain (some 2) (some (1, .s)) (.any), tF, mRnd, .p, false⟩ -- FSCL
  | 0x113 => some ⟨.plain (some 3) none (.any), tP, mRnd, .p, false⟩ -- FDOT2
  | 0x180 => some ⟨.plain (some 1) none (.any), tConst, mAny, .p, false⟩ -- CVT
  | 0x181 => some ⟨.plain (some 2) none (.any), tP, mRnd, .p, false⟩ -- PACK
  | 0x182 => some ⟨.plain (some 1) none (.any), tP, mIs 0, .p, false⟩ -- UNPK
  | 0x183 => some ⟨.plain (some 2) none (.any), [.b128], mIs 0, .e, false⟩ -- LQD
  | 0x184 => some ⟨.plain (some 2) none (.any), [.bf16, .f32, .bf16x2, .b128], mIs 15, .e, false⟩ -- SCLX
  | 0x1C0 => some ⟨.plain (some 3) none (.any), tV, mUpTo 3, .e, false⟩ -- SHFL
  | 0x1C1 => some ⟨.plain (some 2) none (.any), [.n32, .n64], mUpTo 3, .e, false⟩ -- VOTE
  | 0x1C2 => some ⟨.plain (some 2) none (.any), tINF, mUpTo 5, .e, false⟩ -- REDUX
  | 0x1C3 => some ⟨.plain (some 3) none (.any), tV, mIs 0, .e, false⟩ -- XSHFL
  | 0x1C4 => some ⟨.plain (some 1) none (.any), tNone, mUpTo 1, .e, false⟩ -- ELECT
  | 0x1C5 => some ⟨.plain (some 1) none (.any), tNone, mUpTo 1, .e, false⟩ -- MASK
  | 0x1C6 => some ⟨.exit (some false), tNone, mAny, .e, false⟩ -- REGANG
  | 0x1C7 => some ⟨.plain (some 1) none (.any), tNone, mBar, .e, true⟩ -- BAR
  | 0x1C8 => some ⟨.plain (some 1) none (.any), tNone, mBar, .e, true⟩ -- ARRV
  | 0x200 => some ⟨.mem [1] .load false, tAll, mIs 0, .e, false⟩ -- LD
  | 0x201 => some ⟨.mem [2] .store false, tAll, mIs 0, .s, false⟩ -- ST
  | 0x202 => some ⟨.mem [1] .load true, tAll, mIs 0, .e, false⟩ -- LDS
  | 0x203 => some ⟨.mem [2] .store true, tAll, mIs 0, .s, false⟩ -- STS
  | 0x204 => some ⟨.mem [0, 1] .load true, tAll, mIs 0, .e, false⟩ -- LDC
  | 0x205 => some ⟨.mem [1] .plain false, tNone, mUpTo 1, .p, true⟩ -- PREF
  | 0x206 => some ⟨.mem [2] .atomic false, tAtom, mIs 0, .s, false⟩ -- AADD
  | 0x207 => some ⟨.mem [2] .atomic false, [.f32], mIs 0, .s, false⟩ -- AFADD
  | 0x208 => some ⟨.mem [2] .atomic false, tAtom, mIs 0, .s, false⟩ -- AMIN
  | 0x209 => some ⟨.mem [2] .atomic false, tAtom, mIs 0, .s, false⟩ -- AMAX
  | 0x20A => some ⟨.mem [2] .atomic false, tAtom, mIs 0, .s, false⟩ -- AAND
  | 0x20B => some ⟨.mem [2] .atomic false, tAtom, mIs 0, .s, false⟩ -- AOR
  | 0x20C => some ⟨.mem [2] .atomic false, tAtom, mIs 0, .s, false⟩ -- AXOR
  | 0x20D => some ⟨.mem [2] .atomic false, tAtomF, mIs 0, .s, false⟩ -- AXCHG
  | 0x20E => some ⟨.mem [3] .atomic false, tAtomF, mIs 0, .s, false⟩ -- ACAS
  | 0x20F => some ⟨.plain (some 0) none (.any), tNone, mFence, .e, false⟩ -- FENCE
  | 0x210 => some ⟨.mem [0, 2] .plain true, [.i8, .n64], mUpTo 1, .s, false⟩ -- FLSIG
  | 0x211 => some ⟨.plain (some 2) (some (1, .z)) (.any), tNone, mIs 0, .e, false⟩ -- WIN
  | 0x212 => some ⟨.mem [1] .plain false, tNone, mUpTo 1, .e, false⟩ -- INVL
  | 0x213 => some ⟨.mem [1] .plain false, tNone, mIs 0, .e, false⟩ -- WBL
  | 0x214 => some ⟨.mem [1] .plain false, tNone, mIs 0, .e, false⟩ -- LLOCK
  | 0x215 => some ⟨.mem [1] .plain false, tNone, mIs 0, .e, false⟩ -- LTRY
  | 0x216 => some ⟨.mem [1] .plain false, tNone, mIs 0, .e, false⟩ -- LUNLK
  | 0x280 => some ⟨.plain (some 1) (some (0, .z)) (.claim), tNone, mIs 0, .e, false⟩ -- OCLAIM
  | 0x281 => some ⟨.plain (some 1) (some (0, .z)) (.upTo 35), tNone, mIs 0, .e, false⟩ -- ORLSE
  | 0x282 => some ⟨.mem [2] .plain false, tNone, mIs 0, .e, false⟩ -- OFILL
  | 0x283 => some ⟨.plain (some 3) (some (2, .z)) (.mma), [.i8, .f16, .bf16, .e4m3, .e5m2], mUpTo 1, .e, false⟩ -- MMA
  | 0x284 => some ⟨.plain (some 1) (some (0, .z)) (.upTo 3), tNone, mIs 0, .e, false⟩ -- ACCZ
  | 0x285 => some ⟨.mem [2] .plain false, [.i32, .f32], mUpTo 1, .e, false⟩ -- ACCFL
  | 0x286 => some ⟨.plain (some 2) none (.any), [.n32, .n64], mIs 0, .e, false⟩ -- ACCRD
  | 0x287 => some ⟨.plain (some 1) (some (0, .z)) (.upTo 35), tNone, mIs 0, .e, false⟩ -- MSTAT
  | 0x2C0 => some ⟨.plain (some 2) none (.any), tNone, mUpTo 2, .e, false⟩ -- QCFG
  | 0x2C1 => some ⟨.plain (some 1) (some (0, .z)) (.upTo 31), tNone, mIs 0, .e, false⟩ -- QLEN
  | 0x2C2 => some ⟨.plain (some 1) none (.any), tNone, mIs 0, .e, false⟩ -- CPYC
  | 0x2C3 => some ⟨.plain (some 1) none (.any), tNone, mIs 0, .e, false⟩ -- GTHC
  | 0x2C4 => some ⟨.plain (some 1) none (.any), tNone, mIs 0, .e, false⟩ -- COLC
  | 0x2C5 => some ⟨.plain (some 2) none (.any), tNone, mIs 0, .e, false⟩ -- SEND
  | 0x2C6 => some ⟨.plain (some 1) none (.any), tNone, mIs 0, .e, false⟩ -- DQPUSH
  | 0x2C7 => some ⟨.plain (some 0) none (.any), tNone, mIs 0, .e, false⟩ -- DQPOP
  | 0x2C8 => some ⟨.plain (some 1) (some (0, .z)) (.upTo 47), tNone, mIs 0, .e, false⟩ -- DQSTEAL
  | 0x2C9 => some ⟨.plain (some 2) none (.any), tNone, mIs 0, .e, false⟩ -- LNCH
  | 0x2CA => some ⟨.plain (some 2) none (.any), tNone, mIs 0, .e, false⟩ -- SIGNL
  | 0x300 => some ⟨.plain (some 2) none (.any), tNone, mUpTo 3, .e, false⟩ -- XMATCH
  | 0x301 => some ⟨.plain (some 1) (some (0, .z)) (.upTo 0x40), tNone, mIs 0, .e, false⟩ -- XCLR
  | 0x302 => some ⟨.plain (some 2) none (.any), tNone, mIs 0, .e, false⟩ -- XINJ
  | 0x303 => some ⟨.plain (some 2) none (.any), tNone, mIs 0, .e, false⟩ -- XEJECT
  | 0x304 => some ⟨.plain (some 1) (some (0, .z)) (.upTo 0x40), tNone, mIs 0, .e, false⟩ -- XCNT
  | 0x305 => some ⟨.plain (some 1) (some (0, .z)) (.upTo 63), tNone, mIs 0, .e, false⟩ -- XSWEEP
  | 0x306 => some ⟨.plain (some 1) (some (0, .z)) (.upTo 0x40), tNone, mIs 0, .e, false⟩ -- XSTAT
  | 0x340 => some ⟨.plain (some 2) none (.any), tNone, mIs 0, .e, false⟩ -- IPATCH
  | 0x341 => some ⟨.plain (some 2) none (.any), tNone, mIs 0, .e, false⟩ -- ISET
  | 0x342 => some ⟨.plain (some 1) (some (0, .z)) (.iget), tNone, mIs 0, .e, false⟩ -- IGET
  | 0x343 => some ⟨.plain (some 1) (some (0, .z)) (.istep), tNone, mIs 0, .e, false⟩ -- ISTEP
  | 0x344 => some ⟨.plain (some 1) (some (0, .z)) (.upTo 31), tNone, mIs 0, .e, false⟩ -- IRUN
  | 0x345 => some ⟨.plain (some 1) (some (0, .z)) (.upTo 31), tNone, mIs 0, .e, false⟩ -- IHALT
  | 0x346 => some ⟨.plain (some 1) none (.any), tNone, mIs 0, .e, false⟩ -- ISAVE
  | 0x347 => some ⟨.plain (some 1) none (.any), tNone, mIs 0, .e, false⟩ -- IREST
  | 0x348 => some ⟨.plain (some 2) none (.any), tNone, mIs 0, .e, false⟩ -- IOUT
  | 0x380 => some ⟨.plain (some 1) none (.any), tNone, mIs 0, .e, false⟩ -- RTCFG
  | 0x381 => some ⟨.plain (some 1) (some (0, .z)) (.upTo 0x1FF), tNone, mIs 0, .e, false⟩ -- RTSWAP
  | 0x382 => some ⟨.plain (some 2) none (.any), tNone, mIs 0, .e, false⟩ -- RTSEND
  | 0x383 => some ⟨.plain (some 2) none (.any), tNone, mIs 0, .e, false⟩ -- QSC
  | 0x384 => some ⟨.plain (some 2) none (.any), tNone, mIs 0, .e, false⟩ -- EVCFG
  | 0x385 => some ⟨.plain (some 1) (some (0, .z)) (.upTo 63), tNone, mUpTo 1, .e, false⟩ -- EVARM
  | 0x386 => some ⟨.plain (some 1) (some (0, .z)) (.upTo 3), tNone, mIs 0, .e, false⟩ -- EVFIRE
  | 0x3C0 => some ⟨.plain (some 1) (some (0, .z)) (.upTo 0xFFF), tNone, mIs 0, .e, false⟩ -- CNTRD
  | 0x3C1 => some ⟨.plain (some 2) none (.any), tNone, mIs 0, .e, false⟩ -- CNTSET
  | 0x3C2 => some ⟨.plain (some 0) none (.any), tNone, mIs 0, .e, false⟩ -- TIME
  | 0x3C3 => some ⟨.plain (some 1) (some (0, .z)) (.upTo 6), tNone, mIs 0, .e, false⟩ -- ENRD
  | 0x3C4 => some ⟨.plain (some 1) none (.any), tNone, mIs 0, .e, false⟩ -- ENRSV
  | 0x3C5 => some ⟨.plain (some 1) (some (0, .z)) (.upTo 0xFFFF), tNone, mIs 0, .e, false⟩ -- TRAP
  | 0x3C6 => some ⟨.plain (some 0) none (.any), tNone, mIs 0, .e, false⟩ -- BRK
  | 0x3C7 => some ⟨.plain (some 1) (some (0, .z)) (.upTo 0xFFFF), tNone, mIs 0, .e, false⟩ -- HCALL
  | 0x3C8 => some ⟨.plain (some 0) none (.any), tNone, mIs 0, .e, false⟩ -- TRET
  | _ => none

/-! ## An instruction's fields -/

/-- The fields below opcode and modifier. -/
inductive Body where
  | plain (w : Plain)
  | mem (w : MemW)
  | fan (w : Fan)
  | exit (w : ExitW)
  deriving DecidableEq, Repr

/-- Opcode, modifier and the rest of an instruction word. -/
structure Parts where
  op : Nat
  mod : BitVec 4
  body : Body
  deriving DecidableEq, Repr

/-- The fields that encode an instruction; an event has none. -/
def Instr.parts : Instr → Option Parts
  | .nop w => some ⟨0x000, 0, .plain w⟩
  | .mov w => some ⟨0x001, 0, .fan w⟩
  | .const x w => some ⟨0x002, x, .plain w⟩
  | .consth w => some ⟨0x003, 0, .plain w⟩
  | .steer w => some ⟨0x004, 0, .plain w⟩
  | .merge w => some ⟨0x005, 0, .plain w⟩
  | .select w => some ⟨0x006, 0, .plain w⟩
  | .nullify w => some ⟨0x007, 0, .plain w⟩
  | .exit w => some ⟨0x008, 0, .exit w⟩
  | .call w => some ⟨0x009, 0, .exit w⟩
  | .ret w => some ⟨0x00A, 0, .exit w⟩
  | .quit w => some ⟨0x00B, 0, .plain w⟩
  | .idx w => some ⟨0x00C, 0, .plain w⟩
  | .spr w => some ⟨0x00D, 0, .plain w⟩
  | .add w => some ⟨0x080, 0, .plain w⟩
  | .sub w => some ⟨0x082, 0, .plain w⟩
  | .adds w => some ⟨0x084, 0, .plain w⟩
  | .subs w => some ⟨0x085, 0, .plain w⟩
  | .addc w => some ⟨0x081, 0, .plain w⟩
  | .subb w => some ⟨0x083, 0, .plain w⟩
  | .mul w => some ⟨0x086, 0, .plain w⟩
  | .mulh w => some ⟨0x087, 0, .plain w⟩
  | .mad w => some ⟨0x088, 0, .plain w⟩
  | .min w => some ⟨0x089, 0, .plain w⟩
  | .max w => some ⟨0x08A, 0, .plain w⟩
  | .abs w => some ⟨0x08B, 0, .plain w⟩
  | .neg w => some ⟨0x08C, 0, .plain w⟩
  | .and w => some ⟨0x08D, 0, .plain w⟩
  | .or w => some ⟨0x08E, 0, .plain w⟩
  | .xor w => some ⟨0x08F, 0, .plain w⟩
  | .andn w => some ⟨0x090, 0, .plain w⟩
  | .not w => some ⟨0x091, 0, .plain w⟩
  | .shl w => some ⟨0x092, 0, .plain w⟩
  | .shr w => some ⟨0x093, 0, .plain w⟩
  | .sar w => some ⟨0x094, 0, .plain w⟩
  | .rot w => some ⟨0x095, 0, .plain w⟩
  | .bfx w => some ⟨0x096, 0, .plain w⟩
  | .bfi w => some ⟨0x097, 0, .plain w⟩
  | .popc w => some ⟨0x098, 0, .plain w⟩
  | .clz w => some ⟨0x099, 0, .plain w⟩
  | .ctz w => some ⟨0x09A, 0, .plain w⟩
  | .brev w => some ⟨0x09B, 0, .plain w⟩
  | .bswap w => some ⟨0x09C, 0, .plain w⟩
  | .cmp c w => some ⟨0x09D, c.bits, .plain w⟩
  | .clmul w => some ⟨0x09E, 0, .plain w⟩
  | .clmulh w => some ⟨0x09F, 0, .plain w⟩
  | .lea x w => some ⟨0x0A0, x.setWidth 4, .plain w⟩
  | .widf x w => some ⟨0x0A1, x.setWidth 4, .plain w⟩
  | .fadd rm w => some ⟨0x100, rm.bits, .plain w⟩
  | .fsub rm w => some ⟨0x101, rm.bits, .plain w⟩
  | .fmul rm w => some ⟨0x102, rm.bits, .plain w⟩
  | .ffma rm w => some ⟨0x103, rm.bits, .plain w⟩
  | .fmin w => some ⟨0x104, 0, .plain w⟩
  | .fmax w => some ⟨0x105, 0, .plain w⟩
  | .fabs w => some ⟨0x106, 0, .plain w⟩
  | .fneg w => some ⟨0x107, 0, .plain w⟩
  | .fcmp c w => some ⟨0x108, c.bits, .plain w⟩
  | .frcp w => some ⟨0x109, 0, .plain w⟩
  | .frsq w => some ⟨0x10A, 0, .plain w⟩
  | .fexp2 w => some ⟨0x10C, 0, .plain w⟩
  | .flog2 w => some ⟨0x10D, 0, .plain w⟩
  | .fsinp w => some ⟨0x10E, 0, .plain w⟩
  | .fcosp w => some ⟨0x10F, 0, .plain w⟩
  | .fsqrt rm w => some ⟨0x10B, rm.bits, .plain w⟩
  | .frnd rm w => some ⟨0x110, rm.bits, .plain w⟩
  | .fcls w => some ⟨0x111, 0, .plain w⟩
  | .fscl rm w => some ⟨0x112, rm.bits, .plain w⟩
  | .fdot2 rm w => some ⟨0x113, rm.bits, .plain w⟩
  | .cvt x w => some ⟨0x180, x.bits, .plain w⟩
  | .pack rm w => some ⟨0x181, rm.bits, .plain w⟩
  | .unpk w => some ⟨0x182, 0, .plain w⟩
  | .lqd w => some ⟨0x183, 0, .plain w⟩
  | .sclx w => some ⟨0x184, 15, .plain w⟩
  | .shfl x w => some ⟨0x1C0, x.bits, .plain w⟩
  | .vote x w => some ⟨0x1C1, x.bits, .plain w⟩
  | .redux x w => some ⟨0x1C2, x.bits, .plain w⟩
  | .elect x w => some ⟨0x1C4, bit x, .plain w⟩
  | .xshfl w => some ⟨0x1C3, 0, .plain w⟩
  | .mask x w => some ⟨0x1C5, bit x, .plain w⟩
  | .regang w => some ⟨0x1C6, 0, .exit w⟩
  | .bar x w => some ⟨0x1C7, x, .plain w⟩
  | .arrv x w => some ⟨0x1C8, x, .plain w⟩
  | .ld w => some ⟨0x200, 0, .mem w⟩
  | .lds w => some ⟨0x202, 0, .mem w⟩
  | .ldc w => some ⟨0x204, 0, .mem w⟩
  | .st w => some ⟨0x201, 0, .mem w⟩
  | .sts w => some ⟨0x203, 0, .mem w⟩
  | .pref x w => some ⟨0x205, bit x, .mem w⟩
  | .aadd w => some ⟨0x206, 0, .mem w⟩
  | .afadd w => some ⟨0x207, 0, .mem w⟩
  | .amin w => some ⟨0x208, 0, .mem w⟩
  | .amax w => some ⟨0x209, 0, .mem w⟩
  | .aand w => some ⟨0x20A, 0, .mem w⟩
  | .aor w => some ⟨0x20B, 0, .mem w⟩
  | .axor w => some ⟨0x20C, 0, .mem w⟩
  | .axchg w => some ⟨0x20D, 0, .mem w⟩
  | .acas w => some ⟨0x20E, 0, .mem w⟩
  | .fence x w => some ⟨0x20F, x.setWidth 4, .plain w⟩
  | .flsig x w => some ⟨0x210, bit x, .mem w⟩
  | .win w => some ⟨0x211, 0, .plain w⟩
  | .invl x w => some ⟨0x212, bit x, .mem w⟩
  | .wbl w => some ⟨0x213, 0, .mem w⟩
  | .llock w => some ⟨0x214, 0, .mem w⟩
  | .ltry w => some ⟨0x215, 0, .mem w⟩
  | .lunlk w => some ⟨0x216, 0, .mem w⟩
  | .oclaim w => some ⟨0x280, 0, .plain w⟩
  | .orlse w => some ⟨0x281, 0, .plain w⟩
  | .ofill w => some ⟨0x282, 0, .mem w⟩
  | .mma x w => some ⟨0x283, bit x, .plain w⟩
  | .accz w => some ⟨0x284, 0, .plain w⟩
  | .accfl x w => some ⟨0x285, bit x, .mem w⟩
  | .accrd w => some ⟨0x286, 0, .plain w⟩
  | .mstat w => some ⟨0x287, 0, .plain w⟩
  | .qcfgBind w => some ⟨0x2C0, 0, .plain w⟩
  | .qcfgDeq w => some ⟨0x2C0, 1, .plain w⟩
  | .qcfgUndeq w => some ⟨0x2C0, 2, .plain w⟩
  | .qlen w => some ⟨0x2C1, 0, .plain w⟩
  | .cpyc w => some ⟨0x2C2, 0, .plain w⟩
  | .gthc w => some ⟨0x2C3, 0, .plain w⟩
  | .colc w => some ⟨0x2C4, 0, .plain w⟩
  | .send w => some ⟨0x2C5, 0, .plain w⟩
  | .dqpush w => some ⟨0x2C6, 0, .plain w⟩
  | .dqpop w => some ⟨0x2C7, 0, .plain w⟩
  | .dqsteal w => some ⟨0x2C8, 0, .plain w⟩
  | .lnch w => some ⟨0x2C9, 0, .plain w⟩
  | .signl w => some ⟨0x2CA, 0, .plain w⟩
  | .xmatchOpen w => some ⟨0x300, 0, .plain w⟩
  | .xmatchRule w => some ⟨0x300, 1, .plain w⟩
  | .xmatchJoin w => some ⟨0x300, 2, .plain w⟩
  | .xmatchStart w => some ⟨0x300, 3, .plain w⟩
  | .xclr w => some ⟨0x301, 0, .plain w⟩
  | .xinj w => some ⟨0x302, 0, .plain w⟩
  | .xeject w => some ⟨0x303, 0, .plain w⟩
  | .xcnt w => some ⟨0x304, 0, .plain w⟩
  | .xsweep w => some ⟨0x305, 0, .plain w⟩
  | .xstat w => some ⟨0x306, 0, .plain w⟩
  | .ipatch w => some ⟨0x340, 0, .plain w⟩
  | .iset w => some ⟨0x341, 0, .plain w⟩
  | .iget w => some ⟨0x342, 0, .plain w⟩
  | .istep w => some ⟨0x343, 0, .plain w⟩
  | .irun w => some ⟨0x344, 0, .plain w⟩
  | .ihalt w => some ⟨0x345, 0, .plain w⟩
  | .isave w => some ⟨0x346, 0, .plain w⟩
  | .irest w => some ⟨0x347, 0, .plain w⟩
  | .iout w => some ⟨0x348, 0, .plain w⟩
  | .rtcfg w => some ⟨0x380, 0, .plain w⟩
  | .rtswap w => some ⟨0x381, 0, .plain w⟩
  | .rtsend w => some ⟨0x382, 0, .plain w⟩
  | .qsc w => some ⟨0x383, 0, .plain w⟩
  | .evcfg w => some ⟨0x384, 0, .plain w⟩
  | .evarmArm w => some ⟨0x385, 0, .plain w⟩
  | .evarmWait w => some ⟨0x385, 1, .plain w⟩
  | .evfire w => some ⟨0x386, 0, .plain w⟩
  | .cntrd w => some ⟨0x3C0, 0, .plain w⟩
  | .cntset w => some ⟨0x3C1, 0, .plain w⟩
  | .time w => some ⟨0x3C2, 0, .plain w⟩
  | .enrd w => some ⟨0x3C3, 0, .plain w⟩
  | .enrsv w => some ⟨0x3C4, 0, .plain w⟩
  | .trap w => some ⟨0x3C5, 0, .plain w⟩
  | .brk w => some ⟨0x3C6, 0, .plain w⟩
  | .hcall w => some ⟨0x3C7, 0, .plain w⟩
  | .tret w => some ⟨0x3C8, 0, .plain w⟩
  | _ => none

/-- The instruction of a plain or immediate word. -/
def buildPlain (op : Nat) (m : BitVec 4) (w : Plain) : Option Instr :=
  match op with
  | 0x000 => some (.nop w)
  | 0x002 => (some m).map (.const · w)
  | 0x003 => some (.consth w)
  | 0x004 => some (.steer w)
  | 0x005 => some (.merge w)
  | 0x006 => some (.select w)
  | 0x007 => some (.nullify w)
  | 0x00B => some (.quit w)
  | 0x00C => some (.idx w)
  | 0x00D => some (.spr w)
  | 0x080 => some (.add w)
  | 0x082 => some (.sub w)
  | 0x084 => some (.adds w)
  | 0x085 => some (.subs w)
  | 0x081 => some (.addc w)
  | 0x083 => some (.subb w)
  | 0x086 => some (.mul w)
  | 0x087 => some (.mulh w)
  | 0x088 => some (.mad w)
  | 0x089 => some (.min w)
  | 0x08A => some (.max w)
  | 0x08B => some (.abs w)
  | 0x08C => some (.neg w)
  | 0x08D => some (.and w)
  | 0x08E => some (.or w)
  | 0x08F => some (.xor w)
  | 0x090 => some (.andn w)
  | 0x091 => some (.not w)
  | 0x092 => some (.shl w)
  | 0x093 => some (.shr w)
  | 0x094 => some (.sar w)
  | 0x095 => some (.rot w)
  | 0x096 => some (.bfx w)
  | 0x097 => some (.bfi w)
  | 0x098 => some (.popc w)
  | 0x099 => some (.clz w)
  | 0x09A => some (.ctz w)
  | 0x09B => some (.brev w)
  | 0x09C => some (.bswap w)
  | 0x09D => (ICond.ofBits m).map (.cmp · w)
  | 0x09E => some (.clmul w)
  | 0x09F => some (.clmulh w)
  | 0x0A0 => (some (m.setWidth 3)).map (.lea · w)
  | 0x0A1 => (some (m.setWidth 3)).map (.widf · w)
  | 0x100 => (Rnd.ofBits m).map (.fadd · w)
  | 0x101 => (Rnd.ofBits m).map (.fsub · w)
  | 0x102 => (Rnd.ofBits m).map (.fmul · w)
  | 0x103 => (Rnd.ofBits m).map (.ffma · w)
  | 0x104 => some (.fmin w)
  | 0x105 => some (.fmax w)
  | 0x106 => some (.fabs w)
  | 0x107 => some (.fneg w)
  | 0x108 => (FCond.ofBits m).map (.fcmp · w)
  | 0x109 => some (.frcp w)
  | 0x10A => some (.frsq w)
  | 0x10C => some (.fexp2 w)
  | 0x10D => some (.flog2 w)
  | 0x10E => some (.fsinp w)
  | 0x10F => some (.fcosp w)
  | 0x10B => (Rnd.ofBits m).map (.fsqrt · w)
  | 0x110 => (Rnd.ofBits m).map (.frnd · w)
  | 0x111 => some (.fcls w)
  | 0x112 => (Rnd.ofBits m).map (.fscl · w)
  | 0x113 => (Rnd.ofBits m).map (.fdot2 · w)
  | 0x180 => (some (SrcFmt.ofBits m)).map (.cvt · w)
  | 0x181 => (Rnd.ofBits m).map (.pack · w)
  | 0x182 => some (.unpk w)
  | 0x183 => some (.lqd w)
  | 0x184 => some (.sclx w)
  | 0x1C0 => (ShflMode.ofBits m).map (.shfl · w)
  | 0x1C1 => (VoteMode.ofBits m).map (.vote · w)
  | 0x1C2 => (RedMode.ofBits m).map (.redux · w)
  | 0x1C4 => (some (m == 1)).map (.elect · w)
  | 0x1C3 => some (.xshfl w)
  | 0x1C5 => (some (m == 1)).map (.mask · w)
  | 0x1C7 => (some m).map (.bar · w)
  | 0x1C8 => (some m).map (.arrv · w)
  | 0x20F => (some (m.setWidth 3)).map (.fence · w)
  | 0x211 => some (.win w)
  | 0x280 => some (.oclaim w)
  | 0x281 => some (.orlse w)
  | 0x283 => (some (m == 1)).map (.mma · w)
  | 0x284 => some (.accz w)
  | 0x286 => some (.accrd w)
  | 0x287 => some (.mstat w)
  | 0x2C1 => some (.qlen w)
  | 0x2C2 => some (.cpyc w)
  | 0x2C3 => some (.gthc w)
  | 0x2C4 => some (.colc w)
  | 0x2C5 => some (.send w)
  | 0x2C6 => some (.dqpush w)
  | 0x2C7 => some (.dqpop w)
  | 0x2C8 => some (.dqsteal w)
  | 0x2C9 => some (.lnch w)
  | 0x2CA => some (.signl w)
  | 0x301 => some (.xclr w)
  | 0x302 => some (.xinj w)
  | 0x303 => some (.xeject w)
  | 0x304 => some (.xcnt w)
  | 0x305 => some (.xsweep w)
  | 0x306 => some (.xstat w)
  | 0x340 => some (.ipatch w)
  | 0x341 => some (.iset w)
  | 0x342 => some (.iget w)
  | 0x343 => some (.istep w)
  | 0x344 => some (.irun w)
  | 0x345 => some (.ihalt w)
  | 0x346 => some (.isave w)
  | 0x347 => some (.irest w)
  | 0x348 => some (.iout w)
  | 0x380 => some (.rtcfg w)
  | 0x381 => some (.rtswap w)
  | 0x382 => some (.rtsend w)
  | 0x383 => some (.qsc w)
  | 0x384 => some (.evcfg w)
  | 0x386 => some (.evfire w)
  | 0x3C0 => some (.cntrd w)
  | 0x3C1 => some (.cntset w)
  | 0x3C2 => some (.time w)
  | 0x3C3 => some (.enrd w)
  | 0x3C4 => some (.enrsv w)
  | 0x3C5 => some (.trap w)
  | 0x3C6 => some (.brk w)
  | 0x3C7 => some (.hcall w)
  | 0x3C8 => some (.tret w)
  | 0x2C0 =>
    match m with
    | 0 => some (.qcfgBind w)
    | 1 => some (.qcfgDeq w)
    | 2 => some (.qcfgUndeq w)
    | _ => none
  | 0x300 =>
    match m with
    | 0 => some (.xmatchOpen w)
    | 1 => some (.xmatchRule w)
    | 2 => some (.xmatchJoin w)
    | 3 => some (.xmatchStart w)
    | _ => none
  | 0x385 =>
    match m with
    | 0 => some (.evarmArm w)
    | 1 => some (.evarmWait w)
    | _ => none
  | _ => none

/-- The instruction of a memory word. -/
def buildMem (op : Nat) (m : BitVec 4) (w : MemW) : Option Instr :=
  match op with
  | 0x200 => some (.ld w)
  | 0x202 => some (.lds w)
  | 0x204 => some (.ldc w)
  | 0x201 => some (.st w)
  | 0x203 => some (.sts w)
  | 0x205 => (some (m == 1)).map (.pref · w)
  | 0x206 => some (.aadd w)
  | 0x207 => some (.afadd w)
  | 0x208 => some (.amin w)
  | 0x209 => some (.amax w)
  | 0x20A => some (.aand w)
  | 0x20B => some (.aor w)
  | 0x20C => some (.axor w)
  | 0x20D => some (.axchg w)
  | 0x20E => some (.acas w)
  | 0x210 => (some (m == 1)).map (.flsig · w)
  | 0x212 => (some (m == 1)).map (.invl · w)
  | 0x213 => some (.wbl w)
  | 0x214 => some (.llock w)
  | 0x215 => some (.ltry w)
  | 0x216 => some (.lunlk w)
  | 0x282 => some (.ofill w)
  | 0x285 => (some (m == 1)).map (.accfl · w)
  | _ => none

/-- The instruction of an exit word. -/
def buildExit (op : Nat) (w : ExitW) : Option Instr :=
  match op with
  | 0x008 => some (.exit w)
  | 0x009 => some (.call w)
  | 0x00A => some (.ret w)
  | 0x1C6 => some (.regang w)
  | _ => none

/-- The instruction that fields encode. -/
def Parts.build (p : Parts) : Option Instr :=
  match p.body with
  | .plain w => buildPlain p.op p.mod w
  | .mem w => buildMem p.op p.mod w
  | .fan w => if p.op = 0x001 then some (.mov w) else none
  | .exit w => buildExit p.op w

/-- What the tables say of an instruction. -/
def Instr.spec (i : Instr) : Option OpSpec := i.parts.bind fun p => opSpec p.op

/-! ## Immediates -/

/-- Sign-extension of the 28-bit immediate. -/
def immS (n : BitVec 28) : Int := n.toInt

/-- An immediate of kind t lies in the type's range and the type takes one (R73). -/
def immTOk (t : Ty) (n : BitVec 28) : Bool :=
  if t.signed then -(2 ^ (t.width - 1) : Int) ≤ immS n && immS n < (2 ^ (t.width - 1) : Int)
  else if t.unsigned then n.toNat < 2 ^ t.width
  else match t with
    | .f32 => true
    | .f16 | .bf16 => n.toNat < 2 ^ 16
    | _ => false

/-- The operand value of an immediate (R73), zero above its width. -/
def immValue (k : ImmKind) (t : Ty) (n : BitVec 28) : Val :=
  match k with
  | .t =>
    if t.signed then BitVec.ofNat 128 (BitVec.ofInt t.width (immS n)).toNat
    else if t = .f32 then BitVec.ofNat 128 (n.toNat * 16)
    else BitVec.ofNat 128 n.toNat
  | .s => BitVec.ofNat 128 (BitVec.ofInt 64 (immS n)).toNat
  | _ => BitVec.ofNat 128 n.toNat

/-- The value of CONST before reduction: X × 2^(4 × modifier) (R74). -/
def constExact (t : Ty) (m : BitVec 4) (n : BitVec 28) : Int :=
  (if t.signed then immS n else (n.toNat : Int)) * 2 ^ (4 * m.toNat)

/-- The bits shifted past the type's width are zero, or copies of the sign for an i type (R74). -/
def constOk (t : Ty) (m : BitVec 4) (n : BitVec 28) : Bool :=
  let x := constExact t m n
  if t.signed then -(2 ^ (t.width - 1) : Int) ≤ x && x < (2 ^ (t.width - 1) : Int)
  else x < (2 ^ t.width : Int) && (!(t = .f16 || t = .bf16) || n.toNat < 2 ^ 16)

/-- An entry's own limit on its immediate. -/
def ImmLimit.ok (l : ImmLimit) (t : Ty) (n : BitVec 28) : Bool :=
  let v := n.toNat
  match l with
  | .any => true
  | .upTo k => v ≤ k
  | .belowW => v < t.width
  | .bitField => v < 2 ^ 15 && !v.testBit 7
  | .claim => v ≤ 35 || v == 0x3E || v == 0x3F
  | .iget =>
    let cls := v / 2 ^ 12
    let idx := v % 2 ^ 9
    v < 2 ^ 16 && v / 2 ^ 9 % 8 == 0 &&
      (if cls ≤ 4 then idx < 384
       else if cls == 8 || cls == 9 || cls == 10 || cls == 12 then idx < 4
       else if cls == 11 then idx < 8
       else cls == 15 && idx == 0)
  | .istep => v / 4 % 64 == 0
  | .mma =>
    v / 4 % 64 == 0 && v < 2 ^ 15 &&
      v / 2 ^ 8 < (if t = .f16 || t = .bf16 then 64 else 128)

/-! ## Static checks of one word -/

/-- Why a word is not an instruction. All but the first fault BLOCK_FORMAT (R82). -/
inductive DecErr where
  | opcodeUndef | badType | badModifier | badCount | badReserved | badImmediate | badTarget | badMemory | badExit
  deriving DecidableEq, Repr

/-- A target that a byte can carry: 0xFF is the discard target, never write entry 63 (R70). -/
def Target.ok : Target → Bool
  | .out n => n != 63
  | _ => true

/-- CVT's combinations (R178, R179): e8m0 only to a plain float, packed only with packed. -/
def cvtOk (dst : Ty) (src : SrcFmt) : Bool :=
  match src with
  | .e8m0 => !dst.signed && !dst.unsigned && !(dst = .f16x2 || dst = .bf16x2)
  | .ty s => (dst = .f16x2 || dst = .bf16x2) == (s = .f16x2 || s = .bf16x2)

/-- Conditions that an entry puts on fields together: CVT R179, VOTE R191, REDUX R185, MMA R263, CONST R74, EVARM R367. -/
def plainExtra (op : Nat) (m : BitVec 4) (w : Plain) : Bool :=
  match op with
  | 0x180 => cvtOk w.ty (SrcFmt.ofBits m)
  | 0x1C1 => m != 2 || w.ty = .n64
  | 0x1C2 => m.toNat ≤ 2 || w.ty.signed || w.ty.unsigned
  | 0x283 => m == 0 || w.ty = .e4m3 || w.ty = .e5m2
  | 0x002 => match w.imm with
    | some n => constOk w.ty m n
    | none => false
  | 0x385 => match w.imm with
    | some n => if m == 0 then n.toNat / 16 != 3 else n.toNat < 16
    | none => true
  | _ => true

/-- The checks of R71 to R74, R77 and R78 on a plain or immediate word. -/
def checkPlain (s : OpSpec) (op : Nat) (m : BitVec 4) (w : Plain) : Except DecErr Unit :=
  match s.fam with
  | .plain p im lim =>
    if !s.tys.contains w.ty then .error .badType
    else if !s.mod.ok m then .error .badModifier
    else if !(w.ta.ok && w.tb.ok) || (s.nul && !(w.ta = .nul && w.tb = .nul)) then .error .badTarget
    else match w.imm, im with
      | none, _ => if p.isNone then .error .badCount else if plainExtra op m w then .ok () else .error .badModifier
      | some _, none => .error .badCount
      | some n, some (_, k) =>
        if (k = .t && !immTOk w.ty n) || !lim.ok w.ty n then .error .badImmediate
        else if plainExtra op m w then .ok () else .error .badImmediate
  | _ => .error .badCount

/-- The checks of R75 and R239 on a memory word. -/
def checkMem (s : OpSpec) (op : Nat) (m : BitVec 4) (w : MemW) : Except DecErr Unit :=
  match s.fam with
  | .mem counts k noWin =>
    if !s.tys.contains w.ty then .error .badType
    else if !s.mod.ok m then .error .badModifier
    else if !counts.contains w.count.toNat then .error .badCount
    else if !(w.ta.ok && w.tb.ok) || (s.nul && !(w.ta = .nul && w.tb = .nul)) then .error .badTarget
    else if 2 ≤ w.order.toNat && 2 ≤ w.scope.toNat then .error .badMemory
    else if k = .load && 2 ≤ w.order.toNat then .error .badMemory
    else if k = .store && w.order.toNat % 2 == 1 then .error .badMemory
    else if k = .plain && w.order != 0 then .error .badMemory
    else if noWin && w.win != 15 then .error .badMemory
    else if op = 0x210 && (if w.count = 0 then m != 0 || w.off != 0 || w.ty != .i8 else w.ty != .n64) then
      .error .badMemory
    else .ok ()
  | _ => .error .badCount

/-- The checks of R71, R77 on a fan-out word. -/
def checkFan (s : OpSpec) (m : BitVec 4) (w : Fan) : Except DecErr Unit :=
  match s.fam with
  | .fan =>
    if !s.tys.contains w.ty then .error .badType
    else if !s.mod.ok m then .error .badModifier
    else if !(w.ta.ok && w.tb.ok && w.tc.ok && w.td.ok) then .error .badTarget
    else .ok ()
  | _ => .error .badCount

/-- The checks of R76 on an exit word. -/
def checkExit (s : OpSpec) (w : ExitW) : Except DecErr Unit :=
  match s.fam with
  | .exit ind =>
    if w.indirect && w.off != 0 then .error .badExit
    else match ind with
      | some b => if w.indirect = b then .ok () else .error .badExit
      | none => .ok ()
  | _ => .error .badCount

/-- The static checks of one word (R82 step 6). -/
def Parts.check (p : Parts) : Except DecErr Unit :=
  match opSpec p.op with
  | none => .error .opcodeUndef
  | some s =>
    match p.body with
    | .plain w => checkPlain s p.op p.mod w
    | .mem w => checkMem s p.op p.mod w
    | .fan w => checkFan s p.mod w
    | .exit w => checkExit s w

end Sys2Proof
end

