-- ==== Sys2Proof/WellFormed.lean ====
section
/-! DEFINITION. Well-formed instructions: an instruction word's static checks (R71 to R78, step 6 of R82), and the
ranges of an event's arguments (dies R9, cores R10, rings R301, ports R9, launch queues R30). -/

namespace Sys2Proof

/-- A hob die: identifiers 0x8 to 0xB numbered 0 to 3 (R9). -/
def dieOk (d : Nat) : Bool := d < 4

/-- A core of the package: 48 a die (R10). -/
def coreOk (c : Nat) : Bool := c < 192

/-- A strand-table entry of a core. -/
def entryOk (core entry : Nat) : Bool := coreOk core && entry < 256

/-- A ring of a die, three each (R301). -/
def ringOk (d r : Nat) : Bool := dieOk d && r < 3

/-- A member position of a ring, sixteen each (R301). -/
def memberOk (d r p : Nat) : Bool := ringOk d r && p < 16

/-- The bytes of a host access lie in the physical address space (R203). -/
def hostOk (pa n : Nat) : Bool := pa + n ≤ 2 ^ 52

/-- The site of an ECC error names a part of the package. -/
def ErrSite.ok : ErrSite → Bool
  | .sector pa => pa < 2 ^ 52
  | .l1 c pa => coreOk c && pa < 2 ^ 52
  | .copy d pa | .decoded d pa => dieOk d && pa < 2 ^ 52
  | .pkg pa => pa < 2 ^ 52
  | .scratch _ off => off < 2 ^ 23
  | .core c => coreOk c
  | .die d => dieOk d

/-- The arguments of an event lie in their ranges; an instruction word is judged by `Parts.check` instead. The requests
QUEUE_DESC and HEAT_WINDOW take any values: those out of range are answered INVALID (R404). -/
def Instr.eventOk : Instr → Bool
  | .hostMemWrite pa bs => hostOk pa bs.length
  | .hostMemRead pa n => hostOk pa n
  | .launchParse q => q < 64
  | .workgroupPlace d | .dieSplit d | .thermalThrottle d | .thermalRecover d | .eventRecordOffer d
  | .dieState d _ | .warmReset d _ => dieOk d
  | .blockFire c e | .blockCommit c e | .faultTake c e | .blockStarvedDrain c e | .strandResume c e => entryOk c e
  | .strandRedirect c e _ => entryOk c e
  | .evarmWaitTimeout c e i => entryOk c e && i < 64
  | .barTimeout _ b => 1 ≤ b && b ≤ 15
  | .pageWalk c _ va => coreOk c && va < 2 ^ 52
  | .probeAct d _ | .xshflTimeout d _ | .regionSwap d _ => dieOk d
  | .copyJobStart c | .engineRecordDrain c | .crossbarThreshold c | .termFire c => coreOk c
  | .copyJobComplete c _ | .matrixCommandStart c _ | .matrixCommandComplete c _ | .patchJob c _ | .isaveJob c _
  | .irestJob c _ | .rtcfgJob c _ => coreOk c
  | .ringStart d r | .ringTickEnd d r | .ringCompletionRecord d r | .ringIdle d r => ringOk d r
  | .taskSpawn d r p k | .taskPairFree d r p k => memberOk d r p && k < 2
  | .ringLapLimit d r n => ringOk d r && n < 64
  | .sweepFetchComplete d r k => ringOk d r && k < 32
  | .taskGroupReturn d r p => memberOk d r p
  | .integratorStep c _ => coreOk c
  | .cellServeKey d k | .cellTimeout d k | .drainTokenPass d k => dieOk d && k < 1024
  | .configTokenApply d k i => dieOk d && k < 1024 && i < 4
  | .crossbarTimerExpiry c t => coreOk c && t < 4
  | .linkFlitCrcFail p pa => p < 12 && pa < 2 ^ 52
  | .linkDown p => p < 12
  | .formatWindowWrite n _ => n < 16
  | .translationRootWrite c r => c < 4096 && (match r with | some a => a < 2 ^ 52 | none => true)
  | .uncorrectableError e | .correctableError e => e.ok
  | .cxlCacheHostSnoop l _ => l < 2 ^ 52
  | _ => true

/-- CVT's source is e8m0 or a type other than b128, whose code stands for e8m0 (R78). -/
def Instr.srcOk : Instr → Bool
  | .cvt x _ => x != .ty .b128
  | _ => true

/-- An instruction that the encoding admits, or an event with arguments in range. -/
def Instr.wf (i : Instr) : Bool :=
  i.srcOk && match i.parts with
  | some p => match p.check with
    | .ok _ => true
    | .error _ => false
  | none => i.eventOk

end Sys2Proof
end

