-- ==== Sys2Proof/Decode.lean ====
section
/-! DEFINITION. Decoding and encoding an instruction word (R70 to R79). The decoder is total: a word is an instruction
or is rejected with the reason's name. -/

namespace Sys2Proof

/-! ## Fields -/

/-- Bits [lo + n - 1 : lo] of a word. -/
def field (w : Word) (lo n : Nat) : BitVec n := w.extractLsb' lo n

/-- The slot of a target byte's low bits; 3 is a write entry (R70). -/
def Opnd.bits : Opnd → BitVec 2
  | .a => 0 | .b => 1 | .c => 2

/-- A target as its byte (R70). -/
def Target.byte : Target → BitVec 8
  | .nul => 0xFF
  | .opnd i s => i ++ s.bits
  | .out n => n ++ (3 : BitVec 2)

/-- The target that a byte names (R70). -/
def Target.ofByte (b : BitVec 8) : Target :=
  if b = 0xFF then .nul
  else
    let i := b.extractLsb' 2 6
    match (b.extractLsb' 0 2).toNat with
    | 0 => .opnd i .a
    | 1 => .opnd i .b
    | 2 => .opnd i .c
    | _ => .out i

/-! ## Decoding -/

/-- The fields of a plain or immediate word: the count field selects the form (R71, R72). -/
def plainOf (p : Option Nat) (im : Option (Nat × ImmKind)) (w : Word) : Except DecErr Plain :=
  let ty := Ty.ofBits (field w 50 4)
  let ta := Target.ofByte (field w 38 8)
  let tb := Target.ofByte (field w 30 8)
  let n := (field w 28 2).toNat
  let v := field w 0 28
  if p = some n then if v = 0 then .ok ⟨ty, none, ta, tb⟩ else .error .badReserved
  else match im with
    | some (c, _) => if c = n then .ok ⟨ty, some v, ta, tb⟩ else .error .badCount
    | none => .error .badCount

/-- The fields of a memory word (R71, R75). -/
def memOf (w : Word) : MemW :=
  ⟨Ty.ofBits (field w 50 4), field w 28 2, field w 24 4, field w 22 2, field w 20 2, field w 0 20,
   Target.ofByte (field w 38 8), Target.ofByte (field w 30 8)⟩

/-- The fields of a fan-out word (R71). -/
def fanOf (w : Word) : Fan :=
  ⟨Ty.ofBits (field w 50 4), Target.ofByte (field w 38 8), Target.ofByte (field w 30 8), Target.ofByte (field w 22 8),
   Target.ofByte (field w 14 8)⟩

/-- The fields of an exit word (R71, R76). -/
def exitOf (w : Word) : ExitW := ⟨field w 47 3, field w 46 1 == 1, field w 14 32⟩

/-- The fields of a word under its opcode's format. -/
def partsOf (w : Word) : Except DecErr Parts :=
  let op := (field w 54 10).toNat
  let m := field w 46 4
  match opSpec op with
  | none => .error .opcodeUndef
  | some s =>
    match s.fam with
    | .plain p im _ => (plainOf p im w).map fun b => ⟨op, m, .plain b⟩
    | .mem _ _ _ => .ok ⟨op, m, .mem (memOf w)⟩
    | .fan => if field w 0 14 = 0 then .ok ⟨op, m, .fan (fanOf w)⟩ else .error .badReserved
    | .exit _ =>
      if field w 50 4 ≠ 0 then .error .badType
      else if field w 0 14 = 0 then .ok ⟨op, 0, .exit (exitOf w)⟩ else .error .badReserved

/-- The instruction that a word encodes, or why it encodes none (R71 to R79, step 6 of R82). -/
def decodeWord (w : Word) : Except DecErr Instr := do
  let p ← partsOf w
  p.check
  match p.build with
  | some i => .ok i
  | none => .error .badModifier

/-- The instruction read from the low 64 bits of an instruction numbered as the opcode table numbers it; a word is
stored little-endian (R60), so its bits keep their numbers. -/
def decodeTableWord (_nbits w : Nat) : Option Instr := (decodeWord (BitVec.ofNat 64 w)).toOption

/-! ## Encoding -/

/-- The count field of a plain or immediate word (R72). -/
def countOf (p : Option Nat) (im : Option (Nat × ImmKind)) (v : Option (BitVec 28)) : Option (BitVec 2) :=
  match v with
  | none => p.map (BitVec.ofNat 2)
  | some _ => im.map fun x => BitVec.ofNat 2 x.1

/-- A word with opcode, type, modifier and bits [45:0]. -/
def word (op : Nat) (t m : BitVec 4) (rest : BitVec 46) : Word := BitVec.ofNat 10 op ++ t ++ m ++ rest

/-- The word that fields make (R71). -/
def Parts.encode (p : Parts) : Option Word :=
  match opSpec p.op with
  | none => none
  | some s =>
    match p.body, s.fam with
    | .plain w, .plain c im _ =>
      (countOf c im w.imm).map fun n =>
        word p.op w.ty.bits p.mod (w.ta.byte ++ w.tb.byte ++ n ++ w.imm.getD 0)
    | .mem w, .mem _ _ _ =>
      some (word p.op w.ty.bits p.mod (w.ta.byte ++ w.tb.byte ++ w.count ++ w.win ++ w.scope ++ w.order ++ w.off))
    | .fan w, .fan =>
      some (word p.op w.ty.bits p.mod (w.ta.byte ++ w.tb.byte ++ w.tc.byte ++ w.td.byte ++ (0 : BitVec 14)))
    | .exit w, .exit _ =>
      some (word p.op 0 (w.num ++ (if w.indirect then 1 else 0 : BitVec 1)) (w.off ++ (0 : BitVec 14)))
    | _, _ => none

/-- The word of an instruction; an event has none. -/
def encode (i : Instr) : Option Word := i.parts.bind Parts.encode

end Sys2Proof
end

