-- ==== Sys2Proof/Config.lean ====
section
/-! DEFINITION. The free values: what the manual leaves open and no proof may see. Each is opaque, so a claim
about the machine holds whatever it is (notes/assumptions 1 to 6). -/

namespace Sys2Proof.Config

/-- Which of the enabled actions comes next, as a function of the selection counter (R14, R57, R119, R236: arrival
orders, dataflow order and latencies are not fixed). Log entry 1. -/
opaque choose : Nat → Nat

/-- Whether a nanosecond of the package time base passes at a selection step (R370). Log entry 2. -/
opaque elapsed : Nat → Bool

/-- Whether a clock of a die begins at a selection step, where the time base leaves it open (R370). Log entry 2. -/
opaque edge : Nat → Nat → Bool

/-- Energy in µJ that a rail (16 × die number + rail) used since its last sample (R369, R371). Log entry 3. -/
opaque railEnergy : Nat → Nat → Nat

/-- What a die's copy of the time base takes as a clock of the die begins at a turn (R370): modulo 9 the ns by which it stands
behind the package's, in EMBER modulo 2 the step above 2. Log entry 2. -/
opaque lag : Nat → Nat → Nat

/-- The hop-latency table that firmware publishes at boot (R13, R403), as one number. Log entry 7. -/
opaque hopTable : Nat

/-- The answer bytes of a management standard whose contents the manual does not give: SPDM and PLDM (R403). Log entry 4. -/
opaque answer : Nat → Nat → Nat

/-- The results s0 and s1 that firmware returns from an HCALL service (R387). Log entry 5. -/
opaque service : Nat → Nat → BitVec 64

/-- Whether a firmware image defines an HCALL service number (R387). Log entry 5. -/
opaque serves : Nat → Nat → Bool

/-- Which free strand-table entry a new strand takes (R37, R38 name none). Log entry 6. -/
opaque entry : Nat → Nat

/-- The value of a token whose producer's entry states none: INVL and WBL (R251, R252). Log entry 6. -/
opaque silent : Nat → BitVec 32

/-- What an OFILL row holds when its memory can no longer be reached after the checks have passed: 1,024 data bits and two
poison bits (R268 states none). Log entry 6. -/
opaque unread : Nat → BitVec 1026

/-- Where firmware puts the husk area of a context in a die's HBM, in units of 8 MiB (R393). Log entry 9. -/
opaque huskArea : Nat → Nat → Nat

/-- The BOOTSRC strap: the firmware image comes from host memory, not from flash (R400). Log entry 7. -/
opaque bootFromHost : Bool

/-- Whether a die passes its self-test at a cold reset (R398 step 1); die 4 is the hearth die. Log entry 7. -/
opaque selfTest : Nat → Nat → Bool

/-- Which line a cache gives up as a new one is filled (R16, R128, R202, R205 name no replacement order). Log entry 49. -/
opaque victim : Nat → Nat

/-- Controller clocks that a MIG request served has waited in its controller's queue (R372): timing. Log entry 49. -/
opaque waited : Nat → Nat

end Sys2Proof.Config
end

