-- ==== Sys2Proof/Machine/State.lean ====
section
/-! DEFINITION. The state of the machine as plain data (R8, R121, R199, R202, R261, R275, R301, R324, R345, R369 and
the chapters they stand in), the reasons a step can stop, and the state right after reset. -/

namespace Sys2Proof.Machine

/-- The fault codes of R380, in code order from 0x01. -/
inductive FaultCode where
  | blockFormat | opcodeUndef | blockStarved | exitConflict | memberExited | illegalConvergence | pageFault
  | accessViolation | misaligned | atomicUnsupported | formatReadOnly | poisonConsumed | lockTimeout | lockDeadlock
  | lockPoisoned | barTimeout | xshflTimeout | incrementOverrun | patchInvalid | ringMissLimit | slotState
  | queueUnbound | cfgPoison | tokenContext | redTimeout | dieOffline | maskOrphan | energyDenied | trap | brk | watchdog
  deriving DecidableEq, Repr

/-- Why a step has no meaning. Every fault of the spec is a next state, not one of these. -/
inductive Fault where
  /-- Raised by an instruction's meaning run outside a fired block whose operands have been delivered; no step of the
  machine does that. Safe: the machine stops where the hardware has no behaviour. -/
  | noBlock
  deriving DecidableEq, Repr

/-- Why a step is refused. -/
inductive Refusal where
  /-- An instruction whose arm of `exec` has no meaning yet. Safe. -/
  | notModelled (mnemonic : String)
  /-- Raised by `step` when the word of a fired block does not decode; the checks of R82 refuse such a block before it
  fires. Safe. -/
  | undecoded
  deriving DecidableEq, Repr

/-! ## Tokens and blocks in flight -/

/-- A page's rights as the core keeps them beside a window (R212): W, ATOM, CACHE, HOME. -/
structure Rights where
  w : Bool
  atom : Nat
  cache : Nat
  home : Nat
  deriving DecidableEq, Repr

/-- A token (R130): its width in bits, whether it is a window token (R124), the uniform flag, the mask, the uniform
value or the lanes' values. A window token carries the page's rights in bits [123:116], which a window register keeps
beside itself (R212). -/
structure Token where
  width : Nat
  win : Bool
  uni : Bool
  mask : Mask
  val : Val
  lanes : KMap Val
  deriving DecidableEq, Repr

/-- A queue item with the block that reserves it, if any (R44, R278). -/
structure Item where
  val : Val
  resv : Option Nat
  deriving DecidableEq, Repr

/-- A raised fault (R377, R379): code, instruction index or 0xFF, lane mask, address, TRAP number. -/
structure Raised where
  code : FaultCode
  index : Nat
  mask : Mask
  addr : Nat
  tnum : Nat
  deriving DecidableEq, Repr

/-- A lane's exit choice (R135). -/
inductive Choice where
  | goto (succ : Word)
  | regang (label : Word) (member : Mask)
  | quit
  | tret
  deriving DecidableEq, Repr

/-- One lane's buffered store (R244): where it goes, how many bytes, and what, and the virtual address whose translation it
uses (R211). -/
structure LaneStore where
  pa : Nat
  va : Nat
  size : Nat
  data : Val
  home : Nat
  cache : Nat
  deriving DecidableEq, Repr

/-- A store instruction's buffer (R244): instruction index, scratchpad or memory, release order with its scope class. -/
structure BufStore where
  index : Nat
  scratch : Bool
  release : Option Nat
  lanes : List LaneStore
  deriving DecidableEq, Repr

/-- A matrix command (R265, R268, R269, R271, R272). -/
inductive MOp where
  | ofill (va : Nat) (slot pitch : Nat)
  | mma (ty : Ty) (mix : Bool) (a b tile k : Nat)
  | accz (tile : Nat)
  | accfl (ty : Ty) (add : Bool) (va : Nat) (tile : Nat) (zero : Bool) (pitch : Nat)
  deriving DecidableEq, Repr

/-- A job card (R282) with the stream descriptor of a COLC (R295). -/
structure Card where
  op : Nat
  flags : Nat
  cq : Nat
  elem : Nat
  len : Nat
  src : Nat
  dst : Nat
  idx : Nat
  rbase : Nat
  rlen : Nat
  tag : Nat
  stream : Nat
  fanin : Nat
  wait : Nat
  deriving DecidableEq, Repr

/-- A match rule descriptor (R319). -/
structure RuleDesc where
  base : Word
  stridei : BitVec 32
  stridej : BitVec 32
  task : Word
  ilo : Nat
  ihi : Nat
  jlo : Nat
  jhi : Nat
  laps : Nat
  tri : Nat
  deriving DecidableEq, Repr

/-- What an instruction will do when its block commits (R42, R45). -/
inductive Effect where
  | link (m : Mask)
  | satCount
  | barArrive (n : Nat) (m member : Mask) (wait : Bool)
  | lockSeen (line : Nat)
  | lockRelease (line : Nat)
  | flsig (sig : Option LaneStore) (add : Bool) (sys : Bool)
  | oclaim (n : Nat)
  | orlse (n : Nat)
  | mcmd (op : MOp)
  | bind (q : Nat) (binding : BitVec 32) (slog sbase : Nat)
  | deq
  | undeq
  | job (c : Card)
  | send (core q : Nat) (v : Word)
  | dqpush (v : Word)
  | lnch (q src : Nat) (rec : List Byte)
  | signal (pa home : Nat) (v : Word)
  | ringOpen (period tag : Nat)
  | ringRule (n : Nat) (d : RuleDesc)
  | ringJoin (width : Nat) (ret : Word)
  | ringStart
  | ringClear (n : Nat)
  | ringInject (src pos fam slot idx : Nat)
  | ringEject (dst kind slot : Nat) (sp : Bool)
  | ringSweep (n : Nat)
  | ipatch (addr first count : Nat) (start : Bool)
  | iset (cls idx : Nat) (v : Word)
  | istep (dom n : Nat)
  | irun (mask : Nat) (activate : Bool)
  | ihalt (mask : Nat) (release : Bool)
  | isave (addr : Nat)
  | irest (addr : Nat)
  | iout (port cell : Nat) (en : Bool)
  | rtcfg (addr c0 c1 : Nat) (sinks : List (Nat × Nat))
  | rtswap (c0 c1 : Nat) (drop : Bool)
  | rtsend (edge thread : Nat) (toks : List (Nat × BitVec 32))
  | qsc (edge : Nat) (v : BitVec 32)
  | evcfg (cls idx : Nat) (v : Word)
  | evarm (term arm : Nat)
  | evfire (n : Nat)
  | cntset (cls idx : Nat) (v : Word)
  | enrsv (amount : Nat)
  | trap (n : Nat)
  | brk
  | hcall (n : Nat)
  | tret
  deriving DecidableEq, Repr

/-- One lane of a load or an atomic that waits for its line: lane, the address a fault record would carry, physical
address, value once it has come, or the fault that the line's reply makes (R241). -/
structure LaneLoad where
  lane : Nat
  addr : Nat
  pa : Nat
  got : Option Val
  bad : Option FaultCode
  deriving DecidableEq, Repr

/-- What a performed, unresolved instruction waits for. -/
inductive Wait where
  /-- a load's lines (R242): type, uniform flag, mask, lanes, whether it acquires -/
  | load (ty : Ty) (uni : Bool) (m : Mask) (lanes : List LaneLoad) (acq : Bool)
  /-- an atomic's old values (R230); the lanes not yet performed are in the request -/
  | atomic (ty : Ty) (uni : Bool) (m : Mask) (lanes : List LaneLoad) (acq : Bool)
  /-- a collective's completion (R188) -/
  | collective
  /-- a line lock (R255): the result mask, the address a record would carry -/
  | lock (m : Mask) (addr : Nat)
  /-- an EVARM.wait (R367): output and start time -/
  | evarm (out since : Nat) (m : Mask)
  deriving DecidableEq, Repr

/-- Header word H0 (R63). -/
structure Header where
  icount : Nat
  nread : Nat
  nwrite : Nat
  nexit : Nat
  hold : Bool
  task : Bool
  rel : Nat
  acq : Nat
  lock : Bool
  h2v : Bool
  nstore : Nat
  waitbar : Nat
  deriving DecidableEq, Repr

/-- A write entry (R68): kind, register, how many registers it writes. -/
structure WEntry where
  kind : Nat
  reg : Nat
  span : Nat
  deriving DecidableEq, Repr

/-- A window register (R124) with the rights kept beside it (R212). -/
structure WinReg where
  bits : Val
  rights : Rights
  deriving DecidableEq, Repr

/-- A fired, uncommitted block (R42). Slot key 4 × index + k holds operand k of an instruction, key 4 × entry + 3 the
token of a write entry. -/
structure Blk where
  uid : Nat
  addr : Nat
  len : Nat
  h : Header
  h1 : Word
  words : List Word
  writes : List WEntry
  mask : Mask
  /-- the die's copy of the time base, and CLK, as the block fired (R230, R376) -/
  time : Nat
  clk : Word
  /-- the launch queue's level as it stood at fire (R148) -/
  prio : Nat
  slots : KMap Token
  fired : Mask
  resolved : Mask
  waits : KMap Wait
  choices : KMap Choice
  removed : Mask
  raised : Option Raised
  /-- the die clock in which the fault was raised (R135) -/
  raisedAt : Nat
  effects : List (Nat × Effect)
  stores : List BufStore
  results : KMap (List Token)
  /-- the windows as committed at fire (R240) -/
  wins : KMap WinReg
  /-- 4 KiB pages whose translations the block used (R211) -/
  pages : List Nat
  /-- queue registers that the header's read entries popped (R278, R292) -/
  pops : List Nat
  l1min : Nat
  /-- instructions that fired or resolved with their block or their operand and whose pick is still to come (R53, R131, R134) -/
  owed : Mask
  deriving DecidableEq, Repr

/-! ## Strands, groups, workgroups, launches -/

/-- Where a strand stands (R37, R378, R387, R394): ready, parked by a fault, parked with a call in the mailbox, or
waiting at a REGANG label. -/
inductive StrandSt where
  | ready
  | parked (code : FaultCode)
  | call (uid : Nat)
  | label (member : Mask) (since : Nat)
  deriving DecidableEq, Repr

/-- A fault record that firmware has not taken (R288): held, with its number, or dropped, with the number of the drop. -/
inductive Untaken where
  | held (uid : Nat)
  | dropped (uid : Nat)
  deriving DecidableEq, Repr

/-- A strand-table entry (R37, R382, R394). -/
structure Strand where
  group : Nat
  mask : Mask
  pc : Word
  st : StrandSt
  trap : Bool
  bank : List Word
  task : Option Nat
  barWait : List Nat
  blocks : List Blk
  l1min : Nat
  asyncs : List Nat
  /-- the home die of a failed FLSIG drain (R249) -/
  drainFailed : Option Nat
  record : Option Untaken
  /-- a task strand whose entry block has not committed (R64) -/
  first : Bool
  /-- the fault that it takes at its next block, with the record that a park waits for: a barrier's timeout, the watchdog
  (R201, R381) -/
  due : Option (FaultCode × Option Untaken)
  /-- picks that have passed over it (R53) -/
  passed : Nat
  /-- its place in the order in which a resumption fires its strands, 0 for none (R392) -/
  turn : Nat
  /-- the stamp of the last of its jobs and commands to complete: a HOLD block uses no L1 line filled before (R43, R233) -/
  jobMin : Nat
  deriving DecidableEq, Repr

/-- What lanes meet at the address where they become a strand (R198, R385, R386, R387): a trap, a break, the park of a
call with its number in the mailbox, or a timeout. -/
inductive After where
  | trap (n index : Nat)
  | brk (index : Nat)
  | call (uid : Nat)
  /-- the barrier timeout passed while the lanes waited, parked, at a REGANG label (R198) -/
  | late
  deriving DecidableEq, Repr

/-- A parked pair (R38, R40, R197, R200): successor or none, lanes, stamp, the member mask of one waiting at a label, what
is met at the successor, barriers that the next block waits on, unfinished asynchronous operations. -/
structure Parked where
  succ : Option Word
  mask : Mask
  stamp : Nat
  regang : Option Mask
  after : Option After
  barWait : List Nat
  asyncs : List Nat
  drainFailed : Option Nat
  due : Option (FaultCode × Option Untaken)
  jobMin : Nat
  l1min : Nat
  deriving DecidableEq, Repr

/-- An entry of a group's held-lock set (R254). -/
structure HeldLock where
  line : Nat
  lanes : Mask
  status : Nat
  deriving DecidableEq, Repr

/-- A replay record (R189): block address, instruction index, the strand's lanes, the results; how many blocks of the
re-run come before its own, the block in flight that re-runs it, and whether its block ran in trap mode (R382). -/
structure Replay where
  addr : Nat
  index : Nat
  mask : Mask
  toks : List Token
  ahead : Nat
  blk : Option Nat
  trap : Bool
  deriving DecidableEq, Repr

/-- A group's part in barrier n (R199): arrivals and member set of this generation, lanes counted to the next one,
lanes with a pending target one and two generations ahead. -/
structure GroupBar where
  arrived : Mask
  member : Option Mask
  arrivedNext : Mask
  memberNext : Option Mask
  targets : KMap (BitVec 15)
  deriving DecidableEq, Repr

/-- A resident or saved group (R121, R126, R35). -/
structure Group where
  wg : Nat
  num : Nat
  core : Nat
  slot : Nat
  pos : Nat
  width : Nat
  cbase : Word
  tbase : Word
  vregs : KMap (BitVec 32)
  sregs : KMap Word
  wins : KMap WinReg
  qregs : KMap (BitVec 32)
  live : Mask
  parked : List Parked
  locks : List HeldLock
  replay : List Replay
  bars : KMap GroupBar
  joined : Option (Nat × Word)
  banks : List (List Word)
  /-- stores of lanes that were dropped at a home die out of service, for the strand's next drain (R249) -/
  lost : List (Mask × Nat)
  /-- the die clock of the last commit of one of its strands, and that strand's lowest lane (R123, R197) -/
  committed : Option (Nat × Nat)
  deriving DecidableEq, Repr

/-- An integrator domain (R324). State: 0 HALTED, 1 RUNNING, 2 FAULT. `due` counts event pulses whose step is still to
be taken; `coming` says that its output is true in the present clock, so that the step falls in the next one (R330). -/
structure Domain where
  src : Bool
  evt : Nat
  div : Nat
  st : Nat
  steps : Word
  pend : Nat
  phase : Nat
  missed : Nat
  due : Nat
  coming : Bool
  deriving DecidableEq, Repr

/-- An integrator output port (R324, R331). -/
structure Port where
  cell : Nat
  en : Bool
  word : BitVec 32
  count : Nat
  queue : List Item
  deriving DecidableEq, Repr

/-- A core's integrator field (R324). Counter k of cell c has key 8c + k. -/
structure Field where
  owner : Option (Nat × Nat)
  /-- the blocks, all of one workgroup, that have reserved the unowned field (R337) -/
  resv : List Nat
  live : KMap Word
  shadow : KMap Word
  loaded : List Nat
  dirty : Bool
  badCell : Nat
  y : KMap (BitVec 32)
  res : KMap Nat
  cnt : KMap Int
  dzl : KMap Int
  doms : List Domain
  overCell : Nat
  overInput : Nat
  ports : List Port
  restFail : Bool
  shadowResv : Option Nat
  /-- asynchronous operations of ISTEPs with their domains (R340) -/
  waiters : List (Nat × Nat)
  /-- the field has taken every die clock before this one (R330) -/
  upTo : Nat
  deriving DecidableEq, Repr

/-- An event-crossbar counter (R345). -/
structure XCounter where
  value : Nat
  thr : Nat
  sel : Nat
  mode : Bool
  atv : Bool
  deriving DecidableEq, Repr

/-- An event-crossbar term (R345). Arm: 0 DISARMED, 1 ONCE, 2 ALWAYS. -/
structure XTerm where
  p0 : BitVec 48
  p1 : BitVec 48
  clear : BitVec 16
  arm : Nat
  fires : Nat
  deriving DecidableEq, Repr

/-- A core's event crossbar (R345, R358, R359). `clocks` holds the pulses of die clocks not yet taken, by clock number; `now` the
signals of the clock whose counters have been taken and whose terms have not; every clock before `upTo` has been taken. -/
structure Xbar where
  owner : Option (Nat × Nat)
  /-- the blocks, all of one workgroup, that have reserved the unowned crossbar (R366) -/
  resv : List Nat
  counters : List XCounter
  terms : List XTerm
  timers : List (Nat × Nat)
  gateEn : Bool
  gateOut : Nat
  clocks : KMap (BitVec 48)
  now : Option (BitVec 48)
  upTo : Nat
  deriving DecidableEq, Repr

/-- A work-deque (R275, R289): owner (context, workgroup), entries from bottom to top. While its owner is pre-empted the
entries are in the husk and the core's deque has no owner. `stolen` is the die clock of the last steal from it. -/
structure Deque where
  owner : Option (Nat × Nat)
  entries : List Item
  stolen : Option Nat
  deriving DecidableEq, Repr

/-- A claimed resource as the husk keeps it (R262, R394): number, data words by offset, poison bits. -/
structure SavedRes where
  num : Nat
  data : KMap Word
  poison : BitVec 256
  deriving DecidableEq, Repr

/-- What pre-emption keeps of a workgroup on one core (R391, R394). -/
structure Saved where
  core : Nat
  member : Nat
  strands : List Strand
  res : List SavedRes
  field : Option Field
  deque : Option (List Item)
  recv : KMap (List Item)
  compq : KMap (List Item)
  xbar : Option Xbar
  image : List Byte
  base : Nat
  deriving DecidableEq, Repr

/-- A workgroup's residency. -/
inductive WgSt where
  | resident
  | preempted
  deriving DecidableEq, Repr

/-- What the damper's measure of a workgroup starts from (R373): energy in µJ of its die's logic and SRAM rails, the die's
slot-clocks and the time when its present residency began, and the nJ measured in earlier ones. -/
structure Meter where
  rails : Word
  clocks : Nat
  since : Nat
  spent : Nat
  deriving DecidableEq, Repr

/-- A placed workgroup (R36, R199, R381, R391). Scratch key: member × 2^20 + offset. -/
structure Wg where
  launch : Nat
  ctx : Nat
  num : Nat
  die : Nat
  cores : List Nat
  st : WgSt
  /-- the model's own: pre-emption has been asked for, and no further block fires (R54, R55) -/
  leaving : Bool
  since : Nat
  resTime : Nat
  barGen : KMap (BitVec 15)
  barStart : KMap Nat
  broken : List Nat
  scratch : KMap Byte
  scratchBad : List Nat
  oslots : Nat
  saved : List Saved
  admitted : Nat
  /-- the watchdog has stopped it (R381) -/
  stopped : Bool
  /-- the model's own: orders the pre-empted workgroups of a queue, the latest first (R54) -/
  left : Nat
  meter : Meter
  deriving DecidableEq, Repr

/-- A range entry of an accepted launch (R24, R33): die, next undispatched workgroup number, end. -/
structure Range where
  die : Nat
  next : Nat
  hi : Nat
  deriving DecidableEq, Repr

/-- A wait of an accepted launch (R31): virtual and physical address of the signal word, its home, value. -/
structure SigWait where
  va : Nat
  pa : Nat
  home : Nat
  value : Word
  deriving DecidableEq, Repr

/-- An accepted launch (R24, R31, R52, R373). -/
structure Launch where
  queue : Nat
  slot : Nat
  ctx : Nat
  tag : Nat
  entry : Word
  cbase : Word
  tbase : Word
  widths : List Nat
  extents : List Nat
  groups : Nat
  vregs : Nat
  sregs : Nat
  oslots : Nat
  scratch : Nat
  coop : Bool
  cores : Bool
  early : Bool
  notify : Bool
  args : List Word
  energy : Nat
  ranges : List Range
  waits : List SigWait
  doneVa : Nat
  donePa : Nat
  doneHome : Nat
  doneInc : Word
  corr : Nat
  dispatched : Bool
  /-- place in the order of dispatch (R48) -/
  order : Nat
  /-- the sequence number of the window into which a claim has admitted a CORES launch whole (R50, R374) -/
  granted : Option Word
  failed : Option (FaultCode × Nat)
  deriving DecidableEq, Repr

/-- A launch queue (R30). `src` maps a slot to the source record of an LNCH, `post` is the slot that LNCH posts into next,
`owed` lists source records whose QUEUE status is still to be written (R299); `fifo` the accepted, undispatched launches
in order. -/
structure Queue where
  enable : Bool
  prio : Nat
  slice : Nat
  ctx : Nat
  next : Nat
  src : KMap Nat
  post : Nat
  owed : List Nat
  fifo : List Nat
  deriving DecidableEq, Repr

/-! ## A core's engines and caches -/

/-- An L1 line (R12, R202): data, poison of its two sectors, locking group, fill stamp. -/
structure L1Line where
  data : Line
  poison : BitVec 2
  locked : Option Nat
  filled : Nat
  deriving DecidableEq, Repr

/-- A TLB entry (R211): context, first virtual page address, bytes, the page-table entry. -/
structure TlbEntry where
  ctx : Nat
  va : Nat
  size : Nat
  pte : Word
  deriving DecidableEq, Repr

/-- State of resource n of a core (R261, R266, R267): 0 FREE, 1 CLAIMED, 2 RING; owner; reserving block; releasing. -/
structure Res where
  st : Nat
  owner : Option (Nat × Nat)
  resv : Option Nat
  releasing : Bool
  deriving DecidableEq, Repr

/-- A queued matrix command (R261, R264). `gate`: stores that must leave the write path before it goes out (R233);
`engine`: the copy engine that runs an OFILL (R19). -/
structure MCmd where
  uid : Nat
  op : MOp
  ctx : Nat
  wg : Nat
  launch : Nat
  slot : Nat
  tag : Nat
  gate : List Nat
  started : Bool
  engine : Option Nat
  deriving DecidableEq, Repr

/-- The spaces of footprint regions (R283). -/
inductive Space where
  | virt (ctx : Nat)
  | scratch (wg : Nat)
  | slot
  | tile
  deriving DecidableEq, Repr

/-- A footprint region [lo, hi) (R283). -/
structure Region where
  space : Space
  lo : Nat
  hi : Nat
  deriving DecidableEq, Repr

/-- What a copy engine's job does. -/
inductive JobKind where
  | card (c : Card)
  | xinj (src pos fam slot idx : Nat)
  | xeject (dst slot : Nat) (sp : Bool)
  | sweep (die ring pair rule i j : Nat) (cwa ccwa : Nat)
  | ipatch (addr first count : Nat) (start : Bool)
  | isave (addr : Nat) (img : List Byte)
  | irest (addr : Nat)
  | rtcfg (addr c0 c1 : Nat) (sinks : List (Nat × Nat))
  deriving DecidableEq, Repr

/-- A job of a core's engines (R284). -/
structure Job where
  uid : Nat
  kind : JobKind
  ctx : Nat
  wg : Nat
  tag : Nat
  slot : Nat
  reads : List Region
  writes : List Region
  /-- stores that must leave the write path before it goes out (R233) -/
  gate : List Nat
  engine : Option Nat
  /-- a job whose merges have been sent waits here for them: its status, FIRST and COUNT, and the address of a read or merge that
  could not be made (R285, R287, R295) -/
  ending : Option (Nat × Nat × Nat × Option Nat)
  deriving DecidableEq, Repr

/-- A receive queue (R275, R279, R280). -/
structure RecvQ where
  owner : Option (Nat × Nat)
  items : List Item
  slog : Nat
  sbase : Nat
  head : Nat
  tail : Nat
  away : Bool
  deriving DecidableEq, Repr

/-- A hob-die core (R11, R202, R261, R275, R324, R345, R369). -/
structure Core where
  l1 : KMap L1Line
  tlb : List TlbEntry
  res : List Res
  slots : KMap (KMap Word)
  slotPoison : KMap (BitVec 256)
  tiles : KMap (KMap (BitVec 32))
  tilePoison : BitVec 4
  mq : List MCmd
  jobs : List Job
  compq : KMap (List Item)
  recbuf : List (Nat × Val)
  recv : KMap RecvQ
  deque : Deque
  field : Field
  xbar : Xbar
  perf : List Word
  sat : BitVec 32
  corr : BitVec 32
  lost : KMap (BitVec 32)
  /-- what the present die clock has counted, which the next one adds: 0 to 7 the performance counters, 8 lq2 saturations,
  9 correctable errors, 16 + q lost items of receive queue q (R371) -/
  counted : KMap Nat
  /-- the die clock and the strand-table entry of the last block fire that popped a queue (R278) -/
  popped : Option (Nat × Nat)
  deriving DecidableEq, Repr

/-! ## Rings -/

/-- A task pair of a ring member (R301, R305). State 0 FREE, 1 COPYING, 2 BUSY; `num` orders the copies (R19). -/
structure TaskPair where
  st : Nat
  num : Nat
  rule : Nat
  i : Nat
  j : Nat
  swept : Bool
  ended : Bool
  deriving DecidableEq, Repr

/-- A ring member (R301): slot tags (0 to 3 cw, 4 to 7 ccw), task pairs, task group, pending fills by their jobs' numbers,
whether its ring slots have gone back to FREE (R313). -/
structure Member where
  tags : KMap Nat
  pairs : List TaskPair
  group : Option Nat
  fills : List Nat
  freed : Bool
  deriving DecidableEq, Repr

/-- A match rule of a ring (R301). -/
structure RingRule where
  d : RuleDesc
  met : List Nat
  done : Nat
  sweeping : Bool
  deriving DecidableEq, Repr

/-- A ring completion record on its way to its queue (R311, R312): the record, the task stores it waits for, whether its
pulse is still to come. -/
structure RingRec where
  val : Val
  gate : List Nat
  pulse : Bool
  deriving DecidableEq, Repr

/-- A crossing ring (R301). State coded as XSTAT's ring word (R323). Tile addresses: key 64 × family + index. `scan`: the
tick that has begun is still to be scanned (R305, R309); `halting`: HALTED comes at the end of the tick (R314). -/
structure Ring where
  st : Nat
  owner : Option (Nat × Nat)
  tag : Nat
  period : Nat
  tick : Nat
  tickStart : Nat
  rules : KMap RingRule
  tiles : KMap Nat
  members : List Member
  swept : Nat
  scan : Bool
  halting : Bool
  records : List RingRec
  queue : List Item
  deriving DecidableEq, Repr

/-! ## Fabric -/

/-- The payload of a RED-class token (R349, R355, R365). -/
inductive Payload where
  | data (ctx thread seq : Nat) (p : Bool) (v : BitVec 32)
  | const (ctx : Nat) (v : BitVec 32)
  deriving DecidableEq, Repr

/-- A token in flight to an edge (R237): uid, die, edge, payload, missing mask of a partial for a sink, whether it was
injected behind a hold (R355). -/
structure RedTok where
  uid : Nat
  die : Nat
  edge : Nat
  pay : Payload
  missing : Nat
  behind : Bool
  deriving DecidableEq, Repr

/-- A token in a cell's input queue with the time and the number of its arrival (R349, R350). -/
structure Arrived where
  pay : Payload
  since : Nat
  num : Nat
  deriving DecidableEq, Repr

/-- A router's stage cell (R345, R349, R350, R351): configuration, input queues, late keys, the swap whose drain it has
passed. Key of a cell: column × 64 + row × 16 + cell. -/
structure Cell where
  cfg : Val
  inputs : List (List Arrived)
  late : List (Nat × Nat)
  drained : Option Nat
  deriving DecidableEq, Repr

/-- A loaded shadow entry (R345): configuration and loading context. -/
structure Shadow where
  cfg : Val
  ctx : Nat
  deriving DecidableEq, Repr

/-- A swap in progress (R355): uid, columns, context, named sinks. -/
structure Swap where
  uid : Nat
  c0 : Nat
  c1 : Nat
  ctx : Nat
  deriving DecidableEq, Repr

/-- A sink of a die (R345). -/
structure Sink where
  ctx : Nat
  base : Nat
  deriving DecidableEq, Repr

/-- A sink's shadow with the columns of the image that named it (R353, R355). -/
structure SinkShadow where
  sink : Sink
  c0 : Nat
  c1 : Nat
  deriving DecidableEq, Repr

/-! ## Memory system -/

/-- A posted store on its way to one line (R220, R223): stage 0 in the core's write path, 1 at the die's slice, 2 applied
at the home and waiting for held probes. `bytes` says which bytes of the line it writes; `lanes` of `group` are the lanes
of the storing strand; `deps` are stores that must leave the write path first (R226); `raw` says that it came
through the raw alias (R214); `pages` are the 4 KiB virtual pages whose translations it uses (R211). -/
structure Posted where
  uid : Nat
  core : Nat
  die : Nat
  group : Nat
  lanes : Mask
  launch : Nat
  line : Nat
  bytes : BitVec 128
  data : Line
  home : Nat
  cache : Nat
  raw : Bool
  stage : Nat
  deps : List Nat
  probes : List Nat
  pages : List Nat
  deriving DecidableEq, Repr

/-- A request for a line (R236): who asks, for what load, whether it is served at home, and the reply once made. -/
structure LineReq where
  uid : Nat
  die : Nat
  core : Nat
  line : Nat
  home : Nat
  cache : Nat
  mig : Bool
  /-- served at the home slice, never from a copy (R225, R226) -/
  direct : Bool
  /-- block, instruction index and lane of each load that waits for the line -/
  loads : List (Nat × Nat × Nat)
  fillL1 : Bool
  reply : Option (Line × BitVec 2)
  deriving DecidableEq, Repr

/-- A probe held at a die's copy slice (R236). -/
structure HeldProbe where
  die : Nat
  line : Nat
  store : Option Nat
  deriving DecidableEq, Repr

/-- A line held for an uncommitted block's atomics (R230): the line, the block, its strand and the contents before; `raw` are the
bytes that the block has changed through the raw alias (R214). -/
structure HeldLine where
  line : Nat
  blk : Nat
  strand : Nat
  fire : Nat
  old : Line
  oldPoison : BitVec 2
  sys : Bool
  raw : BitVec 128
  deriving DecidableEq, Repr

/-- The operation of an atomic (R246). -/
inductive AtomOp where
  | add | fadd | min | max | and | or | xor | xchg | cas
  deriving DecidableEq, Repr

/-- An atomic's request for one lane at its home slice (R230, R246); `raw` says that it comes through the raw alias (R214). -/
structure AtomReq where
  uid : Nat
  die : Nat
  strand : Nat
  blk : Nat
  index : Nat
  lane : Nat
  op : AtomOp
  ty : Ty
  pa : Nat
  home : Nat
  b : Val
  c : Val
  fire : Nat
  sys : Bool
  raw : Bool
  deriving DecidableEq, Repr

/-- Whose a contribution is (R272, R285, R295): the job's or command's number, its core, whether it is a job, the
destination byte offset and the number of its bytes. -/
structure Owner where
  num : Nat
  core : Nat
  job : Bool
  off : Nat
  len : Nat
  deriving DecidableEq, Repr

/-- Words of one 128-byte line merged or written at a home slice by ACCFL or COLC (R119, R272, R295): op 0 add, 1 min, 2 max,
3 write; word k at byte 4k of the line; the poison of the sectors; whether it goes through the raw alias (R214). -/
structure Merge where
  uid : Nat
  owners : List Owner
  ctx : Nat
  line : Nat
  home : Nat
  ty : Ty
  op : Nat
  words : KMap (BitVec 32)
  poison : BitVec 2
  raw : Bool
  viaPort : Bool
  srcDie : Nat
  stream : Nat
  fanin : Nat
  wait : Nat
  deriving DecidableEq, Repr

/-- A line held at a link port's adders (R295): the home die, the port by which its contributions enter, how many have
joined. -/
structure PortLine where
  uid : Nat
  die : Nat
  port : Nat
  ctx : Nat
  stream : Nat
  line : Nat
  ty : Ty
  op : Nat
  words : KMap (BitVec 32)
  poison : BitVec 2
  raw : Bool
  owners : List Owner
  count : Nat
  fanin : Nat
  since : Nat
  wait : Nat
  deriving DecidableEq, Repr

/-- An FLSIG drain (R228, R249): the stores it covers, the home dies whose tokens are missing, its signals. -/
structure Drain where
  uid : Nat
  strand : Nat
  core : Nat
  die : Nat
  ctx : Nat
  tag : Nat
  mask : Mask
  slot : Nat
  stores : List Nat
  dies : List Nat
  sigs : List (LaneStore × Bool)
  sys : Bool
  failed : Option Nat
  deriving DecidableEq, Repr

/-- A lock waiter or requester (R216, R254): its block by number and by address, by which a block that fires again knows its entry
(R256). -/
structure Waiter where
  uid : Nat
  ctx : Nat
  die : Nat
  core : Nat
  slot : Nat
  group : Nat
  strand : Nat
  lanes : Mask
  blk : Nat
  addr : Nat
  index : Nat
  away : Bool
  since : Nat
  seq : Nat
  deriving DecidableEq, Repr

/-- A held lock at its home slice (R216, R256, R258): owner group, waiters in order, an away grant's expiry. -/
structure Lock where
  line : Nat
  home : Nat
  owner : Option Waiter
  waiters : List Waiter
  poisoned : Bool
  awaySince : Option Nat
  awayPois : Bool
  deriving DecidableEq, Repr

/-- A lock message on its way to a home slice (R216, R260). -/
inductive LockMsg where
  | request (w : Waiter) (line home : Nat) (only : Bool) (resend : Bool)
  | release (uid line home group : Nat) (lanes : Mask) (behind : List Nat)
  deriving DecidableEq, Repr

/-- A receive item on its way (R296). -/
structure RecvMsg where
  uid : Nat
  dst : Nat
  queue : Nat
  item : Val
  ctx : Nat
  die : Nat
  slot : Nat
  tag : Nat
  src : Nat
  deriving DecidableEq, Repr

/-- An event record (R287); `sent` is the model's own: the next free number as the record entered the event queue. -/
structure Record where
  uid : Nat
  type : Nat
  code : Nat
  die : Nat
  slot : Nat
  ctx : Nat
  lost : Nat
  addr : Word
  mask : Word
  core : Nat
  strand : Nat
  tag : Nat
  seq : Nat
  ncyc : Nat
  sent : Nat
  deriving DecidableEq, Repr

/-- A held collective instance (R188). -/
structure Collective where
  uid : Nat
  group : Nat
  addr : Nat
  index : Nat
  member : Mask
  since : Nat
  /-- strand key, block uid, arrived lanes, operand a, operand b -/
  arrivals : List (Nat × Nat × Mask × Token × Token)
  /-- an XSHFL instance offered to the exchange table -/
  offered : Bool
  deriving DecidableEq, Repr

/-- An offer in a die's exchange table (R194). -/
structure Offer where
  uid : Nat
  ctx : Nat
  xid : Nat
  cluster : Nat
  inst : Nat
  since : Nat
  deriving DecidableEq, Repr

/-- An HCALL in the call mailbox (R387). -/
structure Call where
  uid : Nat
  n : Nat
  ctx : Nat
  die : Nat
  core : Nat
  slot : Nat
  group : Nat
  strands : List Nat
  succ : Word
  args : List Word
  deriving DecidableEq, Repr

/-- A heat pair (R372). -/
structure Heat where
  base : Nat
  size : Nat
  delivered : BitVec 32
  starve : BitVec 32
  deriving DecidableEq, Repr

/-- A hob die (R21, R345, R369, R275). -/
structure Die where
  mode : DieMode
  request : DieMode
  /-- R406: from the quiescing of its links until it is admitted -/
  inReset : Bool
  /-- a warm reset that has been asked for and has not ended (R405), under KILL or PRESERVE -/
  resetting : Option Bool
  copies : KMap (Line × BitVec 2)
  decoded : KMap (Line × BitVec 2)
  /-- lines homed on the die that its L2 holds (R202, R205); their value stands in `State.mem` -/
  resident : List Nat
  cells : KMap Cell
  shadows : KMap Shadow
  shadowBad : KMap FaultCode
  sinks : KMap Sink
  sinkShadows : KMap SinkShadow
  holds : BitVec 16
  swaps : List Swap
  offers : List Offer
  counters : List (BitVec 32)
  heat : KMap Heat
  holding : List Record
  /-- when the oldest held record was last offered to the event queue (R288) -/
  offered : Nat
  lostCount : Nat
  fw : KMap Val
  hot : Bool
  /-- the sample of the time base in the present clock (R370) -/
  sample : Word
  /-- clocks of the arithmetic clock since the die's reset; none begin in IDLE or OFF (R371) -/
  clk : Nat
  /-- what the present clock has counted, which the next one adds: 0 to 4 the die counters, 16 + 2p and 17 + 2p the two of
  heat pair p (R371) -/
  counted : KMap Nat
  /-- slot-clocks occupied on the die up to a time (R373) -/
  slotClocks : Nat
  slotMark : Nat
  /-- a change to OFF that has been asked for and has not ended (R409) -/
  closing : Bool
  /-- WARM_RESET requests, beside the first, that the reset under way will answer (R404) -/
  owed : Nat
  deriving DecidableEq, Repr

/-- A claim on a coming damper window (R374). -/
structure Claim where
  launch : Option Nat
  async : Nat
  amount : Nat
  deriving DecidableEq, Repr

/-- The damper (R373). -/
structure Damper where
  budget : Word
  nextBudget : Option Word
  seq : Word
  admitted : Nat
  reserved : Nat
  measured : Nat
  carry : Nat
  claims : List Claim
  /-- samples taken by the rail monitors (R369) -/
  samples : Nat
  deriving DecidableEq, Repr

/-- The CXL.io register block that firmware publishes (R398, R403): the launch window's base and the image version. The
hop-latency table in it is `Config.hopTable`; its recovery mailbox takes RECOVERY_MAILBOX_LOAD. -/
structure CxlRegs where
  window : Nat
  version : Nat
  deriving DecidableEq, Repr

/-- Boot, firmware and management-standard state (R398 to R404): `master` is the identifier of the elected die, `passed` each
die's self-test, hob dies 0 to 3 and the hearth die (R398, R399). -/
structure Boot where
  powered : Bool
  running : Bool
  recovery : Bool
  flash : FwImage
  image : FwImage
  spdmVersion : Bool
  spdmCaps : Bool
  spdmAlgs : Bool
  master : Option Nat
  passed : List Bool
  regs : Option CxlRegs
  deriving DecidableEq, Repr

/-- What the outside sees: host reads, management replies, standard answers, host snoop answers. -/
inductive Obs where
  | hostRead (pa : Nat) (bytes : List Byte) (poison : Bool)
  | reply (request : Nat) (status : Nat)
  | answer (standard item : Nat) (value : Nat)
  | records (rs : List (List Byte))
  /-- firmware's report of a heat pair: die, pair, elements delivered, starve cycles (R372) -/
  | heat (die pair delivered starve : Nat)
  /-- the DIE_OFFLINE error reply to a host's read, or write, of an address whose home is OFF (R21) -/
  | hostError (pa : Nat) (write : Bool)
  /-- the CXL.io register block as it is published, with the hop-latency table (R403) -/
  | regs (r : CxlRegs) (hops : Nat)
  deriving DecidableEq, Repr

/-- What the next step does: fire instruction `index` of a block, or an event. -/
inductive Act where
  | insn (core entry blk index : Nat)
  | event (e : Instr)
  deriving DecidableEq, Repr

/-- The instruction being executed: core, strand-table entry, block, index. -/
structure Focus where
  core : Nat
  entry : Nat
  blk : Nat
  index : Nat
  deriving DecidableEq, Repr

/-- The machine. -/
structure State where
  /-- the model's own: what the next step does; the selection counter; the instruction in execution; unique ids -/
  pick : Option Act
  turn : Nat
  focus : Option Focus
  uid : Nat
  inbox : List Instr
  /-- the model's own: what the next step does came from the outside -/
  asked : Bool
  out : List Obs
  /-- package time base in ns (R370) -/
  time : Word
  /-- home memory by physical address, poisoned 64-byte sectors -/
  mem : List Host.Cell
  poison : List Nat
  cores : KMap Core
  dies : List Die
  strands : KMap Strand
  groups : KMap Group
  wgs : KMap Wg
  launches : KMap Launch
  queues : List Queue
  rings : KMap Ring
  /-- the hearth die's stage cells: router × 16 + cell (R15, R345) -/
  hearthCells : KMap Cell
  roots : KMap Nat
  ptlb : List TlbEntry
  /-- lines in the package cache with their sectors poisoned there (R205, R217); their value stands in `mem` -/
  pkgCache : KMap (BitVec 2)
  /-- decoded lines that caches may hold: view line, the addresses of the 16 bytes of code and of the 2 bytes of scale storage
  that it was decoded from (R214) -/
  sources : List (Nat × Nat × Nat)
  posted : List Posted
  reqs : List LineReq
  probes : List HeldProbe
  held : List HeldLine
  atoms : List AtomReq
  merges : List Merge
  portLines : List PortLine
  drains : List Drain
  locks : List Lock
  lockMsgs : List LockMsg
  recvMsgs : List RecvMsg
  colls : List Collective
  toks : List RedTok
  events : List Record
  dispRecs : List Record
  energy : KMap Word
  damper : Damper
  mailbox : List Call
  barrierLimit : Nat
  lockLimit : Nat
  holdLimit : Nat
  xshflLimit : Nat
  watchdogLimit : Nat
  rr : List Nat
  links : List Bool
  boot : Boot
  deriving DecidableEq, Repr

/-! ## Reset values -/

/-- R324. -/
def Domain.reset : Domain := ⟨false, 0, 0, 0, 0, 0, 0, 0, 0, false⟩
/-- R324. -/
def Port.reset : Port := ⟨0, false, 0, 0, []⟩
/-- R324: unowned, every cell disabled, first bad cell 0x1FF, overrun cell 0x1FF and input 7. -/
def Field.reset : Field :=
  ⟨none, [], [], [], [], false, 0x1FF, [], [], [], [], List.replicate 4 Domain.reset, 0x1FF, 7,
   List.replicate 8 Port.reset, false, none, [], 0⟩
/-- R345: value 0, threshold 1, select 0, AT 0. -/
def XCounter.reset : XCounter := ⟨0, 1, 0, false, false⟩
/-- R345: products 0, DISARMED. -/
def XTerm.reset : XTerm := ⟨0, 0, 0, 0, 0⟩
/-- R345. -/
def Xbar.reset : Xbar :=
  ⟨none, [], List.replicate 16 XCounter.reset, List.replicate 16 XTerm.reset, List.replicate 4 (0, 0), false, 0,
   [], none, 0⟩
/-- R261: FREE, no owner. -/
def Res.reset : Res := ⟨0, none, none, false⟩
/-- R275: disabled. -/
def RecvQ.reset : RecvQ := ⟨none, [], 0, 0, 0, 0, false⟩
/-- R275: empty, no owner. -/
def Deque.reset : Deque := ⟨none, [], none⟩
/-- A core after its die's reset (R202, R261, R275, R324, R345, R369). -/
def Core.reset : Core :=
  ⟨[], [], List.replicate 36 Res.reset, [], [], [], 0, [], [], [], [], [], Deque.reset, Field.reset, Xbar.reset,
   List.replicate 8 0, 0, 0, [], [], none⟩
/-- R301: IDLE, no owner, period 96. -/
def TaskPair.reset : TaskPair := ⟨0, 0, 0, 0, 0, false, false⟩
/-- R301. -/
def Member.reset : Member := ⟨[], List.replicate 2 TaskPair.reset, none, [], false⟩
/-- R301. -/
def Ring.reset : Ring :=
  ⟨0, none, 0, 96, 0, 0, [], [], List.replicate 16 Member.reset, 0, false, false, [], []⟩
/-- R346: unconfigured. -/
def Cell.reset : Cell := ⟨0, List.replicate 4 [], [], none⟩
/-- A hob die right after it has been admitted (R345, R369, R402): RUN. -/
def Die.reset : Die :=
  ⟨.run, .run, false, none, [], [], [], [], [], [], [], [], 0, [], [], List.replicate 5 0, [], [], 0, 0, [], false, 0,
   0, [], 0, 0, false, 0⟩
/-- R30: disabled, level 0, slice 100 (10 ms), context 0, next slot 0. -/
def Queue.reset : Queue := ⟨false, 0, 100, 0, 0, [], 0, [], []⟩
/-- R373: unlimited budget, everything else 0. -/
def Damper.reset : Damper := ⟨0xFFFF_FFFF_FFFF_FFFF#64, none, 0, 0, 0, 0, 0, [], 0⟩
/-- R398: firmware of the flash image runs; log entry 7 says which image the flash holds. -/
def Boot.reset : Boot := ⟨true, true, false, ⟨0, true⟩, ⟨0, true⟩, false, false, false, some 0, List.replicate 5 true,
  some ⟨0x80_0000_0000, 0⟩⟩

/-- The machine right after a package cold reset: the five dies admitted and in RUN, memory listing nothing (zero),
every queue disabled, the limits at their defaults (barrier 10 ms, lock 1 ms, hold window 20 µs, XSHFL 100 µs,
watchdog 10 s: R199, R216, R195, R381), nothing to do. -/
def State.reset : State where
  pick := none
  turn := 0
  focus := none
  uid := 1
  inbox := []
  asked := false
  out := []
  time := 0
  mem := []
  poison := []
  cores := []
  dies := List.replicate 4 Die.reset
  strands := []
  groups := []
  wgs := []
  launches := []
  queues := List.replicate 64 Queue.reset
  rings := []
  hearthCells := []
  roots := []
  ptlb := []
  pkgCache := []
  sources := []
  posted := []
  reqs := []
  probes := []
  held := []
  atoms := []
  merges := []
  portLines := []
  drains := []
  locks := []
  lockMsgs := []
  recvMsgs := []
  colls := []
  toks := []
  events := []
  dispRecs := []
  energy := []
  damper := Damper.reset
  mailbox := []
  barrierLimit := 10_000_000
  lockLimit := 1_000_000
  holdLimit := 20_000
  xshflLimit := 100_000
  watchdogLimit := 10_000_000_000
  rr := [0, 0, 0, 0]
  links := List.replicate 12 true
  boot := Boot.reset

end Sys2Proof.Machine
end

