-- ==== Sys2Proof/Machine/Base.lean ====
section
/-! DEFINITION. Sparse tables, bytes of memory, and access to the parts of the state by number. -/

namespace Sys2Proof.Machine

/-! ## Sparse tables -/

/-- The entry at key `k`, if listed. -/
def find {α : Type} : KMap α → Nat → Option α
  | [], _ => none
  | (a, v) :: r, k => if a = k then some v else find r k

/-- The entry at key `k`, or `d` where none is listed. -/
def get {α : Type} (m : KMap α) (k : Nat) (d : α) : α := (find m k).getD d

/-- The table with `v` at `k`; keys stay rising. -/
def put {α : Type} : KMap α → Nat → α → KMap α
  | [], k, v => [(k, v)]
  | (a, w) :: r, k, v =>
    if k < a then (k, v) :: (a, w) :: r
    else if k = a then (k, v) :: r
    else (a, w) :: put r k v

/-- The table without `k`. -/
def del {α : Type} : KMap α → Nat → KMap α
  | [], _ => []
  | (a, w) :: r, k => if a = k then r else (a, w) :: del r k

/-- The table with `v` at `k`, not listing the default `d`. -/
def store {α : Type} [DecidableEq α] (m : KMap α) (k : Nat) (v d : α) : KMap α :=
  if v = d then del m k else put m k v

/-- The keys of a table, rising. -/
def keys {α : Type} (m : KMap α) : List Nat := m.map Prod.fst

/-- Keys strictly rising, from `lo` on. -/
def risingFrom {α : Type} : Nat → KMap α → Bool
  | _, [] => true
  | lo, (a, _) :: r => decide (lo ≤ a) && risingFrom (a + 1) r

/-- The entry at `k` changed by `f`, where it is listed. -/
def edit {α : Type} (m : KMap α) (k : Nat) (f : α → α) : KMap α :=
  m.map fun e => if e.1 = k then (e.1, f e.2) else e

/-- Every entry changed by `f`. -/
def mapVals {α : Type} (m : KMap α) (f : α → α) : KMap α := m.map fun e => (e.1, f e.2)

/-! ## Bytes of memory -/

/-- The canonical form of memory: addresses strictly rising and no byte equal to 0, which an unlisted byte reads as
(log entry 8). -/
def Memory.wf (m : List Host.Cell) : Bool := risingFrom 0 m && m.all fun c => c.2 != 0

/-- The byte at a physical address (R202; log entry 8 for one never written). -/
def readByte (m : List Host.Cell) (a : Nat) : Byte := get m a 0

/-- Memory with byte `b` at `a`. -/
def writeByte (m : List Host.Cell) (a : Nat) (b : Byte) : List Host.Cell := store m a b 0

/-- The `n` bytes from `a` upward. -/
def readBytes (m : List Host.Cell) (a n : Nat) : List Byte := (List.range n).map fun k => readByte m (a + k)

/-- Memory with the bytes `bs` from `a` upward. -/
def writeBytes : List Host.Cell → Nat → List Byte → List Host.Cell
  | m, _, [] => m
  | m, a, b :: bs => writeBytes (writeByte m a b) (a + 1) bs

/-- The little-endian number of a list of bytes (R4). -/
def leNat : List Byte → Nat
  | [] => 0
  | b :: bs => b.toNat + 256 * leNat bs

/-- The `n` little-endian bytes of a number (R4). -/
def leBytes : Nat → Nat → List Byte
  | 0, _ => []
  | n + 1, v => BitVec.ofNat 8 v :: leBytes n (v / 256)

/-- The `n`-byte little-endian number at `a`. -/
def readLE (m : List Host.Cell) (a n : Nat) : Nat := leNat (readBytes m a n)

/-- Memory with the `n`-byte little-endian number `v` at `a`. -/
def writeLE (m : List Host.Cell) (a n v : Nat) : List Host.Cell := writeBytes m a (leBytes n v)

/-- The 128-byte line at line address `a`. -/
def readLine (m : List Host.Cell) (a : Nat) : Line := BitVec.ofNat 1024 (readLE m a 128)

/-- Memory with line `l` at line address `a`. -/
def writeLine (m : List Host.Cell) (a : Nat) (l : Line) : List Host.Cell := writeLE m a 128 l.toNat

/-- Bits [lo + n - 1 : lo] of a number. -/
def bitsOf (v lo n : Nat) : Nat := v / 2 ^ lo % 2 ^ n

/-- The `n` bytes of a line from byte `off` on, as a number. -/
def lineGet (l : Line) (off n : Nat) : Nat := bitsOf l.toNat (8 * off) (8 * n)

/-- A line with the `n`-byte number `v` at byte `off`. -/
def linePut (l : Line) (off n v : Nat) : Line :=
  let keep := l &&& ~~~((BitVec.ofNat 1024 (2 ^ (8 * n) - 1)) <<< (8 * off))
  keep ||| ((BitVec.ofNat 1024 (v % 2 ^ (8 * n))) <<< (8 * off))

/-- The address of the 128-byte line that holds `a`. -/
def lineOf (a : Nat) : Nat := a / 128 * 128

/-- The address of the 64-byte sector that holds `a`. -/
def sectorOf (a : Nat) : Nat := a / 64 * 64

/-! ## Sets of numbers, kept rising and without repeats -/

/-- The set with `k`. -/
def insertNat : List Nat → Nat → List Nat
  | [], k => [k]
  | a :: r, k => if k < a then k :: a :: r else if k = a then a :: r else a :: insertNat r k

/-- The set without `k`. -/
def removeNat (l : List Nat) (k : Nat) : List Nat := l.filter fun x => x != k

/-! ## Dies, cores, clusters -/

/-- The die of a package core, 48 cores a die (R10). -/
def dieOf (core : Nat) : Nat := core / 48

/-- The die identifier of hob die `d` (R9). -/
def dieId (d : Nat) : Nat := 8 + d

/-- The key of strand-table entry `e` of core `c`. -/
def strandKey (c e : Nat) : Nat := 256 * c + e

/-- The core of a strand key. -/
def coreOf (key : Nat) : Nat := key / 256

/-- A core, at its reset values where nothing has touched it. -/
def core (s : State) (c : Nat) : Core := get s.cores c Core.reset

/-- The state with core `c` changed. -/
def setCore (s : State) (c : Nat) (v : Core) : State := { s with cores := store s.cores c v Core.reset }

/-- The state with core `c` changed by `f`. -/
def modCore (s : State) (c : Nat) (f : Core → Core) : State := setCore s c (f (core s c))

/-- A hob die. -/
def die (s : State) (d : Nat) : Die := s.dies.getD d Die.reset

/-- The state with die `d` changed by `f`. -/
def modDie (s : State) (d : Nat) (f : Die → Die) : State := { s with dies := s.dies.modify d f }

/-- The number of the present clock of core `c`'s die: two things that happen in one clock of a die read the same number
(R123, R135, R278, R371). -/
def clkOf (s : State) (c : Nat) : Nat := (die s (dieOf c)).clk

/-- The die's arithmetic clock runs: RUN or EMBER, and not in reset (R21, R371, R409). -/
def Die.runs (x : Die) : Bool := (x.mode == .run || x.mode == .ember) && !x.inReset

/-- The die's mode and the mode asked for; an arithmetic clock that starts again takes the current time (R370, R371, R409). -/
def setMode (s : State) (d : Nat) (m r : DieMode) : State :=
  modDie s d fun x =>
    let y := { x with mode := m, request := r }
    if x.runs || !y.runs then y else { y with sample := s.time }

/-- The mode in which a die that is to run does: EMBER while thermal control holds it there (R410). -/
def Die.running (x : Die) : DieMode := if x.hot then .ember else .run

/-- The key of ring `r` of die `d`. -/
def ringKey (d r : Nat) : Nat := 3 * d + r

/-- A ring. -/
def ring (s : State) (k : Nat) : Ring := get s.rings k Ring.reset

/-- The state with ring `k` changed by `f`. -/
def modRing (s : State) (k : Nat) (f : Ring → Ring) : State :=
  { s with rings := store s.rings k (f (ring s k)) Ring.reset }

/-- The state with strand `k` changed by `f`. -/
def modStrand (s : State) (k : Nat) (f : Strand → Strand) : State := { s with strands := edit s.strands k f }

/-- The state with group `g` changed by `f`. -/
def modGroup (s : State) (g : Nat) (f : Group → Group) : State := { s with groups := edit s.groups g f }

/-- The state with workgroup `w` changed by `f`. -/
def modWg (s : State) (w : Nat) (f : Wg → Wg) : State := { s with wgs := edit s.wgs w f }

/-- The state with launch `l` changed by `f`. -/
def modLaunch (s : State) (l : Nat) (f : Launch → Launch) : State := { s with launches := edit s.launches l f }

/-- A fresh number and the state that has used it. -/
def fresh (s : State) : Nat × State := (s.uid, { s with uid := s.uid + 1 })

/-! ## Counters and the die's clock (R369 to R371) -/

/-- `k` more of item `n` in a table of counts. -/
def countIn (m : KMap Nat) (n k : Nat) : KMap Nat := store m n (get m n 0 + k) 0

/-- The core has counted `k` of item `n` of `Core.counted`; the next clock adds it, so that a set in the same clock stands and
nothing is lost (R371; log entry 52). -/
def Core.count (x : Core) (n k : Nat) : Core := { x with counted := countIn x.counted n k }

/-- Counter `n` of a core's performance counters counts `k` (R371). -/
def bump (s : State) (c n k : Nat) : State := modCore s c fun x => x.count n k

/-- CLK of a core: the clocks of its die, moved by CNTSET (R371). -/
def coreClk (s : State) (c : Nat) : Word := (core s c).perf.getD 0 0 + BitVec.ofNat 64 (clkOf s c)

/-- A 32-bit counter raised by `k`, saturating (R369). -/
def satAdd32 (v : BitVec 32) (k : Nat) : BitVec 32 := BitVec.ofNat 32 (min (v.toNat + k) 0xFFFF_FFFF)

/-- Item `n` of `Core.counted` enters its counter (R369). -/
def Core.add (x : Core) (n k : Nat) : Core :=
  if n < 8 then { x with perf := x.perf.modify n (· + BitVec.ofNat 64 k) }
  else if n = 8 then { x with sat := satAdd32 x.sat k }
  else if n = 9 then { x with corr := satAdd32 x.corr k }
  else { x with lost := store x.lost (n - 16) (satAdd32 (get x.lost (n - 16) 0) k) 0 }

/-- A new clock of the core's die: what the last one counted enters the counters (R371). -/
def Core.newClock (x : Core) : Core := x.counted.foldl (fun y e => y.add e.1 e.2) { x with counted := [] }

/-- Item `n` of `Die.counted` enters its counter (R369). -/
def Die.add (x : Die) (n k : Nat) : Die :=
  if n < 16 then { x with counters := x.counters.modify n (satAdd32 · k) }
  else { x with heat := edit x.heat ((n - 16) / 2) fun h =>
    if n % 2 = 0 then { h with delivered := satAdd32 h.delivered k } else { h with starve := satAdd32 h.starve k } }

/-- The die has counted `k` of item `n` of `Die.counted`: the next clock adds it; without a running clock nothing can set the
counter meanwhile, and it is added at once (R371). -/
def Die.count (x : Die) (n k : Nat) : Die :=
  if x.runs then { x with counted := countIn x.counted n k } else x.add n k

/-- The sample that a new clock of the die takes at time `t`: at most 8 ns behind the package's and never less than the last; in
EMBER 2 or 3 more than the last (R370; log entry 2). `k` is the free value. -/
def Die.sampleAt (x : Die) (t : Word) (k : Nat) : Word :=
  if x.mode == .ember then x.sample + BitVec.ofNat 64 (2 + k % 2)
  else
    let v := t - BitVec.ofNat 64 (k % 9)
    if (v - x.sample).toInt ≤ 0 then x.sample else v

/-- A new clock of the die at time `t` (R370, R371). -/
def Die.newClock (t : Word) (k : Nat) (x : Die) : Die :=
  x.counted.foldl (fun y e => y.add e.1 e.2) { x with clk := x.clk + 1, sample := x.sampleAt t k, counted := [] }

/-- A clock of the die begins at time `t`: it may where its sample does not pass the time base, and it must where its copy would
fall more than 8 ns behind otherwise (R370; log entry 2). `want` and `k` are the free values. -/
def Die.begins (x : Die) (t : Word) (want : Bool) (k : Nat) : Bool :=
  x.runs && (8 ≤ (t - x.sample).toNat || (want && 0 ≤ (t - x.sampleAt t k).toInt))

/-- The strands of a group, by key. -/
def strandsOf (s : State) (g : Nat) : KMap Strand := s.strands.filter fun e => e.2.group = g

/-- The groups of a workgroup, by key. -/
def groupsOf (s : State) (w : Nat) : KMap Group := s.groups.filter fun e => e.2.wg = w

/-- The launch of a workgroup. -/
def launchOfWg (s : State) (w : Nat) : Option Launch := (find s.wgs w).bind fun x => find s.launches x.launch

/-- What a strand's place gives at once: its group, workgroup and launch. -/
structure Place where
  gk : Nat
  g : Group
  wk : Nat
  w : Wg
  lk : Nat
  l : Launch

/-- The place of the strand with key `k`. -/
def placeOf (s : State) (k : Nat) : Option (Strand × Place) := do
  let st ← find s.strands k
  let g ← find s.groups st.group
  let w ← find s.wgs g.wg
  let l ← find s.launches w.launch
  return (st, ⟨st.group, g, g.wg, w, w.launch, l⟩)

/-! ## Tokens -/

/-- A token's value for lane `l` (R130). -/
def Token.at_ (t : Token) (l : Nat) : Val := if t.uni then t.val else get t.lanes l 0

/-- A uniform token (R130). -/
def uniTok (width : Nat) (m : Mask) (v : Val) : Token := ⟨width, false, true, m, v, []⟩

/-- A per-lane token over the lanes of `m` (R130). -/
def laneTok (width : Nat) (m : Mask) (f : Nat → Val) : Token :=
  ⟨width, false, false, m, 0, m.lanes.map fun l => (l, f l)⟩

/-- A token over `m`: uniform with the value of one lane when `u`, per-lane otherwise. The value of a uniform token is
taken at the lowest lane of its mask; its operands are uniform, so every lane gives the same. -/
def mkTok (u : Bool) (width : Nat) (m : Mask) (f : Nat → Val) : Token :=
  if u then uniTok width m (f (m.lowest.getD 0)) else laneTok width m f

/-- The token with its mask cut to `m`. -/
def Token.cut (t : Token) (m : Mask) : Token :=
  { t with mask := m, lanes := t.lanes.filter fun e => m.has e.1 }

/-- A token with the empty mask, for a slot nothing has reached. -/
def noTok : Token := uniTok 32 0 0

/-- Low `w` bits of a value. -/
def lowBits (w : Nat) (v : Val) : Val := v &&& BitVec.ofNat 128 (2 ^ w - 1)

/-- A value of type `t`, read from a token's low bits (R130). -/
def valOf (t : Ty) (v : Val) : Val := lowBits t.width v

/-- The value of type `t` as an integer (R102). -/
def intOf (t : Ty) (v : Val) : Int :=
  if t.signed then (BitVec.ofNat t.width v.toNat).toInt else ((v.toNat % 2 ^ t.width : Nat) : Int)

/-- A result of type `t` as a token carries it: i8 and i16 sign-extended to 32 bits, every other zero-extended (R103,
R130). -/
def carry (t : Ty) (x : Int) : Val :=
  if t.signed then BitVec.ofNat 128 (BitVec.ofInt t.tokenWidth (BitVec.ofInt t.width x).toInt).toNat
  else BitVec.ofNat 128 (BitVec.ofInt t.width x).toNat

/-- A bit pattern of type `t` as a token carries it (R130). -/
def carryBits (t : Ty) (v : Nat) : Val := carry t (v : Int)

end Sys2Proof.Machine
end

