-- ==== Sys2Proof/Machine/Ops.lean ====
section
/-! DEFINITION. The operations every instruction shares: where it stands in its block, delivering tokens, resolving,
raising a fault; event records, discarding blocks, taking a fault, entering and leaving trap mode, and the strand table's
entries (R38 to R45, R130 to R135, R287, R288, R377 to R383). -/

namespace Sys2Proof.Machine

/-! ## The instruction in its block -/

/-- An instruction about to perform: its strand's key, its block and its index. -/
structure Site where
  key : Nat
  st : Strand
  b : Blk
  i : Nat

/-- The instruction that the state's focus names, if its block is in flight. -/
def site? (s : State) : Option Site := do
  let f ← s.focus
  let st ← find s.strands (strandKey f.core f.entry)
  let b ← st.blocks.find? fun b => b.uid == f.blk
  return ⟨strandKey f.core f.entry, st, b, f.index⟩

/-- Run `f` at the instruction in focus; without one the machine has nothing to do. -/
def atSite (s : State) (f : Site → State) : Host.Outcome State Fault Refusal :=
  match site? s with
  | some x => .next (f x)
  | none => .fault .noBlock

/-- The package core of a site. -/
def Site.core (x : Site) : Nat := coreOf x.key

/-- Operand `k` (a, b, c as 0, 1, 2) as delivered (R131). -/
def Site.opnd (x : Site) (k : Nat) : Token := get x.b.slots (4 * x.i + k) noTok

/-- The state with block `uid` of strand `key` changed by `f`. -/
def modBlk (s : State) (key uid : Nat) (f : Blk → Blk) : State :=
  modStrand s key fun st => { st with blocks := st.blocks.map fun b => if b.uid = uid then f b else b }

/-- The state with the site's block changed by `f`. -/
def Site.mod (x : Site) (s : State) (f : Blk → Blk) : State := modBlk s x.key x.b.uid f

/-- The token slot of a target (R70); the discard target has none. -/
def Target.slot? : Target → Option Nat
  | .nul => none
  | .opnd i .a => some (4 * i.toNat)
  | .opnd i .b => some (4 * i.toNat + 1)
  | .opnd i .c => some (4 * i.toNat + 2)
  | .out n => some (4 * n.toNat + 3)

/-- The block with `t` delivered to a target (R133). -/
def Blk.deliver (b : Blk) (g : Target) (t : Token) : Blk :=
  match Target.slot? g with
  | some k => { b with slots := put b.slots k t }
  | none => b

/-- The block with instruction `i` fired. -/
def Blk.fire (b : Blk) (i : Nat) : Blk := { b with fired := b.fired ||| Mask.one i }

/-- The block with instruction `i` fired and resolved (R134). -/
def Blk.resolve (b : Blk) (i : Nat) : Blk :=
  { b with fired := b.fired ||| Mask.one i, resolved := b.resolved ||| Mask.one i, waits := del b.waits i }

/-- The block with a fault raised in die clock `now`: the first one raised decides, and of those raised in one clock the one
of the lower instruction index (R135, R377). -/
def Blk.raise (b : Blk) (now : Nat) (r : Raised) : Blk :=
  match b.raised with
  | none => { b with raised := some r, raisedAt := now }
  | some q => if b.raisedAt = now ∧ r.index < q.index then { b with raised := some r } else b

/-- The instruction fires, delivers `ta` to target A and `tb` to target B, and resolves (R131, R133, R134). -/
def Blk.finish (b : Blk) (i : Nat) (ga gb : Target) (ta tb : Token) : Blk :=
  ((b.deliver ga ta).deliver gb tb).resolve i

/-- The site's instruction fires, delivers one token to both targets and resolves. -/
def Site.yield (x : Site) (s : State) (ga gb : Target) (t : Token) : State :=
  x.mod s fun b => b.finish x.i ga gb t t

/-- The site's instruction fires and raises a fault with lane mask `m` and address `a` (R377, R379). -/
def Site.fault (x : Site) (s : State) (c : FaultCode) (m : Mask) (a : Nat) : State :=
  x.mod s fun b => (b.fire x.i).raise (clkOf s x.core) ⟨c, x.i, m, a, 0⟩

/-- The site's instruction fires, keeps effect `e` for the commit, delivers `t` and resolves (R42). -/
def Site.commitWith (x : Site) (s : State) (ga gb : Target) (t : Token) (e : Effect) : State :=
  x.mod s fun b => { b.finish x.i ga gb t t with effects := b.effects ++ [(x.i, e)] }

/-- The site's group, workgroup and launch. -/
def Site.place (x : Site) (s : State) : Option Place := (placeOf s x.key).map Prod.snd

/-- A token operand as a number: the uniform value, or that of the lowest lane of its mask (R186). -/
def Token.scalar (t : Token) : Nat := if t.uni then t.val.toNat else (t.at_ (t.mask.lowest.getD 0)).toNat

/-- As `Token.scalar`, in 64 bits (R186). -/
def Token.scalar64 (t : Token) : Word := BitVec.ofNat 64 t.scalar

/-! ## Event records -/

/-- The number of a fault code (R380). -/
def FaultCode.code : FaultCode → Nat
  | .blockFormat => 1 | .opcodeUndef => 2 | .blockStarved => 3 | .exitConflict => 4 | .memberExited => 5
  | .illegalConvergence => 6 | .pageFault => 7 | .accessViolation => 8 | .misaligned => 9 | .atomicUnsupported => 10
  | .formatReadOnly => 11 | .poisonConsumed => 12 | .lockTimeout => 13 | .lockDeadlock => 14 | .lockPoisoned => 15
  | .barTimeout => 16 | .xshflTimeout => 17 | .incrementOverrun => 18 | .patchInvalid => 19 | .ringMissLimit => 20
  | .slotState => 21 | .queueUnbound => 22 | .cfgPoison => 23 | .tokenContext => 24 | .redTimeout => 25
  | .dieOffline => 26 | .maskOrphan => 27 | .energyDenied => 28 | .trap => 29 | .brk => 30 | .watchdog => 31

/-- The code goes to the trap handler when there is one (R380); PAGE_FAULT, BREAK and WATCHDOG always park. -/
def FaultCode.handled : FaultCode → Bool
  | .pageFault | .brk | .watchdog => false
  | _ => true

/-- Room of the event queue (R275). -/
def eventRoom (s : State) : Nat := 4096 - s.events.length

/-- A record of type `ty` and code `c` with the fields that most have zero. -/
def Record.basic (ty c die ctx : Nat) : Record := ⟨0, ty, c, die, 0, ctx, 0, 0, 0, 0, 0, 0, 0, 0, 0⟩

/-- The 32 bytes of an event record (R287). -/
def Record.bytes (r : Record) : List Byte :=
  leBytes 1 r.type ++ leBytes 1 r.code ++ leBytes 1 r.die ++ leBytes 1 r.slot ++ leBytes 2 r.ctx ++ leBytes 2 r.lost ++
    leBytes 8 r.addr.toNat ++ leBytes 8 r.mask.toNat ++ leBytes 1 r.core ++ leBytes 1 r.strand ++ leBytes 2 r.tag ++
    leBytes 1 r.seq ++ leBytes 1 r.ncyc ++ leBytes 2 0

/-- A die that has dropped `n` more records (R288, R371). -/
def Die.lose (x : Die) (n : Nat) : Die :=
  ({ x with lostCount := min (x.lostCount + n) 0xFFFF } : Die).count 4 n

/-- A hob die's records enter the event queue: the first carries the die's lost count, which returns to 0 (R288). -/
def deliverRecords (s : State) (d : Nat) (rs : List Record) : State :=
  modDie { s with events := s.events ++ rs.zipIdx.map fun e =>
      { e.1 with lost := if e.2 = 0 then (die s d).lostCount else 0, sent := s.uid } } d fun x => { x with lostCount := 0 }

/-- Records enter a die's holding registers; the first of them is offered 1 µs later (R288). -/
def holdRecords (s : State) (d : Nat) (rs : List Record) : State :=
  modDie s d fun x =>
    { x with holding := x.holding ++ rs, offered := if x.holding.isEmpty then s.time.toNat else x.offered }

/-- Hob die `d` reports a record: delivered with the die's lost count, held when the event queue is full or older records
are held, dropped when the holding registers are full too (R288). The answer is what a parked strand waits for firmware to take. -/
def report (s : State) (d : Nat) (r : Record) : State × Option Untaken :=
  let (n, s) := fresh s
  let r := { r with uid := n }
  if 0 < eventRoom s && (die s d).holding.isEmpty then (deliverRecords s d [r], none)
  else if (die s d).holding.length < 8 then (holdRecords s d [r], some (.held n))
  else (modDie s d (Die.lose · 1), some (.dropped n))

/-- The hearth die's dispatcher or a home slice of the hearth die reports a record; it waits until there is room and is
never dropped (R288). -/
def reportHearth (s : State) (r : Record) : State :=
  let (n, s) := fresh s
  let r := { r with uid := n }
  if 0 < eventRoom s && s.dispRecs.isEmpty then { s with events := s.events ++ [r] }
  else { s with dispRecs := s.dispRecs ++ [r] }

/-- Records that die `d` (4 the hearth die) reports together: all are delivered, all are held, or all are dropped (R287,
R288). -/
def reportAll (s : State) (d : Nat) (rs : List Record) : State :=
  if 4 ≤ d then rs.foldl reportHearth s
  else if rs.length ≤ eventRoom s && (die s d).holding.isEmpty then rs.foldl (fun s r => (report s d r).1) s
  else if (die s d).holding.length + rs.length ≤ 8 then
    holdRecords { s with uid := s.uid + rs.length } d (rs.zipIdx.map fun e => { e.1 with uid := s.uid + e.2 })
  else modDie s d (Die.lose · rs.length)

/-- The record of a fault of strand `key` (R379). -/
def faultRecord (key : Nat) (p : Place) (r : Raised) : Record :=
  { Record.basic 1 r.code.code (dieId (dieOf (coreOf key))) p.w.ctx with
    slot := p.g.slot, core := coreOf key, strand := key % 256, tag := p.l.tag, mask := r.mask,
    addr := BitVec.ofNat 64 (r.addr % 2 ^ 52 + r.index * 2 ^ 56), seq := r.tnum % 256, ncyc := r.tnum / 256 }

/-! ## Poison -/

/-- The sector at `a` (64-byte aligned) is poisoned (R217). -/
def poisoned (s : State) (a : Nat) : Bool := s.poison.contains (sectorOf a)

/-- The state with the sector of `a` poisoned or clean. -/
def setPoison (s : State) (a : Nat) (b : Bool) : State :=
  { s with poison := if b then insertNat s.poison (sectorOf a) else removeNat s.poison (sectorOf a) }

/-- The two poison bits of a line. -/
def linePoison (s : State) (line : Nat) : BitVec 2 :=
  (if poisoned s line then 1 else 0) ||| (if poisoned s (line + 64) then 2 else 0)

/-- The state with a line's contents and poison set. -/
def setLine (s : State) (line : Nat) (l : Line) (p : BitVec 2) : State :=
  setPoison (setPoison { s with mem := writeLine s.mem line l } line (p.getLsbD 0)) (line + 64) (p.getLsbD 1)

/-! ## Discarding blocks -/

/-- Items no longer reserved by block `uid` (R44). -/
def unreserve (uid : Nat) (l : List Item) : List Item :=
  l.map fun i => if i.resv = some uid then { i with resv := none } else i

/-- A reservation no longer held by block `uid`. -/
def unresv (uid : Nat) (r : Option Nat) : Option Nat := if r = some uid then none else r

/-- A core with every reservation of block `uid` returned (R44). -/
def unreserveCore (uid : Nat) (c : Core) : Core :=
  { c with
    res := c.res.map fun r => if r.resv = some uid then { r with resv := none, owner := none } else r
    compq := mapVals c.compq (unreserve uid)
    recv := mapVals c.recv fun q => { q with items := unreserve uid q.items }
    deque := { c.deque with entries := unreserve uid c.deque.entries }
    field := { c.field with
      resv := removeNat c.field.resv uid
      shadowResv := unresv uid c.field.shadowResv
      ports := c.field.ports.map fun p => { p with queue := unreserve uid p.queue } }
    xbar := { c.xbar with resv := removeNat c.xbar.resv uid } }

/-- The lines held for block `uid`'s atomics go back to their contents before, and its unperformed atomics are gone
(R230). -/
def dropAtomics (s : State) (uid : Nat) : State :=
  let s := (s.held.filter fun h => h.blk == uid).foldl (fun s h => setLine s h.line h.old h.oldPoison) s
  { s with held := s.held.filter fun h => h.blk != uid, atoms := s.atoms.filter fun a => a.blk != uid }

/-- A collective instance without block `uid`'s arrival; an offered one is no longer complete (R189). -/
def Collective.without (c : Collective) (uid : Nat) : Collective :=
  if c.arrivals.any fun a => a.2.1 == uid then
    { c with arrivals := c.arrivals.filter fun a => a.2.1 != uid, offered := false }
  else c

/-- Block `uid`'s arrivals withdrawn, empty instances dropped, offers of instances no longer complete withdrawn (R189,
R195). -/
def dropArrivals (s : State) (uid : Nat) : State :=
  let cs := (s.colls.map fun c => c.without uid).filter fun c => !c.arrivals.isEmpty
  { s with
    colls := cs
    dies := s.dies.map fun d =>
      { d with offers := d.offers.filter fun o => cs.any fun c => c.uid == o.inst && c.offered } }

/-- A lock request is that of block `b` of group `gk`, or the entry of its earlier run, which a resumption has left without a
block (R256). -/
def Waiter.ofBlk (w : Waiter) (gk : Nat) (b : Blk) : Bool :=
  w.blk == b.uid || (w.blk == 0 && w.group == gk && w.addr == b.addr && w.lanes &&& b.mask != 0)

/-- Lock requests of block `b` of group `gk`: marked away by pre-emption, removed by any other discard (R256). -/
def dropWaiters (s : State) (gk : Nat) (b : Blk) (away : Bool) : State :=
  if away then
    let f : Waiter → Waiter := fun w => if w.blk == b.uid then { w with away := true } else w
    { s with
      locks := s.locks.map fun l => { l with waiters := l.waiters.map f }
      lockMsgs := s.lockMsgs.map fun m => match m with
        | .request w line home only r => .request (f w) line home only r
        | m => m }
  else
    { s with
      locks := s.locks.map fun l => { l with waiters := l.waiters.filter fun w => !w.ofBlk gk b }
      lockMsgs := s.lockMsgs.filter fun m => match m with
        | .request w _ _ _ _ => !w.ofBlk gk b
        | _ => true }

/-- Blocks of a strand discarded, the first one first: their completed collectives become replay records, each behind the
blocks that the re-run meets before it, and records that the blocks had not taken wait again. A trap handler's blocks re-run
behind records of trap mode alone, and the others behind the others (R189, R382). -/
def Group.rewind (g : Group) (trap : Bool) (gone : List Blk) : Group :=
  let back (r : Replay) : Replay := match r.blk with
    | some u => match gone.findIdx? fun b => b.uid == u with
      | some n => { r with ahead := n, blk := none }
      | none => r
    | none =>
      if r.trap == trap && gone.any fun b => b.mask &&& r.mask != 0 then { r with ahead := r.ahead + gone.length } else r
  { g with replay := g.replay.map back ++ gone.zipIdx.flatMap fun b =>
      b.1.results.map fun e => ⟨b.1.addr, e.1, b.1.mask, e.2, b.2, none, trap⟩ }

/-- The group without the records of a trap handler's blocks for lanes of `m`: the strand enters trap mode anew or has left it,
so that nothing re-runs them (R189, R382, R388). -/
def Group.dropTrapReplay (g : Group) (m : Mask) : Group :=
  { g with replay := g.replay.filter fun r => !r.trap || r.mask &&& m == 0 }

/-- Block `b` of strand `key` discarded: its reservations return, its atomics and arrivals leave no trace, and DISCARD
counts (R44, R230, R256, R371). An item goes back to its old place in its queue; a deque entry popped from the bottom
therefore stands below those that were below it and above what another strand has pushed meanwhile (log entry 48). -/
def discardBlk (away : Bool) (key : Nat) (s : State) (b : Blk) : State :=
  let s := dropWaiters (dropArrivals (dropAtomics s b.uid) b.uid) (((find s.strands key).map Strand.group).getD 0) b away
  let s : State := { s with
    cores := mapVals s.cores (unreserveCore b.uid),
    rings := mapVals s.rings fun r => { r with queue := unreserve b.uid r.queue },
    reqs := s.reqs.map fun r => { r with loads := r.loads.filter fun l => l.1 != b.uid } }
  bump s (coreOf key) 3 1

/-- Every uncommitted block of strand `key` discarded (R43, R44). -/
def discardAll (s : State) (key : Nat) (away : Bool) : State :=
  match find s.strands key with
  | none => s
  | some st =>
    modStrand (modGroup (st.blocks.foldl (discardBlk away key) s) st.group fun g => g.rewind st.trap st.blocks) key
      fun t => { t with blocks := [] }

/-- The blocks of strand `key` from number `uid` on discarded; the strand goes on from the first of them (R43). -/
def discardFrom (s : State) (key uid : Nat) : State :=
  match find s.strands key with
  | none => s
  | some st =>
    let keep := st.blocks.takeWhile fun b => b.uid != uid
    let gone := st.blocks.dropWhile fun b => b.uid != uid
    modStrand (modGroup (gone.foldl (discardBlk false key) s) st.group fun g => g.rewind st.trap gone) key fun t =>
      { t with blocks := keep, pc := match gone with
        | b :: _ => BitVec.ofNat 64 b.addr
        | [] => t.pc }

/-! ## Taking a fault, trap mode -/

/-- The trap bank of a fault (R382). -/
def trapBank (r : Raised) (resume : Word) : List Word :=
  [BitVec.ofNat 64 (r.tnum % 2 ^ 16 * 2 ^ 16 + r.index % 256 * 2 ^ 8 + r.code.code), BitVec.ofNat 64 (r.addr % 2 ^ 52),
   r.mask, resume]

/-- What a strand that takes a fault still has to take at its next block: the park of a stopped workgroup, not a
barrier's timeout (R201, R381). -/
def Strand.stillDue (st : Strand) : Option (FaultCode × Option Untaken) := st.due.filter fun e => e.1 = .watchdog

/-- The strand in trap mode at the handler: pc %tbase, its lanes and registers kept, the bank loaded (R382). -/
def Strand.enterTrap (st : Strand) (tbase : Word) (r : Raised) (resume : Word) : Strand :=
  { st with pc := tbase, trap := true, bank := trapBank r resume, st := .ready, due := st.stillDue }

/-- The strand parked with a fault at `resume` (R378). -/
def Strand.park (st : Strand) (r : Raised) (resume : Word) (rec : Option Untaken) : Strand :=
  { st with pc := resume, st := .parked r.code, record := rec, due := st.stillDue }

/-- A fault is taken: the strand's uncommitted blocks are discarded, and the strand enters its handler or parks with a
record (R378, R380, R382). `resume` is the faulting block's address, or the successor for TRAP and BREAK. -/
def takeFault (s : State) (key : Nat) (r : Raised) (resume : Word) : State :=
  let s := discardAll s key false
  match placeOf s key with
  | none => s
  | some (st, p) =>
    if r.code.handled && p.g.tbase != 0 && !st.trap then
      modStrand (modGroup s p.gk fun g => g.dropTrapReplay st.mask) key fun t => t.enterTrap p.g.tbase r resume
    else
      let (s, n) := report s (dieOf (coreOf key)) (faultRecord key p r)
      modStrand s key fun t => t.park r resume n

/-- The strand leaves trap mode: the bank is dropped and the strand goes on at s3 AND NOT 0xF (R388). -/
def Strand.leaveTrap (st : Strand) : Strand :=
  { st with trap := false, bank := [], pc := (st.bank.getD 3 0) &&& ~~~(0xF : Word), st := .ready }

/-- The strand without asynchronous operation `n`; a FLSIG that failed at a home die marks it (R43, R249). -/
def Strand.endAsync (n : Nat) (failed : Option Nat) (t : Strand) : Strand :=
  if t.asyncs.contains n then { t with asyncs := removeNat t.asyncs n, drainFailed := t.drainFailed.or failed } else t

/-- An asynchronous operation completes: no strand, saved strand or parked pair waits for it any more; a failed FLSIG
marks them (R43, R249). -/
def endAsync (s : State) (n : Nat) (failed : Option Nat) : State :=
  { s with
    strands := mapVals s.strands (Strand.endAsync n failed)
    wgs := mapVals s.wgs fun w =>
      { w with saved := w.saved.map fun v => { v with strands := v.strands.map (Strand.endAsync n failed) } }
    groups := mapVals s.groups fun g =>
      { g with parked := g.parked.map fun p =>
          if p.asyncs.contains n then
            { p with asyncs := removeNat p.asyncs n, drainFailed := p.drainFailed.or failed } else p } }

/-- A job or command of number `n` has made its writes: blocks with HOLD of the strands that wait for it use no L1 line
filled before (R43, R233). -/
def jobDone (s : State) (n : Nat) : State :=
  let (k, s) := fresh s
  { s with
    strands := mapVals s.strands fun t => if t.asyncs.contains n then { t with jobMin := k } else t
    groups := mapVals s.groups fun g =>
      { g with parked := g.parked.map fun p => if p.asyncs.contains n then { p with jobMin := k } else p } }

/-- The return from a trap of strand `key`. -/
def trapReturn (s : State) (key : Nat) : State :=
  match find s.strands key with
  | some st => modStrand (modGroup s st.group fun g => g.dropTrapReplay st.mask) key Strand.leaveTrap
  | none => s

/-! ## The strand table -/

/-- The free entries of a core's strand table (R37). -/
def freeEntries (s : State) (c : Nat) : List Nat :=
  (List.range 256).filter fun e => (find s.strands (strandKey c e)).isNone

/-- A free entry of core `c`, if there is one; which one is a free value (log entry 6). -/
def takeEntry (s : State) (c : Nat) : Option Nat :=
  let l := freeEntries s c
  l[Config.entry s.uid % l.length]?

/-- The group holds fewer than 16 strands (R37). -/
def groupHasRoom (s : State) (gk : Nat) : Bool := (strandsOf s gk).length < 16

/-- A strand that starts ready at `pc` with lanes `m`. -/
def Strand.start (gk : Nat) (m : Mask) (pc : Word) : Strand :=
  ⟨gk, m, pc, .ready, false, [], none, [], [], 0, [], none, none, false, none, 0, 0, 0⟩

/-- What lies at the successor is met: a trap or a break is taken, a call still in the mailbox parks the strand (R385,
R386, R387), and so is a timeout that came while the lanes were parked (R198). -/
def meetAfter (s : State) (key : Nat) (a : Option After) : State :=
  match a, find s.strands key with
  | some (.trap n i), some st => takeFault s key ⟨.trap, i, st.mask, st.pc.toNat, n⟩ st.pc
  | some (.brk i), some st => takeFault s key ⟨.brk, i, st.mask, st.pc.toNat, 0⟩ st.pc
  | some .late, some st => takeFault s key ⟨.barTimeout, 0xFF, st.mask, st.pc.toNat, 0⟩ st.pc
  | some (.call u), some _ =>
    if s.mailbox.any fun c => c.uid == u then
      { modStrand s key fun st => { st with st := .call u } with
        mailbox := s.mailbox.map fun c => if c.uid == u then { c with strands := c.strands ++ [key] } else c }
    else s
  | _, _ => s

/-- The lane set of a task group that lanes `m` belong to, which is the task pair they serve (R307). -/
def taskOf (g : Group) (m : Mask) : Option Nat :=
  g.joined.map fun j => (m.lowest.getD 0) / (8 * 2 ^ j.1)

/-- No strand of the group with a higher lowest lane has committed in this die clock: commits of one clock, and the arrivals
that they make at a label, go in order of the lowest lanes (R123, R197). -/
def Group.turn (g : Group) (now lane : Nat) : Bool := g.committed.all fun e => e.1 != now || e.2 ≤ lane

/-- The group's workgroup is resident. -/
def groupHere (s : State) (g : Group) : Bool := (find s.wgs g.wg).any fun w => w.st = .resident

/-- The parked pairs of a core that may become strands: stamp, slot × 64 + position, group key, index in the parked set
(R39). The core-local group number of R39 is read as slot × 64 + lane position, which no rule defines (log entry 48).
Pairs without a successor and pairs waiting at a REGANG label are passed over. -/
def wakeable (s : State) (c : Nat) : List (Nat × Nat × Nat × Nat) :=
  s.groups.flatMap fun e =>
    if e.2.core = c && groupHere s e.2 && groupHasRoom s e.1 then
      e.2.parked.zipIdx.filterMap fun p =>
        if p.1.succ.isSome && p.1.regang.isNone then some (p.1.stamp, 64 * e.2.slot + e.2.pos, e.1, p.2) else none
    else []

/-- The first of a list under a strict order given as a Bool. -/
def leastBy {α : Type} (lt : α → α → Bool) : List α → Option α
  | [] => none
  | a :: r => match leastBy lt r with
    | none => some a
    | some b => if lt b a then some b else some a

/-- The oldest parked pair of core `c`, lower group first on a tie, becomes a strand, if the table has an entry (R39). Of two
pairs of one group with one stamp, the one that stands first in the group's parked set goes: R39 breaks ties between groups
only (log entry 48). -/
def wakePair (s : State) (c : Nat) : State :=
  match leastBy (fun x y => x.1 < y.1 || (x.1 == y.1 && x.2.1 < y.2.1)) (wakeable s c), takeEntry s c with
  | some (_, _, gk, n), some e =>
    match find s.groups gk with
    | some g =>
      match g.parked[n]? with
      | some p =>
        let s := modGroup s gk fun g => { g with parked := g.parked.eraseIdx n }
        let s := { s with
          uid := s.uid + 1
          strands := put s.strands (strandKey c e)
            { Strand.start gk p.mask (p.succ.getD 0) with
              task := taskOf g p.mask, barWait := p.barWait, asyncs := p.asyncs, drainFailed := p.drainFailed,
              due := p.due, jobMin := p.jobMin, l1min := p.l1min } }
        meetAfter s (strandKey c e) p.after
      | none => s
    | none => s
  | _, _ => s

/-- Up to `n` parked pairs of core `c` become strands, one for each entry that has been freed (R39). -/
def wakeMany (c : Nat) : Nat → State → State
  | 0, s => s
  | n + 1, s => wakeMany c n (wakePair s c)

/-- Strand `key`'s entry freed, and the oldest parked pair taken up (R39). -/
def freeStrand (s : State) (key : Nat) : State :=
  wakePair { s with strands := del s.strands key } (coreOf key)

end Sys2Proof.Machine
end

