-- ==== Sys2Proof/Machine/Operands.lean ====
section
/-! DEFINITION. Operand forms: token and immediate operands, their widths, the result mask and the uniform flag
(R72, R73, R130 to R132, R150, R186). -/

namespace Sys2Proof.Machine

/-- An immediate as an operand: one value for every lane (R72, R73). -/
def immTok (v : Val) : Token := uniTok 128 (~~~(0 : Mask)) v

/-- Operand `k` of a plain or immediate word whose last operand is `k`: the immediate when the word has one, expanded by
kind `kind` (R72, R73). -/
def Site.last (x : Site) (w : Plain) (k : Nat) (kind : ImmKind) : Token :=
  match w.imm with
  | some n => immTok (immValue kind w.ty n)
  | none => x.opnd k

/-- The result mask of operands: the AND of their masks (R131). -/
def maskOf (ts : List Token) : Mask := ts.foldl (fun m t => m &&& t.mask) (~~~(0 : Mask))

/-- Every operand is uniform (R132). -/
def uniOf (ts : List Token) : Bool := ts.all Token.uni

/-- One result per lane from one operand (R131, R132). -/
def lift1 (width : Nat) (f : Val → Val) (a : Token) : Token :=
  mkTok a.uni width a.mask fun l => f (a.at_ l)

/-- One result per lane from two operands (R131, R132). -/
def lift2 (width : Nat) (f : Val → Val → Val) (a b : Token) : Token :=
  mkTok (a.uni && b.uni) width (a.mask &&& b.mask) fun l => f (a.at_ l) (b.at_ l)

/-- One result per lane from three operands (R131, R132). -/
def lift3 (width : Nat) (f : Val → Val → Val → Val) (a b c : Token) : Token :=
  mkTok (a.uni && b.uni && c.uni) width (a.mask &&& b.mask &&& c.mask) fun l => f (a.at_ l) (b.at_ l) (c.at_ l)

/-- A one-operand instruction: the result goes to both targets (R151). -/
def Site.un (x : Site) (s : State) (w : Plain) (width : Nat) (f : Val → Val) : State :=
  x.yield s w.ta w.tb (lift1 width f (x.opnd 0))

/-- A two-operand instruction whose last operand may be an immediate of kind `kind` (R151). -/
def Site.bin (x : Site) (s : State) (w : Plain) (kind : ImmKind) (width : Nat) (f : Val → Val → Val) : State :=
  x.yield s w.ta w.tb (lift2 width f (x.opnd 0) (x.last w 1 kind))

/-- A three-operand instruction whose last operand may be an immediate of kind `kind` (R151). -/
def Site.ter (x : Site) (s : State) (w : Plain) (kind : ImmKind) (width : Nat) (f : Val → Val → Val → Val) : State :=
  x.yield s w.ta w.tb (lift3 width f (x.opnd 0) (x.opnd 1) (x.last w 2 kind))

/-- Operand 0 of an instruction of count 1 or immediate 0 as a 64-bit number, with its mask: the immediate stands for
every lane of the strand's mask at fire (R131, R186). -/
def Site.sel (x : Site) (w : Plain) : Nat × Mask :=
  match w.imm with
  | some n => (n.toNat, x.b.mask)
  | none => ((x.opnd 0).scalar64.toNat, (x.opnd 0).mask)

/-- A token read at type `t`'s width and carried again; a b128 token keeps its window mark (R130, R137, R124). -/
def retype (t : Ty) (k : Token) : Token :=
  { k with
    width := t.tokenWidth
    win := k.win && t = .b128
    val := carryBits t k.val.toNat
    lanes := mapVals k.lanes fun v => carryBits t v.toNat }

/-- A uniform 32-bit or wider number as a token (R130). -/
def numTok (width : Nat) (m : Mask) (n : Nat) : Token := uniTok width m (BitVec.ofNat 128 (n % 2 ^ width))

end Sys2Proof.Machine
end

