-- ==== Sys2Proof/Machine/Flags.lean ====
section
/-! DEFINITION. Conditions and carries: CMP's conditions (R160), FCMP's conditions over a comparison (R171), the carry
and the borrow of ADDC and SUBB (R153), the saturation of ADDS and SUBS (R105, R152). The hardware has no flags
register: a condition or a carry is the value of a token. -/

namespace Sys2Proof.Machine

/-- 1 or 0 as a token carries it (R160). -/
def boolVal (b : Bool) : Val := if b then 1 else 0

/-- CMP's condition between the values of type `t` in two tokens (R160). -/
def icondHolds (c : ICond) (t : Ty) (a b : Val) : Bool :=
  let x := intOf t a
  let y := intOf t b
  match c with
  | .eq => x == y
  | .ne => x != y
  | .lt => x < y
  | .le => x ≤ y
  | .gt => y < x
  | .ge => y ≤ x
  | .tst => valOf t (a &&& b) != 0

/-- FCMP's condition from the order of two numbers; none when either is a NaN (R171). -/
def fcondHolds (c : FCond) (o : Option Ordering) : Bool :=
  match c, o with
  | .eq, some .eq => true
  | .ne, some .eq => false
  | .ne, _ => true
  | .lt, some .lt => true
  | .le, some .lt => true
  | .le, some .eq => true
  | .gt, some .gt => true
  | .ge, some .gt => true
  | .ge, some .eq => true
  | .un, none => true
  | .ord, some _ => true
  | _, _ => false

/-- The exact sum of ADDC: a + b + bit 0 of c, unsigned at width `w` (R153). -/
def addcExact (w : Nat) (a b c : Val) : Nat := a.toNat % 2 ^ w + b.toNat % 2 ^ w + c.toNat % 2

/-- The exact difference of SUBB (R153). -/
def subbExact (w : Nat) (a b c : Val) : Int :=
  ((a.toNat % 2 ^ w : Nat) : Int) - ((b.toNat % 2 ^ w : Nat) : Int) - ((c.toNat % 2 : Nat) : Int)

/-- The least value of a type (R102). -/
def tyMin (t : Ty) : Int := if t.signed then -(2 ^ (t.width - 1) : Int) else 0

/-- The greatest value of a type (R102). -/
def tyMax (t : Ty) : Int := if t.signed then (2 ^ (t.width - 1) : Int) - 1 else (2 ^ t.width : Int) - 1

/-- Saturation to a type's range (R105). -/
def satTo (t : Ty) (x : Int) : Int := max (tyMin t) (min (tyMax t) x)

end Sys2Proof.Machine
end

