-- ==== Sys2Proof/Machine/Block.lean ====
section
/-! DEFINITION. Block plumbing and control (07_ref_block: R130 to R148, R22, R23, R126). -/

namespace Sys2Proof.Machine

/-! ## Identity -/

/-- The workgroup coordinates of workgroup number `n` under extents `es`, lowest dimension first (R23). -/
def coords : List Nat → Nat → List Nat
  | [], _ => []
  | e :: es, n => n % e :: coords es (n / e)

/-- Fields packed lowest first at their widths (R22). -/
def packFields : List Nat → List Nat → Nat
  | w :: ws, f :: fs => f % 2 ^ w + 2 ^ w * packFields ws fs
  | _, _ => 0

/-- The 64-bit work identifier of a lane (R22, R23). -/
def widOf (p : Place) (lane : Nat) : Nat :=
  packFields p.l.widths (lane :: p.g.num :: coords p.l.extents p.w.num)

/-- The value of special register `n` as it stood when the block fired; %lane apart, it is the same for every lane
(R126, R148). -/
def sprValue (x : Site) (p : Place) (n lane : Nat) : Nat :=
  let c := x.core
  match n with
  | 0 => lane
  | 1 => p.g.num
  | 2 => p.w.num
  | 3 => c % 48
  | 4 => c % 48 / 4
  | 5 => dieId (dieOf c)
  | 6 => c % 48 / 16
  | 7 => p.g.slot
  | 8 => x.key % 256
  | 9 => x.b.mask.toNat
  | 10 => p.g.cbase.toNat
  | 11 => p.g.tbase.toNat
  | 12 => x.b.time
  | 13 => x.b.prio
  | _ => 0

/-! ## Exits -/

/-- Lanes of `m` that have made a choice (R135). -/
def chosen (b : Blk) : Mask := b.choices.foldl (fun m e => m ||| Mask.one e.1) 0

/-- The lanes of `m` make the choice `f` gives them, lanes that a MASK has removed apart (R135, R196). -/
def Blk.choose (b : Blk) (m : Mask) (f : Nat → Choice) : Blk :=
  (m &&& ~~~b.removed).lanes.foldl (fun b l => { b with choices := put b.choices l (f l) }) b

/-- The lanes' choices all lead to one place (R383). -/
def oneChoice (b : Blk) : Bool :=
  match b.choices with
  | [] => true
  | e :: r => r.all fun x => x.2 = e.2

/-- An exit or QUIT resolves: its lanes choose; a lane that chooses twice faults EXIT_CONFLICT, and a strand in trap
mode must stay whole (R135, R383). -/
def Site.choose (x : Site) (s : State) (m : Mask) (f : Nat → Choice) (e : Option Effect) : State :=
  let twice := m &&& ~~~x.b.removed &&& chosen x.b
  let b := (x.b.choose m f).resolve x.i
  if twice != 0 then x.fault s .exitConflict twice x.b.addr
  else if x.st.trap && !oneChoice b then x.fault s .illegalConvergence m x.b.addr
  else x.mod s fun _ => { b with effects := b.effects ++ (e.map fun e => (x.i, e)).toList }

/-- The successor of lane `l` by an exit word (R143). -/
def exitSucc (b : Blk) (w : ExitW) (a : Token) (l : Nat) : Word :=
  if w.indirect then BitVec.ofNat 64 (a.at_ l).toNat
  else BitVec.ofNat 64 b.addr + (w.off.signExtend 64) * 16

/-- EXIT, CALL and RET: the lanes of a choose their successors; a lane address not a multiple of 16 faults MISALIGNED
(R143). Where the same instruction also makes a second choice, MISALIGNED is raised: the spec gives no order between the
two (log entry 48). -/
def Site.exitBy (x : Site) (s : State) (w : ExitW) (e : Option Effect) : State :=
  let a := x.opnd 0
  match a.mask.lanes.find? fun l => (exitSucc x.b w a l).toNat % 16 != 0 with
  | some l => x.fault s .misaligned a.mask (exitSucc x.b w a l).toNat
  | none => x.choose s a.mask (fun l => .goto (exitSucc x.b w a l)) e

/-! ## Scalar registers -/

/-- Scalar register `n` as a strand reads it: the trap bank, a task's bank, or the group's (R305, R382). -/
def sregVal (g : Group) (st : Strand) (n : Nat) : Word :=
  if st.trap && n < 4 then st.bank.getD n 0
  else match st.task with
    | some k => if n < 4 then (g.banks.getD k []).getD n 0 else get g.sregs n 0
    | none => get g.sregs n 0

/-- Scalar register `n` of the group, or of task bank `task`, becomes `v` (R123, R307). -/
def Group.setSreg (g : Group) (task : Option Nat) (n : Nat) (v : Word) : Group :=
  match task with
  | some k => if n < 4 then { g with banks := g.banks.modify k (·.set n v) } else { g with sregs := store g.sregs n v 0 }
  | none => { g with sregs := store g.sregs n v 0 }

/-! ## The instructions -/

/-- NOP fires and does nothing (R136). -/
def execNop (w : Plain) (s : State) : Host.Outcome State Fault Refusal :=
  atSite s fun x => x.mod s fun b => b.finish x.i w.ta w.tb noTok noTok

/-- MOV delivers operand a to its targets unchanged (R137). -/
def execMov (w : Fan) (s : State) : Host.Outcome State Fault Refusal :=
  atSite s fun x =>
    let t := retype w.ty (x.opnd 0)
    x.mod s fun b => ((b.deliver w.tc t).deliver w.td t).finish x.i w.ta w.tb t t

/-- CONST yields its constant, uniform over the strand's mask at fire (R74, R138). -/
def execConst (shift : BitVec 4) (w : Plain) (s : State) : Host.Outcome State Fault Refusal :=
  atSite s fun x =>
    x.yield s w.ta w.tb (uniTok w.ty.tokenWidth x.b.mask (carry w.ty (constExact w.ty shift (w.imm.getD 0))))

/-- CONSTH replaces bits [63:36] of a (R74, R138). -/
def execConsth (w : Plain) (s : State) : Host.Outcome State Fault Refusal :=
  atSite s fun x => x.un s w 64 fun a =>
    lowBits 36 a ||| BitVec.ofNat 128 ((w.imm.getD 0).toNat * 2 ^ 36)

/-- The lanes of `m` in which a condition token is not zero, on every bit it carries (R139). -/
def trueLanes (c : Token) (m : Mask) : Mask :=
  m.lanes.foldl (fun r l => if c.at_ l != 0 then r ||| Mask.one l else r) 0

/-- STEER splits a by condition b (R139). -/
def execSteer (w : Plain) (s : State) : Host.Outcome State Fault Refusal :=
  atSite s fun x =>
    let a := retype w.ty (x.opnd 0)
    let b := x.opnd 1
    let m := a.mask &&& b.mask
    let t := trueLanes b m
    x.mod s fun k => k.finish x.i w.ta w.tb (a.cut t) (a.cut (m &&& ~~~t))

/-- MERGE's token: a where a is present, b elsewhere; uniform by R140. -/
def mergeTok (a b : Token) : Token :=
  let m := a.mask ||| b.mask
  let pick : Nat → Val := fun l => if a.mask.has l then a.at_ l else b.at_ l
  if a.uni && b.uni then
    if Mask.within b.mask a.mask then { a with mask := m }
    else if a.mask == 0 || a.val == b.val then { b with mask := m }
    else { a with uni := false, mask := m, val := 0, lanes := m.lanes.map fun l => (l, pick l) }
  else { a with uni := false, mask := m, val := 0, lanes := m.lanes.map fun l => (l, pick l) }

/-- MERGE joins two tokens (R140). -/
def execMerge (w : Plain) (s : State) : Host.Outcome State Fault Refusal :=
  atSite s fun x => x.yield s w.ta w.tb (mergeTok (retype w.ty (x.opnd 0)) (retype w.ty (x.opnd 1)))

/-- SELECT's token (R141); a window token stays one (R124). -/
def selectTok (a b c : Token) : Token :=
  { lift3 a.width (fun p q r => if r != 0 then p else q) a b c with win := a.win }

/-- SELECT chooses a or b by c (R141). -/
def execSelect (w : Plain) (s : State) : Host.Outcome State Fault Refusal :=
  atSite s fun x =>
    x.yield s w.ta w.tb (selectTok (retype w.ty (x.opnd 0)) (retype w.ty (x.opnd 1)) (x.opnd 2))

/-- NULLIFY removes the lanes that b covers (R142). -/
def execNullify (w : Plain) (s : State) : Host.Outcome State Fault Refusal :=
  atSite s fun x =>
    let a := retype w.ty (x.opnd 0)
    x.yield s w.ta w.tb (a.cut (a.mask &&& ~~~(x.opnd 1).mask))

/-- EXIT (R143). -/
def execExit (w : ExitW) (s : State) : Host.Outcome State Fault Refusal :=
  atSite s fun x => x.exitBy s w none

/-- CALL exits and writes the link at commit (R144). -/
def execCall (w : ExitW) (s : State) : Host.Outcome State Fault Refusal :=
  atSite s fun x => x.exitBy s w (some (.link (x.opnd 0).mask))

/-- RET (R145). -/
def execRet (w : ExitW) (s : State) : Host.Outcome State Fault Refusal :=
  atSite s fun x => x.exitBy s w none

/-- QUIT: the lanes of a choose to end (R146); in trap mode it faults ILLEGAL_CONVERGENCE (R383), also where a lane of it has
chosen an exit: the spec gives no order between the two faults (log entry 48). -/
def execQuit (_w : Plain) (s : State) : Host.Outcome State Fault Refusal :=
  atSite s fun x =>
    let m := (x.opnd 0).mask
    if x.st.trap && m != 0 then x.fault s .illegalConvergence m x.b.addr
    else x.choose s m (fun _ => .quit) none

/-- IDX yields each lane's work identifier (R147). -/
def execIdx (w : Plain) (s : State) : Host.Outcome State Fault Refusal :=
  atSite s fun x =>
    let f : Nat → Val := fun l => match x.place s with
      | some p => BitVec.ofNat 128 (widOf p l)
      | none => 0
    x.yield s w.ta w.tb (laneTok 64 x.b.mask f)

/-- SPR reads a special register (R148). -/
def execSpr (w : Plain) (s : State) : Host.Outcome State Fault Refusal :=
  atSite s fun x =>
    let n := (w.imm.getD 0).toNat
    let f : Nat → Val := fun l => match x.place s with
      | some p => carryBits w.ty (sprValue x p n l)
      | none => 0
    x.yield s w.ta w.tb (mkTok (n != 0) w.ty.tokenWidth x.b.mask f)

end Sys2Proof.Machine
end

