-- ==== Sys2Proof/Machine/Numbers.lean ====
section
/-! DEFINITION. Floating-point numbers as exact dyadic values and their one rounding (05_numbers: R104 to R119), the
table functions of R113 and R114, and the lq2 code of R110 to R112. -/

namespace Sys2Proof.Machine

/-! ## Exact values -/

/-- An exact value: NaN, an infinity, or (-1)^neg × m × 2^e; a zero keeps its sign (R104, R109). -/
inductive Fp where
  | nan
  | inf (neg : Bool)
  | fin (neg : Bool) (m : Nat) (e : Int)
  deriving DecidableEq, Repr

/-- A floating-point format (R104): exponent and fraction widths, bias, whether it has infinities, the pattern of its
largest finite magnitude, its canonical NaN (R106). -/
structure Fmt where
  ebits : Nat
  fbits : Nat
  bias : Int
  infs : Bool
  top : Nat
  canon : Nat
  deriving DecidableEq, Repr

/-- f32 (R104, R106). -/
def f32 : Fmt := ⟨8, 23, 127, true, 0x7F7F_FFFF, 0x7FC0_0000⟩
/-- f16 (R104, R106). -/
def f16 : Fmt := ⟨5, 10, 15, true, 0x7BFF, 0x7E00⟩
/-- bf16 (R104, R106). -/
def bf16 : Fmt := ⟨8, 7, 127, true, 0x7F7F, 0x7FC0⟩
/-- e5m2 (R104, R106). -/
def e5m2 : Fmt := ⟨5, 2, 15, true, 0x7B, 0x7E⟩
/-- e4m3 (R104, R106). -/
def e4m3 : Fmt := ⟨4, 3, 7, false, 0x7E, 0x7F⟩

/-- The format of a float type, or of the elements of a packed type (R103). -/
def fmtOf : Ty → Fmt
  | .f16 | .f16x2 => f16
  | .bf16 | .bf16x2 => bf16
  | .e4m3 => e4m3
  | .e5m2 => e5m2
  | _ => f32

/-- The type is a packed pair (R103). -/
def tyPacked (t : Ty) : Bool := t = .f16x2 || t = .bf16x2

/-- The type is a plain float (R104). -/
def tyFloating (t : Ty) : Bool := t = .f16 || t = .bf16 || t = .f32 || t = .e4m3 || t = .e5m2

/-- Bits of a format in all. -/
def Fmt.width (f : Fmt) : Nat := 1 + f.ebits + f.fbits

/-- The exact value of a bit pattern (R104). -/
def Fp.ofBits (f : Fmt) (v : Nat) : Fp :=
  let mag := v % 2 ^ (f.ebits + f.fbits)
  let neg := v.testBit (f.ebits + f.fbits)
  let e := mag / 2 ^ f.fbits
  let m := mag % 2 ^ f.fbits
  if f.top < mag then (if f.infs && mag == f.top + 1 then .inf neg else .nan)
  else if e == 0 then .fin neg m (1 - f.bias - f.fbits)
  else .fin neg (m + 2 ^ f.fbits) (e - f.bias - f.fbits)

/-- An e8m0 exponent as a value (R105). -/
def Fp.ofE8m0 (v : Nat) : Fp := if v % 256 = 255 then .nan else .fin false 1 ((v % 256 : Nat) - 127)

/-- An integer as a value; zero is +0. -/
def Fp.ofInt (x : Int) : Fp := .fin (x < 0) x.natAbs 0

/-! ## Rounding -/

/-- Whether a magnitude goes up to its upper neighbour: `n` the lower neighbour, `rem` the part left of `den` (R108). -/
def goesUp (rm : Rnd) (neg : Bool) (n rem den : Nat) : Bool :=
  match rm with
  | .rne => den < 2 * rem || (2 * rem == den && n % 2 == 1)
  | .rtz => false
  | .rup => rem != 0 && !neg
  | .rdn => rem != 0 && neg

/-- `m` × 2^`e` as a whole multiple of 2^`q`, rounded. -/
def quantize (rm : Rnd) (neg : Bool) (m : Nat) (e q : Int) : Nat :=
  if q ≤ e then m * 2 ^ (e - q).toNat
  else
    let den := 2 ^ (q - e).toNat
    m / den + (if goesUp rm neg (m / den) (m % den) den then 1 else 0)

/-- The magnitude pattern of m × 2^e rounded to format `f`, as if its exponent range had no top (R108 step 2). -/
def roundMag (rm : Rnd) (f : Fmt) (neg : Bool) (m : Nat) (e : Int) : Nat :=
  let low := 1 - f.bias - f.fbits
  let q := max ((Nat.log2 m : Int) + e - f.fbits) low
  (q - low).toNat * 2 ^ f.fbits + quantize rm neg m e q

/-- The pattern with sign `neg` and magnitude `mag`. -/
def signed (f : Fmt) (neg : Bool) (mag : Nat) : Nat := (if neg then 2 ^ (f.ebits + f.fbits) else 0) + mag

/-- What an overflow or an infinity gives (R108 steps 1 and 3). -/
def overflow (rm : Rnd) (f : Fmt) (neg : Bool) : Nat :=
  if !f.infs then signed f neg f.top
  else match rm, neg with
    | .rne, n => signed f n (f.top + 1)
    | .rtz, n => signed f n f.top
    | .rup, false => f.top + 1
    | .rup, true => signed f true f.top
    | .rdn, false => f.top
    | .rdn, true => signed f true (f.top + 1)

/-- round(x, rm, F) (R108). -/
def round (rm : Rnd) (f : Fmt) (x : Fp) : Nat :=
  match x with
  | .nan => f.canon
  | .inf n => if f.infs then signed f n (f.top + 1) else signed f n f.top
  | .fin n m e =>
    if m = 0 then signed f n 0
    else
      let g := roundMag rm f n m e
      if f.top < g then overflow rm f n else signed f n g

/-- The magnitude exceeds the largest finite value of the format (R112, R183). -/
def exceeds (f : Fmt) (x : Fp) : Bool :=
  match x, Fp.ofBits f f.top with
  | .fin _ m e, .fin _ m' e' => if e' ≤ e then m' < m * 2 ^ (e - e').toNat else m' * 2 ^ (e' - e).toNat < m
  | _, _ => false

/-! ## Exact operations -/

/-- The value with its sign turned. -/
def Fp.neg : Fp → Fp
  | .nan => .nan
  | .inf n => .inf (!n)
  | .fin n m e => .fin (!n) m e

/-- A finite value as a multiple of 2^`q`, for `q` at most its exponent. -/
def scaled (n : Bool) (m : Nat) (e q : Int) : Int :=
  let k : Int := (m : Int) * (2 ^ (e - q).toNat : Int)
  if n then -k else k

/-- The exact sum; the sign of a zero sum follows R109. -/
def Fp.add (rm : Rnd) (a b : Fp) : Fp :=
  match a, b with
  | .nan, _ => .nan
  | _, .nan => .nan
  | .inf x, .inf y => if x = y then .inf x else .nan
  | .inf x, _ => .inf x
  | _, .inf y => .inf y
  | .fin n m e, .fin n' m' e' =>
    let q := min e e'
    let t := scaled n m e q + scaled n' m' e' q
    if t = 0 then .fin (if n = n' then n else rm = .rdn) 0 0
    else .fin (t < 0) t.natAbs q

/-- The exact product (R109, R167). -/
def Fp.mul (a b : Fp) : Fp :=
  match a, b with
  | .nan, _ => .nan
  | _, .nan => .nan
  | .inf x, .inf y => .inf (x != y)
  | .inf x, .fin n m _ => if m = 0 then .nan else .inf (x != n)
  | .fin n m _, .inf y => if m = 0 then .nan else .inf (n != y)
  | .fin n m e, .fin n' m' e' => .fin (n != n') (m * m') (e + e')

/-- The value times 2^k. -/
def Fp.scale (a : Fp) (k : Int) : Fp :=
  match a with
  | .fin n m e => .fin n m (e + k)
  | x => x

/-- The order of two values, zeros of either sign equal; none with a NaN (R171). -/
def Fp.cmp (a b : Fp) : Option Ordering :=
  match a, b with
  | .nan, _ => none
  | _, .nan => none
  | .inf x, .inf y => some (if x = y then .eq else if x then .lt else .gt)
  | .inf x, _ => some (if x then .lt else .gt)
  | _, .inf y => some (if y then .gt else .lt)
  | .fin n m e, .fin n' m' e' =>
    let q := min e e'
    some (compare (scaled n m e q) (scaled n' m' e' q))

/-- The sign of a value. -/
def Fp.isNeg : Fp → Bool
  | .nan => false
  | .inf n => n
  | .fin n _ _ => n

/-- FMIN (`least`) or FMAX of two patterns: one of them, or the canonical NaN; −0 orders below +0 (R169). -/
def minMax (least : Bool) (f : Fmt) (a b : Nat) : Nat :=
  let x := Fp.ofBits f a
  let y := Fp.ofBits f b
  let a := a % 2 ^ f.width
  let b := b % 2 ^ f.width
  match Fp.cmp x y with
  | none => if x = .nan then (if y = .nan then f.canon else b) else a
  | some .lt => if least then a else b
  | some .gt => if least then b else a
  | some .eq => if x.isNeg == least then a else b

/-- The greatest r with r² ≤ n, found bit by bit from bit `k - 1` down. -/
def isqrt (n : Nat) : Nat → Nat → Nat
  | 0, r => r
  | k + 1, r => if (r + 2 ^ k) * (r + 2 ^ k) ≤ n then isqrt n k (r + 2 ^ k) else isqrt n k r

/-- The square root of a value, exact or with one more bit that marks it inexact, which rounds alike (R173). -/
def Fp.sqrt (a : Fp) : Fp :=
  match a with
  | .nan => .nan
  | .inf n => if n then .nan else .inf false
  | .fin n m e =>
    if m = 0 then .fin n 0 0
    else if n then .nan
    else
      let sh : Nat := 80 + (e % 2).toNat
      let v := m * 2 ^ sh
      let r := isqrt v 72 0
      .fin false (2 * r + (if r * r = v then 0 else 1)) ((e - sh) / 2 - 1)

/-- The value rounded to an integral one (R174). -/
def Fp.integral (rm : Rnd) (a : Fp) : Fp :=
  match a with
  | .fin n m e => if 0 ≤ e then a else .fin n (quantize rm n m e 0) 0
  | x => x

/-- trunc of a finite value (R178). -/
def Fp.trunc (n : Bool) (m : Nat) (e : Int) : Int :=
  let k : Int := if 0 ≤ e then (m * 2 ^ e.toNat : Nat) else (m / 2 ^ (-e).toNat : Nat)
  if n then -k else k

/-! ## Table functions (R113, R114) -/

/-- Round m × 2^e to 12 significant bits, nearest, ties to even (R113). -/
def round12 (m : Nat) (e : Int) : Fp :=
  if m = 0 then .fin false 0 0
  else
    let q := (Nat.log2 m : Int) + e - 11
    .fin false (quantize .rne false m e q) q

/-- The fraction of a finite, non-zero value, normalised to m in [1, 2) with 23 fraction bits, and its exponent (R113). -/
def normal (m : Nat) (e : Int) : Nat × Int :=
  let k := Nat.log2 m
  (if k ≤ 23 then m * 2 ^ (23 - k) else m / 2 ^ (k - 23), (k : Int) + e)

/-- FRCP of a finite, non-zero value (R113): c = C / 512. -/
def rcp (n : Bool) (m : Nat) (e : Int) : Fp :=
  let (x, k) := normal m e
  let c := 513 + 2 * (x / 2 ^ 15 % 256)
  let v := 512 * 2 ^ 60 / c
  match round12 (2 * v + 1) (-61) with
  | .fin _ m e => .fin n m (e - k)
  | y => y

/-- FRSQ of a finite value above zero (R113): c = C / 256. -/
def rsq (m : Nat) (e : Int) : Fp :=
  let (x, k) := normal m e
  let c := 257 + 2 * (x / 2 ^ 16 % 128)
  let v := (if k % 2 = 0 then 256 else 128) * 2 ^ 80 / c
  let r := isqrt v 48 0
  (round12 (2 * r + 1) (-41)).scale (-(k / 2))

/-- The greatest n below 2^`b` with n^256 ≤ `t`, bit by bit. -/
def root256 (t : Nat) : Nat → Nat → Nat
  | 0, r => r
  | k + 1, r => if (r + 2 ^ k) ^ 256 ≤ t then root256 t k (r + 2 ^ k) else root256 t k r

/-- FEXP2 of a finite value from −150 up to below 128 (R113). -/
def exp2 (neg : Bool) (m : Nat) (e : Int) : Fp :=
  let i : Int := if 0 ≤ e then scaled neg m e 0 else
    (scaled neg m 0 0) / (2 ^ (-e).toNat : Int)
  let f : Nat × Int := if 0 ≤ e then (0, 0) else
    (((scaled neg m 0 0) % (2 ^ (-e).toNat : Int)).toNat, e)
  let k := quantize .rne false f.1 (f.2 + 8) 0
  if k = 256 then .fin false 1 (i + 1)
  else
    let r := root256 (2 ^ (k + 16 * 256)) 17 0
    let m := if r ^ 256 = 2 ^ (k + 16 * 256) then 2 * r else 2 * r + 1
    (round12 m (-17)).scale i

/-- The first `n` fraction bits of log2 of x / 2^96, for x / 2^96 in [1, 2), by repeated squaring. -/
def log2Bits (x : Nat) : Nat → Nat → Nat
  | 0, r => r
  | n + 1, r =>
    let y := x * x / 2 ^ 96
    if 2 ^ 97 ≤ y then log2Bits (y / 2) n (2 * r + 1) else log2Bits y n (2 * r)

/-- FLOG2 of a finite value above zero (R113). -/
def log2 (m : Nat) (e : Int) : Fp :=
  let (x, k) := normal m e
  let c := quantize .rne false x (-15) 0
  if c = 256 then Fp.ofInt k
  else if c = 512 then Fp.ofInt (k + 1)
  else Fp.add .rne (Fp.ofInt k) (round12 (2 * log2Bits (c * 2 ^ 88) 40 0 + 1) (-41))

/-- π × 2^100, rounded down. -/
def piFix : Nat := 3982441812995697363688351113952

/-- Terms `n` to `n + fuel - 1` of the sine series from the term `t`, scaled by 2^100, for the square `x2` of x. -/
def sinTerms (x2 : Nat) : Nat → Nat → Nat → Int
  | 0, _, _ => 0
  | fuel + 1, n, t => (t : Int) - sinTerms x2 fuel (n + 1) (t * x2 / 2 ^ 100 / ((2 * n + 2) * (2 * n + 3)))

/-- round12(sin(π j / 256)) for j from 0 to 128 (R113); 0 and 1 are exact. -/
def sinQuarter (j : Nat) : Fp :=
  if j = 0 then .fin false 0 0
  else if j = 128 then .fin false 1 0
  else
    let x := piFix * j / 256
    round12 (sinTerms (x * x / 2 ^ 100) 24 0 x).toNat (-100)

/-- round12(sin(π k / 256)) for k modulo 512; an exact zero is +0 (R113). -/
def sinPi (k : Nat) : Fp :=
  let k := k % 512
  if k ≤ 128 then sinQuarter k
  else if k ≤ 256 then sinQuarter (256 - k)
  else
    let y := if k ≤ 384 then sinQuarter (k - 256) else sinQuarter (512 - k)
    y.neg

/-- 256 x rounded to nearest, ties to even, modulo 512: R113's k, whose parity the reduction modulo 2 keeps. -/
def turns (neg : Bool) (m : Nat) (e : Int) : Nat :=
  let k := quantize .rne neg m (e + 8) 0 % 512
  if neg then (512 - k) % 512 else k

/-- FSINP of a finite value with the phase added: 0 for the sine, 128 for the cosine (R113). -/
def sinp (phase : Nat) (neg : Bool) (m : Nat) (e : Int) : Fp := sinPi (turns neg m e + phase)

/-- One of the six table functions on an f32 pattern (R113, R114). -/
def tableFn (onNan onPos onNeg onZeroP onZeroN : Fp) (onFin : Bool → Nat → Int → Fp) (v : Nat) : Nat :=
  round .rne f32 <| match Fp.ofBits f32 v with
    | .nan => onNan
    | .inf false => onPos
    | .inf true => onNeg
    | .fin n m e => if m = 0 then (if n then onZeroN else onZeroP) else onFin n m e

/-- +0. -/
def pzero : Fp := .fin false 0 0
/-- 1. -/
def one : Fp := .fin false 1 0

/-- FRCP (R113, R114). -/
def frcpBits (v : Nat) : Nat := tableFn .nan pzero (.fin true 0 0) (.inf false) (.inf true) rcp v

/-- FRSQ (R113, R114). -/
def frsqBits (v : Nat) : Nat :=
  tableFn .nan pzero .nan (.inf false) (.inf true) (fun n m e => if n then .nan else rsq m e) v

/-- FEXP2 (R113, R114). -/
def fexp2Bits (v : Nat) : Nat :=
  tableFn .nan (.inf false) pzero one one (fun n m e =>
    let x : Fp := .fin n m e
    if x.cmp (Fp.ofInt 128) != some .lt then .inf false
    else if x.cmp (Fp.ofInt (-150)) == some .lt then pzero
    else exp2 n m e) v

/-- FLOG2 (R113, R114). -/
def flog2Bits (v : Nat) : Nat :=
  tableFn .nan (.inf false) .nan (.inf true) (.inf true) (fun n m e => if n then .nan else log2 m e) v

/-- FSINP (R113, R114). -/
def fsinpBits (v : Nat) : Nat := tableFn .nan .nan .nan pzero pzero (fun n m e => sinp 0 n m e) v

/-- FCOSP (R113, R114). -/
def fcospBits (v : Nat) : Nat := tableFn .nan .nan .nan one one (fun n m e => sinp 128 n m e) v

/-! ## Sums and products on patterns -/

/-- round(a + b) on patterns (R167). -/
def faddBits (rm : Rnd) (f : Fmt) (a b : Nat) : Nat := round rm f (Fp.add rm (Fp.ofBits f a) (Fp.ofBits f b))

/-- The saturated or exact bf16 pattern of a scaled weight, and whether it saturated (R112, R183). -/
def satRound (f : Fmt) (x : Fp) : Nat × Bool :=
  if exceeds f x then (signed f x.isNeg f.top, true) else (round .rne f x, false)

/-! ## lq2 (R110 to R112) -/

/-- The magnitude of coordinate `i` of code `c`, in halves (R110). -/
def lq2Mag (c i : Nat) : Nat := if c.testBit (7 + i) then (if c.testBit 15 then 5 else 3) else 1

/-- The sum of coordinates 0 to 6, in halves, signed (R110). -/
def lq2Sum (c : Nat) : Int :=
  (List.range 7).foldl (fun t i => t + (if c.testBit i then -(lq2Mag c i : Int) else (lq2Mag c i : Int))) 0

/-- Coordinate `i` is negative; coordinate 7 takes the sign that makes the sum of the eight an even integer (R110). -/
def lq2Neg (c i : Nat) : Bool :=
  if i < 7 then c.testBit i else (lq2Sum c + (lq2Mag c 7 : Int)) % 4 != 0

/-- Weight `i` of code `c` under e8m0 scale `k`, as bf16, and whether it saturated (R111, R112). -/
def lq2Weight (c k i : Nat) : Nat × Bool :=
  if k % 256 = 255 then (bf16.canon, false)
  else satRound bf16 (.fin (lq2Neg c i) (lq2Mag c i) ((k % 256 : Nat) - 128))

/-- The eight weights of a code as 128 bits, and whether one saturated (R112, R182). -/
def lq2Decode (c k : Nat) : Nat × Bool :=
  (List.range 8).foldl (fun r i => (r.1 + (lq2Weight c k i).1 * 2 ^ (16 * i), r.2 || (lq2Weight c k i).2)) (0, false)

end Sys2Proof.Machine
end

