-- ==== Sys2Proof/Machine/Float.lean ====
section
/-! DEFINITION. Floating-point and conversion instructions (09_ref_float: R164 to R184). -/

namespace Sys2Proof.Machine

/-! ## Element-wise lifting -/

/-- A function of patterns on each element of a float or packed operand (R166). -/
def elem1 (t : Ty) (f : Nat → Nat) (a : Val) : Val :=
  if tyPacked t then BitVec.ofNat 128 (f (bitsOf a.toNat 0 16) + 2 ^ 16 * f (bitsOf a.toNat 16 16))
  else BitVec.ofNat 128 (f (bitsOf a.toNat 0 t.width))

/-- As `elem1` for two operands. -/
def elem2 (t : Ty) (f : Nat → Nat → Nat) (a b : Val) : Val :=
  if tyPacked t then
    BitVec.ofNat 128 (f (bitsOf a.toNat 0 16) (bitsOf b.toNat 0 16) +
      2 ^ 16 * f (bitsOf a.toNat 16 16) (bitsOf b.toNat 16 16))
  else BitVec.ofNat 128 (f (bitsOf a.toNat 0 t.width) (bitsOf b.toNat 0 t.width))

/-- As `elem1` for three operands. -/
def elem3 (t : Ty) (f : Nat → Nat → Nat → Nat) (a b c : Val) : Val :=
  if tyPacked t then
    BitVec.ofNat 128 (f (bitsOf a.toNat 0 16) (bitsOf b.toNat 0 16) (bitsOf c.toNat 0 16) +
      2 ^ 16 * f (bitsOf a.toNat 16 16) (bitsOf b.toNat 16 16) (bitsOf c.toNat 16 16))
  else BitVec.ofNat 128 (f (bitsOf a.toNat 0 t.width) (bitsOf b.toNat 0 t.width) (bitsOf c.toNat 0 t.width))

/-! ## Functions of patterns -/

/-- FSUB on patterns (R167). -/
def fsubBits (rm : Rnd) (f : Fmt) (a b : Nat) : Nat := round rm f (Fp.add rm (Fp.ofBits f a) (Fp.ofBits f b).neg)

/-- FMUL on patterns (R167). -/
def fmulBits (rm : Rnd) (f : Fmt) (a b : Nat) : Nat := round rm f (Fp.mul (Fp.ofBits f a) (Fp.ofBits f b))

/-- FFMA on patterns: one rounding (R168). -/
def ffmaBits (rm : Rnd) (f : Fmt) (a b c : Nat) : Nat :=
  round rm f (Fp.add rm (Fp.mul (Fp.ofBits f a) (Fp.ofBits f b)) (Fp.ofBits f c))

/-- FABS or FNEG on a pattern (R170). -/
def signBits (f : Fmt) (turn : Bool) (a : Nat) : Nat :=
  let top := 2 ^ (f.ebits + f.fbits)
  let mag := a % top
  if Fp.ofBits f a = .nan then f.canon
  else if turn && !a.testBit (f.ebits + f.fbits) then top + mag else mag

/-- The class of a pattern as one set bit (R175). -/
def classBits (f : Fmt) (a : Nat) : Nat :=
  match Fp.ofBits f a with
  | .nan => 2 ^ 8
  | .inf n => if n then 1 else 2 ^ 7
  | .fin n m _ =>
    if m = 0 then (if n then 2 ^ 3 else 2 ^ 4)
    else if m < 2 ^ f.fbits then (if n then 2 ^ 2 else 2 ^ 5)
    else (if n then 2 ^ 1 else 2 ^ 6)

/-- FSCL on a pattern: the scale is n as a signed 32-bit number. Scales beyond ±4096 overflow or vanish alike for every
format, so n is cut there (R176). -/
def fsclBits (rm : Rnd) (f : Fmt) (a : Nat) (n : Int) : Nat :=
  round rm f ((Fp.ofBits f a).scale (max (-4096) (min 4096 n)))

/-- FDOT2: two exact products and an f32 addend, rounded once (R177). The sign of a zero sum follows R109. -/
def fdot2Bits (rm : Rnd) (f : Fmt) (a b c : Nat) : Nat :=
  let p0 := Fp.mul (Fp.ofBits f (bitsOf a 0 16)) (Fp.ofBits f (bitsOf b 0 16))
  let p1 := Fp.mul (Fp.ofBits f (bitsOf a 16 16)) (Fp.ofBits f (bitsOf b 16 16))
  round rm f32 (Fp.add rm (Fp.add rm p0 p1) (Fp.ofBits f32 c))

/-- CVT (R178). -/
def cvtVal (dst : Ty) (src : SrcFmt) (a : Val) : Val :=
  let toInt : Fp → Int
    | .nan => 0
    | .inf n => if n then tyMin dst else tyMax dst
    | .fin n m e => satTo dst (Fp.trunc n m e)
  match src with
  | .e8m0 => carryBits dst (round .rne (fmtOf dst) (Fp.ofE8m0 a.toNat))
  | .ty s =>
    if tyPacked dst then elem1 dst (fun v => round .rne (fmtOf dst) (Fp.ofBits (fmtOf s) v)) a
    else if tyFloating s then
      let x := Fp.ofBits (fmtOf s) (a.toNat % 2 ^ s.width)
      if tyFloating dst then carryBits dst (round .rne (fmtOf dst) x) else carry dst (toInt x)
    else
      let x := intOf s a
      if tyFloating dst then carryBits dst (round .rne (fmtOf dst) (Fp.ofInt x)) else carry dst (satTo dst x)

/-- SCLX of one element pattern, and whether it saturated (R183). -/
def sclxBits (f : Fmt) (a k : Nat) : Nat × Bool :=
  let x := Fp.ofBits f a
  if k % 256 = 255 then (f.canon, false)
  else match x with
    | .nan => (f.canon, false)
    | .inf n => (round .rne f (.inf n), false)
    | .fin n m e =>
      if m = 0 then (signed f n 0, false) else satRound f (.fin n m (e + ((k % 256 : Nat) - 127)))

/-- SCLX of a value: its elements' results and whether one saturated (R183). -/
def sclxVal (t : Ty) (a : Val) (k : Nat) : Nat × Bool :=
  if t = .f32 then sclxBits f32 (a.toNat % 2 ^ 32) k
  else
    (List.range (t.width / 16)).foldl
      (fun r i =>
        let y := sclxBits bf16 (bitsOf a.toNat (16 * i) 16) k
        (r.1 + y.1 * 2 ^ (16 * i), r.2 || y.2)) (0, false)

/-- Some lane of `m` satisfies `p`. -/
def anyLane (m : Mask) (p : Nat → Bool) : Bool := m.lanes.any p

/-! ## The instructions -/

/-- FADD (R167). -/
def execFadd (rm : Rnd) (w : Plain) (s : State) : Host.Outcome State Fault Refusal :=
  atSite s fun x => x.bin s w .t 32 (elem2 w.ty (faddBits rm (fmtOf w.ty)))

/-- FSUB (R167). -/
def execFsub (rm : Rnd) (w : Plain) (s : State) : Host.Outcome State Fault Refusal :=
  atSite s fun x => x.bin s w .t 32 (elem2 w.ty (fsubBits rm (fmtOf w.ty)))

/-- FMUL (R167). -/
def execFmul (rm : Rnd) (w : Plain) (s : State) : Host.Outcome State Fault Refusal :=
  atSite s fun x => x.bin s w .t 32 (elem2 w.ty (fmulBits rm (fmtOf w.ty)))

/-- FFMA (R168). -/
def execFfma (rm : Rnd) (w : Plain) (s : State) : Host.Outcome State Fault Refusal :=
  atSite s fun x => x.ter s w .t 32 (elem3 w.ty (ffmaBits rm (fmtOf w.ty)))

/-- FMIN (R169). -/
def execFmin (w : Plain) (s : State) : Host.Outcome State Fault Refusal :=
  atSite s fun x => x.bin s w .t 32 (elem2 w.ty (minMax true (fmtOf w.ty)))

/-- FMAX (R169). -/
def execFmax (w : Plain) (s : State) : Host.Outcome State Fault Refusal :=
  atSite s fun x => x.bin s w .t 32 (elem2 w.ty (minMax false (fmtOf w.ty)))

/-- FABS (R170). -/
def execFabs (w : Plain) (s : State) : Host.Outcome State Fault Refusal :=
  atSite s fun x => x.un s w 32 (elem1 w.ty (signBits (fmtOf w.ty) false))

/-- FNEG (R170). -/
def execFneg (w : Plain) (s : State) : Host.Outcome State Fault Refusal :=
  atSite s fun x => x.un s w 32 (elem1 w.ty (signBits (fmtOf w.ty) true))

/-- FCMP: a 32-bit 1 or 0 (R171). -/
def execFcmp (c : FCond) (w : Plain) (s : State) : Host.Outcome State Fault Refusal :=
  atSite s fun x => x.bin s w .t 32 fun a b =>
    boolVal (fcondHolds c (Fp.cmp (Fp.ofBits (fmtOf w.ty) (a.toNat % 2 ^ w.ty.width))
      (Fp.ofBits (fmtOf w.ty) (b.toNat % 2 ^ w.ty.width))))

/-- FRCP (R172). -/
def execFrcp (w : Plain) (s : State) : Host.Outcome State Fault Refusal :=
  atSite s fun x => x.un s w 32 (elem1 .f32 frcpBits)

/-- FRSQ (R172). -/
def execFrsq (w : Plain) (s : State) : Host.Outcome State Fault Refusal :=
  atSite s fun x => x.un s w 32 (elem1 .f32 frsqBits)

/-- FEXP2 (R172). -/
def execFexp2 (w : Plain) (s : State) : Host.Outcome State Fault Refusal :=
  atSite s fun x => x.un s w 32 (elem1 .f32 fexp2Bits)

/-- FLOG2 (R172). -/
def execFlog2 (w : Plain) (s : State) : Host.Outcome State Fault Refusal :=
  atSite s fun x => x.un s w 32 (elem1 .f32 flog2Bits)

/-- FSINP (R172). -/
def execFsinp (w : Plain) (s : State) : Host.Outcome State Fault Refusal :=
  atSite s fun x => x.un s w 32 (elem1 .f32 fsinpBits)

/-- FCOSP (R172). -/
def execFcosp (w : Plain) (s : State) : Host.Outcome State Fault Refusal :=
  atSite s fun x => x.un s w 32 (elem1 .f32 fcospBits)

/-- FSQRT (R173). -/
def execFsqrt (rm : Rnd) (w : Plain) (s : State) : Host.Outcome State Fault Refusal :=
  atSite s fun x => x.un s w 32 (elem1 w.ty fun v => round rm (fmtOf w.ty) (Fp.ofBits (fmtOf w.ty) v).sqrt)

/-- FRND (R174). -/
def execFrnd (rm : Rnd) (w : Plain) (s : State) : Host.Outcome State Fault Refusal :=
  atSite s fun x => x.un s w 32
    (elem1 w.ty fun v => round rm (fmtOf w.ty) ((Fp.ofBits (fmtOf w.ty) v).integral rm))

/-- FCLS (R175). -/
def execFcls (w : Plain) (s : State) : Host.Outcome State Fault Refusal :=
  atSite s fun x => x.un s w 32 (elem1 w.ty (classBits (fmtOf w.ty)))

/-- FSCL (R176). -/
def execFscl (rm : Rnd) (w : Plain) (s : State) : Host.Outcome State Fault Refusal :=
  atSite s fun x => x.bin s w .s 32 fun a b =>
    elem1 w.ty (fun v => fsclBits rm (fmtOf w.ty) v (BitVec.ofNat 32 b.toNat).toInt) a

/-- FDOT2: the result is f32 (R177). -/
def execFdot2 (rm : Rnd) (w : Plain) (s : State) : Host.Outcome State Fault Refusal :=
  atSite s fun x => x.ter s w .t 32 fun a b c =>
    BitVec.ofNat 128 (fdot2Bits rm (fmtOf w.ty) (a.toNat % 2 ^ 32) (b.toNat % 2 ^ 32) (c.toNat % 2 ^ 32))

/-- CVT (R178). -/
def execCvt (src : SrcFmt) (w : Plain) (s : State) : Host.Outcome State Fault Refusal :=
  atSite s fun x => x.un s w w.ty.tokenWidth (cvtVal w.ty src)

/-- PACK (R180). -/
def execPack (rm : Rnd) (w : Plain) (s : State) : Host.Outcome State Fault Refusal :=
  atSite s fun x => x.bin s w .t 32 fun a b =>
    BitVec.ofNat 128 (round rm (fmtOf w.ty) (Fp.ofBits f32 (a.toNat % 2 ^ 32)) +
      2 ^ 16 * round rm (fmtOf w.ty) (Fp.ofBits f32 (b.toNat % 2 ^ 32)))

/-- UNPK: element 0 to target A, element 1 to target B (R181). -/
def execUnpk (w : Plain) (s : State) : Host.Outcome State Fault Refusal :=
  atSite s fun x =>
    let part : Nat → Val → Val := fun k a =>
      BitVec.ofNat 128 (round .rne f32 (Fp.ofBits (fmtOf w.ty) (bitsOf a.toNat (16 * k) 16)))
    x.mod s fun b =>
      b.finish x.i w.ta w.tb (lift1 32 (part 0) (x.opnd 0)) (lift1 32 (part 1) (x.opnd 0))

/-- A two-operand instruction of class E that counts one saturation when a lane of its mask saturated (R184). -/
def Site.satCounting (x : Site) (s : State) (w : Plain) (width : Nat) (f : Val → Val → Nat × Bool) : State :=
  let a := x.opnd 0
  let b := x.opnd 1
  let t := lift2 width (fun p q => BitVec.ofNat 128 (f p q).1) a b
  if anyLane (a.mask &&& b.mask) fun l => (f (a.at_ l) (b.at_ l)).2 then x.commitWith s w.ta w.tb t .satCount
  else x.yield s w.ta w.tb t

/-- LQD (R182, R184). -/
def execLqd (w : Plain) (s : State) : Host.Outcome State Fault Refusal :=
  atSite s fun x => x.satCounting s w 128 fun a b => lq2Decode (a.toNat % 2 ^ 16) (b.toNat % 256)

/-- SCLX (R183, R184). -/
def execSclx (w : Plain) (s : State) : Host.Outcome State Fault Refusal :=
  atSite s fun x => x.satCounting s w w.ty.tokenWidth fun a b => sclxVal w.ty a (b.toNat % 256)

end Sys2Proof.Machine
end

