-- ==== Sys2Proof/Machine/Xlate.lean ====
section
/-! DEFINITION. The physical map, homes, translation and the checks common to every access (11_memories: R203 to R214;
13_ref_memory: R240, R241). -/

namespace Sys2Proof.Machine

/-! ## The physical map (R203) -/

/-- What stands at a physical address. -/
inductive Kind where
  | hbm | window | view | host | none
  deriving DecidableEq, Repr

/-- The raw alias bit of a physical address (R203). -/
def isRaw (pa : Nat) : Bool := pa.testBit 51

/-- A physical address without its raw alias bit: the address memory is kept under. -/
def plainPa (pa : Nat) : Nat := pa % 2 ^ 51

/-- What stands at a plain physical address (R203). -/
def kindAt (p : Nat) : Kind :=
  if p < 0x80_0000_0000 then .hbm
  else if p < 0x80_0010_0000 then .window
  else if 0xA0_0000_0000 ≤ p && p < 0xC0_0000_0000 then .view
  else if 2 ^ 44 ≤ p && p < 2 ^ 51 then .host
  else .none

/-- The XOR of the lowest `n` groups of `w` bits of a number. -/
def xorGroups (w : Nat) : Nat → Nat → Nat
  | 0, _ => 0
  | n + 1, v => (v % 2 ^ w) ^^^ xorGroups w n (v / 2 ^ w)

/-- The L2 slice of a line on its home die, and of its copy on another die (R204): the XOR of p[9:7] to p[36:34]. -/
def sliceOf (p : Nat) : Nat := xorGroups 3 10 (p / 128)

/-- The memory controller of a line on its home die (R204). -/
def controllerOf (p : Nat) : Nat :=
  let x (l : List Nat) : Nat := l.foldl (fun r k => (r + bitsOf p k 1) % 2) 0
  2 * x [8, 16, 24, 32] + x [9, 17, 25, 33]

/-- The package-cache slice of a line (R204): the XOR of p[10:7] to p[38:35]. -/
def pkgSliceOf (p : Nat) : Nat := xorGroups 4 8 (p / 128)

/-- The hearth die as a home, beside hob dies 0 to 3. -/
def hearth : Nat := 4

/-- An address is populated; a raw alias names HBM alone (R203). -/
def populated (pa : Nat) : Bool :=
  if isRaw pa then kindAt (plainPa pa) = .hbm else kindAt (plainPa pa) != .none

/-- A die serves its memory: not OFF, not in reset (R21, R241). The hearth die always does. -/
def dieUp (s : State) (d : Nat) : Bool := d == hearth || ((die s d).mode != .off && !(die s d).inReset)

/-! ## Format windows (R213) -/

/-- The fields of a format window: EN, view base and length, code and scale storage (R213). -/
structure FmtWin where
  en : Bool
  base : Nat
  len : Nat
  code : Nat
  scale : Nat

/-- The fields of FWn's 128 bits (R213). -/
def fmtWin (v : Val) : FmtWin :=
  let n := v.toNat
  ⟨n.testBit 127, 0xA0_0000_0000 + bitsOf n 106 21 * 2 ^ 16, bitsOf n 85 21 * 2 ^ 16, bitsOf n 59 26 * 2 ^ 13,
   bitsOf n 30 29 * 2 ^ 10⟩

/-- Format window `k`; all 16 controllers hold the same value, so die 0's copy, or another die's while die 0 has lost
its own, says it (R127). -/
def fw (s : State) (k : Nat) : Val := ((s.dies.map fun d => get d.fw k 0).find? (· != 0)).getD 0

/-- The lowest-numbered enabled window whose view holds `p` (R213). -/
def viewWin (s : State) (p : Nat) : Option FmtWin :=
  ((List.range 16).map fun k => fmtWin (fw s k)).find? fun w => w.en && w.base ≤ p && p < w.base + w.len

/-- Some enabled window has `p` in its code or scale storage (R214). -/
def inStorage (s : State) (p : Nat) : Bool :=
  (List.range 16).any fun k =>
    let w := fmtWin (fw s k)
    w.en && ((w.code ≤ p && p < w.code + w.len / 8) || (w.scale ≤ p && p < w.scale + w.len / 64))

/-- The home die of a plain physical address; the PTE's HOME names a host line's (R203). -/
def homeOf (s : State) (p pteHome : Nat) : Nat :=
  match kindAt p with
  | .hbm => bitsOf p 37 2
  | .window => hearth
  | .view => match viewWin s p with
    | some w => bitsOf w.code 37 2
    | none => pteHome
  | _ => pteHome

/-! ## The home's value of a line -/

/-- A line as its home slice gives it: while an uncommitted block's atomics hold it, what it held before them (R230). -/
def homeLine (s : State) (line : Nat) : Line × BitVec 2 :=
  match s.held.find? fun h => h.line == line with
  | some h => (h.old, h.oldPoison)
  | none => (readLine s.mem line, linePoison s line)

/-- The `n`-byte number at plain address `p`, within one line, as the home gives it. -/
def homeRead (s : State) (p n : Nat) : Nat := lineGet (homeLine s (lineOf p)).1 (p % 128) n

/-- The sector at plain address `p` is poisoned at its home. -/
def homePoisoned (s : State) (p : Nat) : Bool := (homeLine s (lineOf p)).2.getLsbD (p % 128 / 64)

/-! ## Page-table entries (R209) -/

/-- Fields of a page-table entry (R209). -/
def pteV (e : Word) : Bool := e.getLsbD 0
/-- Leaf. -/
def pteL (e : Word) : Bool := e.getLsbD 1
/-- Writable. -/
def pteW (e : Word) : Bool := e.getLsbD 2
/-- Executable. -/
def pteX (e : Word) : Bool := e.getLsbD 3
/-- Physical address of the page or the next table. -/
def pteFrame (e : Word) : Nat := bitsOf e.toNat 12 40 * 2 ^ 12
/-- Part of a 64 KiB page. -/
def pteS64 (e : Word) : Bool := e.getLsbD 54
/-- Where a line may be held (R205). -/
def pteCache (e : Word) : Nat := bitsOf e.toNat 55 2
/-- Home die. -/
def pteHome (e : Word) : Nat := bitsOf e.toNat 57 3
/-- Atomic capability. -/
def pteAtom (e : Word) : Nat := bitsOf e.toNat 60 2
/-- Migrate hint. -/
def pteMig (e : Word) : Bool := e.getLsbD 62
/-- Every core access faults POISON_CONSUMED. -/
def ptePoison (e : Word) : Bool := e.getLsbD 63

/-- A leaf entry with a page of `size` bytes breaks no rule of R210's third row. -/
def leafOk (e : Word) (size : Nat) : Bool :=
  pteAtom e != 3 && pteCache e != 3 && pteHome e < 4 && bitsOf e.toNat 52 2 == 0 && bitsOf e.toNat 4 8 == 0 &&
  pteFrame e % size == 0 && populated (pteFrame e) &&
  (kindAt (plainPa (pteFrame e)) != .hbm || pteHome e == bitsOf (pteFrame e) 37 2)

/-- How a walk ends: a page, or a fault (R210). -/
inductive Walk where
  | page (e : TlbEntry)
  | fault (c : FaultCode)
  deriving DecidableEq, Repr

/-- The entry at plain address `p` of a table, or why it cannot be read (R210, R241 step 3). -/
def readPte (s : State) (p : Nat) : Except FaultCode Word :=
  if !populated p then .error .accessViolation
  else if kindAt (plainPa p) = .hbm && !dieUp s (bitsOf p 37 2) then .error .dieOffline
  else if homePoisoned s (plainPa p) then .error .poisonConsumed
  else .ok (BitVec.ofNat 64 (homeRead s (plainPa p) 8))

/-- The 16 entries around a level-3 entry make one 64 KiB page: each has S64 set and all are equal (R208). -/
def whole64 (s : State) (p : Nat) (e : Word) : Bool :=
  pteS64 e && (List.range 16).all fun k =>
    match readPte s (p / 128 * 128 + 8 * k) with
    | .ok x => x == e
    | .error _ => false

/-- A poisoned entry among the 16 that a walker reads for an S64 entry (R208, R210). -/
def poison16 (s : State) (p : Nat) : Bool :=
  (List.range 2).any fun k => homePoisoned s (plainPa (p / 128 * 128 + 64 * k))

/-- One walk from level `n` levels above the last, the table at `tab` (R208 to R210). Levels are listed as the shift
and the width of their index. -/
def walkFrom (s : State) (ctx va : Nat) : List (Nat × Nat) → Nat → Walk
  | [], _ => .fault .accessViolation
  | (sh, w) :: rest, tab =>
    let p := tab + 8 * bitsOf va sh w
    match readPte s p with
    | .error c => .fault c
    | .ok e =>
      if !pteV e then .fault .pageFault
      else if pteL e then
        if sh == 39 then .fault .accessViolation
        else if sh == 12 && pteS64 e && poison16 s p then .fault .poisonConsumed
        else
          let size := if sh == 12 && whole64 s p e then 2 ^ 16 else 2 ^ sh
          if leafOk e size then .page ⟨ctx, va / size * size, size, e⟩ else .fault .accessViolation
      else if rest.isEmpty || !populated (pteFrame e) then .fault .accessViolation
      else walkFrom s ctx va rest (pteFrame e)

/-- The walk of one virtual address below 2^52 in a context; a context without a root translates nothing (R208). -/
def walk (s : State) (ctx va : Nat) : Walk :=
  match find s.roots ctx with
  | none => .fault .pageFault
  | some r => walkFrom s ctx va [(39, 13), (30, 9), (21, 9), (12, 9)] r

/-! ## TLBs (R211) -/

/-- An entry translates `va` in context `ctx`. -/
def TlbEntry.hits (e : TlbEntry) (ctx va : Nat) : Bool := e.ctx == ctx && e.va ≤ va && va < e.va + e.size

/-- The physical address of `va` under an entry. -/
def TlbEntry.pa (e : TlbEntry) (va : Nat) : Nat := pteFrame e.pte + (va - e.va)

/-- The core TLB with an entry, its 1,024 newest kept (R202; which entry is replaced is timing). -/
def fillCore (s : State) (c : Nat) (e : TlbEntry) : State :=
  modCore s c fun x => { x with tlb := (e :: x.tlb).take 1024 }

/-- The package TLB with an entry, its 16,384 newest kept (R202). -/
def fillPkg (s : State) (e : TlbEntry) : State := { s with ptlb := (e :: s.ptlb).take 16384 }

/-- Translation of `va` for core `c`: its TLB, the package TLB, then a walk. A hit in the package TLB fills the core's; a
walk fills both, unless it ends at a page that refuses the access, which `ok` tells of its entry (R210, R211). -/
def translate (s : State) (c ctx va : Nat) (ok : Word → Bool) : Walk × State :=
  match (core s c).tlb.find? fun e => e.hits ctx va with
  | some e => (.page e, s)
  | none => match s.ptlb.find? fun e => e.hits ctx va with
    | some e => (.page e, fillCore s c e)
    | none => match walk s ctx va with
      | .page e => (.page e, if ok e.pte then fillCore (fillPkg s e) c e else s)
      | .fault f => (.fault f, s)

/-- Translation by the package TLB or a walk, as the hearth die makes it (R31). -/
def translatePkg (s : State) (ctx va : Nat) : Walk :=
  match s.ptlb.find? fun e => e.hits ctx va with
  | some e => .page e
  | none => walk s ctx va

/-! ## One lane's access (R240, R241) -/

/-- A translated access: physical address with its raw bit, home, the page's rights. -/
structure Acc where
  pa : Nat
  home : Nat
  w : Bool
  atom : Nat
  cache : Nat
  ppois : Bool
  mig : Bool
  deriving DecidableEq, Repr

/-- What an access does, for the checks. -/
inductive Use where
  /-- LD, LDC -/
  | load
  /-- ST, a plain FLSIG signal -/
  | store
  /-- integer atomics and the add form of FLSIG -/
  | atomicI
  /-- AFADD -/
  | atomicF
  /-- LLOCK, LTRY -/
  | lock
  /-- LUNLK: no rights beyond translation -/
  | unlock
  /-- INVL, WBL, PREF: no rights beyond translation, no poison -/
  | line
  deriving DecidableEq, Repr

/-- The access writes: a store or an atomic (R209). -/
def Use.writes : Use → Bool
  | .store | .atomicI | .atomicF => true
  | _ => false

/-- The access of a translated page. -/
def accOf (s : State) (e : TlbEntry) (va : Nat) : Acc :=
  let pa := e.pa va
  ⟨pa, homeOf s (plainPa pa) (pteHome e.pte), pteW e.pte, pteAtom e.pte, pteCache e.pte, ptePoison e.pte, pteMig e.pte⟩

/-- Step 3's rights after translation: the address populated, a decoded view covered, W for what writes (R203, R210,
R213). -/
def rightsErr (s : State) (u : Use) (a : Acc) : Option FaultCode :=
  if !populated a.pa then some .accessViolation
  else if kindAt (plainPa a.pa) = .view && (viewWin s (plainPa a.pa)).isNone then some .accessViolation
  else if u.writes && !a.w then some .accessViolation
  else none

/-- FORMAT_READ_ONLY: a store or atomic to a decoded view, or a plain one to code or scale storage (R214). -/
def formatErr (s : State) (u : Use) (a : Acc) : Bool :=
  u.writes &&
    (kindAt (plainPa a.pa) = .view || (!isRaw a.pa && inStorage s (plainPa a.pa)))

/-- The capability check of R215: integer column for all but AFADD. -/
def atomErr (u : Use) (a : Acc) : Bool :=
  match u with
  | .atomicI | .lock | .atomicF =>
    a.atom == 2 || (u = .atomicF && a.atom == 1) || kindAt (plainPa a.pa) = .window ||
      (kindAt (plainPa a.pa) = .host && (a.cache == 2 || a.atom == 1))
  | _ => false

/-- The page's POISON is consumed (R209, R218, R241 step 7). -/
def pagePoisonErr (u : Use) (a : Acc) : Bool := a.ppois && u != .line

/-- The checks of R241 from step 3 on, on a translated address: the failing step and its fault. -/
def accCheck (s : State) (u : Use) (a : Acc) : Except (Nat × FaultCode) Acc :=
  match rightsErr s u a with
  | some c => .error (3, c)
  | none =>
    if !dieUp s a.home then .error (4, .dieOffline)
    else if formatErr s u a then .error (5, .formatReadOnly)
    else if atomErr u a then .error (6, .atomicUnsupported)
    else if pagePoisonErr u a then .error (7, .poisonConsumed)
    else .ok a

/-- The checks of R241 on a virtual address. -/
def vaCheck (s : State) (c ctx va size : Nat) (u : Use) : Except (Nat × FaultCode) Acc × State :=
  if 2 ^ 52 ≤ va then (.error (1, .pageFault), s)
  else if va % size != 0 then (.error (2, .misaligned), s)
  else match translate s c ctx va fun e => !u.writes || pteW e with
    | (.fault f, s) => (.error (3, f), s)
    | (.page e, s) => (accCheck s u (accOf s e va), s)

/-- The last check of R241 as an atomic meets it when it is made before the atomic goes to its home: the sector is poisoned there
(R215, R218). -/
def sectorCheck (r : Except (Nat × FaultCode) Acc × State) : Except (Nat × FaultCode) Acc × State :=
  match r with
  | (.ok a, s) => if homePoisoned s (plainPa a.pa) then (.error (7, .poisonConsumed), s) else (.ok a, s)
  | _ => r

/-- The first two checks of R241 on pieces of `n` bytes at offsets from an address that is to be `al`-byte aligned: a byte at or
above 2^52, then misalignment. -/
def regionFault (va al n : Nat) (offs : List Nat) : Option (FaultCode × Nat) :=
  match offs.find? fun o => 2 ^ 52 < va + o + n with
  | some o => some (.pageFault, max (va + o) (2 ^ 52))
  | none => if va % al != 0 then some (.misaligned, va) else none

/-- The virtual base of a window (R124). -/
def winVbase (b : Val) : Nat := bitsOf b.toNat 64 52
/-- LIMIT of a window. -/
def winLimit (b : Val) : Nat := bitsOf b.toNat 32 32
/-- The physical frame of a window. -/
def winFrame (b : Val) : Nat := bitsOf b.toNat 0 32 * 2 ^ 12
/-- VALID of a window. -/
def winValid (b : Val) : Bool := b.getLsbD 127

/-- The checks of R241 on a window access: below LIMIT by the window's frame and kept rights, otherwise by translation of
VBASE + e (R212, R240). -/
def winCheck (s : State) (c ctx : Nat) (w : WinReg) (e : Word) (size : Nat) (u : Use) :
    Except (Nat × FaultCode) Acc × State :=
  if e.toNat < winLimit w.bits then
    let va := winVbase w.bits + e.toNat
    let pa := winFrame w.bits + winVbase w.bits % 2 ^ 12 + e.toNat
    if va % size != 0 then (.error (2, .misaligned), s)
    else (accCheck s u ⟨pa, homeOf s (plainPa pa) w.rights.home, w.rights.w, w.rights.atom, w.rights.cache, false, false⟩,
      s)
  else vaCheck s c ctx ((BitVec.ofNat 64 (winVbase w.bits) + e).toNat) size u

/-- The window that R212 fills from VBASE, or its fault. -/
def fillWindow (s : State) (c ctx vbase : Nat) : Except FaultCode WinReg × State :=
  if 2 ^ 52 ≤ vbase then (.error .pageFault, s)
  else match translate s c ctx vbase fun _ => true with
    | (.fault f, s) => (.error f, s)
    | (.page e, s) =>
      let pa := e.pa vbase
      let limit := if 2 ^ 44 ≤ pa || ptePoison e.pte then 0 else min (2 ^ 32 - 1) (e.va + e.size - vbase)
      (.ok ⟨BitVec.ofNat 128 (2 ^ 127 + vbase * 2 ^ 64 + limit * 2 ^ 32 + pa / 2 ^ 12 % 2 ^ 32),
        ⟨pteW e.pte, pteAtom e.pte, pteCache e.pte, pteHome e.pte⟩⟩, s)

/-- Rights as bits [123:116] of a window token. -/
def rightsBits (r : Rights) : Val :=
  BitVec.ofNat 128 (((if r.w then 1 else 0) + 2 * r.atom + 8 * r.cache + 32 * r.home) * 2 ^ 116)

/-- A window register as a token's value. -/
def winVal (w : WinReg) : Val := w.bits ||| rightsBits w.rights

/-- The window register of a window token's value: bits [126:116] of the register are zero (R124). -/
def winOfVal (v : Val) : WinReg :=
  let n := v.toNat
  ⟨BitVec.ofNat 128 (bitsOf n 127 1 * 2 ^ 127 + bitsOf n 0 116),
   ⟨n.testBit 116, bitsOf n 117 2, bitsOf n 119 2, bitsOf n 121 3⟩⟩

end Sys2Proof.Machine
end

