-- ==== Sys2Proof/Machine/Memory.lean ====
section
/-! DEFINITION. Loads, stores, atomics, fences, windows and cache operations as their blocks perform them
(13_ref_memory: R239 to R252; 12_ordering: R219 to R230). What the home slices do with the requests stands in Home.lean. -/

namespace Sys2Proof.Machine

/-! ## Lines, pending stores, views -/

/-- The bit mask of a line under a byte mask. -/
def spread (bytes : BitVec 128) : Line :=
  BitVec.ofNat 1024 ((List.range 128).foldl (fun r k => if bytes.getLsbD k then r + 255 * 2 ^ (8 * k) else r) 0)

/-- A line with the masked bytes of another. -/
def mergeLine (l : Line) (bytes : BitVec 128) (d : Line) : Line := (l &&& ~~~spread bytes) ||| (d &&& spread bytes)

/-- The poison bits a store leaves: a sector wholly covered is clean (R218). -/
def storePoison (p : BitVec 2) (bytes : BitVec 128) : BitVec 2 :=
  let full : BitVec 64 := ~~~(0 : BitVec 64)
  let p := if bytes.extractLsb' 0 64 == full then p &&& 2 else p
  if bytes.extractLsb' 64 64 == full then p &&& 1 else p

/-- A line and its poison with the stores of a list applied in order. -/
def overlay (l : Line × BitVec 2) (ps : List Posted) : Line × BitVec 2 :=
  ps.foldl (fun r p => (mergeLine r.1 p.bytes p.data, storePoison r.2 p.bytes)) l

/-- The stores that a die's slice holds for a line and its home has not acknowledged (R220). -/
def pending (s : State) (d line : Nat) : List Posted :=
  s.posted.filter fun p => p.die == d && p.line == line && p.stage != 0

/-- The stores to a line still in a core's write path (R223). -/
def inWritePath (s : State) (c line : Nat) : List Posted :=
  s.posted.filter fun p => p.core == c && p.line == line && p.stage == 0

/-- The line is held for an uncommitted block other than `uid` (R230). -/
def heldFor (s : State) (line uid : Nat) : Bool := s.held.any fun h => h.line == line && h.blk != uid

/-- The line as die `d`'s slice serves it: its home's value there, else its copy, under the stores not yet acknowledged;
none is a miss (R220). A decoded line that the die's L2 holds is served from there, wherever the format windows now put its
home (R128). -/
def dieView (s : State) (d line home : Nat) : Option (Line × BitVec 2) :=
  let base : Option (Line × BitVec 2) :=
    if kindAt line = .view then (find (die s d).decoded line).or (find (die s d).copies line)
    else if home == d then some (homeLine s line)
    else find (die s d).copies line
  base.map fun l => overlay l (pending s d line)

/-- The line may be kept in L1 and in copies of other dies (R205, R206). -/
def l1Able (line cache : Nat) : Bool := cache == 0 && kindAt line != .window
/-- The line may be kept as a copy on another die. -/
def copyAble (line cache : Nat) : Bool := cache != 2 && kindAt line != .window

/-- The line that a cache gives up as another is filled: some line of those that may go when it is full, some or none when
it is not, the `n`th free value choosing (log entry 49). -/
def victimOf (n : Nat) (full : Bool) (l : List Nat) : Option Nat :=
  l[Config.victim n % (l.length + if full then 0 else 1)]?

/-- A table without an entry that is given up. -/
def evict {α : Type} (m : KMap α) (v : Option Nat) : KMap α :=
  match v with
  | some k => del m k
  | none => m

/-- The L1 without what a fill of `line` gives up: 2,048 lines are its capacity, and a locked line stays (R12, R202). -/
def makeL1 (n : Nat) (l1 : KMap L1Line) (line : Nat) : KMap L1Line :=
  let others := l1.filter fun e => e.1 != line
  evict l1 (victimOf n (2048 ≤ others.length) ((others.filter fun e => e.2.locked.isNone).map Prod.fst))

/-- The L1 has no room for a line: the 2,048 others in it are all locked (R2, R202). -/
def l1Full (l1 : KMap L1Line) (line : Nat) : Bool :=
  let others := l1.filter fun e => e.1 != line
  2048 ≤ others.length && others.all fun e => e.2.locked.isSome

/-- A line filled into a core's L1 under the core's own stores, stamped (R205, R223, R225). A locked line stays locked. An L1 whose
2,048 lines are all locked takes no other line: a load that missed is served all the same, and a lock that is granted is held
without its line in L1, since the rules give the L1 no more room and no way to give up a locked line (R2, R12, R202, R255; log
entry 49). -/
def fillL1 (s : State) (c line : Nat) (l : Line × BitVec 2) : State :=
  let l := overlay l (inWritePath s c line)
  let (n, s) := fresh s
  modCore s c fun x =>
    if l1Full x.l1 line then x
    else { x with l1 := put (makeL1 n x.l1 line) line ⟨l.1, l.2, (find x.l1 line).bind L1Line.locked, n⟩ }

/-- A die's slices without what a fill of `line` gives up: a copy, a decoded line or a line of its own memory, of the line's
slice, which holds 131,072 lines (R202, R204). A line given up is no longer there for its die; its home still has it (R205). -/
def makeSlice (s : State) (d line : Nat) : State :=
  let (n, s) := fresh s
  modDie s d fun x =>
    let others := ((keys x.copies ++ keys x.decoded ++ x.resident).filter fun k => k != line && sliceOf k == sliceOf line)
    let v := victimOf n (131_072 ≤ others.length) others
    { x with
      copies := evict x.copies v
      decoded := evict x.decoded v
      resident := x.resident.filter fun k => v != some k }

/-- A line put into the package cache, which gives one up of the line's slice, of 131,072 lines (R202, R204, R205). A line that
is there stays as it is. -/
def fillPkgCache (s : State) (line : Nat) : State :=
  let (n, s) := fresh s
  let others := (keys s.pkgCache).filter fun k => k != line && pkgSliceOf k == pkgSliceOf line
  { s with pkgCache := put (evict s.pkgCache (victimOf n (131_072 ≤ others.length) others)) line (get s.pkgCache line 0) }

/-- A line from its home on its way through the package cache: it is looked up there, an error that struck it there goes with
it, and it fills it (R205, R217). -/
def viaPkgCache (s : State) (line : Nat) (l : Line × BitVec 2) : (Line × BitVec 2) × State :=
  ((l.1, l.2 ||| get s.pkgCache line 0), fillPkgCache s line)

/-- A present L1 line takes a newer value that the core has seen, so that no later load returns an earlier one (R221). -/
def refreshL1 (s : State) (c line : Nat) (l : Line × BitVec 2) : State :=
  if (find (core s c).l1 line).isSome then fillL1 s c line l else s

/-- The heat pairs of die `d` whose window holds line `p` of a MIG page, with one more line delivered and the clocks for which
its request waited at the controller, a free value (R372; log entry 49). -/
def countHeat (s : State) (d p : Nat) : State :=
  let hit (e : Nat × Heat) : Bool := e.1 / 16 == controllerOf p && e.2.size != 0 && e.2.base ≤ p && p < e.2.base + e.2.size
  if (die s d).heat.any hit then
    let (n, s) := fresh s
    modDie s d fun x => (x.heat.filter hit).foldl (fun x e =>
      (x.count (16 + 2 * e.1) 1).count (17 + 2 * e.1) (Config.waited n)) x
  else s

/-- A line of its own memory, or of host memory, that a home die's L2 is to serve: it comes from the controller unless the L2
holds it (R16, R205, R372). -/
def homeFetch (s : State) (home line : Nat) (mig : Bool) : State :=
  if 4 ≤ home || (die s home).resident.contains line then s
  else
    let s := if mig then countHeat s home line else s
    modDie (makeSlice s home line) home fun x => { x with resident := insertNat x.resident line }

/-- A line of memory with more of its sectors poisoned. -/
def addPoison (s : State) (line : Nat) (p : BitVec 2) : State :=
  let s := if p.getLsbD 0 then setPoison s line true else s
  if p.getLsbD 1 then setPoison s (line + 64) true else s

/-- A request from die `d` for a line crosses the hearth die: its home is the hob die that is no neighbour, or it reads host
memory, at the home die as its L2 fetches the line (R8, R205). -/
def crossesHearth (s : State) (d line home : Nat) : Bool :=
  (home < 4 && (home + 2) % 4 == d) || (kindAt line = .host && (d != home || !(die s d).resident.contains line))

/-- A home die's L2 fetches a line that it is to serve on its own die; what crosses the hearth die goes through the package cache,
and an error that struck it there comes with it (R205, R217). -/
def ownFetch (s : State) (d line cache : Nat) (mig : Bool) : State :=
  if copyAble line cache && crossesHearth s d line d then
    let (l, s) := viaPkgCache s line (0, 0)
    addPoison (homeFetch s d line mig) line l.2
  else homeFetch s d line mig

/-! ## Lanes and addresses -/

/-- The lanes an access runs for: every lane of `m`, or its lowest when all operands are uniform (R242). -/
def accLanes (uni : Bool) (m : Mask) : List Nat := if uni then m.lanes.take 1 else m.lanes

/-- The immediate offset of a memory word as a 64-bit number (R75). -/
def memOff (w : MemW) : Word := w.off.signExtend 64

/-- e = a + offset of a lane (R212, R240). -/
def laneE (w : MemW) (a : Token) (l : Nat) : Word := BitVec.ofNat 64 (a.at_ l).toNat + memOff w

/-- The address a record carries for a lane: virtual, or the scratchpad offset (R241, R380). -/
def laneAddr (b : Blk) (w : MemW) (a : Token) (l : Nat) : Nat :=
  if w.win = 15 then (laneE w a l).toNat
  else (BitVec.ofNat 64 (winVbase (get b.wins w.win.toNat ⟨0, ⟨false, 0, 0, 0⟩⟩).bits) + laneE w a l).toNat

/-- The checks of one lane of a memory word (R240, R241). -/
def laneCheck (s : State) (x : Site) (ctx : Nat) (w : MemW) (a : Token) (size : Nat) (u : Use) (l : Nat) :
    Except (Nat × FaultCode) Acc × State :=
  if w.win = 15 then vaCheck s x.core ctx (laneE w a l).toNat size u
  else winCheck s x.core ctx (get x.b.wins w.win.toNat ⟨0, ⟨false, 0, 0, 0⟩⟩) (laneE w a l) size u

/-- What checking the lanes of an access gives: each lane's outcome, in lane order, with the TLBs filled. -/
def checkLanes (s : State) (f : State → Nat → Except (Nat × FaultCode) Acc × State) :
    List Nat → List (Nat × Except (Nat × FaultCode) Acc) × State
  | [] => ([], s)
  | l :: ls =>
    let (r, s) := f s l
    let (rs, s) := checkLanes s f ls
    ((l, r) :: rs, s)

/-- The deciding failure of a list of lane outcomes: the first check in order that a lane fails, at the lowest such lane
(R241). -/
def firstFailure (rs : List (Nat × Except (Nat × FaultCode) Acc)) : Option (Nat × Nat × FaultCode) :=
  let bad := rs.filterMap fun r => match r.2 with
    | .error (k, c) => some (k, r.1, c)
    | .ok _ => none
  leastBy (fun a b => a.1 < b.1 || (a.1 == b.1 && a.2.1 < b.2.1)) bad

/-- The deciding failure of the checks before the last one, poison (R241). -/
def earlyFailure (rs : List (Nat × Except (Nat × FaultCode) Acc)) : Option (Nat × Nat × FaultCode) :=
  firstFailure (rs.filter fun r => match r.2 with
    | .error (k, _) => k < 7
    | .ok _ => true)

/-- The lanes on a page with POISON: they fail the last check of R241, as a lane whose sector comes poisoned does, so that the
lowest of both kinds decides. -/
def poisonLanes (rs : List (Nat × Except (Nat × FaultCode) Acc)) (addr : Nat → Nat) : List LaneLoad :=
  rs.filterMap fun r => match r.2 with
    | .error (7, c) => some ⟨r.1, addr r.1, 0, none, some c⟩
    | _ => none

/-- The lanes that passed. -/
def passed (rs : List (Nat × Except (Nat × FaultCode) Acc)) : List (Nat × Acc) :=
  rs.filterMap fun r => match r.2 with
    | .ok a => some (r.1, a)
    | .error _ => none

/-- The state with the block marked as using the translations of addresses (R211). -/
def usePages (s : State) (x : Site) (as : List Nat) : State :=
  x.mod s fun b => { b with pages := as.foldl (fun p a => insertNat p (a / 4096)) b.pages }

/-! ## Order within the strand -/

/-- The instruction at index `i` of a block. -/
def Blk.instr (b : Blk) (i : Nat) : Option Instr := (b.words[i]?).bind fun w => (decodeWord w).toOption

/-- An instruction of the block below index `n` that has not resolved satisfies `p`. -/
def openBelow (b : Blk) (n : Nat) (p : Instr → Bool) : Bool :=
  (List.range (min n b.words.length)).any fun i =>
    !b.resolved.has i && (match b.instr i with | some j => p j | none => false)

/-- The instruction's class (R80). -/
def clsOf (i : Instr) : Option Cls := i.spec.map OpSpec.cls

/-- A load or atomic with acquire order (R226). -/
def acquires : Instr → Bool
  | .ld w | .lds w | .ldc w | .aadd w | .afadd w | .amin w | .amax w | .aand w | .aor w | .axor w | .axchg w
  | .acas w => w.order.toNat % 2 == 1
  | _ => false

/-- A load or atomic. -/
def reads : Instr → Bool
  | .ld _ | .lds _ | .ldc _ => true
  | .aadd _ | .afadd _ | .amin _ | .amax _ | .aand _ | .aor _ | .axor _ | .axchg _ | .acas _ => true
  | _ => false

/-- An atomic. -/
def isAtomic : Instr → Bool
  | .aadd _ | .afadd _ | .amin _ | .amax _ | .aand _ | .aor _ | .axor _ | .axchg _ | .acas _ => true
  | _ => false

/-- FENCE. -/
def isFence : Instr → Bool
  | .fence _ _ => true
  | _ => false

/-- LLOCK or LTRY, whose grant orders the holder's later blocks (R235). -/
def isLlock : Instr → Bool
  | .llock _ | .ltry _ => true
  | _ => false

/-- INVL. -/
def isInvl : Instr → Bool
  | .invl _ _ => true
  | _ => false

/-- The strand's earlier blocks that have not committed (R43). -/
def Site.earlier (x : Site) : List Blk := x.st.blocks.takeWhile fun b => b.uid != x.b.uid

/-- An earlier block still has a store-class instruction to resolve, so its stores are not all known (R43, R222). -/
def Site.storesOpen (x : Site) : Bool := x.earlier.any fun b => openBelow b 64 fun i => clsOf i == some .s

/-- A load of the site's block may perform: no earlier acquire, fence, lock or INVL of the strand is still open and the
stores of earlier blocks are known (R43, R226, R227, R235, R242, R251). -/
def Site.mayLoad (x : Site) : Bool :=
  !x.storesOpen && !openBelow x.b x.i isFence &&
    !(x.earlier.any fun b => openBelow b 64 fun i => acquires i || isFence i || isLlock i || isInvl i)

/-- A byte range meets a store buffered by an earlier uncommitted block (R43). -/
def Site.meetsBuffered (x : Site) (scratch : Bool) (pa size : Nat) : Bool :=
  x.earlier.any fun b => b.stores.any fun t =>
    t.scratch == scratch && t.lanes.any fun l => plainPa l.pa < pa + size && pa < plainPa l.pa + l.size

/-! ## Loads -/

/-- The strand's key and the block with number `uid`. -/
def findBlk (s : State) (uid : Nat) : Option (Nat × Blk) :=
  s.strands.findSome? fun e => (e.2.blocks.find? fun b => b.uid == uid).map fun b => (e.1, b)

/-- The targets of the instruction word at index `i` of a block, in every format that carries two. -/
def targetsOf (b : Blk) (i : Nat) : Target × Target :=
  let w := b.words.getD i 0
  (Target.ofByte (field w 38 8), Target.ofByte (field w 30 8))

/-- The strand's loads from block `uid` on, or of every block when it is not in flight, use no L1 line filled before `n`. -/
def Strand.acquire (st : Strand) (n uid : Nat) : Strand :=
  let before := if st.blocks.any fun b => b.uid == uid then st.blocks.takeWhile fun b => b.uid != uid else []
  { st with
    l1min := n
    blocks := before ++ (st.blocks.drop before.length).map fun b => { b with l1min := n } }

/-- An acquire in block `uid` returned: the strand's later loads use no L1 line filled before (R226, R227, R235). -/
def noteAcquire (s : State) (key uid : Nat) : State :=
  let (n, s) := fresh s
  modStrand s key fun t => t.acquire n uid

/-- A load's or atomic's token over its lanes' values (R130, R243, R246). -/
def valsTok (ty : Ty) (uni : Bool) (m : Mask) (lanes : List LaneLoad) : Token :=
  let f : Nat → Val := fun l =>
    match lanes.find? fun x => uni || x.lane == l with
    | some x => carryBits ty (x.got.getD 0).toNat
    | none => 0
  mkTok uni ty.tokenWidth m f

/-- The fault of a load or atomic whose lanes have all come: that of the earliest check of R241, at the lowest such lane,
a die out of service before poison. -/
def laneFault (lanes : List LaneLoad) : Option (FaultCode × Nat) :=
  let with_ (c : FaultCode) : Option (FaultCode × Nat) :=
    (leastBy (fun a b => a.lane < b.lane) (lanes.filter fun l => l.bad == some c)).map fun l => (c, l.addr)
  (with_ .dieOffline).or (with_ .poisonConsumed)

/-- A load or atomic whose lanes have all come delivers its token and resolves, or faults; an acquire takes effect (R226,
R241, R242). -/
def finishWait (s : State) (key uid i : Nat) : State :=
  match findBlk s uid with
  | none => s
  | some (_, b) =>
    let (ta, tb) := targetsOf b i
    let done : Ty → Bool → Mask → List LaneLoad → Bool → State := fun ty uni m lanes acq =>
      if !(lanes.all fun l => l.got.isSome || l.bad.isSome) then s
      else match laneFault lanes with
      | some (c, a) => modBlk s key uid fun b =>
          { b.raise (clkOf s (coreOf key)) ⟨c, i, m, a, 0⟩ with waits := del b.waits i }
      | none =>
        let t := valsTok ty uni m lanes
        let s := modBlk s key uid fun b => b.finish i ta tb t t
        if acq then noteAcquire s key uid else s
    match find b.waits i with
    | some (.load ty uni m lanes acq) => done ty uni m lanes acq
    | some (.atomic ty uni m lanes acq) => done ty uni m lanes acq
    | _ => s

/-- One lane of a waiting load or atomic changed by `f`; the instruction ends once all have come. -/
def editLane (s : State) (key uid i lane : Nat) (f : Ty → LaneLoad → LaneLoad) : State :=
  match findBlk s uid with
  | none => s
  | some (_, b) =>
    let at_ (ty : Ty) (lanes : List LaneLoad) : List LaneLoad :=
      lanes.map fun y => if y.lane = lane then f ty y else y
    let keep (w : Wait) : State := finishWait (modBlk s key uid fun b => { b with waits := put b.waits i w }) key uid i
    match find b.waits i with
    | some (.load ty uni m lanes acq) => keep (.load ty uni m (at_ ty lanes) acq)
    | some (.atomic ty uni m lanes acq) => keep (.atomic ty uni m (at_ ty lanes) acq)
    | _ => s

/-- One lane's line comes with its value, or its sector is poisoned (R218, R242). -/
def giveLane (s : State) (key uid i lane : Nat) (l : Line × BitVec 2) : State :=
  editLane s key uid i lane fun ty y =>
    if l.2.getLsbD (plainPa y.pa % 128 / 64) then { y with bad := some .poisonConsumed }
    else { y with got := some (BitVec.ofNat 128 (lineGet l.1 (plainPa y.pa % 128) ty.bytes)) }

/-- What a load of a block that holds the line for its own atomics returns: the value before the first of them (R243). -/
def ownHeld (s : State) (uid line : Nat) : Option (Line × BitVec 2) :=
  (s.held.find? fun h => h.line == line && h.blk == uid).map fun h => (h.old, h.oldPoison)

/-- A line that a load of core `c` can have at once: from L1, or from the die's slice; the second part says that L1
served it (R219, R220, R243). -/
def lineNow (s : State) (c gk uid l1min scope : Nat) (homeServed : Bool) (a : Acc) : Option ((Line × BitVec 2) × Bool) :=
  let line := lineOf (plainPa a.pa)
  let hit : Option L1Line :=
    if scope == 0 && !homeServed && l1Able line a.cache then
      (find (core s c).l1 line).bind fun x => if l1min ≤ x.filled || x.locked == some gk then some x else none
    else none
  match hit with
  | some x => some ((x.data, x.poison), true)
  | none =>
    if homeServed || heldFor s line uid then none
    else (dieView s (dieOf c) line a.home).map fun l => (overlay l (inWritePath s c line), false)

/-- A request for a line joins the core's waiting requests, with the load that waits for it (R236). -/
def requestLine (s : State) (c line : Nat) (a : Acc) (ld : Option (Nat × Nat × Nat)) (l1 homeServed : Bool) : State :=
  let (n, s) := fresh s
  { s with reqs := s.reqs ++
      [⟨n, dieOf c, c, line, a.home, a.cache, a.mig, homeServed, ld.toList, l1, none⟩] }

/-- One lane of a performing load: at once where it can be, else by a request. A line that its own block holds is not kept in any
cache (R230, R243). -/
def loadLane (s : State) (x : Site) (gk scope : Nat) (homeServed : Bool) (lane : Nat) (a : Acc) : State :=
  let c := x.core
  let line := lineOf (plainPa a.pa)
  let l1 := scope == 0 && l1Able line a.cache
  match ownHeld s x.b.uid line, lineNow s c gk x.b.uid x.b.l1min scope homeServed a with
  | some l, _ => giveLane (bump s c 6 1) x.key x.b.uid x.i lane l
  | none, some (l, true) => giveLane s x.key x.b.uid x.i lane l
  | none, some (l, false) =>
    let own := a.home == dieOf c && kindAt line != .view
    let s := bump s c 6 1
    let s := if own then ownFetch s a.home line a.cache a.mig else s
    let l := if own then overlay (homeLine s line) (pending s a.home line ++ inWritePath s c line) else l
    let s := if l1 then fillL1 s c line l else refreshL1 s c line l
    giveLane s x.key x.b.uid x.i lane l
  | none, none => requestLine (bump s c 6 1) c line a (some (x.b.uid, x.i, lane)) l1 homeServed

/-- Scope class at which acquire reaches past the core: 1 and wider, or 0 with COOP (R226). -/
def beyondCore (p : Place) (scope : Nat) : Bool := scope != 0 || p.l.coop

/-- A checked global load performs over its lanes; those of `bad` have failed already (R241 to R243). -/
def Site.performLoad (x : Site) (s : State) (p : Place) (w : MemW) (uni : Bool) (m : Mask)
    (lanes : List (Nat × Acc)) (bad : List LaneLoad) (addr : Nat → Nat) : State :=
  let acq := w.order.toNat % 2 == 1
  let scope := w.scope.toNat
  let homeServed := 2 ≤ scope || 5 ≤ x.b.h.acq
  let wl := lanes.map fun l => (⟨l.1, addr l.1, l.2.pa, none, none⟩ : LaneLoad)
  let s := x.mod s fun b =>
    { b.fire x.i with waits := put b.waits x.i (.load w.ty uni m (wl ++ bad) (acq && beyondCore p scope)) }
  let s := usePages s x ((wl ++ bad).map LaneLoad.addr)
  let s := lanes.foldl (fun s l => loadLane s x p.gk scope homeServed l.1 l.2) s
  if lanes.isEmpty then finishWait s x.key x.b.uid x.i else s

/-- LD and LDC over operand token `a` (R241 to R243). A load that must wait for the strand's earlier blocks leaves the
state as it is and performs later. -/
def Site.loadGlobal (x : Site) (s : State) (w : MemW) (a : Token) (base : Word) : State :=
  let a := { a with val := BitVec.ofNat 128 ((base + BitVec.ofNat 64 a.val.toNat).toNat),
                    lanes := mapVals a.lanes fun v => BitVec.ofNat 128 ((base + BitVec.ofNat 64 v.toNat).toNat) }
  match x.place s with
  | none => s
  | some p =>
    if a.mask == 0 then x.yield s w.ta w.tb { uniTok w.ty.tokenWidth 0 0 with uni := a.uni }
    else if !x.mayLoad then s
    else
      let ls := accLanes a.uni a.mask
      let (rs, t) := checkLanes s (fun s l => laneCheck s x p.w.ctx w a w.ty.bytes .load l) ls
      match earlyFailure rs with
      | some (_, l, c) => x.fault t c a.mask (laneAddr x.b w a l)
      | none =>
        if (passed rs).any fun r => x.meetsBuffered false (plainPa r.2.pa) w.ty.bytes then s
        else x.performLoad t p w a.uni a.mask (passed rs) (poisonLanes rs (laneAddr x.b w a)) (laneAddr x.b w a)

/-- The scratchpad key of an offset: member × 2^20 + byte, or the violation of R207. -/
def scratchKeyIn (l : Launch) (w : Wg) (c : Nat) (e : Nat) (size : Nat) : Option Nat :=
  let member := bitsOf e 20 2
  let off := e % 2 ^ 20
  if 2 ^ 22 ≤ e || l.scratch < off + size then none
  else if !l.coop then (if member == 0 then some off else none)
  else if w.cores.contains (c / 4 * 4 + member) then some e else none

/-- As `scratchKeyIn` for a strand's place. -/
def scratchKey (p : Place) (c : Nat) (e : Nat) (size : Nat) : Option Nat := scratchKeyIn p.l p.w c e size

/-- The checks of one scratchpad lane (R207, R240, R241). -/
def scratchCheck (p : Place) (c size : Nat) (e : Nat) : Except (Nat × FaultCode) Nat :=
  if e % size != 0 then .error (2, .misaligned)
  else match scratchKey p c e size with
    | some k => .ok k
    | none => .error (3, .accessViolation)

/-- The `n`-byte number at a scratchpad key. -/
def scratchRead (w : Wg) (k n : Nat) : Nat := readLE w.scratch k n

/-- A word under the access carries an uncorrectable ECC pattern (R218). -/
def scratchPoisoned (w : Wg) (k n : Nat) : Bool := w.scratchBad.any fun b => b < k + n && k < b + 4

/-- A workgroup's scratchpad with bytes written; a word wholly written is good again. -/
def scratchWrite (w : Wg) (k : Nat) (bs : List Byte) : Wg :=
  { w with
    scratch := writeBytes w.scratch k bs
    scratchBad := w.scratchBad.filter fun b => !(k ≤ b && b + 4 ≤ k + bs.length) }

/-- LDS (R207, R240 to R243). -/
def Site.loadScratch (x : Site) (s : State) (w : MemW) : State :=
  let a := x.opnd 0
  match x.place s with
  | none => s
  | some p =>
    if a.mask == 0 then x.yield s w.ta w.tb { uniTok w.ty.tokenWidth 0 0 with uni := a.uni }
    else if !x.mayLoad then s
    else
      let n := w.ty.bytes
      let ls := accLanes a.uni a.mask
      let outs := ls.map fun l => (l, scratchCheck p x.core n (laneE w a l).toNat)
      let bad := outs.filterMap fun r => match r.2 with
        | .error (k, c) => some (k, r.1, c)
        | .ok k => if scratchPoisoned p.w k n then some (7, r.1, .poisonConsumed) else none
      match leastBy (fun a b => a.1 < b.1 || (a.1 == b.1 && a.2.1 < b.2.1)) bad with
      | some (_, l, c) => x.fault s c a.mask (laneE w a l).toNat
      | none =>
        if outs.any fun r => match r.2 with
            | .ok k => x.meetsBuffered true k n
            | .error _ => false then s
        else
          let val : Nat → Val := fun l => match outs.find? fun r => a.uni || r.1 == l with
            | some (_, .ok k) => carryBits w.ty (scratchRead p.w k n)
            | _ => 0
          let s := x.yield s w.ta w.tb (mkTok a.uni w.ty.tokenWidth a.mask val)
          if w.order.toNat % 2 == 1 && beyondCore p w.scope.toNat then noteAcquire s x.key x.b.uid else s

/-- LD (R243). -/
def execLd (w : MemW) (s : State) : Host.Outcome State Fault Refusal :=
  atSite s fun x => x.loadGlobal s w (x.opnd 0) 0

/-- LDS (R243). -/
def execLds (w : MemW) (s : State) : Host.Outcome State Fault Refusal :=
  atSite s fun x => x.loadScratch s w

/-- LDC: relative to %cbase; without an operand, uniform over the strand's mask (R75, R243). -/
def execLdc (w : MemW) (s : State) : Host.Outcome State Fault Refusal :=
  atSite s fun x =>
    let base := match x.place s with
      | some p => p.g.cbase
      | none => 0
    x.loadGlobal s w (if w.count = 0 then uniTok 64 x.b.mask 0 else x.opnd 0) base

/-! ## Stores -/

/-- The scope class that a store's or atomic's release order names, if it has one (R226). -/
def releaseOf (w : MemW) : Option Nat := if 2 ≤ w.order.toNat then some w.scope.toNat else none

/-- ST: checked and buffered for commit; a uniform 0 with mask M (R242, R244). -/
def execSt (w : MemW) (s : State) : Host.Outcome State Fault Refusal :=
  atSite s fun x =>
    let a := x.opnd 0
    let d := x.opnd 1
    let m := a.mask &&& d.mask
    let uni := a.uni && d.uni
    let t := numTok w.ty.tokenWidth m 0
    match x.place s with
    | none => s
    | some p =>
      if m == 0 then x.yield s w.ta w.tb t
      else
        let n := w.ty.bytes
        let (rs, s) := checkLanes s (fun s l => laneCheck s x p.w.ctx w a n .store l) (accLanes uni m)
        match firstFailure rs with
        | some (_, l, c) => x.fault s c m (laneAddr x.b w a l)
        | none =>
          let lanes := (passed rs).map fun r =>
            (⟨r.2.pa, laneAddr x.b w a r.1, n, lowBits (8 * n) (d.at_ r.1), r.2.home, r.2.cache⟩ : LaneStore)
          let s := usePages s x ((passed rs).map fun r => laneAddr x.b w a r.1)
          x.mod s fun b =>
            { b.finish x.i w.ta w.tb t t with stores := b.stores ++ [⟨x.i, false, releaseOf w, lanes⟩] }

/-- STS (R207, R244). -/
def execSts (w : MemW) (s : State) : Host.Outcome State Fault Refusal :=
  atSite s fun x =>
    let a := x.opnd 0
    let d := x.opnd 1
    let m := a.mask &&& d.mask
    let uni := a.uni && d.uni
    let t := numTok w.ty.tokenWidth m 0
    match x.place s with
    | none => s
    | some p =>
      if m == 0 then x.yield s w.ta w.tb t
      else
        let n := w.ty.bytes
        let outs := (accLanes uni m).map fun l => (l, scratchCheck p x.core n (laneE w a l).toNat)
        let bad := outs.filterMap fun r => match r.2 with
          | .error (k, c) => some (k, r.1, c)
          | .ok _ => none
        match leastBy (fun a b => a.1 < b.1 || (a.1 == b.1 && a.2.1 < b.2.1)) bad with
        | some (_, l, c) => x.fault s c m (laneE w a l).toNat
        | none =>
          let lanes := outs.filterMap fun r => match r.2 with
            | .ok k => some (⟨k, 0, n, lowBits (8 * n) (d.at_ r.1), 0, 0⟩ : LaneStore)
            | .error _ => none
          x.mod s fun b =>
            { b.finish x.i w.ta w.tb t t with stores := b.stores ++ [⟨x.i, true, releaseOf w, lanes⟩] }

/-- PREF fills the addressed lines into the die's slice, and with `.l1` into L1; a lane whose check fails is dropped
(R241, R245). -/
def execPref (l2 : Bool) (w : MemW) (s : State) : Host.Outcome State Fault Refusal :=
  atSite s fun x =>
    let a := x.opnd 0
    let t := x.yield s w.ta w.tb noTok
    match x.place s with
    | none => t
    | some p =>
      let (rs, t) := checkLanes t (fun s l => laneCheck s x p.w.ctx w a 1 .line l) (accLanes a.uni a.mask)
      (passed rs).foldl (fun s r =>
        requestLine s x.core (lineOf (plainPa r.2.pa)) r.2 none
          (!l2 && l1Able (lineOf (plainPa r.2.pa)) r.2.cache) false) t

/-! ## Atomics -/

/-- The instructions that receive a token derived from the result of one of `m`, over at most `n` steps (R226). -/
def Blk.feeds (b : Blk) : Nat → Mask → Mask
  | 0, m => m
  | n + 1, m => b.feeds n ((m.lanes.flatMap fun i => [(targetsOf b i).1, (targetsOf b i).2]).foldl (fun r t =>
      match t with
      | .opnd j _ => r ||| Mask.one j.toNat
      | _ => r) m)

/-- The memory word, operand use and lanes' physical addresses of an atomic of the block, if its address has come. -/
def Site.atomPas (x : Site) (s : State) (ctx j : Nat) : Option (List (Nat × Nat)) :=
  match x.b.instr j with
  | some (.aadd w) | some (.afadd w) | some (.amin w) | some (.amax w) | some (.aand w) | some (.aor w)
  | some (.axor w) | some (.axchg w) | some (.acas w) =>
    (find x.b.slots (4 * j)).map fun a =>
      (passed (checkLanes s (fun s l => laneCheck s x ctx w a w.ty.bytes .load l) a.mask.lanes).1).map fun r =>
        (plainPa r.2.pa, w.ty.bytes)
  | _ => some []

/-- A lower-indexed atomic of the block has still to go first: it is not derived from this one, and its address has not come
or meets one of `mine` (R230). -/
def Site.atomWaits (x : Site) (s : State) (ctx : Nat) (mine : List (Nat × Nat)) : Bool :=
  (List.range x.i).any fun j =>
    !x.b.fired.has j && (x.b.instr j).any isAtomic && !(x.b.feeds 64 (Mask.one x.i)).has j &&
      match x.atomPas s ctx j with
      | none => true
      | some l => l.any fun q => mine.any fun p => q.1 < p.1 + p.2 && p.1 < q.1 + q.2

/-- An atomic's requests go to the home slices, one per lane; they wait for the strand's earlier stores to be known and
for lower-indexed atomics of the block on the same address to have gone (R230, R242, R246). -/
def Site.atomic (x : Site) (s : State) (w : MemW) (op : AtomOp) (u : Use) : State :=
  let a := x.opnd 0
  let b := x.opnd 1
  let cas := op = .cas
  let c := if cas then x.opnd 2 else immTok 0
  let m := a.mask &&& b.mask &&& c.mask
  let uni := a.uni && b.uni && c.uni
  match x.place s with
  | none => s
  | some p =>
    if m == 0 then x.yield s w.ta w.tb { uniTok w.ty.tokenWidth 0 0 with uni := uni }
    else if x.storesOpen then s
    else
      let (rs, t) := checkLanes s (fun s l => laneCheck s x p.w.ctx w a w.ty.bytes u l) (accLanes uni m)
      match earlyFailure rs with
      | some (_, l, c) => x.fault t c m (laneAddr x.b w a l)
      | none =>
        let ps := passed rs
        if (ps.any fun r => x.meetsBuffered false (plainPa r.2.pa) w.ty.bytes) ||
            x.atomWaits s p.w.ctx (ps.map fun r => (plainPa r.2.pa, w.ty.bytes)) then s
        else
          let acq := w.order.toNat % 2 == 1 && beyondCore p w.scope.toNat
          let wl := (ps.map fun l => (⟨l.1, laneAddr x.b w a l.1, l.2.pa, none, none⟩ : LaneLoad)) ++
            poisonLanes rs (laneAddr x.b w a)
          let t := x.mod t fun b => { b.fire x.i with waits := put b.waits x.i (.atomic w.ty uni m wl acq) }
          let t := usePages t x (wl.map LaneLoad.addr)
          let t := ps.foldl (fun s r =>
            let (n, s) := fresh s
            { s with atoms := s.atoms ++ [⟨n, dieOf x.core, x.key, x.b.uid, x.i, r.1, op, w.ty, plainPa r.2.pa,
                r.2.home, lowBits w.ty.width (b.at_ r.1), lowBits w.ty.width (c.at_ r.1), x.b.time,
                w.scope = 3, isRaw r.2.pa⟩] }) t
          if ps.isEmpty then finishWait t x.key x.b.uid x.i else t

/-- AADD (R246). -/
def execAadd (w : MemW) (s : State) : Host.Outcome State Fault Refusal := atSite s fun x => x.atomic s w .add .atomicI
/-- AFADD (R246). -/
def execAfadd (w : MemW) (s : State) : Host.Outcome State Fault Refusal := atSite s fun x => x.atomic s w .fadd .atomicF
/-- AMIN (R246). -/
def execAmin (w : MemW) (s : State) : Host.Outcome State Fault Refusal := atSite s fun x => x.atomic s w .min .atomicI
/-- AMAX (R246). -/
def execAmax (w : MemW) (s : State) : Host.Outcome State Fault Refusal := atSite s fun x => x.atomic s w .max .atomicI
/-- AAND (R246). -/
def execAand (w : MemW) (s : State) : Host.Outcome State Fault Refusal := atSite s fun x => x.atomic s w .and .atomicI
/-- AOR (R246). -/
def execAor (w : MemW) (s : State) : Host.Outcome State Fault Refusal := atSite s fun x => x.atomic s w .or .atomicI
/-- AXOR (R246). -/
def execAxor (w : MemW) (s : State) : Host.Outcome State Fault Refusal := atSite s fun x => x.atomic s w .xor .atomicI
/-- AXCHG (R246). -/
def execAxchg (w : MemW) (s : State) : Host.Outcome State Fault Refusal := atSite s fun x => x.atomic s w .xchg .atomicI
/-- ACAS (R246). -/
def execAcas (w : MemW) (s : State) : Host.Outcome State Fault Refusal := atSite s fun x => x.atomic s w .cas .atomicI

/-! ## Fences and drains -/

/-- Every store committed by lanes `m` of group `gk` is visible at a scope: nothing is left in the write path, or
nothing at all for a scope that the write path reaches (R219, R224, R227). -/
def storesVisible (s : State) (p : Place) (m : Mask) (scope : Nat) : Bool :=
  let core := scope ≤ 1 || (scope == 2 && !p.l.coop)
  core || s.posted.all fun q => !(q.group == p.gk && q.lanes &&& m != 0 && q.stage == 0)

/-- The release that the block's atomic at index `i` performs has this scope class (R226, R230). -/
def Blk.releaseAt (b : Blk) (i : Nat) : Option Nat :=
  match b.instr i with
  | some (.aadd w) | some (.afadd w) | some (.amin w) | some (.amax w) | some (.aand w) | some (.aor w)
  | some (.axor w) | some (.axchg w) | some (.acas w) =>
    if (get b.slots (4 * i) noTok).mask &&& (get b.slots (4 * i + 1) noTok).mask == 0 then none else releaseOf w
  | _ => none

/-- The releases that take effect as the block's commit begins, those of its atomics and of its scratchpad stores, which reach
past the core: their indices (R226, R230). -/
def Blk.releases (b : Blk) (p : Place) : List Nat :=
  (((List.range b.words.length).filterMap fun i => (b.releaseAt i).map fun c => (i, c)) ++
    b.stores.filterMap fun t => if t.scratch then t.release.map fun c => (t.index, c) else none).filterMap fun e =>
      if beyondCore p e.2 then some e.1 else none

/-- What those releases wait for: the stores of earlier blocks are visible, and the loads below them have returned (R226,
R230). -/
def releasesReady (s : State) (p : Place) (b : Blk) : Bool :=
  (b.releases p).all fun i => storesVisible s p b.mask 4 && !openBelow b i reads

/-- FENCE resolves once its block is the strand's oldest, its earlier loads have returned, and the stores of earlier
blocks are visible at its scope; later loads then use no older L1 line (R227, R247). -/
def execFence (sc : BitVec 3) (w : Plain) (s : State) : Host.Outcome State Fault Refusal :=
  atSite s fun x =>
    match x.place s with
    | none => s
    | some p =>
      if !x.earlier.isEmpty || openBelow x.b x.i reads || !storesVisible s p x.b.mask sc.toNat then s
      else
        let s := x.yield s w.ta w.tb (numTok 32 x.b.mask 0)
        if 3 ≤ sc.toNat || (sc.toNat == 2 && p.l.coop) then noteAcquire s x.key x.b.uid else s

/-- FLSIG: its checks pass on the signal address; the drain starts at commit (R228, R241, R248). -/
def execFlsig (add : Bool) (w : MemW) (s : State) : Host.Outcome State Fault Refusal :=
  atSite s fun x =>
    if w.count = 0 then
      x.commitWith s w.ta w.tb (numTok w.ty.tokenWidth x.b.mask 0) (.flsig none false (w.scope = 3))
    else
      let a := x.opnd 0
      let b := x.opnd 1
      let m := a.mask &&& b.mask
      let t := numTok w.ty.tokenWidth m 0
      match x.place s with
      | none => s
      | some p =>
        if m == 0 then x.yield s w.ta w.tb t
        else
          let va := (a.scalar64 + memOff w).toNat
          match vaCheck s x.core p.w.ctx va 8 (if add then .atomicI else .store) with
          | (.error (_, c), s) => x.fault s c m va
          | (.ok r, s) =>
            let s := usePages s x [va]
            x.commitWith s w.ta w.tb t
              (.flsig (some ⟨r.pa, va, 8, BitVec.ofNat 128 b.scalar64.toNat, r.home, r.cache⟩) add (w.scope = 3))

/-! ## Windows and cache operations -/

/-- WIN translates VBASE and yields a uniform window token (R250). -/
def execWin (w : Plain) (s : State) : Host.Outcome State Fault Refusal :=
  atSite s fun x =>
    let a := x.opnd 0
    let b := x.last w 1 .z
    let m := a.mask &&& b.mask
    let vb := (a.scalar64 + b.scalar64).toNat
    match x.place s with
    | none => s
    | some p =>
      if m == 0 then x.yield s w.ta w.tb { uniTok 128 0 0 with win := true }
      else match fillWindow s x.core p.w.ctx vb with
        | (.error c, s) => x.fault s c m vb
        | (.ok r, s) =>
          x.yield (usePages s x [vb]) w.ta w.tb { uniTok 128 m (winVal r) with win := true }

/-- The token of an instruction whose entry states no value: uniform over M, its value free (log entry 6). -/
def silentTok (s : State) (m : Mask) : Token := uniTok 32 m (BitVec.ofNat 128 (Config.silent s.turn).toNat)

/-- INVL drops each lane's line from the core's L1, or every line that no group has locked (R251). -/
def execInvl (all : Bool) (w : MemW) (s : State) : Host.Outcome State Fault Refusal :=
  atSite s fun x =>
    let a := x.opnd 0
    let t := silentTok s a.mask
    let drop : State → (Nat × L1Line → Bool) → State := fun s f =>
      modCore s x.core fun c => { c with l1 := c.l1.filter fun e => !f e }
    if a.mask == 0 then x.yield s w.ta w.tb t
    else if all then x.yield (drop s fun e => e.2.locked.isNone) w.ta w.tb t
    else match x.place s with
      | none => s
      | some p =>
        let (rs, s) := checkLanes s (fun s l => laneCheck s x p.w.ctx w a 1 .line l) (accLanes a.uni a.mask)
        match firstFailure rs with
        | some (_, l, c) => x.fault s c a.mask (laneAddr x.b w a l)
        | none =>
          x.yield (drop s fun e => (passed rs).any fun r => lineOf (plainPa r.2.pa) == e.1) w.ta w.tb t

/-- WBL performs after the strand's earlier stores to its lines have entered the die's slice and resolves once the home
has acknowledged what the slice holds for them (R252). -/
def execWbl (w : MemW) (s : State) : Host.Outcome State Fault Refusal :=
  atSite s fun x =>
    let a := x.opnd 0
    let t := silentTok s a.mask
    match x.place s with
    | none => s
    | some p =>
      if a.mask == 0 then x.yield s w.ta w.tb t
      else
        let (rs, t') := checkLanes s (fun s l => laneCheck s x p.w.ctx w a 1 .line l) (accLanes a.uni a.mask)
        match firstFailure rs with
        | some (_, l, c) => x.fault t' c a.mask (laneAddr x.b w a l)
        | none =>
          let lines := (passed rs).map fun r => lineOf (plainPa r.2.pa)
          let busy := s.posted.any fun q => lines.contains q.line &&
            ((q.group == p.gk && q.lanes &&& x.b.mask != 0) || (q.die == dieOf x.core && q.stage != 0))
          if !x.earlier.isEmpty || busy then s else x.yield t' w.ta w.tb t

end Sys2Proof.Machine
end

