-- ==== Sys2Proof/Machine/Home.lean ====
section
/-! DEFINITION. What the home slices and the dies' slices do: posted stores, line requests, held probes, atomics, FLSIG
tokens, decoded lines, walks and writes made at the home (12_ordering: R219 to R238; 11_memories: R204, R210, R214;
13_ref_memory: R246, R249; 20_counters: R372). -/

namespace Sys2Proof.Machine

/-! ## Decoded lines (R214) -/

/-- The decoded line at view address `line`, whether a weight saturated, and its poison (R111, R112, R214). -/
def decodeLine (s : State) (w : FmtWin) (line : Nat) : Line × Bool × BitVec 2 :=
  let x := line - w.base
  let code := w.code + x / 8
  let scale := w.scale + x / 64
  let r := (List.range 8).foldl (fun (r : Nat × Bool) k =>
    let d := lq2Decode (homeRead s (code + 2 * k) 2) (homeRead s (scale + k / 4) 1)
    (r.1 + d.1 * 2 ^ (128 * k), r.2 || d.2)) (0, false)
  let p := homePoisoned s code || homePoisoned s scale
  (BitVec.ofNat 1024 r.1, r.2, if p then 3 else 0)

/-- The byte mask of `n` bytes from byte `off` of a line. -/
def maskBytes (off n : Nat) : BitVec 128 := BitVec.ofNat 128 ((2 ^ n - 1) * 2 ^ off)

/-- The bytes `raw` of a line are among the `n` bytes from `a`. -/
def touches (line : Nat) (raw : BitVec 128) (a n : Nat) : Bool := lineOf a == line && maskBytes (a % 128) n &&& raw != 0

/-- The bytes `raw` of a line have been written through the raw alias: every cached decoded line derived from them is
invalidated, wherever it is cached and whatever the format windows have become since it was decoded, and one on its way is
decoded again. Any other write leaves decoded lines as they are (R128, R214). -/
def dropDecoded (s : State) (line : Nat) (raw : BitVec 128) : State :=
  let gone := (s.sources.filter fun e => touches line raw e.2.1 16 || touches line raw e.2.2 2).map Prod.fst
  if gone.isEmpty then s
  else
    { s with
      sources := s.sources.filter fun e => !gone.contains e.1
      reqs := s.reqs.map fun r => if gone.contains r.line then { r with reply := none } else r
      cores := mapVals s.cores fun c => { c with l1 := c.l1.filter fun e => !gone.contains e.1 }
      dies := s.dies.map fun d =>
        { d with
          decoded := d.decoded.filter fun e => !gone.contains e.1
          copies := d.copies.filter fun e => !gone.contains e.1 } }

/-- A view line as the home of its codes gives it: the line that its L2 holds decoded, else decoded into it from the storage, a
saturated weight counting there; one with a poisoned source is not kept (R115, R128, R214). A strand never reads a view that no
enabled window covers, since its access faults; a host's CXL.mem read of one, for which R213 names no answer, reads zeros that
are not poisoned (log entry 40). -/
def viewLine (s : State) (line : Nat) (mig : Bool) : (Line × BitVec 2) × State :=
  match viewWin s line with
  | none => ((0, 0), s)
  | some w =>
    let d := bitsOf w.code 37 2
    match (find (die s d).decoded line).or (find (die s d).copies line) with
    | some l => (l, s)
    | none =>
      let (l, sat, p) := decodeLine s w line
      let s := if mig then countHeat s d line else s
      let s := if sat then modDie s d (Die.count · 1 1) else s
      if p != 0 then ((l, p), s)
      else
        let x := line - w.base
        let e := (line, w.code + x / 8, w.scale + x / 64)
        ((l, p), modDie { makeSlice s d line with sources := (s.sources.filter (· != e)) ++ [e] } d fun x =>
          { x with decoded := put x.decoded line (l, 0) })

/-! ## Stores at the home -/

/-- No die keeps a copy of the line, nor the package cache (R220). -/
def dropCopies (s : State) (line : Nat) : State :=
  { s with
    dies := s.dies.map fun d => { d with copies := d.copies.filter fun e => e.1 != line }
    pkgCache := del s.pkgCache line }

/-- Replies on their way carry the home's present value: the same as requests handled after the write. -/
def refreshReplies (s : State) (line : Nat) : State :=
  { s with reqs := s.reqs.map fun r =>
      if r.line = line then { r with reply := r.reply.map fun _ => homeLine s line } else r }

/-- The physical address of byte `o` of slot `k` of launch queue `q` (R27, R203). -/
def slotAddr (q k o : Nat) : Nat := 0x80_0000_0000 + q * 2 ^ 14 + k * 256 + o

/-- A launch slot does not read 0xA5 (R299). -/
def slotFree (s : State) (q k : Nat) : Bool := homeRead s (slotAddr q k 0xFF) 1 != 0xA5

/-- The first slot of a queue from `k` on that holds no posted record, `k` where every one does (R299). -/
def nextFree (s : State) (q k : Nat) : Nat := (((List.range 64).map fun j => (k + j) % 64).find? (slotFree s q)).getD (k % 64)

/-- Bytes of a line have been written: where 0xA5 has come into a launch slot's MARK, whoever has written it, the next record that
an LNCH posts goes behind it (R28, R299; log entry 24). -/
def notePost (s : State) (line : Nat) (bytes : BitVec 128) : State :=
  let q := line % 2 ^ 20 / 2 ^ 14
  let k := line % 2 ^ 14 / 256
  if kindAt line = .window && line % 256 == 128 && bytes.getLsbD 127 && !slotFree s q k then
    { s with queues := s.queues.modify q fun d => { d with post := nextFree s q (k + 1) } }
  else s

/-- Bytes of one line written at its home by an agent that waits for it: engines, the dispatcher, the host, signals. `raw` are
those written through the raw alias. Copies are invalidated, and the decoded lines of raw bytes dropped; a sector wholly written
is clean, unless the bytes are poisoned (R214, R217, R218, R220). -/
def homeStore (s : State) (line : Nat) (bytes : BitVec 128) (d : Line) (pois : BitVec 2) (raw : BitVec 128) : State :=
  let l := mergeLine (readLine s.mem line) bytes d
  let p := storePoison (linePoison s line) bytes ||| pois
  notePost (refreshReplies (dropDecoded (dropCopies (setLine s line l p) line) line raw) line) line bytes

/-- The bytes of `m` where a physical address goes through the raw alias, else none. -/
def rawBytes (pa : Nat) (m : BitVec 128) : BitVec 128 := if isRaw pa then m else 0

/-- The `n`-byte number `v`, within one line, written at its home. -/
def homeWrite (s : State) (pa n v : Nat) : State :=
  let p := plainPa pa
  let m := maskBytes (p % 128) n
  homeStore s (lineOf p) m (BitVec.ofNat 1024 (v % 2 ^ (8 * n) * 2 ^ (8 * (p % 128)))) 0 (rawBytes pa m)

/-- Bytes written at their homes, at most `n` pieces, each within one 64-byte sector: a sector wholly written is clean
(R218). -/
def homePieces : Nat → State → Nat → List Byte → State
  | 0, s, _, _ => s
  | n + 1, s, pa, bs =>
    if bs.isEmpty then s
    else
      let k := 64 - pa % 64
      homePieces n (homeWrite s pa (min k bs.length) (leNat (bs.take k))) (pa + k) (bs.drop k)

/-- Bytes written at their homes. -/
def homeBytes (s : State) (pa : Nat) (bs : List Byte) : State := homePieces bs.length s pa bs

/-- A line is held for some uncommitted block. -/
def lineHeld (s : State) (line : Nat) : Bool := s.held.any fun h => h.line == line

/-- A die has a reply for the line on its way (R236). -/
def missOut (s : State) (d line : Nat) : Bool := s.reqs.any fun r => r.die == d && r.line == line && r.reply.isSome

/-- A store whose home is out of service is dropped and counted; the launch it belongs to and its strand have lost a
store (R32, R249, R371, R406). -/
def dropStore (s : State) (p : Posted) : State :=
  let s := modGroup s p.group fun g => { g with lost := g.lost ++ [(p.lanes, p.home)] }
  let s : State := { s with
    posted := s.posted.filter fun q => q.uid != p.uid
    drains := s.drains.map fun d => if d.stores.contains p.uid then { d with failed := some p.home } else d
    launches := edit s.launches p.launch fun l => { l with failed := some (l.failed.getD (.dieOffline, p.line)) } }
  modDie s p.die (Die.count · 3 1)

/-- Replies on their way on the home's own die carry its present value: loads there read the line itself, and none of them returns
a value older than one that has been read (R221). -/
def refreshOwn (s : State) (line home : Nat) : State :=
  { s with reqs := s.reqs.map fun r =>
      if r.line = line ∧ r.die = home then { r with reply := r.reply.map fun _ => homeLine s line } else r }

/-- A posted store is applied at its home: copies on other dies are invalidated, or their probes held behind a miss
outstanding there; with none held it is acknowledged (R220, R236). -/
def applyHome (s : State) (p : Posted) : State :=
  if !dieUp s p.home then dropStore s p
  else
    let l := mergeLine (readLine s.mem p.line) p.bytes p.data
    let q := storePoison (linePoison s p.line) p.bytes
    let s := dropDecoded (setLine s p.line l q) p.line (if p.raw then p.bytes else 0)
    let s := notePost (refreshOwn s p.line p.home) p.line p.bytes
    let behind := (List.range 4).filter fun d => missOut s d p.line
    let away : Die × Nat → Die := fun e =>
      if e.2 != p.die && !behind.contains e.2 then
        { e.1 with copies := e.1.copies.filter fun c => c.1 != p.line } else e.1
    let s : State := { s with
      dies := s.dies.zipIdx.map away
      pkgCache := del s.pkgCache p.line
      probes := s.probes ++ behind.map fun d => ⟨d, p.line, some p.uid⟩ }
    if behind.isEmpty then { s with posted := s.posted.filter fun x => x.uid != p.uid }
    else { s with posted := s.posted.map fun x => if x.uid = p.uid then { x with stage := 2, probes := behind } else x }

/-- A store leaves its core's write path: applied at once where the die's slice is its home, else accepted by the copy
slice, behind the stores accepted before (R220). -/
def acceptStore (s : State) (p : Posted) : State :=
  if p.home == p.die then applyHome s p
  else
    let s := modDie s p.die fun d =>
      { d with copies := edit d.copies p.line fun l => (mergeLine l.1 p.bytes p.data, storePoison l.2 p.bytes) }
    { s with posted := (s.posted.filter fun x => x.uid != p.uid) ++ [{ p with stage := 1 }] }

/-- HOME_STORE_APPLY: a posted store goes one stage on. It leaves the write path behind earlier stores of its core to the
line and behind the stores its release names; it reaches its home behind earlier stores of its die to the line; a held
line makes it wait (R220, R222, R226, R230). -/
def execHomeStoreApply (id : Nat) (s : State) : Host.Outcome State Fault Refusal :=
  match s.posted.find? fun p => p.uid == id with
  | none => .next s
  | some p =>
    let ahead := s.posted.takeWhile fun q => q.uid != id
    if p.stage == 0 then
      if (ahead.any fun q => q.core == p.core && q.line == p.line && q.stage == 0) ||
          (s.posted.any fun q => p.deps.contains q.uid && q.stage == 0) ||
          (p.home == p.die && lineHeld s p.line) then .next s
      else .next (acceptStore s p)
    else if p.stage == 1 then
      if (ahead.any fun q => q.die == p.die && q.line == p.line && q.stage != 0) || lineHeld s p.line then .next s
      else .next (applyHome s p)
    else .next s

/-! ## Posting a block's stores (R222, R223) -/

/-- The parts of one store instruction by line, lanes in increasing order, so that the higher lane's byte stays: the line, its
bytes, their data, and the lanes' stores. -/
def byLine (ls : List LaneStore) : List (Nat × BitVec 128 × Line × List LaneStore) :=
  ls.foldl (fun r l =>
    let line := lineOf (plainPa l.pa)
    let off := plainPa l.pa % 128
    let m := maskBytes off l.size
    let d : Line := BitVec.ofNat 1024 (l.data.toNat % 2 ^ (8 * l.size) * 2 ^ (8 * off))
    if r.any fun e => e.1 == line then
      r.map fun e => if e.1 = line then (e.1, e.2.1 ||| m, mergeLine e.2.2.1 m d, e.2.2.2 ++ [l]) else e
    else r ++ [(line, m, d, [l])]) []

/-- One part of a committed store enters the core's write path: the L1 line when present, and the stores on their way
(R205, R223). `deps` are the stores that a release waits for (R226); `now` sends it to the die's slice at once, which a
REL or a FENCE of the block asks for (R224, R227). -/
def postPart (s : State) (key : Nat) (p : Place) (m : Mask) (now : Bool) (deps : List Nat)
    (e : Nat × BitVec 128 × Line × List LaneStore) : State :=
  let c := coreOf key
  let (n, s) := fresh s
  let ls := e.2.2.2
  let q : Posted := ⟨n, c, dieOf c, p.gk, m, p.lk, e.1, e.2.1, e.2.2.1, ((ls.head?).map LaneStore.home).getD 0,
    ((ls.head?).map LaneStore.cache).getD 0, ls.any fun l => isRaw l.pa, 0, deps, [],
    (ls.map fun l => l.va / 4096).foldl insertNat []⟩
  let s := modCore s c fun x =>
    { x with l1 := edit x.l1 e.1 fun l =>
        { l with data := mergeLine l.data e.2.1 e.2.2.1, poison := storePoison l.poison e.2.1 } }
  let s := { s with posted := s.posted ++ [q] }
  if now then acceptStore s q else s

/-- The stores of a committing block, in instruction-index order (R222). -/
def postStores (s : State) (key : Nat) (p : Place) (b : Blk) (m : Mask) (now : Bool) : State :=
  let bufs := b.stores.foldr (fun t r => r.takeWhile (fun u => u.index < t.index) ++ [t] ++
    r.dropWhile fun u => u.index < t.index) []
  bufs.foldl (fun s t =>
    if t.scratch then
      t.lanes.foldl (fun s l => modWg s p.wk fun w => scratchWrite w l.pa (leBytes l.size l.data.toNat)) s
    else
      let deps := match t.release with
        | some sc => if sc != 0 || p.l.coop then
            (s.posted.filter fun q => q.group == p.gk && q.lanes &&& m != 0 && q.stage == 0).map Posted.uid else []
        | none => []
      (byLine t.lanes).foldl (fun s e => postPart s key p m now deps e) s) s

/-- Lines of a block's buffered stores that some other block holds (R230). -/
def storesHeld (s : State) (b : Blk) : Bool :=
  b.stores.any fun t => !t.scratch && t.lanes.any fun l => heldFor s (lineOf (plainPa l.pa)) b.uid

/-- The block's atomics become visible and their lines are released: no copy and no reply keeps the old value, and the core's own
L1 line follows (R214, R221, R230). -/
def releaseHeld (s : State) (c uid : Nat) : State :=
  let mine := s.held.filter fun h => h.blk == uid
  let s := { s with held := s.held.filter fun h => h.blk != uid }
  mine.foldl (fun s h =>
    let s := refreshReplies (dropDecoded (dropCopies s h.line) h.line h.raw) h.line
    refreshL1 s c h.line (overlay (homeLine s h.line) (pending s (dieOf c) h.line))) s

/-! ## Requests and probes (R236) -/

/-- The home's value of a line for a request with the MIG bit; a decoded view is decoded into its home's L2 (R214, R372). -/
def serveLine (s : State) (home line : Nat) (mig : Bool) : (Line × BitVec 2) × State :=
  if kindAt line = .view then viewLine s line mig else (homeLine s line, homeFetch s home line mig)

/-- The home's value of a line as it reaches die `d`, through the package cache where it crosses the hearth die (R205, R217). -/
def serveFar (s : State) (d home line cache : Nat) (mig : Bool) : (Line × BitVec 2) × State :=
  if home == d && kindAt line != .view then
    let s := ownFetch s d line cache mig
    (homeLine s line, s)
  else
    let (l, t) := serveLine s home line mig
    if copyAble line cache && crossesHearth s d line home then viaPkgCache t line l else (l, t)

/-- A lane of a load fails, as the error reply of a die out of service makes it (R241). -/
def failLoad (s : State) (l : Nat × Nat × Nat) : State :=
  match findBlk s l.1 with
  | none => s
  | some (key, _) => editLane s key l.1 l.2.1 l.2.2 fun _ y => { y with bad := some .dieOffline }

/-- The die's own stores to a line have not all been acknowledged, as a load served at the home needs them (R225, R229). -/
def ownStores (s : State) (r : LineReq) : Bool :=
  !(pending s r.die r.line).isEmpty || !(inWritePath s r.core r.line).isEmpty

/-- A request is of the block that holds its line for its own atomics, and waits for nothing (R243). -/
def ofHolder (s : State) (r : LineReq) : Bool := r.loads.any fun l => (ownHeld s l.1 r.line).isSome

/-- HOME_LINE_REQUEST: a home slice handles one request for a line, in order of arrival; a held line, or for a load
served at the home the die's own stores not yet acknowledged, makes it wait, unless it is the holder's own (R229, R230, R236,
R243). -/
def execHomeLineRequest (id : Nat) (s : State) : Host.Outcome State Fault Refusal :=
  match s.reqs.find? fun r => r.uid == id with
  | none => .next s
  | some r =>
    let ahead := s.reqs.takeWhile fun q => q.uid != id
    if r.reply.isSome || (!ofHolder s r && (lineHeld s r.line || (ahead.any fun q => q.line == r.line && q.reply.isNone) ||
        (r.direct && ownStores s r))) then
      .next s
    else if !dieUp s r.home then
      .next (r.loads.foldl failLoad { s with reqs := s.reqs.filter fun q => q.uid != id })
    else
      let (l, s) := serveFar s r.die r.home r.line r.cache r.mig
      .next { s with reqs := s.reqs.map fun q => if q.uid = id then { q with reply := some l } else q }

/-- The loads that wait for a line get it, those of the block that holds it the value before its atomics (R236, R243). -/
def giveLoads (s : State) (r : LineReq) (v : Line × BitVec 2) : State :=
  r.loads.foldl (fun s x => match findBlk s x.1 with
    | some (key, _) => giveLane s key x.1 x.2.1 x.2.2 ((ownHeld s x.1 r.line).getD v)
    | none => s) s

/-- A reply is installed in the die's copy slice and in L1, and given to the loads that wait for it (R205, R220, R236). A line that
is held for a block's atomics is kept nowhere (R230). A load served at the home returns what the home gave: when the die has
posted a store to the line since, the home serves it again behind that store (R221, R229). -/
def installReply (s : State) (r : LineReq) (l : Line × BitVec 2) : State :=
  if r.direct && ownStores s r && !ofHolder s r then
    { s with reqs := s.reqs.map fun q => if q.uid = r.uid then { q with reply := none } else q }
  else
  let s := { s with reqs := s.reqs.filter fun q => q.uid != r.uid }
  if lineHeld s r.line then giveLoads s r l else
  let v := overlay l (pending s r.die r.line)
  let s := if r.home != r.die && copyAble r.line r.cache then
      modDie (makeSlice s r.die r.line) r.die fun d => { d with copies := put d.copies r.line v } else s
  let s := if r.fillL1 then fillL1 s r.core r.line v else refreshL1 s r.core r.line v
  giveLoads s r (overlay v (inWritePath s r.core r.line))

/-- A held probe acts at a die: its copy goes, unless the store is the die's own, and the store may be acknowledged
(R220, R236). -/
def actProbe (s : State) (h : HeldProbe) : State :=
  let own := match h.store with
    | some u => s.posted.any fun p => p.uid == u && p.die == h.die
    | none => false
  let s := if own then s else modDie s h.die fun d => { d with copies := d.copies.filter fun e => e.1 != h.line }
  match h.store with
  | none => s
  | some u =>
    { s with posted := (s.posted.map fun p =>
        if p.uid = u then { p with probes := removeNat p.probes h.die } else p).filter fun p =>
          !(p.uid == u && p.stage == 2 && p.probes.isEmpty) }

/-- A probe acts at a core whose miss it had to wait for: the line just installed goes, unless it is locked (R12, R236). -/
def dropAtCore (s : State) (c line : Nat) : State :=
  modCore s c fun x => { x with l1 := x.l1.filter fun e => !(e.1 == line && e.2.locked.isNone) }

/-- PROBE_ACT: the outstanding miss's reply is installed at a die and its core and returned to its loads; only then do the
probes held there for the line act, at the core and, once no other miss is outstanding, at the die (R236). -/
def execProbeAct (die line : Nat) (s : State) : Host.Outcome State Fault Refusal :=
  let mine := s.probes.filter fun h => h.die == die && h.line == line
  let s := match s.reqs.find? fun r => r.die == die && r.line == line && r.reply.isSome with
    | some r =>
      let s := installReply s r (r.reply.getD (0, 0))
      if mine.isEmpty then s else dropAtCore s r.core line
    | none => s
  if missOut s die line then .next s
  else .next (mine.foldl actProbe { s with probes := s.probes.filter fun h => !(h.die == die && h.line == line) })

/-! ## Atomics (R230, R246) -/

/-- The new value of an atomic's word (R246). -/
def atomNew (op : AtomOp) (t : Ty) (old b c : Val) : Val :=
  match op with
  | .add => valOf t (BitVec.ofNat 128 (old.toNat + b.toNat))
  | .fadd => BitVec.ofNat 128 (faddBits .rne f32 (old.toNat % 2 ^ 32) (b.toNat % 2 ^ 32))
  | .min => if intOf t old ≤ intOf t b then valOf t old else valOf t b
  | .max => if intOf t b ≤ intOf t old then valOf t old else valOf t b
  | .and => valOf t (old &&& b)
  | .or => valOf t (old ||| b)
  | .xor => valOf t (old ^^^ b)
  | .xchg => valOf t b
  | .cas => if valOf t old == valOf t b then valOf t c else valOf t old

/-- The atomic's block fired later than the one that holds the line: by fire time, then by core, then by the strand's
order or the strand's entry (R230). -/
def firedLater (s : State) (a : AtomReq) (h : HeldLine) : Bool :=
  if a.fire != h.fire then h.fire < a.fire
  else if a.strand != h.strand then h.strand < a.strand
  else match find s.strands a.strand with
    | some st => !((st.blocks.takeWhile fun b => b.uid != h.blk).any fun b => b.uid == a.blk)
    | none => true

/-- A lane of an atomic fails; the instruction faults once its lanes have all come (R218, R241). -/
def failAtomic (s : State) (a : AtomReq) (c : FaultCode) : State :=
  let s := { s with atoms := s.atoms.filter fun x => x.uid != a.uid }
  match findBlk s a.blk with
  | none => s
  | some (key, _) => editLane s key a.blk a.index a.lane fun _ y => { y with bad := some c }

/-- The atomic is performed at its home: copies go, the line is held for the block, the old value is returned (R230). -/
def performAtomic (s : State) (a : AtomReq) : State :=
  let line := lineOf a.pa
  let n := a.ty.bytes
  let old : Val := BitVec.ofNat 128 (readLE s.mem a.pa n)
  let s := { s with atoms := s.atoms.filter fun x => x.uid != a.uid }
  let s := if s.held.any fun h => h.line == line && h.blk == a.blk then s
    else { s with held := s.held ++
      [⟨line, a.blk, a.strand, a.fire, readLine s.mem line, linePoison s line, a.sys, 0⟩] }
  let s : State := if !a.raw then s else { s with held := s.held.map fun h =>
    if h.line = line then { h with raw := h.raw ||| maskBytes (a.pa % 128) n } else h }
  let s := dropCopies { s with mem := writeLE s.mem a.pa n (atomNew a.op a.ty old a.b a.c).toNat } line
  match findBlk s a.blk with
  | none => s
  | some (key, _) => editLane s key a.blk a.index a.lane fun _ y => { y with got := some old }

/-- The home's L2 has the line, and the atomic is performed on it, or fails on a poisoned sector (R215, R218, R230). -/
def takeAtomic (s : State) (a : AtomReq) : State :=
  let s := ownFetch s a.home (lineOf a.pa) 0 false
  if (linePoison s (lineOf a.pa)).getLsbD (a.pa % 128 / 64) then failAtomic s a .poisonConsumed else performAtomic s a

/-- An atomic's line is held for its own block: nothing that waits for the line goes before its further atomics (R230). -/
def AtomReq.holds (a : AtomReq) (s : State) : Bool := s.held.any fun h => h.line == lineOf a.pa && h.blk == a.blk

/-- ATOMIC_HOME_PERFORM: the home slice takes one atomic: behind the block's lower-indexed atomics and lower lanes on
the address, behind the die's own stores to the line and replies on their way, unless its block holds the line already; on a line
held for another block it waits or discards the holder (R230). -/
def execAtomicHomePerform (id : Nat) (s : State) : Host.Outcome State Fault Refusal :=
  match s.atoms.find? fun a => a.uid == id with
  | none => .next s
  | some a =>
    let line := lineOf a.pa
    if !dieUp s a.home then .next (failAtomic s a .dieOffline)
    else if (s.atoms.takeWhile fun x => x.uid != id).any fun x => x.blk == a.blk && x.pa == a.pa then .next s
    else if !a.holds s && ((s.posted.any fun p => p.line == line && p.die == a.die) ||
        (s.reqs.any fun r => r.line == line && r.reply.isSome)) then .next s
    else match s.held.find? fun h => h.line == line && h.blk != a.blk with
      | some h =>
        if firedLater s a h then .next s
        else
          let s := discardFrom s h.strand h.blk
          .next (if (s.atoms.any fun x => x.uid == id) then takeAtomic s a else s)
      | none => .next (takeAtomic s a)

/-! ## FLSIG drains (R228, R249) -/

/-- One signal of a drain is made at the signal word's home (R228, R248). -/
def makeSignal (s : State) (g : LaneStore × Bool) : State :=
  let p := plainPa g.1.pa
  let v := g.1.data.toNat % 2 ^ 64
  homeWrite s g.1.pa 8 (if g.2 then (homeRead s p 8 + v) % 2 ^ 64 else v)

/-- The drain completes: its signals are made in order, or it completes as failed with a DIE_OFFLINE record naming the
strand and the die (R228, R249). -/
def endDrain (s : State) (d : Drain) : State :=
  let s := { s with drains := s.drains.filter fun x => x.uid != d.uid }
  let down := (d.sigs.find? fun g => !dieUp s g.1.home).map fun g => g.1.home
  match d.failed.or down with
  | none => endAsync (d.sigs.foldl makeSignal s) d.uid none
  | some h =>
    let r : Record := { Record.basic 1 FaultCode.dieOffline.code (dieId d.die) d.ctx with
      slot := d.slot, core := d.core, strand := d.strand % 256, tag := d.tag, mask := d.mask,
      addr := BitVec.ofNat 64 (dieId h % 16 + 0xFF * 2 ^ 56) }
    endAsync (report s d.die r).1 d.uid (some h)

/-- FLSIG_TOKEN: a home die returns its completion token once the drain's stores there are applied and their copies
gone; with all tokens in, the signals are made (R228). -/
def execFlsigToken (id d : Nat) (s : State) : Host.Outcome State Fault Refusal :=
  match s.drains.find? fun x => x.uid == id with
  | none => .next s
  | some x =>
    let open_ := s.posted.any fun p => x.stores.contains p.uid && p.home == d
    let x' := if open_ then x else { x with dies := removeNat x.dies d }
    if x'.dies.isEmpty && !(x.sigs.any fun g => lineHeld s (lineOf (plainPa g.1.pa))) then .next (endDrain s x')
    else .next { s with drains := s.drains.map fun y => if y.uid = id then x' else y }

/-- The home's value of a line for a read of die `d`; the reply refreshes the die's copy slice (R205, R220, R225). -/
def pullLine (s : State) (d : Nat) (a : Acc) : (Line × BitVec 2) × State :=
  let line := lineOf (plainPa a.pa)
  let (l, s) := serveFar s d a.home line a.cache a.mig
  if a.home != d && copyAble line a.cache then
    (l, modDie (makeSlice s d line) d fun x => { x with copies := put x.copies line (overlay l (pending s d line)) })
  else (l, s)

/-- A read of a line through a die's slice brings it there: from the controller at its home, decoded for a view, or as a copy
from another die (R205, R214, R220). A line that is held for a block's atomics comes nowhere (R230). -/
def fetchLine (s : State) (d : Nat) (a : Acc) : State :=
  let line := lineOf (plainPa a.pa)
  if !dieUp s a.home || lineHeld s line || (a.home != d && (find (die s d).copies line).isSome) then s
  else (pullLine s d a).2

/-! ## Walks and decoded-window writes -/

/-- PAGE_WALK: a walker translates a missed page and fills the TLBs; a failing walk fills none and faults the access that
missed when it performs (R210, R211). -/
def execPageWalk (c ctx va : Nat) (s : State) : Host.Outcome State Fault Refusal :=
  .next (if va < 2 ^ 52 then (translate s c ctx va fun _ => true).2 else s)

end Sys2Proof.Machine
end

