-- ==== Sys2Proof/Machine/Engine.lean ====
section
/-! DEFINITION. What the copy engines and the matrix engine share: reading and writing by virtual address or scratchpad
offset, footprints and their edges, the scheduler, event records of jobs, near-cache merges and link ports (12_ordering:
R232, R233; 15_queues: R283 to R286; 05_numbers: R119; 16_ref_queues: R295). -/

namespace Sys2Proof.Machine

/-! ## Crossbar pulses (R358, R360) -/

/-- The levels of the receive queues: bit 8 + n while queue n has items (R358). -/
def queueLevels (c : Core) : BitVec 48 :=
  (List.range 16).foldl (fun (m : BitVec 48) n =>
    if (get c.recv n RecvQ.reset).items.isEmpty then m else m ||| ((1 : BitVec 48) <<< (8 + n))) 0

/-- The signals of `m` are true in clock `k`, beside what is true in it already. -/
def Xbar.mark (b : Xbar) (k : Nat) (m : BitVec 48) : Xbar := { b with clocks := put b.clocks k (get b.clocks k 0 ||| m) }

/-- The signals of `m` are true at core `c`'s crossbar in die clock `k`. An unowned crossbar loses them (R360). -/
def pulsesAt (s : State) (c k : Nat) (m : BitVec 48) : State :=
  modCore s c fun x => if x.xbar.owner.isSome then { x with xbar := x.xbar.mark k m } else x

/-- The signals of `m` are true in the present clock of the core's die. -/
def pulses (s : State) (c : Nat) (m : BitVec 48) : State := pulsesAt s c (clkOf s c) m

/-- Signal `n` of core `c`'s crossbar is true for one clock. -/
def pulse (s : State) (c n : Nat) : State := pulses s c ((1 : BitVec 48) <<< n)

/-! ## Access by engines -/

/-- The code an engine reports for a failed check: poison of a page-table entry and rights both give ACCESS_VIOLATION
(R210, R218, R285). -/
def engineCode : FaultCode → FaultCode
  | .pageFault => .pageFault
  | .dieOffline => .dieOffline
  | .atomicUnsupported => .atomicUnsupported
  | .formatReadOnly => .formatReadOnly
  | _ => .accessViolation

/-- The completion status of a code (R285). -/
def statusOf : FaultCode → Nat
  | .pageFault => 2
  | .dieOffline => 4
  | .atomicUnsupported => 6
  | _ => 3

/-- The event record's code of a completion status (R286). -/
def codeOfStatus : Nat → FaultCode
  | 2 => .pageFault
  | 4 => .dieOffline
  | 6 => .atomicUnsupported
  | _ => .accessViolation

/-- An engine of core `c` reaches a virtual address of a context; a page with POISON is no fault for it, but is never
written (R218, R241). -/
def engineAcc (s : State) (c ctx va : Nat) (u : Use) : Except FaultCode Acc :=
  if 2 ^ 52 ≤ va then .error .pageFault
  else match (translate s c ctx va fun _ => true).1 with
    | .fault f => .error (engineCode f)
    | .page e =>
      let a := accOf s e va
      match accCheck s u { a with ppois := false } with
      | .error (_, f) => .error (engineCode f)
      | .ok _ => if a.ppois && u != .load then .error .accessViolation else .ok a

/-- A line as the die's slice gives it to an engine: its own value there, else the home's, decoded for a view; every
sector of a page with POISON reads as poisoned (R214, R218, R220). -/
def engineLine (s : State) (d : Nat) (a : Acc) : Line × BitVec 2 :=
  let line := lineOf (plainPa a.pa)
  let far := (serveLine s a.home line false).1
  let l := (dieView s d line a.home).getD (overlay far (pending s d line))
  if a.ppois then (l.1, 3) else l

/-- The offsets of a region of `n` bytes from `va` at which a check of each 128-byte line is made. -/
def spanOffs (va n : Nat) : List Nat := 0 :: ((List.range (n / 128 + 1)).map fun k => 128 * (k + 1) - va % 128).filter (· < n)

/-- What an engine's access to `n` bytes leaves behind as its lines come: its walks fill the TLBs, and for a read the lines
come into the die's slice (R205, R210, R214, R220). -/
def engineSee (s : State) (c ctx va n : Nat) (write : Bool) : State :=
  (spanOffs va n).foldl (fun s o =>
    if 2 ^ 52 ≤ va + o then s
    else match translate s c ctx (va + o) fun e => !write || pteW e with
      | (.page e, s) => if write || e.size == 0 then s else fetchLine s (dieOf c) (accOf s e (va + o))
      | (.fault _, s) => s) s

/-- One byte at a virtual address, and whether its sector is poisoned. -/
def engineByte (s : State) (c ctx va : Nat) : Except FaultCode (Nat × Bool) :=
  match engineAcc s c ctx va .load with
  | .error f => .error f
  | .ok a =>
    let l := engineLine s (dieOf c) a
    .ok (lineGet l.1 (plainPa a.pa % 128) 1, l.2.getLsbD (plainPa a.pa % 128 / 64))

/-- One byte at a scratchpad offset of workgroup `wk`, and whether its word carries an uncorrectable error. -/
def scratchByte (s : State) (c wk off : Nat) : Except FaultCode (Nat × Bool) :=
  match find s.wgs wk, launchOfWg s wk with
  | some w, some l => match scratchKeyIn l w c off 1 with
    | some k => .ok (scratchRead w k 1, scratchPoisoned w k 1)
    | none => .error .accessViolation
  | _, _ => .error .accessViolation

/-- Bytes `bs` within one line written at a virtual address by an engine; poisoned as a whole when `pois` (R218). -/
def engineWrite (s : State) (c ctx va : Nat) (bs : List Nat) (pois : Bool) : Except FaultCode State :=
  match engineAcc s c ctx va .store with
  | .error f => .error f
  | .ok a =>
    let s := engineSee s c ctx va 1 true
    let p := plainPa a.pa
    let v := bs.foldr (fun b r => b + 256 * r) 0
    let sec : BitVec 2 := if p % 128 < 64 then 1 else 2
    let m := maskBytes (p % 128) bs.length
    .ok (homeStore s (lineOf p) m (BitVec.ofNat 1024 (v * 2 ^ (8 * (p % 128)))) (if pois then sec else 0) (rawBytes a.pa m))

/-- Bytes written at a scratchpad offset; poisoned bytes mark each word of them uncorrectable (R218). -/
def engineScratch (s : State) (c wk off : Nat) (bs : List Nat) (pois : Bool) : Except FaultCode State :=
  match find s.wgs wk, launchOfWg s wk with
  | some w, some l => match scratchKeyIn l w c off bs.length with
    | some k => .ok (modWg s wk fun w =>
        let w := scratchWrite w k (bs.map (BitVec.ofNat 8))
        if pois then
          let words := (List.range bs.length).map fun i => (k + i) / 4 * 4
          { w with scratchBad := words.foldl insertNat w.scratchBad }
        else w)
    | none => .error .accessViolation
  | _, _ => .error .accessViolation

/-- A line that an engine of core `c`, or a block fetch, reads at the `n` bytes from `va` is held for an uncommitted block's
atomics: the read waits (R230). -/
def readsHeld (s : State) (c ctx va n : Nat) : Bool :=
  !s.held.isEmpty && (spanOffs va n).any fun o => match engineAcc s c ctx (va + o) .load with
    | .ok a => lineHeld s (lineOf (plainPa a.pa))
    | .error _ => false

/-- A line in [lo, hi) of a context's virtual addresses is held, or the die has stores to it on their way: an engine's
write waits. -/
def writesBlocked (s : State) (c ctx lo hi : Nat) : Bool :=
  let busy : Nat → Bool := fun l => lineHeld s l || s.posted.any fun q => q.line == l && q.die == dieOf c
  (s.held.map HeldLine.line ++ s.posted.map Posted.line).any fun l => busy l &&
    (List.range ((hi - lo) / 128 + 2)).any fun k =>
      let va := lo + 128 * k
      va < hi + 128 && (match engineAcc s c ctx va .line with
        | .ok a => lineOf (plainPa a.pa) == l
        | .error _ => false)

/-! ## Footprints and edges (R232, R283) -/

/-- Two regions share a byte of one space. -/
def meets (a b : Region) : Bool := a.space = b.space && max a.lo b.lo < min a.hi b.hi

/-- Some region of each list meet. -/
def anyMeet (as bs : List Region) : Bool := as.any fun a => bs.any fun b => meets a b

/-- An edge from an earlier job to a later one: RAW, WAR or WAW (R232). -/
def edge (r1 w1 r2 w2 : List Region) : Bool := anyMeet w1 r2 || anyMeet r1 w2 || anyMeet w1 w2

/-- The memory regions that a matrix command reads and writes (R265, R283). -/
def MCmd.foot (m : MCmd) : List Region × List Region :=
  match m.op with
  | .ofill va _ pitch => ([⟨.virt m.ctx, va, va + 127 * 128 * pitch + 128⟩], [])
  | .accfl _ _ va _ _ pitch => ([], [⟨.virt m.ctx, va, va + 127 * 128 * pitch + 512⟩])
  | _ => ([], [])

/-- An OFILL. -/
def MCmd.isFill (m : MCmd) : Bool :=
  match m.op with
  | .ofill _ _ _ => true
  | _ => false

/-- Every store that a command or job was sent behind has left the write path (R233). -/
def gateOpen (s : State) (gate : List Nat) : Bool := !s.posted.any fun q => gate.contains q.uid && q.stage == 0

/-- Uncompleted earlier jobs and commands of the core that have an edge to a job or command (R284). -/
def edgePending (c : Core) (n : Nat) (r w : List Region) : Bool :=
  (c.jobs.any fun j => j.uid < n && edge j.reads j.writes r w) ||
    (c.mq.any fun m => m.uid < n && edge m.foot.1 m.foot.2 r w)

/-- Copy engines at work. -/
def enginesBusy (c : Core) : Nat :=
  (c.jobs.filter fun j => j.engine.isSome).length + (c.mq.filter fun m => m.started && m.isFill).length

/-- A job of the integrator field; these run in commit order (R337). -/
def Job.isField (j : Job) : Bool :=
  match j.kind with
  | .ipatch _ _ _ _ | .isave _ _ | .irest _ => true
  | _ => false

/-- A job card. -/
def Job.card? (j : Job) : Option Card :=
  match j.kind with
  | .card c => some c
  | _ => none

/-- Records that the engine record buffer holds or must be able to take from the jobs at work (R275, R286). -/
def recordsDue (c : Core) : Nat :=
  c.recbuf.length + (c.jobs.filter fun j => j.engine.isSome && j.card?.any fun d => d.flags.testBit 0).length

/-- The job may start: sent, no pending edge, an engine free, no fuller record buffer than 3 of 4 (R284, R286; log entry
21). -/
def jobReady (s : State) (c : Core) (j : Job) : Bool :=
  j.engine.isNone && gateOpen s j.gate && !edgePending c j.uid j.reads j.writes && enginesBusy c < 2 &&
    recordsDue c < 4 && !(j.isField && c.jobs.any fun k => k.isField && k.uid < j.uid)

/-- The lowest engine that neither a job nor an OFILL uses (R19). -/
def freeEngine (c : Core) : Nat :=
  if (c.jobs.any fun j => j.engine == some 0) || c.mq.any fun m => m.engine == some 0 then 1 else 0

/-- A card that waits for the output of the enabled copy gate (R360). -/
def gated (c : Core) (j : Job) : Bool := c.xbar.gateEn && j.card?.isSome

/-! ## Records (R286) -/

/-- The type-1 record of a job or command: no strand, no lanes. -/
def jobRecord (c : Nat) (ctx slot tag : Nat) (code : FaultCode) (addr : Nat) : Record :=
  { Record.basic 1 code.code (dieId (dieOf c)) ctx with
    slot := slot, core := c, strand := 0xFF, tag := tag, addr := BitVec.ofNat 64 (addr % 2 ^ 52) }

/-- A job's record goes to the event queue. -/
def jobReport (s : State) (c : Nat) (j : Job) (code : FaultCode) (addr : Nat) : State :=
  (report s (dieOf c) (jobRecord c j.ctx j.slot j.tag code addr)).1

/-- The job is gone from the core and no strand waits for it any more (R43, R233). -/
def endJob (s : State) (c n : Nat) : State :=
  endAsync (jobDone (modCore s c fun x => { x with jobs := x.jobs.filter fun j => j.uid != n }) n) n none

/-- The 128-bit completion record (R285). -/
def doneRecord (c : Card) (status first count : Nat) : Val :=
  BitVec.ofNat 128 (c.tag % 2 ^ 16 * 2 ^ 112 + status * 2 ^ 108 + c.op % 16 * 2 ^ 104 + first % 2 ^ 32 * 2 ^ 64 +
    count % 2 ^ 64)

/-- A completion record enters its queue, or waits in the record buffer (R286). -/
def pushDone (s : State) (c cq : Nat) (v : Val) : State :=
  modCore s c fun x =>
    let q := get x.compq cq []
    if q.length < 64 && !x.recbuf.any (fun r => r.1 == cq) then { x with compq := put x.compq cq (q ++ [⟨v, none⟩]) }
    else { x with recbuf := x.recbuf ++ [(cq, v)] }

/-- A card's job completes with its status: record, pulse, event record (R285, R286). -/
def finishCard (s : State) (c : Nat) (j : Job) (d : Card) (status first count addr : Nat) : State :=
  let s := if d.flags.testBit 0 then pushDone s c d.cq (doneRecord d status first count) else s
  let s := if d.flags.testBit 1 then pulse s c 0 else s
  let s := if 2 ≤ status then jobReport s c j (codeOfStatus status) addr else s
  endJob s c j.uid

/-- ENGINE_RECORD_DRAIN: the oldest buffered record whose queue has room enters it (R286). -/
def execEngineRecordDrain (c : Nat) (s : State) : Host.Outcome State Fault Refusal :=
  let x := core s c
  match x.recbuf.findIdx? fun r => (get x.compq r.1 []).length < 64 with
  | none => .next s
  | some i =>
    let r := x.recbuf.getD i (0, 0)
    .next (modCore s c fun x =>
      { x with recbuf := x.recbuf.eraseIdx i, compq := put x.compq r.1 (get x.compq r.1 [] ++ [⟨r.2, none⟩]) })

/-! ## Moving bytes by granules (R218, R286) -/

/-- How far a transfer has come: state, bytes written, offset of the first poisoned granule, failure with its address, and
the offset of the byte that could not be read. -/
structure Run where
  s : State
  off : Nat
  first : Option Nat
  bad : Option (FaultCode × Nat)
  stop : Option Nat

/-- The bytes at offsets `o` to `o + k - 1`, whether one is poisoned, or the first failure with its offset. -/
def gather (rd : Nat → Except FaultCode (Nat × Bool)) : Nat → Nat → Except (FaultCode × Nat) (List Nat × Bool)
  | _, 0 => .ok ([], false)
  | o, k + 1 => match rd o with
    | .error f => .error (f, o)
    | .ok (b, p) => match gather rd (o + 1) k with
      | .error e => .error e
      | .ok (bs, q) => .ok (b :: bs, p || q)

/-- `n` granules at most of a transfer of `len` bytes to base `dst`: each 64-byte granule of the destination is read
whole, then written; the transfer stops at the first that cannot be (R286). `see` brings the bytes of a granule. -/
def transfer (see : State → Nat → Nat → State) (rd : State → Nat → Except FaultCode (Nat × Bool))
    (wr : State → Nat → List Nat → Bool → Except FaultCode State) (src dst : Nat → Nat) (base len : Nat) :
    Nat → Run → Run
  | 0, r => r
  | n + 1, r =>
    if len ≤ r.off || r.bad.isSome then r
    else
      let k := min (len - r.off) (64 - (base + r.off) % 64)
      let s := see r.s r.off k
      match gather (rd s) r.off k with
      | .error (f, o) => { r with s := s, bad := some (f, src o), stop := some o }
      | .ok (bs, p) => match wr s r.off bs p with
        | .error f => { r with s := s, bad := some (f, dst r.off) }
        | .ok s => transfer see rd wr src dst base len n
            { r with s := s, off := r.off + k, first := if p then r.first.or (some r.off) else r.first }

/-- The status, FIRST and COUNT of a finished transfer (R285). -/
def Run.result (r : Run) : Nat × Nat × Nat :=
  match r.bad, r.first with
  | some (f, _), _ => (statusOf f, r.off, r.off)
  | none, some p => (1, p, r.off)
  | none, none => (0, 0xFFFF_FFFF, r.off)

/-- `k` bytes from offset `o` of a virtual address, read for a job's own use: the bytes before the first that faults or
is poisoned, and that failure with its offset; no code for poison. -/
def readJob (s : State) (c ctx va : Nat) : Nat → Nat → List Nat × Option (Option FaultCode × Nat)
  | _, 0 => ([], none)
  | o, k + 1 => match engineByte s c ctx (va + o) with
    | .error f => ([], some (some f, o))
    | .ok (_, true) => ([], some (none, o))
    | .ok (b, false) => let r := readJob s c ctx va (o + 1) k; (b :: r.1, r.2)

/-- The little-endian number of `n` bytes at offset `o` of a list. -/
def leAt (bs : List Nat) (o n : Nat) : Nat := ((bs.drop o).take n).foldr (fun b r => b + 256 * r) 0

/-! ## Near-cache merges and link ports (R119, R295) -/

/-- The combination of two 32-bit words by a merge's operation: 0 add, 1 min, 2 max, 3 write (R119, R282). -/
def mergeWord (ty : Ty) (op : Nat) (old v : BitVec 32) : BitVec 32 :=
  if op = 3 then v
  else if ty = .f32 then
    BitVec.ofNat 32 (match op with
      | 0 => faddBits .rne f32 old.toNat v.toNat
      | 1 => minMax true f32 old.toNat v.toNat
      | _ => minMax false f32 old.toNat v.toNat)
  else
    let o := intOf ty (BitVec.ofNat 128 old.toNat)
    let x := intOf ty (BitVec.ofNat 128 v.toNat)
    match op with
    | 0 => old + v
    | 1 => if o ≤ x then old else v
    | _ => if x ≤ o then old else v

/-- The line after a merge's words, and the bytes they cover (R119). -/
def mergeInto (m : Merge) (l : Line) : Line × BitVec 128 :=
  m.words.foldl (fun r e =>
    let old := BitVec.ofNat 32 (lineGet l (4 * e.1) 4)
    (linePut r.1 (4 * e.1) 4 (mergeWord m.ty m.op old e.2).toNat, r.2 ||| maskBytes (4 * e.1) 4)) (l, 0)

/-- The merge applied at its home: every word in turn, poison set or, for a whole sector written, cleared (R119, R218). -/
def applyMerge (s : State) (m : Merge) : State :=
  let s : State := { s with merges := s.merges.filter fun x => x.uid != m.uid }
  let s := if m.op = 3 ∨ 4 ≤ m.home then homeFetch s m.home m.line false else ownFetch s m.home m.line 0 false
  let (l, bytes) := mergeInto m (readLine s.mem m.line)
  let q := if m.op = 3 then storePoison (linePoison s m.line) bytes else linePoison s m.line
  notePost (refreshReplies (dropDecoded (dropCopies (setLine s m.line l (q ||| m.poison)) m.line) m.line
    (if m.raw then bytes else 0)) m.line) m.line bytes

/-- What a job's end says once bytes that it sent are lost with their home: DIE_OFFLINE, FIRST the first unwritten byte, COUNT
the bytes written (R285, R406). -/
def lostEnd (o : Owner) (e : Nat × Nat × Nat × Option Nat) : Nat × Nat × Nat × Option Nat :=
  (4, if 2 ≤ e.1 then min e.2.1 o.off else o.off, e.2.2.1 - o.len, none)

/-- Merges whose home has left are lost: a job ends DIE_OFFLINE and writes nothing more behind, and a flush sends one record for
all that it loses there (R272, R286, R406). -/
def loseMerge (s : State) (m : Merge) : State :=
  let behind (x : Merge) (o : Owner) : Bool := o.job && x.owners.all fun q => q.num == o.num && o.off < q.off
  let same (x : Merge) (o : Owner) : Bool := !o.job && x.home == m.home && x.owners.any fun q => q.num == o.num
  let gone (x : Merge) : Bool := x.uid == m.uid || m.owners.any fun o => behind x o || same x o
  let lost := s.merges.filter gone
  let s := { s with merges := s.merges.filter fun x => !gone x }
  let s := ((lost.flatMap Merge.owners).filter Owner.job).foldl (fun s o =>
    modCore s o.core fun c =>
      { c with jobs := c.jobs.map fun j =>
          if j.uid = o.num then { j with ending := j.ending.map (lostEnd o) } else j }) s
  match m.owners.find? fun o => !o.job with
  | none => s
  | some o => match (core s o.core).mq.find? fun q => q.uid == o.num with
    | some q => (report s (dieOf o.core) (jobRecord o.core q.ctx q.slot q.tag .dieOffline m.line)).1
    | none => s

/-- NEAR_CACHE_MERGE: the home slice's adders apply a merge that has arrived (R119). A held line, or an older store of
the sender's die on its way to the line, makes it wait. -/
def execNearCacheMerge (id : Nat) (s : State) : Host.Outcome State Fault Refusal :=
  match s.merges.find? fun m => m.uid == id && !m.viaPort with
  | none => .next s
  | some m =>
    if !dieUp s m.home then .next (loseMerge s m)
    else if lineHeld s m.line || s.posted.any (fun q => q.line == m.line && q.die == m.srcDie && q.uid < m.uid) then .next s
    else .next (applyMerge s m)

/-- A port line's contents sent on to the home slice (R295). -/
def forwardPort (s : State) (p : PortLine) : State :=
  let (n, s) := fresh s
  { s with
    portLines := s.portLines.filter fun q => q.uid != p.uid
    merges := s.merges ++ [⟨n, p.owners, p.ctx, p.line, p.die, p.ty, p.op, p.words, p.poison, p.raw, false, p.die, p.stream,
      p.fanin, p.wait⟩] }

/-- The port by which traffic of die `src` enters die `home`: the link from its next or its previous neighbour, 0 or 1, or
that from the hearth die, 2, for the die opposite and where the neighbours' link is down (R8). -/
def entryPort (s : State) (src home : Nat) : Nat :=
  if (home + 1) % 4 == src && s.links.getD (8 + home) false then 0
  else if (src + 1) % 4 == home && s.links.getD (8 + src) false then 1 else 2

/-- A contribution meets a held line of its stream at its port (R295). -/
def joins (s : State) (m : Merge) (p : PortLine) : Bool :=
  p.die == m.home && p.port == entryPort s m.srcDie m.home && p.ctx == m.ctx && p.stream == m.stream && p.line == m.line

/-- The words of a held line with those of a contribution, combined where both have one (R119, R295). -/
def joinWords (ty : Ty) (op : Nat) (held new : KMap (BitVec 32)) : KMap (BitVec 32) :=
  new.foldl (fun r e => put r e.1 (match find held e.1 with
    | some v => mergeWord ty op v e.2
    | none => e.2)) held

/-- LINK_PORT_COMBINE: a COLC contribution from another die joins its line at the entering port, which forwards at
FANIN; with no free line it passes uncombined, and so does one of another type or operation than the held line's, for which
no combination is defined (R295; log entry 21). -/
def execLinkPortCombine (id : Nat) (s : State) : Host.Outcome State Fault Refusal :=
  match s.merges.find? fun m => m.uid == id && m.viaPort with
  | none => .next s
  | some m =>
    if !dieUp s m.home then .next (loseMerge s m)
    else
      let rest := { s with merges := s.merges.filter fun x => x.uid != id }
      let alone : State := { s with merges := s.merges.map fun x => if x.uid = id then { x with viaPort := false } else x }
      match s.portLines.find? (joins s m) with
      | some p =>
        if p.ty ≠ m.ty ∨ p.op ≠ m.op then .next alone
        else
          let p := { p with
            words := joinWords m.ty m.op p.words m.words
            poison := p.poison ||| m.poison
            raw := p.raw || m.raw
            owners := p.owners ++ m.owners
            count := p.count + 1 }
          if p.fanin ≤ p.count then .next (forwardPort rest p)
          else .next { rest with portLines := rest.portLines.map fun q => if q.uid = p.uid then p else q }
      | none =>
        let port := entryPort s m.srcDie m.home
        if 64 ≤ (s.portLines.filter fun p => p.die == m.home && p.port == port).length || m.fanin ≤ 1 then .next alone
        else .next { rest with portLines := rest.portLines ++
            [⟨id, m.home, port, m.ctx, m.stream, m.line, m.ty, m.op, m.words, m.poison, m.raw, m.owners, 1, m.fanin,
              s.time.toNat, m.wait⟩] }

/-- LINK_PORT_WAIT_EXPIRY: a held line goes on once WAIT (in 100 ns) has passed since its first contribution (R295). -/
def execLinkPortWaitExpiry (id : Nat) (s : State) : Host.Outcome State Fault Refusal :=
  match s.portLines.find? fun p => p.uid == id with
  | none => .next s
  | some p => if p.since + 100 * p.wait ≤ s.time.toNat then .next (forwardPort s p) else .next s

/-- A job or command has no contribution left on its way. -/
def mergesDone (s : State) (n : Nat) : Bool :=
  !(s.merges.any fun m => m.owners.any fun o => o.num == n) && !(s.portLines.any fun p => p.owners.any fun o => o.num == n)

end Sys2Proof.Machine
end

