-- ==== Sys2Proof/Machine/Matrix.lean ====
section
/-! DEFINITION. Operand memory and the matrix engine: claims, commands, arithmetic (14_ref_matrix: R261 to R274;
05_numbers: R116). -/

namespace Sys2Proof.Machine

/-! ## Slots and tiles -/

/-- Resource `n`, 0 to 31 a slot, 32 to 35 a tile. -/
def resOf (c : Core) (n : Nat) : Res := c.res.getD n Res.reset

/-- The core with resource `n` changed. -/
def Core.modRes (c : Core) (n : Nat) (f : Res → Res) : Core := { c with res := c.res.modify n f }

/-- Word `i` (64 bits) of slot `n`. -/
def slotWord (c : Core) (n i : Nat) : Word := get (get c.slots n []) i 0

/-- The `k`-byte element at byte `off` of slot `n`, within one 64-bit word. -/
def slotElem (c : Core) (n off k : Nat) : Nat := bitsOf (slotWord c n (off / 8)).toNat (8 * (off % 8)) (8 * k)

/-- The slot with bytes `bs` at byte `off`. -/
def writeSlotBytes (m : KMap Word) (off : Nat) (bs : List Nat) : KMap Word :=
  bs.zipIdx.foldl (fun m e =>
    let a := off + e.2
    let old := (get m (a / 8) 0).toNat
    let sh := 2 ^ (8 * (a % 8))
    store m (a / 8) (BitVec.ofNat 64 (old - bitsOf old (8 * (a % 8)) 8 * sh + e.1 % 256 * sh)) 0) m

/-- The core with bytes written into slot `n`, and the poison of the 64-byte granules they fill set to `p`. -/
def writeSlot (c : Core) (n off : Nat) (bs : List Nat) (p : Bool) : Core :=
  let bit : BitVec 256 := (1 : BitVec 256) <<< (off / 64)
  let old := get c.slotPoison n 0
  { c with
    slots := store c.slots n (writeSlotBytes (get c.slots n []) off bs) []
    slotPoison := store c.slotPoison n (if p then old ||| bit else old &&& ~~~bit) 0 }

/-- Byte `off` of slot `n` and the poison of its granule. -/
def slotByte (c : Core) (n off : Nat) : Nat × Bool := (slotElem c n off 1, (get c.slotPoison n 0).getLsbD (off / 64))

/-- Element `i` (128 × row + column) of tile `t`. -/
def tileWord (c : Core) (t i : Nat) : BitVec 32 := get (get c.tiles t []) i 0

/-- The core with resource `n`'s data and poison zero (R261). -/
def zeroRes (c : Core) (n : Nat) : Core :=
  if n < 32 then { c with slots := del c.slots n, slotPoison := del c.slotPoison n }
  else { c with tiles := del c.tiles (n - 32), tilePoison := c.tilePoison &&& ~~~((1 : BitVec 4) <<< (n - 32)) }

/-- Some poison bit of resource `n` is set. -/
def resPoison (c : Core) (n : Nat) : Bool :=
  if n < 32 then get c.slotPoison n 0 != 0 else c.tilePoison.getLsbD (n - 32)

/-! ## Commands and their resources (R265) -/

/-- The resources a command reads, and those it writes; commands on one tile act in order, so each writes its tile. -/
def MOp.uses : MOp → List Nat × List Nat
  | .ofill _ n _ => ([], [n])
  | .mma _ _ a b t _ => ([a, b], [32 + t])
  | .accz t => ([], [32 + t])
  | .accfl _ _ _ t _ _ => ([], [32 + t])

/-- A command names resource `n`. -/
def MOp.names (o : MOp) (n : Nat) : Bool := o.uses.1.contains n || o.uses.2.contains n

/-- Pending commands of resource `n`. -/
def pendingOn (c : Core) (n : Nat) : Nat := (c.mq.filter fun m => m.op.names n).length

/-- An ACCFL. -/
def MCmd.isFlush (m : MCmd) : Bool :=
  match m.op with
  | .accfl _ _ _ _ _ _ => true
  | _ => false

/-- An earlier uncompleted command keeps a later one from starting; a flush that has been read out keeps none (R265,
R272). -/
def keepsBack (e m : MCmd) : Bool :=
  let (r1, w1) := e.op.uses
  let (r2, w2) := m.op.uses
  !(e.isFlush && e.started) &&
    ((w1.any fun n => r2.contains n || w2.contains n) || r1.any fun n => w2.contains n)

/-- Command `m` may start (R233, R265, R284). -/
def cmdReady (s : State) (c : Core) (m : MCmd) : Bool :=
  let ahead := c.mq.takeWhile fun e => e.uid != m.uid
  !m.started && gateOpen s m.gate && !ahead.any (fun e => keepsBack e m) &&
    !edgePending c m.uid m.foot.1 m.foot.2 &&
    (if m.isFill then enginesBusy c < 2 && recordsDue c < 4
     else !c.mq.any fun e => e.started && !e.isFill && !e.isFlush)

/-- An MMA, which reads the operand memory (R19). -/
def MCmd.isMma (m : MCmd) : Bool :=
  match m.op with
  | .mma _ _ _ _ _ _ => true
  | _ => false

/-- The core's ring member has a task copy under way or waiting, which an MMA that has not started waits for (R19). -/
def taskCopying (s : State) (c : Nat) : Bool :=
  ((ring s (ringKey (dieOf c) (c % 48 / 16))).members.getD (c % 16) Member.reset).pairs.any fun p => p.st == 1 && !p.swept

/-- A job or an OFILL that stands before number `n` in command order could start now (R19, R284). -/
def olderReady (s : State) (c : Core) (n : Nat) : Bool :=
  (c.jobs.any fun j => j.uid < n && jobReady s c j && !gated c j) ||
    c.mq.any fun m => m.uid < n && m.isFill && cmdReady s c m

/-- The oldest ready job that satisfies `p` starts, unless an older job or OFILL can (R19, R284). -/
def startJob (s : State) (c : Nat) (p : Job → Bool) : State :=
  match (core s c).jobs.find? fun j => p j && jobReady s (core s c) j with
  | none => s
  | some j =>
    if olderReady s (core s c) j.uid then s
    else modCore s c fun x =>
      { x with jobs := x.jobs.map fun k => if k.uid = j.uid then { k with engine := some (freeEngine x) } else k }

/-- COPY_JOB_START: the oldest job with no pending edge starts on a free engine; with the copy gate enabled, cards wait
for its output (R284, R360). -/
def execCopyJobStart (c : Nat) (s : State) : Host.Outcome State Fault Refusal :=
  .next (startJob s c fun j => !gated (core s c) j)

/-- Resources that were released and have no pending command any more are FREE (R262, R267). -/
def settle (c : Core) : Core :=
  { c with res := c.res.zipIdx.map fun e =>
      if e.1.releasing && pendingOn c e.2 == 0 then Res.reset else e.1 }

/-- Command `m` leaves the queue; its strand waits no more; the crossbar sees it (R264, R358). -/
def endCmd (s : State) (c n : Nat) : State :=
  pulse (endAsync (jobDone (modCore s c fun x => settle { x with mq := x.mq.filter fun e => e.uid != n }) n) n none) c 1

/-! ## Arithmetic (R116, R270) -/

/-- One level of the product tree: adjacent values added, each sum rounded to f32. -/
def addPairs : List Nat → List Nat
  | a :: b :: r => faddBits .rne f32 a b :: addPairs r
  | l => l

/-- Level 1: exact products in adjacent pairs, each sum rounded once. -/
def addProducts : List Fp → List Nat
  | a :: b :: r => round .rne f32 (Fp.add .rne a b) :: addProducts r
  | [a] => [round .rne f32 a]
  | [] => []

/-- The six levels over 64 exact products (R116). -/
def productTree (ps : List Fp) : Nat :=
  (addPairs (addPairs (addPairs (addPairs (addPairs (addProducts ps)))))).headD 0

/-- The format of MMA's B operand: the type's, or the other FP8 format with `.mix` (R269). -/
def mmaB (ty : Ty) (mix : Bool) : Ty :=
  if mix then (if ty = .e4m3 then .e5m2 else .e4m3) else ty

/-- Element (i, j) after one MMA of depth `k` over slots `a` and `b`, from its value `acc` (R269, R270). -/
def mmaElem (c : Core) (ty : Ty) (mix : Bool) (a b k i j : Nat) (acc : BitVec 32) : BitVec 32 :=
  let n := ty.bytes
  let elem (slot line x : Nat) : Nat := slotElem c slot (128 * line + n * x) n
  if ty = .i8 then
    let sum : Int := (List.range k).foldl (fun r x =>
      r + (BitVec.ofNat 8 (elem a i x)).toInt * (BitVec.ofNat 8 (elem b j x)).toInt) 0
    BitVec.ofInt 32 (acc.toInt + sum)
  else
    let half (h : Nat) (acc : Nat) : Nat :=
      let ps := (List.range 64).map fun x =>
        let y := 64 * h + x
        if y < k then Fp.mul (Fp.ofBits (fmtOf ty) (elem a i y)) (Fp.ofBits (fmtOf (mmaB ty mix)) (elem b j y))
        else pzero
      faddBits .rne f32 acc (productTree ps)
    BitVec.ofNat 32 ((List.range (if n = 1 then 2 else 1)).foldl (fun r h => half h r) acc.toNat)

/-- The core after an MMA: every element of the tile, and its poison when a slot has any (R270). -/
def runMma (c : Core) (ty : Ty) (mix : Bool) (a b t k : Nat) : Core :=
  let old := get c.tiles t []
  let new := (List.range 16384).foldl (fun m i =>
    store m i (mmaElem c ty mix a b k (i / 128) (i % 128) (get old i 0)) 0) []
  { c with
    tiles := store c.tiles t new []
    tilePoison := if resPoison c a || resPoison c b then c.tilePoison ||| ((1 : BitVec 4) <<< t) else c.tilePoison }

/-! ## Running commands -/

/-- The slot after an OFILL: line by line from memory, decoded in a view (R268). -/
def runFill (s : State) (c : Nat) (m : MCmd) (va n pitch : Nat) : State :=
  (List.range 128).foldl (fun s r =>
    let s := engineSee s c m.ctx (va + 128 * pitch * r) 128 false
    let (l, p) := match engineAcc s c m.ctx (va + 128 * pitch * r) .load with
      | .ok a => engineLine s (dieOf c) a
      | .error _ =>
        let u := Config.unread (s.turn * 128 + r)
        (u.extractLsb' 0 1024, u.extractLsb' 1024 2)
    modCore s c fun x =>
      let x := writeSlot x n (128 * r) ((List.range 64).map fun k => lineGet l k 1) (p.getLsbD 0)
      writeSlot x n (128 * r + 64) ((List.range 64).map fun k => lineGet l (64 + k) 1) (p.getLsbD 1)) s

/-- An ACCFL is read out: one write or merge for each 128-byte line of the destination; lines that can no longer be
reached are lost with one record (R272). -/
def runFlush (s : State) (c : Nat) (m : MCmd) (ty : Ty) (add : Bool) (va t : Nat) (zero : Bool) (pitch : Nat) : State :=
  let x := core s c
  let use : Use := if add then (if ty = .f32 then .atomicF else .atomicI) else .store
  let part (s : State × Option (FaultCode × Nat)) (k : Nat) : State × Option (FaultCode × Nat) :=
    let a := va + 128 * pitch * (k / 4) + 128 * (k % 4)
    match engineAcc s.1 c m.ctx a use with
    | .error f => (s.1, s.2.or (some (f, a)))
    | .ok acc =>
      let (n, st) := fresh (engineSee s.1 c m.ctx a 1 true)
      let words := (List.range 32).map fun i => (i, tileWord x t (128 * (k / 4) + 32 * (k % 4) + i))
      ({ st with merges := st.merges ++ [⟨n, [⟨m.uid, c, false, 128 * k, 128⟩], m.ctx, lineOf (plainPa acc.pa), acc.home, ty,
        if add then 0 else 3, words, if x.tilePoison.getLsbD t then 3 else 0, isRaw acc.pa, false, dieOf c, 0, 0, 0⟩] }, s.2)
  let (s, lost) := (List.range 512).foldl part (s, none)
  let s := match lost with
    | some (f, a) => (report s (dieOf c) (jobRecord c m.ctx m.slot m.tag f a)).1
    | none => s
  modCore s c fun x => if zero then { x with tiles := del x.tiles t } else x

/-- MATRIX_COMMAND_START: a command starts once its resources allow, an OFILL in command order with the jobs, an MMA when no
task copy is under way; an ACCFL is read out (R19, R265, R272, R284). -/
def execMatrixCommandStart (c id : Nat) (s : State) : Host.Outcome State Fault Refusal :=
  match (core s c).mq.find? fun m => m.uid == id with
  | none => .next s
  | some m =>
    if !cmdReady s (core s c) m || (m.isFill && olderReady s (core s c) id) || (m.isMma && taskCopying s c) then .next s
    else
      let s := modCore s c fun x =>
        let eng := if m.isFill then some (freeEngine x) else none
        { x with mq := x.mq.map fun e => if e.uid = id then { e with started := true, engine := eng } else e }
      match m.op with
      | .accfl ty add va t zero pitch => .next (runFlush s c m ty add va t zero pitch)
      | _ => .next s

/-- MATRIX_COMMAND_COMPLETE: the slot holds its data, once no atomics hold a line of it, the tile its sums or zero, or every write of
a flush has been made (R230, R264). -/
def execMatrixCommandComplete (c id : Nat) (s : State) : Host.Outcome State Fault Refusal :=
  match (core s c).mq.find? fun m => m.uid == id with
  | none => .next s
  | some m =>
    if !m.started then .next s
    else match m.op with
      | .ofill va n pitch =>
        if (List.range 128).any fun r => readsHeld s c m.ctx (va + 128 * pitch * r) 128 then .next s
        else .next (endCmd (runFill s c m va n pitch) c id)
      | .mma ty mix a b t k =>
        .next (bump (endCmd (modCore s c fun x => runMma x ty mix a b t k) c id) c 5 1)
      | .accz t => .next (endCmd (modCore s c fun x => zeroRes x (32 + t)) c id)
      | .accfl _ _ _ _ _ _ => if mergesDone s id then .next (endCmd s c id) else .next s

/-! ## The instructions -/

/-- The resource is claimed by the workgroup (R264). -/
def claimed (c : Core) (p : Place) (n : Nat) : Bool :=
  let r := resOf c n
  n < 36 && r.st == 1 && r.owner == some (p.w.ctx, p.wk) && !r.releasing

/-- A slot of the BUSY task pair that the strand's lane set serves (R264, R307). -/
def ownTaskSlot (s : State) (x : Site) (n : Nat) : Bool :=
  match x.st.task with
  | some k =>
    let d := dieOf x.core
    let local_ := x.core % 48
    let m := (ring s (ringKey d (local_ / 16))).members.getD (local_ % 16) Member.reset
    (n == 28 + 2 * k || n == 29 + 2 * k) && (m.pairs.getD k TaskPair.reset).st == 2
  | none => false

/-- An instruction with mask `m`: with an empty mask nothing is performed and the empty mask is delivered (R131). -/
def Site.perform (x : Site) (s : State) (w : Plain) (m : Mask) (f : Place → State) : State :=
  if m == 0 then x.yield s w.ta w.tb (numTok 32 0 0)
  else match x.place s with
    | some p => f p
    | none => s

/-- Slots that count against the workgroup's quota: claimed and reserved, not releasing (R266). -/
def quotaUsed (c : Core) (p : Place) : Nat :=
  ((c.res.take 32).filter fun r => r.owner == some (p.w.ctx, p.wk) && !r.releasing).length

/-- The resource can be claimed: FREE, not reserved. -/
def claimable (c : Core) (n : Nat) : Bool := let r := resOf c n; r.st == 0 && r.resv.isNone

/-- OCLAIM (R266). Within its quota a claim of any slot never fails: while the slots that others have given up still wait for
their commands, it waits to perform (R262, R267). -/
def execOclaim (w : Plain) (s : State) : Host.Outcome State Fault Refusal :=
  atSite s fun x =>
    let (v, m) := x.sel w
    x.perform s w m fun p =>
      let c := core s x.core
      let want : Option Nat :=
        if v = 0x3F then (List.range 32).find? (claimable c)
        else if v = 0x3E then ((List.range 4).map (32 + ·)).find? (claimable c)
        else if v < 36 && claimable c v then some v else none
      let slot := v = 0x3F || v < 32
      if slot && p.l.oslots ≤ quotaUsed c p then x.fault s .slotState m x.b.addr
      else match want with
        | some n =>
          let s := modCore s x.core fun c =>
            c.modRes n fun r => { r with resv := some x.b.uid, owner := some (p.w.ctx, p.wk) }
          x.commitWith s w.ta w.tb (numTok 32 m n) (.oclaim n)
        | none =>
          if v = 0x3E then x.yield s w.ta w.tb (numTok 32 m 0xFFFF_FFFF)
          else if v = 0x3F then s
          else x.fault s .slotState m x.b.addr

/-- A claim commits: CLAIMED, data and poison zero (R266). -/
def commitClaim (s : State) (c n : Nat) : State :=
  modCore s c fun x => zeroRes (x.modRes n fun r => { r with st := 1, resv := none }) n

/-- ORLSE (R267). -/
def execOrlse (w : Plain) (s : State) : Host.Outcome State Fault Refusal :=
  atSite s fun x =>
    let (n, m) := x.sel w
    x.perform s w m fun p =>
      if claimed (core s x.core) p n then x.commitWith s w.ta w.tb (numTok 32 m 0) (.orlse n)
      else x.fault s .slotState m x.b.addr

/-- A release commits: the resource is FREE once its pending commands have completed; nothing is released where the workgroup no
longer holds the claim, since an earlier release of it has committed meanwhile (R267). -/
def commitRelease (s : State) (c : Nat) (p : Place) (n : Nat) : State :=
  if claimed (core s c) p n then modCore s c fun x => settle (x.modRes n fun r => { r with releasing := true }) else s

/-- The checks of R241 on parts of a command's region: offset by offset, the first failure in R241's order with its step and
address; an atomic's are also held to the poison of their sectors (R215, R272). -/
def regionCheck (s : State) (x : Site) (ctx : Nat) (w : MemW) (a : Token) (l : Nat) (u : Use) (offs : List Nat) :
    Option (Nat × Nat × FaultCode) × State :=
  let at_ (o : Nat) : Token := uniTok 64 a.mask (BitVec.ofNat 128 (BitVec.ofNat 64 (a.at_ l).toNat + BitVec.ofNat 64 o).toNat)
  let one : State → Nat → Except (Nat × FaultCode) Acc × State := fun s o =>
    let r := laneCheck s x ctx w (at_ o) 1 u l
    if u = .atomicI ∨ u = .atomicF then sectorCheck r else r
  let (rs, s) := checkLanes s one offs
  ((firstFailure rs).map fun r => (r.1, laneAddr x.b w (at_ r.2.1) l, r.2.2), s)

/-- PITCH in 128-byte units of an OFILL or ACCFL control word. -/
def pitchOf (b : Nat) : Nat := bitsOf b 12 20

/-- OFILL (R268): checks over every byte of the region, then a command at commit. An address operand that is per-lane gives the
address of the lowest lane of its mask, as R264 reads resource numbers and control words: of an address it says nothing (log
entry 20). -/
def execOfill (w : MemW) (s : State) : Host.Outcome State Fault Refusal :=
  atSite s fun x =>
    let a := x.opnd 0
    let b := x.opnd 1
    let m := a.mask &&& b.mask
    let v := b.scalar64.toNat
    let pitch := if pitchOf v = 0 then 1 else pitchOf v
    match x.place s, a.mask.lowest with
    | some p, some l =>
      let va := laneAddr x.b w a l
      if m == 0 then x.yield s w.ta w.tb (numTok 32 0 0)
      else if bitsOf v 5 7 != 0 || bitsOf v 32 32 != 0 || !claimed (core s x.core) p (v % 32) then
        x.fault s .slotState m x.b.addr
      else
        let offs := (List.range 128).map fun r => 128 * pitch * r
        match regionFault va 128 128 offs, regionCheck s x p.w.ctx w a l .load offs with
        | some (c, e), _ => x.fault s c m e
        | none, (some (n, e, c), s) =>
          if n = 7 then x.commitWith s w.ta w.tb (numTok 32 m 0) (.mcmd (.ofill va (v % 32) pitch))
          else x.fault s c m e
        | none, (none, s) => x.commitWith (usePages s x [va]) w.ta w.tb (numTok 32 m 0) (.mcmd (.ofill va (v % 32) pitch))
    | some _, none => x.yield s w.ta w.tb (numTok 32 0 0)
    | none, _ => s

/-- MMA (R47, R264, R269). -/
def execMma (mix : Bool) (w : Plain) (s : State) : Host.Outcome State Fault Refusal :=
  atSite s fun x =>
    let a := x.opnd 0
    let b := x.opnd 1
    let c := x.last w 2 .z
    let m := maskOf [a, b, c]
    let ctl := c.scalar64.toNat
    let k := bitsOf ctl 8 7 + 1
    x.perform s w m fun p =>
      let co := core s x.core
      let ok (n : Nat) : Bool := n < 32 && (claimed co p n || ownTaskSlot s x n)
      if x.b.mask != ~~~(0 : Mask) then x.fault s .illegalConvergence m x.b.addr
      else if bitsOf ctl 2 6 != 0 || bitsOf ctl 15 49 != 0 || (w.ty.bytes == 2 && 64 < k) ||
          !ok a.scalar64.toNat || !ok b.scalar64.toNat || !claimed co p (32 + ctl % 4) then
        x.fault s .slotState m x.b.addr
      else x.commitWith s w.ta w.tb (numTok 32 m 0)
        (.mcmd (.mma w.ty mix a.scalar64.toNat b.scalar64.toNat (ctl % 4) k))

/-- ACCZ (R271). -/
def execAccz (w : Plain) (s : State) : Host.Outcome State Fault Refusal :=
  atSite s fun x =>
    let (t, m) := x.sel w
    x.perform s w m fun p =>
      if t < 4 && claimed (core s x.core) p (32 + t) then
        x.commitWith s w.ta w.tb (numTok 32 m 0) (.mcmd (.accz t))
      else x.fault s .slotState m x.b.addr

/-- ACCFL (R272). A per-lane address operand is read as OFILL's is (log entry 20). -/
def execAccfl (add : Bool) (w : MemW) (s : State) : Host.Outcome State Fault Refusal :=
  atSite s fun x =>
    let a := x.opnd 0
    let b := x.opnd 1
    let m := a.mask &&& b.mask
    let v := b.scalar64.toNat
    let pitch := if pitchOf v = 0 then 4 else pitchOf v
    let use : Use := if add then (if w.ty = .f32 then .atomicF else .atomicI) else .store
    match x.place s, a.mask.lowest with
    | some p, some l =>
      let va := laneAddr x.b w a l
      if m == 0 then x.yield s w.ta w.tb (numTok 32 0 0)
      else if bitsOf v 3 9 != 0 || bitsOf v 32 32 != 0 || !claimed (core s x.core) p (32 + v % 4) then
        x.fault s .slotState m x.b.addr
      else
        let offs := (List.range 512).map fun k => 128 * pitch * (k / 4) + 128 * (k % 4)
        match regionFault va 128 128 offs, regionCheck s x p.w.ctx w a l use (offs.flatMap fun o => [o, o + 64]) with
        | some (c, e), _ => x.fault s c m e
        | none, (r, t) =>
          if pitch < 4 then x.fault s .misaligned m va
          else match r with
            | some (_, e, c) => x.fault t c m e
            | none => x.commitWith (usePages t x [va]) w.ta w.tb (numTok 32 m 0)
                (.mcmd (.accfl w.ty add va (v % 4) (v.testBit 2) pitch))
    | some _, none => x.yield s w.ta w.tb (numTok 32 0 0)
    | none, _ => s

/-- ACCRD reads the tile as it stands when it performs (R273). -/
def execAccrd (w : Plain) (s : State) : Host.Outcome State Fault Refusal :=
  atSite s fun x =>
    let a := x.opnd 0
    let b := x.opnd 1
    let m := a.mask &&& b.mask
    let wide := w.ty.bytes == 8
    let row (l : Nat) : Nat := bitsOf (b.at_ l).toNat 0 7
    let col (l : Nat) : Nat := bitsOf (b.at_ l).toNat 7 7
    let t := a.scalar64.toNat
    x.perform s w m fun p =>
      let c := core s x.core
      if !(t < 4 && claimed c p (32 + t)) then x.fault s .slotState m x.b.addr
      else match (if wide then m.lanes.find? fun l => col l % 2 == 1 else none) with
        | some l => x.fault s .misaligned m (bitsOf (b.at_ l).toNat 0 14)
        | none =>
          if resPoison c (32 + t) then x.fault s .poisonConsumed m x.b.addr
          else x.yield s w.ta w.tb (mkTok (a.uni && b.uni) w.ty.tokenWidth m fun l =>
            let i := 128 * row l + col l
            BitVec.ofNat 128 ((tileWord c t i).toNat + (if wide then 2 ^ 32 * (tileWord c t (i + 1)).toNat else 0)))

/-- The word of MSTAT (R274). A claim that another block has only reserved is FREE to everyone else (R261, R266). -/
def mstatWord (c : Core) (p : Place) (n : Nat) : Nat :=
  let r := resOf c n
  let kind := if r.st == 2 then 3 else match r.owner with
    | some o => if o == (p.w.ctx, p.wk) then 1 else if r.st == 0 then 0 else 2
    | none => 0
  kind + (if resPoison c n then 4 else 0) + (if r.releasing then 8 else 0) + 256 * min 255 (pendingOn c n)

/-- MSTAT (R274). -/
def execMstat (w : Plain) (s : State) : Host.Outcome State Fault Refusal :=
  atSite s fun x =>
    let (n, m) := x.sel w
    x.perform s w m fun p =>
      if n < 36 then x.yield s w.ta w.tb (numTok 32 m (mstatWord (core s x.core) p n))
      else x.fault s .slotState m x.b.addr

end Sys2Proof.Machine
end

