-- ==== Sys2Proof/Machine/Queues.lean ====
section
/-! DEFINITION. Queue registers and their endpoints, job cards and the copy engines' work, messages, the deque, launches
and signals posted by programs (15_queues: R275 to R286, R289; 16_ref_queues: R291 to R300). -/

namespace Sys2Proof.Machine

/-! ## Reading memory at perform -/

/-- A block's load of one byte goes to the home slice: under ACQ of package or system scope (R225). -/
def Blk.homeServed (b : Blk) : Bool := 5 ≤ b.h.acq

/-- A line as a load of block `b` reads it: from L1, through the die's slice, or at the home, whose reply refreshes the die's copy
(R205, R219, R225, R243, R294). -/
def Blk.lineAt (b : Blk) (s : State) (c : Nat) (p : Place) (a : Acc) : (Line × BitVec 2) × State :=
  let line := lineOf (plainPa a.pa)
  match ownHeld s b.uid line, lineNow s c p.gk b.uid b.l1min 0 b.homeServed a with
  | some l, _ => (l, s)
  | none, some (l, true) => (l, s)
  | none, _ =>
    let (l, t) := if b.homeServed then pullLine s (dieOf c) a
      else let t := fetchLine s (dieOf c) a; (engineLine t (dieOf c) a, t)
    (overlay (overlay l (pending t (dieOf c) line)) (inWritePath t c line), t)

/-- The checks of R241 on one byte of such a read, the poison of its sector among them. -/
def Blk.byteCheck (b : Blk) (c : Nat) (p : Place) (va : Nat) (s : State) (o : Nat) : Except (Nat × FaultCode) Acc × State :=
  match vaCheck s c p.w.ctx (va + o) 1 .load with
  | (.error e, s) => (.error e, s)
  | (.ok a, s) =>
    let (l, s) := b.lineAt s c p a
    if l.2.getLsbD (plainPa a.pa % 128 / 64) then (.error (7, .poisonConsumed), s) else (.ok a, s)

/-- The offsets of a region of `n` bytes from `va` at which its 64-byte sectors begin. -/
def sectorOffs (va n : Nat) : List Nat := (0 :: (List.range (n / 64 + 1)).map fun k => 64 * (k + 1) - va % 64).filter (· < n)

/-- `n` bytes from `va` as a load of block `b` reads them, or the first check of R241 that one of them fails, with the address of
the lowest byte that fails it (R241, R291). -/
def Blk.bytes (b : Blk) (c : Nat) (p : Place) (s : State) (va n : Nat) : Except (FaultCode × Nat) (List Nat) × State :=
  let (rs, s) := checkLanes s (b.byteCheck c p va) (sectorOffs va n)
  match firstFailure rs with
  | some (_, o, f) => (.error (f, va + o), s)
  | none =>
    let sector (k : Nat) : Option (Nat × Acc) := (passed rs).reverse.find? fun e => e.1 ≤ k
    (.ok ((List.range n).map fun k => ((sector k).map fun e =>
      lineGet (b.lineAt s c p e.2).1.1 (plainPa e.2.pa % 128 + (k - e.1)) 1).getD 0), s)

/-- A read of `n` bytes by block `b` meets a line that another block holds or, to be served at the home, the die's own stores to
it (R225, R230). -/
def Blk.blocked (b : Blk) (s : State) (c : Nat) (p : Place) (va n : Nat) : Bool :=
  (sectorOffs va n).any fun o => match (vaCheck s c p.w.ctx (va + o) 1 .load).1 with
    | .ok a =>
      let line := lineOf (plainPa a.pa)
      heldFor s line b.uid || (b.homeServed && (ownHeld s b.uid line).isNone &&
        !((pending s (dieOf c) line).isEmpty && (inWritePath s c line).isEmpty))
    | .error _ => false

/-- A read at perform must wait: for the strand's earlier blocks, as a load does, for a held line, and to be served at home for
the die's own stores (R43, R225, R226, R230). -/
def Site.mustWait (x : Site) (s : State) (p : Place) (va n : Nat) : Bool :=
  !x.mayLoad || x.b.blocked s x.core p va n ||
    (List.range n).any fun k => match (vaCheck s x.core p.w.ctx (va + k) 1 .load).1 with
      | .ok a => x.meetsBuffered false (plainPa a.pa) 1
      | .error _ => false

/-- Read `n` bytes at perform and go on with them; a failure faults with its address. A read of none touches nothing. -/
def Site.readThen (x : Site) (s : State) (p : Place) (m : Mask) (va n : Nat) (f : State → List Nat → State) : State :=
  if n = 0 then f s []
  else if x.mustWait s p va n then s
  else match x.b.bytes x.core p s va n with
    | (.error (c, a), s) => x.fault s c m a
    | (.ok bs, s) => f (usePages s x [va, va + n - 1]) bs

/-- The checks of R241 over every line of a region, for an engine that will read or write it: the deciding failure with
its address. A page with POISON does not stop an engine's read (R218). -/
def spanCheck (s : State) (c ctx va n : Nat) (u : Use) : Option (FaultCode × Nat) × State :=
  let (rs, s) := checkLanes s (fun s o => vaCheck s c ctx (va + o) 1 u) (spanOffs va n)
  match firstFailure rs with
  | some (n, o, f) => (if u = .load && n == 7 then none else some (f, va + o), s)
  | none => (none, s)

/-- Go on when an engine may reach the whole region, else fault. -/
def Site.spanThen (x : Site) (s : State) (p : Place) (m : Mask) (va n : Nat) (u : Use) (f : State → State) : State :=
  match spanCheck s x.core p.w.ctx va n u with
  | (some (c, a), s) => x.fault s c m a
  | (none, s) => f (usePages s x ((spanOffs va n).map (va + ·)))

/-! ## Bindings (R276, R277, R292) -/

/-- KIND of a binding (R276). -/
def bindKind (b : BitVec 32) : Nat := bitsOf b.toNat 28 4
/-- INDEX of a binding. -/
def bindIndex (b : BitVec 32) : Nat := bitsOf b.toNat 23 5

/-- The highest INDEX of each kind (R276). -/
def maxIndex : Nat → Nat
  | 2 => 3
  | 3 => 7
  | 4 => 2
  | 5 => 15
  | _ => 0

/-- A receive queue of a core. -/
def recvOf (c : Core) (n : Nat) : RecvQ := get c.recv n RecvQ.reset

/-- The core with a receive queue changed. -/
def Core.modRecv (c : Core) (n : Nat) (f : RecvQ → RecvQ) : Core :=
  { c with recv := store c.recv n (f (recvOf c n)) RecvQ.reset }

/-- The items of the endpoint that a binding of core `c` names. -/
def endItems (s : State) (c : Nat) (b : BitVec 32) : List Item :=
  let x := core s c
  match bindKind b with
  | 2 => get x.compq (bindIndex b) []
  | 3 => (x.field.ports.getD (bindIndex b) Port.reset).queue
  | 4 => (ring s (ringKey (dieOf c) (bindIndex b))).queue
  | 5 => (recvOf x (bindIndex b)).items
  | _ => []

/-- The state with that endpoint's items changed. -/
def modItems (s : State) (c : Nat) (b : BitVec 32) (f : List Item → List Item) : State :=
  let n := bindIndex b
  match bindKind b with
  | 2 => modCore s c fun x => { x with compq := store x.compq n (f (get x.compq n [])) [] }
  | 3 => modCore s c fun x =>
      { x with field := { x.field with ports := x.field.ports.modify n fun p => { p with queue := f p.queue } } }
  | 4 => modRing s (ringKey (dieOf c) n) fun r => { r with queue := f r.queue }
  | 5 => modCore s c fun x => x.modRecv n fun q => { q with items := f q.items }
  | _ => s

/-- A binding's kind can be popped (R277). -/
def canPop (b : BitVec 32) : Bool := 2 ≤ bindKind b && bindKind b ≤ 5
/-- A binding's kind can be pushed. -/
def canPush (b : BitVec 32) : Bool := bindKind b == 1 || bindKind b == 5 || bindKind b == 6

/-- Free places in the copy command queue (R275, R284). -/
def cardRoom (c : Core) : Nat := 32 - (c.jobs.filter fun j => j.card?.isSome && j.engine.isNone).length

/-! ## QCFG and QLEN -/

/-- The checks of QCFG.bind on its operands (R292). -/
def bindError (s : State) (x : Site) (p : Place) (a b : Nat) : Option FaultCode :=
  let kind := bitsOf b 28 4
  let idx := bitsOf b 23 5
  let slog := bitsOf a 5 5
  let sbase := bitsOf a 10 42 * 2 ^ 10
  let me := some (p.w.ctx, p.wk)
  let c := core s x.core
  if 6 < kind || maxIndex kind < idx || bitsOf a 52 12 != 0 || bitsOf b 0 23 != 0 || bitsOf b 32 32 != 0 ||
      (slog != 0 && slog < 6) || 20 < slog || (kind != 5 && (slog != 0 || sbase != 0)) ||
      (kind == 5 && (recvOf c idx).owner.isSome && (recvOf c idx).owner != me) ||
      (kind == 3 && c.field.owner != me) then some .queueUnbound
  else if kind == 5 && slog != 0 && sbase % (2 ^ slog * 16) != 0 then some .misaligned
  else none

/-- QCFG.bind (R292). -/
def execQcfgBind (w : Plain) (s : State) : Host.Outcome State Fault Refusal :=
  atSite s fun x =>
    let a := x.opnd 0
    let b := x.opnd 1
    let m := a.mask &&& b.mask
    x.perform s w m fun p =>
      let av := a.scalar64.toNat
      let bv := b.scalar64.toNat
      match bindError s x p av bv with
      | some c => x.fault s c m (if c = .misaligned then bitsOf av 10 42 * 2 ^ 10 else x.b.addr)
      | none => x.commitWith s w.ta w.tb (numTok 32 m 0)
          (.bind (av % 32) (BitVec.ofNat 32 bv) (bitsOf av 5 5) (bitsOf av 10 42 * 2 ^ 10))

/-- A committed binding (R292). -/
def commitBind (s : State) (c : Nat) (p : Place) (q : Nat) (b : BitVec 32) (slog sbase : Nat) : State :=
  let s := modGroup s p.gk fun g => { g with qregs := store g.qregs q b 0 }
  if bindKind b == 5 then
    modCore s c fun x => x.modRecv (bindIndex b) fun r =>
      { r with owner := some (p.w.ctx, p.wk), slog := slog, sbase := sbase, head := 0, tail := 0 }
  else s

/-- QCFG.deq (R292). -/
def execQcfgDeq (w : Plain) (s : State) : Host.Outcome State Fault Refusal :=
  atSite s fun x =>
    let m := (x.opnd 0).mask &&& (x.opnd 1).mask
    x.perform s w m fun p =>
      let o := (core s x.core).deque.owner
      if o.isSome && o != some (p.w.ctx, p.wk) then x.fault s .queueUnbound m x.b.addr
      else x.commitWith s w.ta w.tb (numTok 32 m 0) .deq

/-- QCFG.undeq (R292). -/
def execQcfgUndeq (w : Plain) (s : State) : Host.Outcome State Fault Refusal :=
  atSite s fun x =>
    let m := (x.opnd 0).mask &&& (x.opnd 1).mask
    x.perform s w m fun _ => x.commitWith s w.ta w.tb (numTok 32 m 0) .undeq

/-- The workgroup takes the deque, unless another has come to own it (R289, R292). -/
def commitDeq (s : State) (c : Nat) (p : Place) : State :=
  modCore s c fun x =>
    if x.deque.owner.isNone then { x with deque := { x.deque with owner := some (p.w.ctx, p.wk) } } else x

/-- The owner gives the deque up with its entries (R292). -/
def commitUndeq (s : State) (c : Nat) (p : Place) : State :=
  modCore s c fun x => if x.deque.owner == some (p.w.ctx, p.wk) then { x with deque := Deque.reset } else x

/-- QLEN's value for a binding (R293). -/
def queueLength (s : State) (c : Nat) (b : BitVec 32) : Nat :=
  let free := (endItems s c b).filter fun i => i.resv.isNone
  match bindKind b with
  | 0 => 0xFFFF_FFFF
  | 1 => cardRoom (core s c)
  | 5 => let q := recvOf (core s c) (bindIndex b); free.length + (q.tail - q.head)
  | 6 => eventRoom s
  | _ => free.length

/-- QLEN (R293). -/
def execQlen (w : Plain) (s : State) : Host.Outcome State Fault Refusal :=
  atSite s fun x =>
    let (n, m) := x.sel w
    x.perform s w m fun p =>
      if 31 < n then x.fault s .queueUnbound m x.b.addr
      else x.yield s w.ta w.tb (numTok 32 m (queueLength s x.core (get p.g.qregs n 0)))

/-! ## Job cards (R282, R294, R295) -/

/-- The fields of a card's 64 bytes; the stream fields are those of a descriptor's 16 bytes (R282, R295). -/
def cardOf (bs ds : List Nat) : Card :=
  ⟨leAt bs 0 1, leAt bs 1 1, leAt bs 2 1, leAt bs 3 1, leAt bs 4 4, leAt bs 8 8, leAt bs 0x10 8, leAt bs 0x18 8,
   leAt bs 0x20 8, leAt bs 0x28 4, leAt bs 0x2C 2, leAt ds 0 2, leAt ds 2 1, leAt ds 4 2⟩

/-- A card's fields pass the checks of its operation (R294). -/
def cardOk (bs : List Nat) : Bool :=
  let c := cardOf bs []
  let flags := c.flags < 16 && c.cq < 4 && (bs.drop 0x2E).all (· == 0)
  let sp := c.flags.testBit 2 || c.flags.testBit 3
  match c.op with
  | 1 => flags && c.elem == 0 && c.idx == 0 && c.rbase == 0 && c.rlen == 0
  | 2 => flags && c.elem < 4 && c.src == 0 && c.idx % 4 == 0 && c.rlen != 0
  | 3 => flags && (c.elem % 16 == 2 || c.elem % 16 == 6 || c.elem % 16 == 10) && c.elem / 16 < 3 && c.idx % 16 == 0 &&
      c.rbase == 0 && c.rlen == 0 && !sp
  | _ => false

/-- A stream descriptor's fields pass their checks (R295). -/
def streamOk (ds : List Nat) : Bool :=
  1 ≤ leAt ds 2 1 && leAt ds 2 1 ≤ 16 && leAt ds 3 1 == 0 && 1 ≤ leAt ds 4 2 && leAt ds 4 2 ≤ 1000 &&
    (ds.drop 6).all (· == 0)

/-- A card read and checked at perform (R294). -/
def Site.cardBy (x : Site) (s : State) (w : Plain) (op : Nat) : State :=
  let a := x.opnd 0
  let m := a.mask
  let va := a.scalar64.toNat
  x.perform s w m fun p =>
    match regionFault va 64 64 [0] with
    | some (c, a) => x.fault s c m a
    | none => x.readThen s p m va 64 fun s bs =>
      if leAt bs 0 1 != op || !cardOk bs then x.fault s .blockFormat m va
      else if op == 3 then
        x.readThen s p m (leAt bs 0x18 8) 16 fun s ds =>
          if streamOk ds then x.commitWith s w.ta w.tb (numTok 32 m 0) (.job (cardOf bs ds))
          else x.fault s .blockFormat m va
      else x.commitWith s w.ta w.tb (numTok 32 m 0) (.job (cardOf bs []))

/-- CPYC (R294). -/
def execCpyc (w : Plain) (s : State) : Host.Outcome State Fault Refusal := atSite s fun x => x.cardBy s w 1
/-- GTHC (R294). -/
def execGthc (w : Plain) (s : State) : Host.Outcome State Fault Refusal := atSite s fun x => x.cardBy s w 2
/-- COLC (R295). -/
def execColc (w : Plain) (s : State) : Host.Outcome State Fault Refusal := atSite s fun x => x.cardBy s w 3

/-- The element size of a gather. -/
def Card.size (c : Card) : Nat := 2 ^ (c.elem % 4)

/-- Destination bytes of a card's job. -/
def Card.bytes (c : Card) : Nat := if c.op = 2 then c.len * c.size else if c.op = 3 then c.len / 4 * 4 else c.len

/-- Bytes of the destination region of a card's footprint (R283). -/
def Card.region (c : Card) : Nat := if c.op = 2 then c.len * c.size else c.len

/-- A card's footprint (R283). -/
def cardFoot (ctx wk : Nat) (c : Card) : List Region × List Region :=
  let src : Space := if c.flags.testBit 2 then .scratch wk else .virt ctx
  let dst : Space := if c.flags.testBit 3 then .scratch wk else .virt ctx
  let w : List Region := [⟨dst, c.dst, c.dst + c.region⟩]
  if c.op = 2 then ([⟨.virt ctx, c.idx, c.idx + 4 * c.len⟩, ⟨src, c.rbase, c.rbase + c.rlen⟩], w)
  else ([⟨src, c.src, c.src + c.len⟩], w)

/-- A job enters its core's list, to be waited for by the strands of `keys` (R43). -/
def addJob (s : State) (c : Nat) (p : Place) (kind : JobKind) (foot : List Region × List Region) (gate : List Nat) :
    Nat × State :=
  let (n, s) := fresh s
  (n, modCore s c fun x => { x with jobs := x.jobs ++
    [⟨n, kind, p.w.ctx, p.wk, p.l.tag, p.g.slot, foot.1, foot.2, gate, none, none⟩] })

/-- A card and its stream descriptor as block `b` reads and checks them, or the fault that refuses it (R294, R295). -/
def cardAt (s : State) (c : Nat) (b : Blk) (p : Place) (va : Nat) : Except FaultCode Card × State :=
  match regionFault va 64 64 [0], b.bytes c p s va 64 with
    | some (f, _), _ => (.error f, s)
    | none, (.error (f, _), s) => (.error f, s)
    | none, (.ok bs, s) =>
      if !cardOk bs then (.error .blockFormat, s)
      else if leAt bs 0 1 != 3 then (.ok (cardOf bs []), s)
      else match b.bytes c p s (leAt bs 0x18 8) 16 with
        | (.error (f, _), s) => (.error f, s)
        | (.ok ds, s) => if streamOk ds then (.ok (cardOf bs ds), s) else (.error .blockFormat, s)

/-- The reads of a card and its descriptor that block `b` is to push meet a held line, or stores that they must be behind (R225,
R230, R294). -/
def cardBlocked (s : State) (c : Nat) (b : Blk) (p : Place) (va : Nat) : Bool :=
  (regionFault va 64 64 [0]).isNone && (b.blocked s c p va 64 || match (b.bytes c p s va 64).1 with
    | .ok bs => cardOk bs && leAt bs 0 1 == 3 && b.blocked s c p (leAt bs 0x18 8) 16
    | .error _ => false)

/-- A card pushed through a COPYCMD binding as the strand's oldest block commits: read as a load of that block reads it, checked,
and queued, or recorded (R294). -/
def pushCard (s : State) (key : Nat) (p : Place) (va : Nat) (gate : List Nat) : Option Nat × State :=
  let c := coreOf key
  match ((find s.strands key).bind fun st => st.blocks.head?).map fun b => cardAt s c b p va with
  | none => (none, s)
  | some (.error f, s) => (none, (report s (dieOf c) (jobRecord c p.w.ctx p.g.slot p.l.tag f va)).1)
  | some (.ok d, s) =>
    let r := addJob s c p (.card d) (cardFoot p.w.ctx p.wk d) gate
    (some r.1, r.2)

/-! ## Running copies, gathers and reductions -/

/-- One byte of a card's source space. -/
def srcByte (s : State) (c : Nat) (j : Job) (d : Card) (a : Nat) : Except FaultCode (Nat × Bool) :=
  if d.flags.testBit 2 then scratchByte s c j.wg a else engineByte s c j.ctx a

/-- The source address of destination byte `o` of a copy or gather, and whether the index that gives it is poisoned; a failing
read of the index with its address (R282, R287). -/
def cardSrc (s : State) (c : Nat) (j : Job) (d : Card) (o : Nat) : Except (FaultCode × Nat) (Nat × Bool) :=
  if d.op = 2 then
    let i := d.idx + 4 * (o / d.size)
    match gather (fun k => engineByte s c j.ctx (i + k)) 0 4 with
    | .error (f, k) => .error (f, i + k)
    | .ok (bs, q) => .ok (d.rbase + leAt bs 0 4 * d.size + o % d.size, q)
  else .ok (d.src + o, false)

/-- A gather's element at address `a` lies outside its region (R283). -/
def Card.outside (d : Card) (a : Nat) : Bool := d.op = 2 && d.rlen < ((a - d.rbase) / d.size + 1) * d.size

/-- Destination byte `o` of a copy or gather and whether it is poisoned, or the failure of its read with the address that it could
not reach, that of the element where a gather's index names one outside its region (R282, R283, R287; log entry 21). -/
def cardByte (s : State) (c : Nat) (j : Job) (d : Card) (o : Nat) : Except (FaultCode × Nat) (Nat × Bool) :=
  match cardSrc s c j d o with
  | .error e => .error e
  | .ok (a, q) =>
    if d.outside a then .error (.accessViolation, a)
    else match srcByte s c j d a with
      | .error f => .error (f, a)
      | .ok (b, p) => .ok (b, p || q)

/-- The lines that `k` destination bytes from byte `o` on of a copy or gather are read from come to the engine. -/
def cardSee (c : Nat) (j : Job) (d : Card) (s : State) (o k : Nat) : State :=
  let src (s : State) (a n : Nat) : State := if d.flags.testBit 2 then s else engineSee s c j.ctx a n false
  if d.op = 2 then
    let s := engineSee s c j.ctx (d.idx + 4 * (o / d.size)) (4 * ((o % d.size + k - 1) / d.size + 1)) false
    (List.range k).foldl (fun s i => match cardSrc s c j d (o + i) with
      | .ok (a, _) => if d.outside a then s else src s a 1
      | .error _ => s) s
  else src s (d.src + o) k

/-- The gather's index for destination byte `o` is out of range (R283). -/
def outOfRange (s : State) (c : Nat) (j : Job) (d : Card) (o : Nat) : Bool :=
  match cardSrc s c j d o with
  | .ok (a, _) => d.outside a
  | .error _ => false

/-- A line that a card's job reads is held for an uncommitted block's atomics: the job waits (R230). -/
def cardHeld (s : State) (c : Nat) (j : Job) (d : Card) : Bool :=
  !s.held.isEmpty &&
    if d.op = 2 then
      readsHeld s c j.ctx d.idx (4 * d.len) || (!d.flags.testBit 2 && (List.range d.bytes).any fun o =>
        match cardSrc s c j d o with
        | .ok (a, _) => !d.outside a && readsHeld s c j.ctx a 1
        | .error _ => false)
    else !d.flags.testBit 2 && readsHeld s c j.ctx d.src d.bytes

/-- Bytes written to a card's destination. -/
def cardWrite (c : Nat) (j : Job) (d : Card) (s : State) (o : Nat) (bs : List Nat) (p : Bool) : Except FaultCode State :=
  if d.flags.testBit 3 then engineScratch s c j.wg (d.dst + o) bs p else engineWrite s c j.ctx (d.dst + o) bs p

/-- The address that a copy or gather which has stopped could not read or write (R287). -/
def stopAddr (c : Nat) (j : Job) (d : Card) (r : Run) : Nat :=
  match r.stop.map (cardByte r.s c j d) with
  | some (.error (_, a)) => a
  | _ => (r.bad.map Prod.snd).getD 0

/-- A copy or gather runs to its end (R285, R286). -/
def runCopy (s : State) (c : Nat) (j : Job) (d : Card) : State :=
  let rd : State → Nat → Except FaultCode (Nat × Bool) := fun s o => (cardByte s c j d o).mapError Prod.fst
  let r := transfer (cardSee c j d) rd (cardWrite c j d) (fun o => d.src + o) (fun o => d.dst + o) d.dst
    d.bytes (d.bytes / 64 + 2) ⟨s, 0, none, none, none⟩
  let (st, first, count) := r.result
  let range := r.stop.any fun o => outOfRange r.s c j d o
  finishCard r.s c j d (if range then 5 else st) first count (stopAddr c j d r)

/-- The operand type and operation of a reduction (R282). -/
def Card.redTy (c : Card) : Ty := Ty.ofBits (BitVec.ofNat 4 c.elem)

/-- A reduction's contributions: access, offset, words and poison of each part within one 64-byte granule, until the
first that cannot be read or merged (R286, R295). -/
def contributions (s : State) (c : Nat) (j : Job) (d : Card) :
    Nat → Nat → List (Acc × Nat × List (BitVec 32) × Bool) × Nat × Option (FaultCode × Nat) × Option Nat
  | 0, o => ([], o, none, none)
  | n + 1, o =>
    if d.bytes ≤ o then ([], o, none, none)
    else
      let k := min (d.bytes - o) (64 - (d.dst + o) % 64)
      let use : Use := if d.redTy = .f32 then .atomicF else .atomicI
      if d.dst % 4 != 0 then ([], o, some (.accessViolation, d.dst), none)
      else match gather (fun a => engineByte s c j.ctx (d.src + a)) o k, engineAcc s c j.ctx (d.dst + o) use with
        | .error (f, a), _ => ([], o, some (f, d.src + a), none)
        | _, .error f => ([], o, some (f, d.dst + o), none)
        | .ok (bs, p), .ok acc =>
          let vals := (List.range (k / 4)).map fun i => BitVec.ofNat 32 (leAt bs (4 * i) 4)
          let (r, e, bad, first) := contributions s c j d n (o + k)
          ((acc, o, vals, p) :: r, e, bad, if p then some o else first)

/-- The words of a part by their place in the line, and the poison of its sector. -/
def partWords (e : Acc × Nat × List (BitVec 32) × Bool) : KMap (BitVec 32) × BitVec 2 :=
  let p := plainPa e.1.pa % 128
  ((e.2.2.1.zipIdx.map fun v => (p / 4 + v.2, v.1)), if e.2.2.2 then (if p < 64 then 1 else 2) else 0)

/-- The contributions of a reduction by lines: the two parts of one 128-byte line are one (R295). -/
def joinParts (j : Job) (c : Nat) : List (Acc × Nat × List (BitVec 32) × Bool) →
    List (Acc × Owner × KMap (BitVec 32) × BitVec 2)
  | [] => []
  | [a] => [(a.1, ⟨j.uid, c, true, a.2.1, 4 * a.2.2.1.length⟩, partWords a)]
  | a :: b :: r =>
    if lineOf (plainPa a.1.pa) == lineOf (plainPa b.1.pa) && plainPa a.1.pa < plainPa b.1.pa then
      (a.1, ⟨j.uid, c, true, a.2.1, 4 * (a.2.2.1.length + b.2.2.1.length)⟩, (partWords a).1 ++ (partWords b).1,
        (partWords a).2 ||| (partWords b).2) :: joinParts j c r
    else (a.1, ⟨j.uid, c, true, a.2.1, 4 * a.2.2.1.length⟩, partWords a) :: joinParts j c (b :: r)

/-- A reduction's contributions leave for their home slices (R295). -/
def runReduce (s : State) (c : Nat) (j : Job) (d : Card) : State :=
  let s := engineSee (engineSee s c j.ctx d.src d.bytes false) c j.ctx d.dst d.bytes true
  let (parts, off, bad, first) := contributions s c j d (d.bytes / 64 + 2) 0
  let st := match bad, first with
    | some (f, a), _ => (statusOf f, off, off, some a)
    | none, some p => (1, p, off, none)
    | none, none => (0, 0xFFFF_FFFF, off, none)
  let s := (joinParts j c parts).foldl (fun s e =>
    let (n, s) := fresh s
    { s with merges := s.merges ++ [⟨n, [e.2.1], j.ctx, lineOf (plainPa e.1.pa), e.1.home, d.redTy, d.elem / 16, e.2.2.1,
      e.2.2.2, isRaw e.1.pa, e.1.home != dieOf c && e.1.home < 4, dieOf c, d.stream, d.fanin, d.wait⟩] }) s
  modCore s c fun x =>
    { x with jobs := x.jobs.map fun k => if k.uid = j.uid then { k with ending := some st } else k }

/-- A started card runs: a copy or gather in one step once nothing blocks its reads and writes, a reduction by sending its
contributions and ending when all are merged; the address of what its home's loss has taken is that of the first such byte
(R230, R233, R286, R287, R295). -/
def runCard (s : State) (c : Nat) (j : Job) (d : Card) : State :=
  if d.op = 3 then
    match j.ending with
    | none => if cardHeld s c j d then s else runReduce s c j d
    | some (st, first, count, a) =>
      if mergesDone s j.uid then finishCard s c j d st first count (a.getD (d.dst + first)) else s
  else if cardHeld s c j d then s
  else if !d.flags.testBit 3 && writesBlocked s c j.ctx d.dst (d.dst + d.bytes) then s
  else runCopy s c j d

/-! ## Messages (R279, R280, R296) -/

/-- SEND (R296). -/
def execSend (w : Plain) (s : State) : Host.Outcome State Fault Refusal :=
  atSite s fun x =>
    let a := x.opnd 0
    let b := x.opnd 1
    let m := a.mask &&& b.mask
    let v := a.scalar64.toNat
    x.perform s w m fun _ =>
      if v / 2 ^ 12 != 0 || 191 < v % 256 then x.fault s .accessViolation m v
      else if !dieUp s (dieOf (v % 256)) then x.fault s .dieOffline m v
      else x.commitWith s w.ta w.tb (numTok 32 m 0) (.send (v % 256) (bitsOf v 8 4) b.scalar64)

/-- The item of a send (R279). -/
def recvItem (v : Word) (c slot : Nat) : Val := BitVec.ofNat 128 (v.toNat + c % 256 * 2 ^ 64 + slot % 64 * 2 ^ 72)

/-- An item leaves for its destination (R296). -/
def commitSend (s : State) (c : Nat) (p : Place) (dst q : Nat) (v : Word) : State :=
  let (n, s) := fresh s
  { s with recvMsgs := s.recvMsgs ++ [⟨n, dst, q, recvItem v c p.g.slot, p.w.ctx, dieOf c, p.g.slot, p.l.tag, c⟩] }

/-- An item is lost: counted, with a type-3 record that names receiver and sender; the sender's die reports for a die that has
left (R280, R287, R296). -/
def loseItem (s : State) (dst q : Nat) (ctx slot tag src : Nat) : State :=
  let s := bump s dst (16 + q) 1
  let d := if dieUp s (dieOf dst) then dieOf dst else dieOf src
  (report s d { Record.basic 3 0 (dieId d) ctx with
    slot := slot, core := dst, strand := 0xFF, tag := tag, mask := BitVec.ofNat 64 (q + 256 * dst), seq := src }).1

/-- The spill write of an item at the tail of the queue's area, in its owner's context (R280). -/
def spillItem (s : State) (dst q ctx : Nat) (v : Val) : Except FaultCode State :=
  let r := recvOf (core s dst) q
  let a := r.sbase + 16 * (r.tail % 2 ^ r.slog)
  match engineWrite s dst ctx a ((leBytes 16 v.toNat).map BitVec.toNat) false with
  | .error f => .error f
  | .ok s => .ok (modCore s dst fun c => c.modRecv q fun r => { r with tail := r.tail + 1 })

/-- An item that reaches a receive queue now is to be written to its spill area, and a line that it is written to satisfies
`p` (R280). -/
def spillMeets (s : State) (dst q : Nat) (p : Nat → Bool) : Bool :=
  let r := recvOf (core s dst) q
  match r.owner with
  | none => false
  | some (ctx, _) =>
    if (r.items.length < 64 && r.head == r.tail && !r.away) || r.slog == 0 || 2 ^ r.slog ≤ r.tail - r.head then false
    else match engineAcc s dst ctx (r.sbase + 16 * (r.tail % 2 ^ r.slog)) .line with
      | .ok a => p (lineOf (plainPa a.pa))
      | .error _ => false

/-- An item reaches a receive queue: into the queue, into the spill area, or lost (R280, R281, R296). -/
def arriveItem (s : State) (m : RecvMsg) : State :=
  let r := recvOf (core s m.dst) m.queue
  let lose := loseItem s m.dst m.queue m.ctx m.slot m.tag m.src
  match r.owner with
  | none => lose
  | some (ctx, _) =>
    if !dieUp s (dieOf m.dst) || ctx != m.ctx then lose
    else if r.items.length < 64 && r.head == r.tail && !r.away then
      modCore s m.dst fun c => c.modRecv m.queue fun r => { r with items := r.items ++ [⟨m.item, none⟩] }
    else if r.slog == 0 || 2 ^ r.slog ≤ r.tail - r.head then lose
    else match spillItem s m.dst m.queue ctx m.item with
      | .ok s => s
      | .error _ => lose

/-- RECEIVE_ARRIVAL: items of one sending group to one queue arrive in the order sent; one that is to be spilled waits for a held
line and for stores of the die on their way to it (R220, R230, R231, R280). -/
def execReceiveArrival (id : Nat) (s : State) : Host.Outcome State Fault Refusal :=
  match s.recvMsgs.find? fun m => m.uid == id with
  | none => .next s
  | some m =>
    let ahead := s.recvMsgs.takeWhile fun x => x.uid != id
    if ahead.any fun x => x.src == m.src && x.slot == m.slot && x.dst == m.dst && x.queue == m.queue then .next s
    else if dieUp s (dieOf m.dst) && ((recvOf (core s m.dst) m.queue).owner.map Prod.fst) == some m.ctx &&
      spillMeets s m.dst m.queue fun l =>
        lineHeld s l || s.posted.any fun q => q.line == l && q.die == dieOf m.dst then .next s
    else .next (arriveItem { s with recvMsgs := s.recvMsgs.filter fun x => x.uid != id } m)

/-- Freed entries of a receive queue filled from the head of its spill area; an item that cannot be read back is lost
(R280). `n` bounds the items moved. -/
def refill (c q : Nat) : Nat → State → State
  | 0, s => s
  | n + 1, s =>
    let r := recvOf (core s c) q
    match r.owner with
    | none => s
    | some (ctx, _) =>
      if 64 ≤ r.items.length || r.head == r.tail || r.away then s
      else
        let (bs, bad) := readJob s c ctx (r.sbase + 16 * (r.head % 2 ^ r.slog)) 0 16
        let s := modCore s c fun x => x.modRecv q fun r =>
          { r with
            head := r.head + 1
            items := if bad.isSome then r.items else r.items ++ [⟨BitVec.ofNat 128 (leAt bs 0 16), none⟩] }
        refill c q n (if bad.isSome then loseItem s c q ctx 0xFF 0 c else s)

/-! ## The deque (R289, R297, R298) -/

/-- Places that uncommitted blocks on a core hold for their pushes. -/
def dqHeld (s : State) (c : Nat) : Nat :=
  let one (e : Nat × Effect) : Nat := match e.2 with
    | .dqpush _ => 1
    | _ => 0
  ((s.strands.filter fun e => coreOf e.1 = c).map fun e =>
    (e.2.blocks.map fun b => (b.effects.map one).sum).sum).sum

/-- DQPUSH (R297). -/
def execDqpush (w : Plain) (s : State) : Host.Outcome State Fault Refusal :=
  atSite s fun x =>
    let a := x.opnd 0
    let m := a.mask
    x.perform s w m fun p =>
      let d := (core s x.core).deque
      if d.owner != some (p.w.ctx, p.wk) then x.fault s .queueUnbound m x.b.addr
      else if 256 ≤ d.entries.length + dqHeld s x.core then x.yield s w.ta w.tb (numTok 32 m 2)
      else x.commitWith s w.ta w.tb (numTok 32 m 0) (.dqpush a.scalar64)

/-- An entry enters at the bottom (R297). -/
def commitDqpush (s : State) (c : Nat) (v : Word) : State :=
  modCore s c fun x =>
    { x with deque := { x.deque with entries := ⟨BitVec.ofNat 128 v.toNat, none⟩ :: x.deque.entries } }

/-- The bottom or top unreserved entry: its place in the list from bottom to top. -/
def dqFind (l : List Item) (top : Bool) : Option Nat :=
  let free := (l.zipIdx.filter fun e => e.1.resv.isNone).map Prod.snd
  if top then free.getLast? else free.head?

/-- An entry reserved for the block and delivered, or EMPTY; a steal leaves the clock in which it has taken one (R44, R289,
R298). -/
def Site.dqTake (x : Site) (s : State) (w : Plain) (m : Mask) (c : Nat) (usable top : Bool) : State :=
  let d := (Sys2Proof.Machine.core s c).deque
  match (if usable then dqFind d.entries top else none) with
  | some i =>
    let v := (d.entries.getD i ⟨0, none⟩).val
    let s := modCore s c fun y =>
      { y with deque := { y.deque with
          entries := y.deque.entries.modify i fun e => { e with resv := some x.b.uid }
          stolen := if top then some (clkOf s c) else y.deque.stolen } }
    x.mod s fun b => b.finish x.i w.ta w.tb (uniTok 64 m v) (numTok 32 m 0)
  | none => x.mod s fun b => b.finish x.i w.ta w.tb (numTok 64 m 0) (numTok 32 m 1)

/-- DQPOP: of a pop and a steal in one clock the pop goes first, so that it waits for the next clock once a steal has gone (R289,
R298). -/
def execDqpop (w : Plain) (s : State) : Host.Outcome State Fault Refusal :=
  atSite s fun x =>
    match x.place s with
    | none => s
    | some p =>
      let d := (core s x.core).deque
      if d.owner != some (p.w.ctx, p.wk) then x.fault s .queueUnbound x.b.mask x.b.addr
      else if d.stolen == some (clkOf s x.core) then s
      else x.dqTake s w x.b.mask x.core true false

/-- DQSTEAL (R298). -/
def execDqsteal (w : Plain) (s : State) : Host.Outcome State Fault Refusal :=
  atSite s fun x =>
    let (v, m) := x.sel w
    if m == 0 then x.mod s fun b => b.finish x.i w.ta w.tb (numTok 64 0 0) (numTok 32 0 0)
    else match x.place s with
      | none => s
      | some p =>
        if 47 < v then x.fault s .accessViolation m v
        else
          let c := 48 * dieOf x.core + v
          let d := (Sys2Proof.Machine.core s c).deque
          x.dqTake s w x.b.mask c ((d.owner.map Prod.fst) == some p.w.ctx) true

/-! ## Launches and signals posted by programs (R299, R300) -/

/-- A launch queue. -/
def queueOf (s : State) (q : Nat) : Queue := s.queues.getD q Queue.reset

/-- The state with a launch queue changed. -/
def modQueue (s : State) (q : Nat) (f : Queue → Queue) : State := { s with queues := s.queues.modify q f }

/-- LNCH (R299). -/
def execLnch (w : Plain) (s : State) : Host.Outcome State Fault Refusal :=
  atSite s fun x =>
    let a := x.opnd 0
    let b := x.opnd 1
    let m := a.mask &&& b.mask
    let va := a.scalar64.toNat
    let q := b.scalar64.toNat
    x.perform s w m fun p =>
      match regionFault va 64 256 [0] with
      | some (c, a) => x.fault s c m a
      | none =>
      if 63 < q || (queueOf s q).ctx != p.w.ctx then x.fault s .accessViolation m q
      else x.readThen s p m va 256 fun s bs =>
        match (vaCheck s x.core p.w.ctx (va + 0xFF) 1 .load).1 with
        | .ok acc => x.commitWith s w.ta w.tb (numTok 32 m 0)
            (.lnch q acc.pa (bs.map (BitVec.ofNat 8)))
        | .error (_, c) => x.fault s c m (va + 0xFF)

/-- A status byte written into the source record of an LNCH (R299). -/
def writeSource (s : State) (src v : Nat) : State := homeWrite s src 1 v

/-- A source record's line is held for an uncommitted block's atomics. -/
def sourceHeld (s : State) (src : Nat) : Bool := lineHeld s (lineOf (plainPa src))

/-- A committed LNCH: the record with MARK 0xA5 into the slot after the last one posted, or QUEUE into the source record of a
disabled queue, which the dispatcher writes once no block's atomics hold the line (R230, R299). -/
def commitLnch (s : State) (q src : Nat) (rec : List Byte) : State :=
  if !(queueOf s q).enable then
    if sourceHeld s src then modQueue s q fun d => { d with owed := d.owed ++ [src] } else writeSource s src 0xE6
  else
    let k := (queueOf s q).post
    let s := homeBytes s (slotAddr q k 0) (rec.take 255)
    modQueue (homeWrite s (slotAddr q k 0xFF) 1 0xA5) q fun d => { d with src := put d.src k src }

/-- SIGNL: its word is checked as an integer atomic's is, the poison of its sector among the checks (R215, R218, R241, R300). -/
def execSignl (w : Plain) (s : State) : Host.Outcome State Fault Refusal :=
  atSite s fun x =>
    let a := x.opnd 0
    let b := x.opnd 1
    let m := a.mask &&& b.mask
    let va := a.scalar64.toNat
    x.perform s w m fun p =>
      match sectorCheck (vaCheck s x.core p.w.ctx va 8 .atomicI) with
      | (.error (_, c), s) => x.fault s c m va
      | (.ok r, s) => x.commitWith (usePages s x [va]) w.ta w.tb (numTok 32 m 0) (.signal r.pa r.home b.scalar64)

/-- A committed SIGNL adds at the word's home; a home that has left drops it, counted as a posted store is (R300, R406). -/
def commitSignal (s : State) (c pa home : Nat) (v : Word) : State :=
  if dieUp s home then homeWrite s pa 8 ((homeRead s (plainPa pa) 8 + v.toNat) % 2 ^ 64)
  else modDie s (dieOf c) (Die.count · 3 1)

end Sys2Proof.Machine
end

