-- ==== Sys2Proof/Machine/Integrators.lean ====
section
/-! DEFINITION. The integrator field (18_integrators: R324 to R344). -/

namespace Sys2Proof.Machine

/-! ## CRC-32 (R95) -/

/-- One bit of the reflected IEEE 802.3 polynomial. -/
def crcBit (c : BitVec 32) : BitVec 32 := if c.getLsbD 0 then (c >>> 1) ^^^ 0xEDB88320#32 else c >>> 1

/-- One byte. -/
def crcByte (c : BitVec 32) (b : Byte) : BitVec 32 :=
  let c := c ^^^ b.setWidth 32
  crcBit (crcBit (crcBit (crcBit (crcBit (crcBit (crcBit (crcBit c)))))))

/-- CRC-32 with the IEEE 802.3 polynomial (R95, R343). -/
def crc32 (bs : List Byte) : BitVec 32 := ~~~(bs.foldl crcByte 0xFFFF_FFFF#32)

/-! ## Patch entries (R325, R326) -/

/-- EN. -/
def pEn (e : Word) : Bool := e.getLsbD 63
/-- MODE: true for a summer. -/
def pSum (e : Word) : Bool := e.getLsbD 62
/-- W. -/
def pW (e : Word) : Nat := bitsOf e.toNat 57 5
/-- DOM. -/
def pDom (e : Word) : Nat := bitsOf e.toNat 55 2
/-- The source of input `k`: 0 dx, 1 to 4 dy0 to dy3. -/
def pSrc (e : Word) (k : Nat) : Nat := bitsOf e.toNat (40 - 10 * k) 9
/-- The negate bit of input `k`. -/
def pNeg (e : Word) (k : Nat) : Bool := e.getLsbD (49 - 10 * k)

/-- A patch entry is valid (R326). -/
def patchOk (e : Word) : Bool :=
  if pEn e then
    1 ≤ pW e && bitsOf e.toNat 50 5 == 0 && (List.range 5).all fun k => pSrc e k < 384 || 510 ≤ pSrc e k
  else e == 0

/-- The bound of RES under an entry: 2^W, or 2^31 when EN is 0 (R336). -/
def resLimit (e : Word) : Nat := if pEn e then 2 ^ pW e else 2 ^ 31

/-! ## Reading the field -/

/-- The live entry of a cell. -/
def Field.entry (f : Field) (c : Nat) : Word := get f.live c 0
/-- Y of a cell. -/
def Field.yOf (f : Field) (c : Nat) : Int := (get f.y c 0).toInt
/-- Counter `k` of a cell. -/
def Field.counter (f : Field) (c k : Nat) : Int := get f.cnt (8 * c + k) 0
/-- A domain. -/
def Field.dom (f : Field) (d : Nat) : Domain := f.doms.getD d Domain.reset
/-- The field with a domain changed. -/
def Field.modDom (f : Field) (d : Nat) (g : Domain → Domain) : Field := { f with doms := f.doms.modify d g }
/-- The domain that steps a cell, if the cell is enabled. -/
def Field.domOf (f : Field) (c : Nat) : Option Nat := if pEn (f.entry c) then some (pDom (f.entry c)) else none

/-- The state with a core's field changed. -/
def modField (s : State) (c : Nat) (g : Field → Field) : State := modCore s c fun x => { x with field := g x.field }

/-! ## One clock of steps (R327 to R329) -/

/-- The sign of a number: one unit of it (R328). -/
def unit (x : Int) : Int := if 0 < x then 1 else if x < 0 then -1 else 0

/-- What a step of domain `d` takes from counter `k` of cell `c` (R327, R328). -/
def Field.taken (f : Field) (d c k : Nat) : Int :=
  match f.domOf (pSrc (f.entry c) k) with
  | some ds => if pSrc (f.entry c) k < 384 && ds != d then unit (f.counter c k) else 0
  | none => 0

/-- Input `k` of cell `c` at a step of domain `d` (R327). -/
def Field.input (f : Field) (d c k : Nat) : Int :=
  let e := f.entry c
  let src := pSrc e k
  let v : Int :=
    if src == 511 then 1
    else if 384 ≤ src then 0
    else match f.domOf src with
      | none => 0
      | some ds => if ds == d then get f.dzl src 0 else unit (f.counter c k)
  if pNeg e k then -v else v

/-- A cell's y2, r2 before the check of its range, and dz (R327). -/
def Field.cellStep (f : Field) (d c : Nat) : Int × Int × Int :=
  let e := f.entry c
  let dy := f.input d c 1 + f.input d c 2 + f.input d c 3 + f.input d c 4
  let dx := f.input d c 0
  let res : Int := (get f.res c 0 : Nat)
  let t := if pSum e then dx + dy else dy
  let y := f.yOf c + t
  let r := if pSum e then res + t else if dx == 0 then res else res + dx * y
  let m : Int := (2 ^ pW e : Nat)
  if m ≤ r then (y, r - m, 1) else if r < 0 then (y, r + m, -1) else (y, r, 0)

/-- The increment that cell `c` emits when the domains of `as` step. -/
def Field.emits (f : Field) (as : List Nat) (c : Nat) : Int :=
  match f.domOf c with
  | some d => if c < 384 && as.contains d then (f.cellStep d c).2.2 else 0
  | none => 0

/-- What is delivered to counter `k` of cell `c`: the increment of its source in another domain (R328). -/
def Field.delivered (f : Field) (as : List Nat) (c k : Nat) : Int :=
  match f.domOf c, f.domOf (pSrc (f.entry c) k) with
  | some d, some ds => if d != ds then f.emits as (pSrc (f.entry c) k) else 0
  | _, _ => 0

/-- Counter `k` of cell `c` after the clock (R328). -/
def Field.counterAfter (f : Field) (as : List Nat) (c k : Nat) : Int :=
  let took := match f.domOf c with
    | some d => if as.contains d then f.taken d c k else 0
    | none => 0
  f.counter c k - took + f.delivered as c k

/-- Cause `code` of R329 arises at cell `c` from the step of domain `d`. -/
def Field.fails (f : Field) (as : List Nat) (d c code : Nat) : Bool :=
  if code < 5 then
    f.domOf (pSrc (f.entry c) code) == some d && f.delivered as c code != 0 &&
      !(-7 ≤ f.counterAfter as c code && f.counterAfter as c code ≤ 7)
  else if f.domOf c != some d then false
  else
    let (y, r, _) := f.cellStep d c
    if code == 5 then !(-(2 ^ 31 : Int) ≤ y && y < 2 ^ 31) else !(0 ≤ r && r < (2 ^ pW (f.entry c) : Nat))

/-- The lowest-numbered failing cell of domain `d`, with its lowest-coded cause (R329). -/
def Field.failure (f : Field) (as : List Nat) (d : Nat) : Option (Nat × Nat) :=
  (List.range 384).findSome? fun c => ((List.range 7).find? (f.fails as d c)).map fun k => (c, k)

/-- The domains whose steps are applied and the failures of the others; each round leaves out those that fail (R329). -/
def Field.resolve (f : Field) : Nat → List Nat → List (Nat × Nat × Nat) → List Nat × List (Nat × Nat × Nat)
  | 0, as, bad => (as, bad)
  | n + 1, as, bad =>
    let now := as.filterMap fun d => (f.failure as d).map fun e => (d, e.1, e.2)
    if now.isEmpty then (as, bad) else f.resolve n (as.filter fun d => !now.any fun e => e.1 == d) (bad ++ now)

/-- The code of an increment in two bits (R277, R324). -/
def incBits (x : Int) : Nat := if 0 < x then 1 else if x < 0 then 3 else 0

/-- A port after the step of its cell's domain (R331). -/
def portStep (f : Field) (as : List Nat) (p : Port) : Port :=
  match f.domOf p.cell with
  | some d =>
    if p.en && as.contains d then
      let w := p.word ||| BitVec.ofNat 32 (incBits (f.emits as p.cell) * 4 ^ p.count)
      if p.count == 15 then { p with word := 0, count := 0, queue := p.queue ++ [⟨BitVec.ofNat 128 w.toNat, none⟩] }
      else { p with word := w, count := p.count + 1 }
    else p
  | none => p

/-- The field after the steps of the domains in `as` (R327, R328, R331). -/
def Field.apply (f : Field) (as : List Nat) : Field :=
  let cells := (List.range 384).filter fun c => match f.domOf c with
    | some d => as.contains d
    | none => false
  let steps := cells.map fun c => (c, f.cellStep ((f.domOf c).getD 0) c)
  { f with
    y := steps.foldl (fun m e => store m e.1 (BitVec.ofInt 32 e.2.1) 0) f.y
    res := steps.foldl (fun m e => store m e.1 e.2.2.1.toNat 0) f.res
    dzl := steps.foldl (fun m e => store m e.1 e.2.2.2 0) f.dzl
    cnt := (List.range 384).foldl (fun m c => (List.range 5).foldl (fun m k =>
      store m (8 * c + k) (f.counterAfter as c k) 0) m) f.cnt
    ports := f.ports.map (portStep f as)
    doms := f.doms.zipIdx.map fun e =>
      if as.contains e.2 then
        { e.1 with
          steps := e.1.steps + 1
          pend := if e.1.st == 0 then e.1.pend - 1 else e.1.pend
          phase := 0
          due := e.1.due - 1 }
      else e.1 }

/-! ## Step timing (R330) -/

/-- A step of domain `d` would complete a word of a port whose queue is full. -/
def Field.blocked (f : Field) (d : Nat) : Bool :=
  f.ports.any fun p => p.en && p.count == 15 && f.domOf p.cell == some d && 64 ≤ p.queue.length

/-- A step of domain `d` is due in this clock, whether or not it must wait for a port. -/
def Field.due (f : Field) (d : Nat) : Bool :=
  let x := f.dom d
  match x.st with
  | 0 => x.pend != 0
  | 1 => if x.src then x.due != 0 else x.div ≤ x.phase
  | _ => false

/-- The domains that step in this clock. -/
def Field.dueSet (f : Field) : List Nat := (List.range 4).filter fun d => f.due d && !f.blocked d

/-- A domain as a clock ends in which its output was true: its step falls in the next clock; with a step still waiting, the pulse
is a missed trigger (R330). -/
def Domain.trigger (x : Domain) : Domain :=
  if !x.coming then x
  else if x.due = 0 then { x with due := 1, coming := false }
  else { x with missed := min (x.missed + 1) 0xFFFF, coming := false }

/-- The field as a clock ends in which the domains of `as` stepped: dividers run on but for domains that stepped or wait for a port,
and output pulses become steps of the next clock (R330). -/
def Field.endClock (f : Field) (as : List Nat) : Field :=
  { f with
    upTo := f.upTo + 1
    doms := f.doms.zipIdx.map fun e =>
      (if e.1.st == 1 && !e.1.src && !as.contains e.2 && !f.due e.2 then { e.1 with phase := e.1.phase + 1 } else e.1).trigger }

/-- The field has still to take a die clock that is over (R330). -/
def fieldBehind (s : State) (c : Nat) : Bool := (core s c).field.owner.isSome && (core s c).field.upTo < clkOf s c

/-- ISTEPs whose domain has no pending step left, by its steps or by IHALT, or is in FAULT complete (R340). -/
def settleWaiters (s : State) (c : Nat) : State :=
  let f := (core s c).field
  let ended : Nat × Nat → Bool := fun w => (f.dom w.2).pend == 0 || (f.dom w.2).st == 2
  let s := (f.waiters.filter ended).foldl (fun s w => endAsync s w.1 none) s
  modField s c fun f => { f with waiters := f.waiters.filter fun w => !ended w }

/-- The slot and tag of the field's owner: those of its lowest group on the core (log entry 38). -/
def fieldOwner (s : State) (c : Nat) (f : Field) : Nat × Nat × Nat :=
  match f.owner with
  | some (ctx, wk) =>
    let slot := ((groupsOf s wk).find? fun e => e.2.core == c).map fun e => e.2.slot
    (ctx, slot.getD 0xFF, ((launchOfWg s wk).map Launch.tag).getD 0)
  | none => (0, 0xFF, 0)

/-- Domain `d`'s step is not applied: FAULT, a record (R329). -/
def failDomain (c : Nat) (s : State) (e : Nat × Nat × Nat) : State :=
  let (ctx, slot, tag) := fieldOwner s c (core s c).field
  let s := modField s c fun f => f.modDom e.1 fun d => { d with st := 2 }
  (report s (dieOf c) (jobRecord c ctx slot tag .incrementOverrun (e.2.1 + e.2.2 * 2 ^ 9))).1

/-- The lowest of a list of failures by cell (R329). -/
def lowestFailure (l : List (Nat × Nat × Nat)) : Option (Nat × Nat × Nat) :=
  leastBy (fun a b => a.2.1 < b.2.1 || (a.2.1 == b.2.1 && a.2.2 < b.2.2)) l

/-- INTEGRATOR_STEP: an owned field takes the die clock that is over, once; `doms` are the domains whose steps fall in it. A step
that is applied pulses its signal in that clock (R327 to R331, R358). -/
def execIntegratorStep (c : Nat) (doms : BitVec 4) (s : State) : Host.Outcome State Fault Refusal :=
  let f := (core s c).field
  let due := f.dueSet
  if !fieldBehind s c || (List.range 4).any (fun d => due.contains d != doms.getLsbD d) then .next s
  else
    let (as, bad) := f.resolve 5 due []
    let s := modField s c fun f =>
      let g := (f.apply as).endClock as
      match lowestFailure bad with
      | some (_, cell, code) => { g with overCell := cell, overInput := code }
      | none => g
    let s := bad.foldl (failDomain c) s
    let s := if as.isEmpty then s else pulsesAt s c f.upTo (as.foldl (fun m d => m ||| ((1 : BitVec 48) <<< (4 + d))) 0)
    .next (settleWaiters s c)

/-! ## Ownership (R332) -/

/-- The field belongs to the strand's workgroup. -/
def ownsField (c : Core) (p : Place) : Bool := c.field.owner == some (p.w.ctx, p.wk)

/-- A pending IPATCH job. -/
def Job.isPatch (j : Job) : Bool :=
  match j.kind with
  | .ipatch _ _ _ _ => true
  | _ => false
/-- A pending IREST job. -/
def Job.isRest (j : Job) : Bool :=
  match j.kind with
  | .irest _ => true
  | _ => false

/-- An IREST job is pending (R344). -/
def restPending (c : Core) : Bool := c.jobs.any Job.isRest

/-- The field is given up: reset, its waiting ISTEPs complete, pending jobs' results discarded (R332). -/
def releaseField (s : State) (c : Nat) : State :=
  let x := core s c
  let s := x.field.waiters.foldl (fun s w => endAsync s w.1 none) s
  let s := (x.jobs.filter Job.isField).foldl (fun s j => endJob s c j.uid) s
  modField s c fun _ => Field.reset

/-! ## IPATCH (R337) -/

/-- The workgroup of the strand that runs block `uid`. -/
def wgOfBlk (s : State) (uid : Nat) : Option Nat :=
  (findBlk s uid).bind fun e => (placeOf s e.1).map fun p => p.2.wk

/-- IPATCH (R337). START on an unowned field reserves it for the workgroup, whichever of its blocks have done so already. -/
def execIpatch (w : Plain) (s : State) : Host.Outcome State Fault Refusal :=
  atSite s fun x =>
    let a := x.opnd 0
    let b := x.opnd 1
    let m := a.mask &&& b.mask
    let va := a.scalar64.toNat
    let v := b.scalar64.toNat
    let first := bitsOf v 0 9
    let count := bitsOf v 9 10
    let start := v.testBit 19
    x.perform s w m fun p =>
      let f := (core s x.core).field
      let go (s : State) : State := x.commitWith s w.ta w.tb (numTok 32 m 0) (.ipatch va first count start)
      if 2 ^ 20 ≤ v || count == 0 || 384 < first + count then x.fault s .blockFormat m x.b.addr
      else if va % 8 != 0 then x.fault s .misaligned m va
      else if ownsField (core s x.core) p then go s
      else if !start || f.owner.isSome then x.fault s .slotState m x.b.addr
      else if f.resv.all fun u => wgOfBlk s u == some p.wk then
        go (modField s x.core fun f => { f with resv := insertNat f.resv x.b.uid })
      else x.fault s .slotState m x.b.addr

/-- The field has its owner and the job enters the engines (R337). A field given up since the perform is claimed anew by START
alone, and never over another workgroup's reservation. -/
def commitIpatch (s : State) (c : Nat) (p : Place) (va first count : Nat) (start : Bool) (gate : List Nat) :
    Option Nat × State :=
  let f := (core s c).field
  let claims := f.owner.isNone && start && f.resv.all fun u => wgOfBlk s u == some p.wk
  if !claims && !ownsField (core s c) p then (none, s)
  else
    let s := modField s c fun f =>
      { f with owner := some (p.w.ctx, p.wk), resv := [], upTo := if f.owner.isSome then f.upTo else clkOf s c }
    let (u, s) := addJob s c p (.ipatch va first count start) ([⟨.virt p.w.ctx, va, va + 8 * count⟩], []) gate
    (some u, s)

/-- The shadow after a load of entries from `va`, the first at cell `c`: how far it went, and the address that stopped it
(R337). -/
def loadPatch (s : State) (core_ ctx va : Nat) : Nat → Nat → Field → Field × Option Nat
  | _, 0, f => (f, none)
  | c, n + 1, f =>
    match readJob s core_ ctx va 0 8 with
    | (_, some (_, o)) => ({ f with dirty := true, badCell := c }, some (va + o))
    | (bs, none) =>
      let e := BitVec.ofNat 64 (leAt bs 0 8)
      if patchOk e then
        loadPatch s core_ ctx (va + 8) (c + 1) n
          { f with shadow := store f.shadow c e 0, loaded := insertNat f.loaded c }
      else ({ f with dirty := true, badCell := c }, some va)

/-- PATCH_JOB: an IPATCH job loads and checks shadow entries, or stops dirty with a record, once no atomics hold a line of them
(R230, R337). -/
def execPatchJob (c id : Nat) (s : State) : Host.Outcome State Fault Refusal :=
  match (core s c).jobs.find? fun j => j.uid == id && j.engine.isSome with
  | none => .next s
  | some j => match j.kind with
    | .ipatch va first count start =>
      if readsHeld s c j.ctx va (8 * count) then .next s else
      let f := (core s c).field
      let f := if start then { f with shadow := [], loaded := [], dirty := false, badCell := 0x1FF } else f
      let s := engineSee s c j.ctx va (8 * count) false
      let (f, bad) := loadPatch s c j.ctx va first count f
      let s := modField s c fun _ => f
      let s := match bad with
        | some a => jobReport s c j .patchInvalid a
        | none => s
      .next (endJob s c id)
    | _ => .next s

/-! ## IRUN, IHALT, ISTEP (R338 to R340) -/

/-- The checks of IRUN in the order of R338's table. -/
def irunError (c : Core) (uid sel : Nat) : Option FaultCode :=
  let f := c.field
  let act := sel.testBit 4
  let masked := (List.range 4).filter fun d => sel.testBit d
  if act && f.doms.any (fun d => d.st == 1) then some .slotState
  else if act && f.shadowResv.isSome && f.shadowResv != some uid then some .slotState
  else if act && (c.jobs.any Job.isPatch || f.loaded.length != 384 || f.dirty) then some .patchInvalid
  else if !act && f.restFail then some .patchInvalid
  else if !act && masked.any (fun d => (f.dom d).st == 2) then some .incrementOverrun
  else if masked.any (fun d => (f.dom d).st == 0 && (f.dom d).pend != 0) then some .slotState
  else if restPending c then some .slotState
  else none

/-- IRUN (R338). -/
def execIrun (w : Plain) (s : State) : Host.Outcome State Fault Refusal :=
  atSite s fun x =>
    let (v, m) := x.sel w
    x.perform s w m fun p =>
      if !ownsField (core s x.core) p then x.fault s .slotState m x.b.addr
      else if 2 ^ 5 ≤ v then x.fault s .blockFormat m x.b.addr
      else match irunError (core s x.core) x.b.uid v with
        | some c => x.fault s c m x.b.addr
        | none =>
          let s := if v.testBit 4 then modField s x.core fun f => { f with shadowResv := some x.b.uid } else s
          x.commitWith s w.ta w.tb (numTok 32 m 0) (.irun (v % 16) (v.testBit 4))

/-- The activation of the shadow (R338). -/
def Field.activate (f : Field) : Field :=
  { f with
    live := f.shadow
    shadowResv := none
    res := f.res.filterMap fun e =>
      let r := e.2 % 2 ^ pW (get f.shadow e.1 0)
      if r == 0 then none else some (e.1, r)
    cnt := []
    dzl := []
    doms := f.doms.map fun d => { d with st := if d.st == 2 then 0 else d.st, steps := 0, pend := 0 }
    overCell := 0x1FF
    overInput := 7
    restFail := false
    ports := f.ports.map fun p => { p with word := 0, count := 0 } }

/-- A committed IRUN (R338). -/
def commitIrun (s : State) (c : Nat) (p : Place) (mask : Nat) (act : Bool) : State :=
  if !ownsField (core s c) p then s
  else
    let s := modField s c fun f =>
      let f := if act then f.activate else f
      { f with doms := f.doms.zipIdx.map fun e =>
          if mask.testBit e.2 && e.1.st == 0 then { e.1 with st := 1, phase := 0, due := 0, coming := false } else e.1 }
    settleWaiters s c

/-- IHALT (R339, R344). -/
def execIhalt (w : Plain) (s : State) : Host.Outcome State Fault Refusal :=
  atSite s fun x =>
    let (v, m) := x.sel w
    x.perform s w m fun p =>
      if !ownsField (core s x.core) p then x.fault s .slotState m x.b.addr
      else if 2 ^ 5 ≤ v then x.fault s .blockFormat m x.b.addr
      else if restPending (core s x.core) then x.fault s .slotState m x.b.addr
      else x.commitWith s w.ta w.tb (numTok 32 m 0) (.ihalt (v % 16) (v.testBit 4))

/-- A committed IHALT (R339). -/
def commitIhalt (s : State) (c : Nat) (p : Place) (mask : Nat) (release : Bool) : State :=
  if !ownsField (core s c) p then s
  else
    let s := modField s c fun f =>
      { f with doms := f.doms.zipIdx.map fun e =>
          if mask.testBit e.2 then { e.1 with st := 0, pend := 0, due := 0, coming := false } else e.1 }
    let s := settleWaiters s c
    if release then releaseField s c else s

/-- ISTEP (R340). -/
def execIstep (w : Plain) (s : State) : Host.Outcome State Fault Refusal :=
  atSite s fun x =>
    let (v, m) := x.sel w
    let d := v % 4
    let n := bitsOf v 8 32
    x.perform s w m fun p =>
      let f := (core s x.core).field
      if !ownsField (core s x.core) p then x.fault s .slotState m x.b.addr
      else if bitsOf v 2 6 != 0 || 2 ^ 40 ≤ v then x.fault s .blockFormat m x.b.addr
      else if (f.dom d).st == 1 then x.fault s .slotState m x.b.addr
      else if (f.dom d).st == 2 then x.fault s .incrementOverrun m x.b.addr
      else if restPending (core s x.core) || 2 ^ 32 ≤ (f.dom d).pend + n then x.fault s .slotState m x.b.addr
      else x.commitWith s w.ta w.tb (numTok 32 m 0) (.istep d n)

/-- The count is added to the domain's pending steps; the ISTEP is waited for until none is left, or a fault or IHALT has ended
the domain's steps (R340). -/
def commitIstep (s : State) (c : Nat) (p : Place) (d n : Nat) : Option Nat × State :=
  let f := (core s c).field
  if !ownsField (core s c) p || n == 0 then (none, s)
  else
    let s := modField s c fun f => f.modDom d fun x => { x with pend := min (x.pend + n) (2 ^ 32 - 1) }
    if (f.dom d).st == 2 then (none, s)
    else
      let (u, s) := fresh s
      (some u, modField s c fun f => { f with waiters := f.waiters ++ [(u, d)] })

/-! ## ISET, IGET, IOUT (R336, R341, R342) -/

/-- The low bits of ISET's operand b that an item of the class takes; the others are not read (R336). -/
def isetMask : Nat → Nat
  | 0 => 0xFFFF_FFFF
  | 1 => 0x7FFF_FFFF
  | 2 => 0x3F_FFFF
  | _ => 0xF1_FFFF

/-- ISET's value is in range for the item (R336, R341). -/
def isetOk (f : Field) (cls i v : Nat) : Bool :=
  match cls with
  | 1 => v < resLimit (f.entry i)
  | 2 => (List.range 5).all (fun k => bitsOf v (4 * k) 4 != 8) && bitsOf v 20 2 != 2
  | _ => true

/-- ISET (R341). -/
def execIset (w : Plain) (s : State) : Host.Outcome State Fault Refusal :=
  atSite s fun x =>
    let a := x.opnd 0
    let b := x.opnd 1
    let m := a.mask &&& b.mask
    let sel := a.scalar64.toNat
    let cls := bitsOf sel 12 4
    let i := sel % 2 ^ 9
    x.perform s w m fun p =>
      let f := (core s x.core).field
      let d := if cls == 8 then i else pDom (f.entry i)
      let v := b.scalar64.toNat &&& isetMask cls
      if !ownsField (core s x.core) p then x.fault s .slotState m x.b.addr
      else if bitsOf sel 9 3 != 0 || 2 ^ 16 ≤ sel then x.fault s .blockFormat m x.b.addr
      else if !((cls < 3 && i < 384) || (cls == 8 && i < 4)) || (f.dom d).st == 1 || restPending (core s x.core) then
        x.fault s .slotState m x.b.addr
      else if !isetOk f cls i v then x.fault s .blockFormat m x.b.addr
      else x.commitWith s w.ta w.tb (numTok 32 m 0) (.iset cls i (BitVec.ofNat 64 v))

/-- An increment from two bits (R324). -/
def incOf (n : Nat) : Int := if n == 1 then 1 else if n == 3 then -1 else 0

/-- The field with a cell's counters and dzl from the layout of CLASS 2 (R336). -/
def Field.setCounters (f : Field) (i v : Nat) : Field :=
  { f with
    cnt := (List.range 5).foldl (fun m k => store m (8 * i + k) (BitVec.ofNat 4 (bitsOf v (4 * k) 4)).toInt 0) f.cnt
    dzl := store f.dzl i (incOf (bitsOf v 20 2)) 0 }

/-- A committed ISET (R341). -/
def commitIset (s : State) (c : Nat) (p : Place) (cls i : Nat) (v : Word) : State :=
  if !ownsField (core s c) p then s
  else modField s c fun f =>
    match cls with
    | 0 => { f with y := store f.y i (v.setWidth 32) 0 }
    | 1 => { f with res := store f.res i (v.toNat % 2 ^ 31) 0 }
    | 2 => f.setCounters i v.toNat
    | _ => f.modDom i fun d =>
        { d with div := v.toNat % 2 ^ 16, src := v.getLsbD 16, evt := bitsOf v.toNat 20 4 }

/-- A cell's counters and dzl in the layout of CLASS 2 (R336). -/
def Field.counterWord (f : Field) (i : Nat) : Nat :=
  ((List.range 5).map fun k => (BitVec.ofInt 4 (f.counter i k)).toNat * 2 ^ (4 * k)).sum +
    incBits (get f.dzl i 0) * 2 ^ 20

/-- The word of a domain's configuration (R336). -/
def Domain.configWord (d : Domain) : Nat := d.div + (if d.src then 2 ^ 16 else 0) + d.evt * 2 ^ 20

/-- The word of a port (R336). -/
def Port.word_ (p : Port) : Nat :=
  p.cell + (if p.en then 2 ^ 15 else 0) + p.count * 2 ^ 16 + p.queue.length * 2 ^ 24 + p.word.toNat * 2 ^ 32

/-- The field status (R336). -/
def fieldStatus (c : Core) (p : Place) : Nat :=
  let f := c.field
  let own := match f.owner with
    | none => 0
    | some o => if o == (p.w.ctx, p.wk) then 1 else 2
  let bit (b : Bool) (n : Nat) : Nat := if b then 2 ^ n else 0
  own + bit (f.loaded.length == 384) 2 + bit f.dirty 3 + bit f.restFail 4 + bit f.shadowResv.isSome 5 +
    bit (c.jobs.any Job.isField) 6 + f.badCell * 2 ^ 16 + f.overCell * 2 ^ 32 + f.overInput * 2 ^ 41

/-- IGET's item, if the table has it (R336). -/
def igetItem (c : Core) (p : Place) (cls i : Nat) : Option Nat :=
  let f := c.field
  match cls with
  | 0 => if i < 384 then some (BitVec.ofInt 64 (f.yOf i)).toNat else none
  | 1 => if i < 384 then some (get f.res i 0) else none
  | 2 => if i < 384 then some (f.counterWord i) else none
  | 3 => if i < 384 then some (f.entry i).toNat else none
  | 4 => if i < 384 then some (if f.loaded.contains i then (get f.shadow i 0).toNat else 0) else none
  | 8 => if i < 4 then some (f.dom i).configWord else none
  | 9 => if i < 4 then some (f.dom i).steps.toNat else none
  | 10 => if i < 4 then some ((f.dom i).st + (f.dom i).missed * 2 ^ 32) else none
  | 11 => if i < 8 then some (f.ports.getD i Port.reset).word_ else none
  | 12 => if i < 4 then some (f.dom i).pend else none
  | 15 => if i == 0 then some (fieldStatus c p) else none
  | _ => none

/-- IGET (R341). -/
def execIget (w : Plain) (s : State) : Host.Outcome State Fault Refusal :=
  atSite s fun x =>
    let (v, m) := x.sel w
    let cls := bitsOf v 12 4
    x.perform s w m fun p =>
      let c := core s x.core
      if bitsOf v 9 3 != 0 || 2 ^ 16 ≤ v then x.fault s .blockFormat m x.b.addr
      else match igetItem c p cls (v % 2 ^ 9) with
        | none => x.fault s .slotState m x.b.addr
        | some n =>
          if cls == 15 || ownsField c p then x.yield s w.ta w.tb (numTok 64 m n) else x.fault s .slotState m x.b.addr

/-- IOUT (R342). -/
def execIout (w : Plain) (s : State) : Host.Outcome State Fault Refusal :=
  atSite s fun x =>
    let a := x.opnd 0
    let b := x.opnd 1
    let m := a.mask &&& b.mask
    let n := a.scalar64.toNat
    let v := b.scalar64.toNat
    let cell := v % 2 ^ 9
    x.perform s w m fun p =>
      let f := (core s x.core).field
      let q := f.ports.getD n Port.reset
      let halted (c : Nat) : Bool := (f.dom (pDom (f.entry c))).st == 0
      if !ownsField (core s x.core) p then x.fault s .slotState m x.b.addr
      else if 8 ≤ n || 2 ^ 10 ≤ v || 384 ≤ cell then x.fault s .blockFormat m x.b.addr
      else if (q.en && !halted q.cell) || !halted cell || restPending (core s x.core) then
        x.fault s .slotState m x.b.addr
      else x.commitWith s w.ta w.tb (numTok 32 m 0) (.iout n cell (v.testBit 9))

/-- A committed IOUT (R342). -/
def commitIout (s : State) (c : Nat) (p : Place) (n cell : Nat) (en : Bool) : State :=
  if !ownsField (core s c) p then s
  else modField s c fun f =>
    { f with ports := f.ports.modify n fun q => { q with cell := cell, en := en, word := 0, count := 0 } }

/-! ## ISAVE and IREST (R343, R344) -/

/-- The live table's 3,072 bytes, cell 0 first. -/
def Field.liveBytes (f : Field) : List Byte := (List.range 384).flatMap fun c => leBytes 8 (f.entry c).toNat

/-- The 32 bytes of a domain in the image (R343). -/
def Domain.image (d : Domain) : List Byte :=
  leBytes 1 d.st ++ leBytes 1 ((if d.src then 1 else 0) + 16 * d.evt) ++ leBytes 2 d.div ++ leBytes 4 d.pend ++
    leBytes 8 d.steps.toNat ++ leBytes 2 d.missed ++ leBytes 2 d.phase ++ leBytes 12 0

/-- The 8 bytes of a port in the image (R343). -/
def Port.image (p : Port) : List Byte :=
  leBytes 2 (p.cell + if p.en then 2 ^ 15 else 0) ++ leBytes 1 p.count ++ leBytes 1 p.queue.length ++
    leBytes 4 p.word.toNat

/-- The 16 bytes of a cell in the image (R343). -/
def Field.cellImage (f : Field) (c : Nat) : List Byte :=
  leBytes 4 (get f.y c 0).toNat ++ leBytes 4 (get f.res c 0) ++ leBytes 4 (f.counterWord c) ++ leBytes 4 0

/-- The 256 bytes of a port queue in the image (R343). -/
def Port.queueImage (p : Port) : List Byte :=
  ((p.queue.flatMap fun (i : Item) => leBytes 4 i.val.toNat) ++ List.replicate 256 0).take 256

/-- The image of a field, 8,448 bytes (R343). -/
def Field.image (f : Field) : List Byte :=
  leBytes 4 (crc32 f.liveBytes).toNat ++ leBytes 4 0 ++ f.doms.flatMap Domain.image ++ f.ports.flatMap Port.image ++
    leBytes 8 (f.overCell + f.overInput * 2 ^ 9) ++ leBytes 48 0 ++ ((List.range 384).flatMap f.cellImage) ++
    f.ports.flatMap Port.queueImage

/-- ISAVE (R344). -/
def execIsave (w : Plain) (s : State) : Host.Outcome State Fault Refusal :=
  atSite s fun x =>
    let a := x.opnd 0
    let va := a.scalar64.toNat
    x.perform s w a.mask fun p =>
      if !ownsField (core s x.core) p then x.fault s .slotState a.mask x.b.addr
      else if va % 128 != 0 then x.fault s .misaligned a.mask va
      else x.commitWith s w.ta w.tb (numTok 32 a.mask 0) (.isave va)

/-- The field is captured at the commit and the job enters the engines; it bears the slot and tag of the field's owner as it is
then (R344). -/
def commitIsave (s : State) (c : Nat) (p : Place) (va : Nat) (gate : List Nat) : Option Nat × State :=
  if !ownsField (core s c) p then (none, s)
  else
    let f := (core s c).field
    let (_, slot, tag) := fieldOwner s c f
    let (u, s) := addJob s c p (.isave va f.image) ([], [⟨.virt p.w.ctx, va, va + 8448⟩]) gate
    (some u, modCore s c fun x =>
      { x with jobs := x.jobs.map fun j => if j.uid = u then { j with slot := slot, tag := tag } else j })

/-- ISAVE_JOB: the image is written granule by granule, up to the first that cannot be; a record then names the field's owner
(R344). -/
def execIsaveJob (c id : Nat) (s : State) : Host.Outcome State Fault Refusal :=
  match (core s c).jobs.find? fun j => j.uid == id && j.engine.isSome with
  | none => .next s
  | some j => match j.kind with
    | .isave va img =>
      if writesBlocked s c j.ctx va (va + 8448) then .next s
      else
        let r := transfer (fun s _ _ => s) (fun _ o => .ok ((img.getD o 0).toNat, false))
          (fun s o bs p => engineWrite s c j.ctx (va + o) bs p) id (va + ·) va 8448 134 ⟨s, 0, none, none, none⟩
        let s := match r.bad with
          | some (f, a) => jobReport r.s c j f a
          | none => r.s
        .next (endJob s c id)
    | _ => .next s

/-- IREST (R344). -/
def execIrest (w : Plain) (s : State) : Host.Outcome State Fault Refusal :=
  atSite s fun x =>
    let a := x.opnd 0
    let va := a.scalar64.toNat
    x.perform s w a.mask fun p =>
      let c := core s x.core
      if !ownsField c p || c.field.doms.any (fun d => d.st == 1) || restPending c then
        x.fault s .slotState a.mask x.b.addr
      else if va % 128 != 0 then x.fault s .misaligned a.mask va
      else x.commitWith s w.ta w.tb (numTok 32 a.mask 0) (.irest va)

/-- The job enters the engines (R344). -/
def commitIrest (s : State) (c : Nat) (p : Place) (va : Nat) (gate : List Nat) : Option Nat × State :=
  if !ownsField (core s c) p then (none, s)
  else
    let (u, s) := addJob s c p (.irest va) ([⟨.virt p.w.ctx, va, va + 8448⟩], []) gate
    (some u, s)

/-- A domain's 32 bytes are in range (R344). -/
def domainOk (bs : List Nat) (o : Nat) : Bool :=
  leAt bs o 1 < 3 && leAt bs (o + 1) 1 &&& 0xF1 == leAt bs (o + 1) 1 && leAt bs (o + 20) 12 == 0

/-- A domain from its 32 bytes (R343). -/
def domainOf (bs : List Nat) (o : Nat) : Domain :=
  ⟨(leAt bs (o + 1) 1).testBit 0, leAt bs (o + 1) 1 / 16, leAt bs (o + 2) 2, leAt bs o 1,
   BitVec.ofNat 64 (leAt bs (o + 8) 8), leAt bs (o + 4) 4, leAt bs (o + 18) 2, leAt bs (o + 16) 2, 0, false⟩

/-- A port's 8 bytes and its queue's 256 are in range (R344). -/
def portOk (bs : List Nat) (n : Nat) : Bool :=
  let o := 0x88 + 8 * n
  let q := 0x1900 + 256 * n
  bitsOf (leAt bs o 2) 9 6 == 0 && leAt bs (o + 2) 1 < 16 && leAt bs (o + 3) 1 ≤ 64 &&
    ((bs.drop (q + 4 * leAt bs (o + 3) 1)).take (256 - 4 * leAt bs (o + 3) 1)).all (· == 0)

/-- A port from the image (R343). -/
def portOf (bs : List Nat) (n : Nat) : Port :=
  let o := 0x88 + 8 * n
  ⟨leAt bs o 2 % 2 ^ 9, (leAt bs o 2).testBit 15, BitVec.ofNat 32 (leAt bs (o + 4) 4), leAt bs (o + 2) 1,
   (List.range (leAt bs (o + 3) 1)).map fun k => ⟨BitVec.ofNat 128 (leAt bs (0x1900 + 256 * n + 4 * k) 4), none⟩⟩

/-- A cell's 16 bytes are in range under the live patch (R344). -/
def cellOk (f : Field) (bs : List Nat) (c : Nat) : Bool :=
  let o := 0x100 + 16 * c
  let v := leAt bs (o + 8) 4
  leAt bs (o + 4) 4 < 2 ^ pW (f.entry c) && v < 2 ^ 22 && (List.range 5).all (fun k => bitsOf v (4 * k) 4 != 8) &&
    bitsOf v 20 2 != 2 && leAt bs (o + 12) 4 == 0

/-- The image passes the checks of R344. -/
def imageOk (f : Field) (bs : List Nat) : Bool :=
  leAt bs 0 4 == (crc32 f.liveBytes).toNat && leAt bs 4 4 == 0 && (List.range 4).all (fun d => domainOk bs (8 + 32 * d)) &&
    (List.range 8).all (portOk bs) && leAt bs 0xC8 8 < 2 ^ 12 && leAt bs 0xD0 48 == 0 && (List.range 384).all (cellOk f bs)

/-- The field with an image applied (R344). -/
def Field.restore (f : Field) (bs : List Nat) : Field :=
  let f := (List.range 384).foldl (fun (f : Field) c => f.setCounters c (leAt bs (0x108 + 16 * c) 4)) { f with cnt := [], dzl := [] }
  { f with
    y := (List.range 384).foldl (fun m c => store m c (BitVec.ofNat 32 (leAt bs (0x100 + 16 * c) 4)) 0) []
    res := (List.range 384).foldl (fun m c => store m c (leAt bs (0x104 + 16 * c) 4) 0) []
    doms := (List.range 4).map fun d => domainOf bs (8 + 32 * d)
    ports := (List.range 8).map (portOf bs)
    overCell := leAt bs 0xC8 8 % 2 ^ 9
    overInput := bitsOf (leAt bs 0xC8 8) 9 3
    restFail := false }

/-- IREST_JOB: the image is checked and applied in one clock, or RESTFAIL is set with a record, once no atomics hold a line of it
(R230, R344). -/
def execIrestJob (c id : Nat) (s : State) : Host.Outcome State Fault Refusal :=
  match (core s c).jobs.find? fun j => j.uid == id && j.engine.isSome with
  | none => .next s
  | some j => match j.kind with
    | .irest va =>
      if readsHeld s c j.ctx va 8448 then .next s else
      let bad (a : Nat) : State :=
        let s := modField s c fun f => { f with restFail := true }
        endJob (jobReport s c j .patchInvalid a) c id
      let s := engineSee s c j.ctx va 8448 false
      match readJob s c j.ctx va 0 8448 with
      | (_, some (_, o)) => .next (bad (va + o))
      | (bs, none) =>
        if imageOk (core s c).field bs then
          .next (settleWaiters (endJob (modField s c fun f => f.restore bs) c id) c)
        else .next (bad va)
    | _ => .next s

end Sys2Proof.Machine
end

