-- ==== Sys2Proof/Machine/Crossbar.lean ====
section
/-! DEFINITION. The event crossbar (19_fabric: R358 to R361, R366 to R368). -/

namespace Sys2Proof.Machine

/-- The state with a core's crossbar changed. -/
def modXbar (s : State) (c : Nat) (f : Xbar → Xbar) : State := modCore s c fun x => { x with xbar := f x.xbar }

/-- The crossbar belongs to the strand's workgroup. -/
def ownsXbar (c : Core) (p : Place) : Bool := c.xbar.owner == some (p.w.ctx, p.wk)

/-! ## One clock (R359) -/

/-- The levels of the counters: their AT bits (R358). -/
def atLevels (b : Xbar) : BitVec 48 :=
  b.counters.zipIdx.foldl (fun m e => if e.1.atv then m ||| ((1 : BitVec 48) <<< (32 + e.2)) else m) 0

/-- A running timer's next expiry. -/
def timerDue (t : Nat × Nat) : Option Nat := if t.1 = 0 then none else some (t.2 + 1000 * t.1)

/-- The crossbar has still to take a die clock that is over, the core's field has taken it, and the terms of the clock before have
acted (R359). -/
def xbarBehind (s : State) (c : Nat) : Bool :=
  let x := (core s c).xbar
  x.owner.isSome && x.now.isNone && x.upTo < clkOf s c && !fieldBehind s c

/-- The signals of the crossbar's next clock: its pulses, the levels of the receive queues as it ends, and the AT bits as they stood
in it (R358, R359; log entry 28). -/
def clockSignals (c : Core) : BitVec 48 := get c.xbar.clocks c.xbar.upTo 0 ||| queueLevels c ||| atLevels c.xbar

/-- A counter after a clock with signals `g`: it counts, saturating; at the threshold MODE 0 sets AT until a clear, MODE 1
makes AT true for one clock and returns to 0 (R359). -/
def XCounter.count (x : XCounter) (g : BitVec 48) : XCounter :=
  let v := if g.getLsbD x.sel then min (x.value + 1) 0xFFFF else x.value
  if x.thr ≤ v then { x with value := if x.mode then 0 else v, atv := true }
  else { x with value := v, atv := x.atv && !x.mode }

/-- CROSSBAR_THRESHOLD: the counters take the signals of the next clock, every clock once (R359). -/
def execCrossbarThreshold (c : Nat) (s : State) : Host.Outcome State Fault Refusal :=
  if !xbarBehind s c then .next s
  else
    let g := clockSignals (core s c)
    .next (modXbar s c fun b =>
      { b with counters := b.counters.map fun n => n.count g, clocks := del b.clocks b.upTo, now := some g, upTo := b.upTo + 1 })

/-- A product is true: not empty, and every signal it selects is true (R359). -/
def product (p g : BitVec 48) : Bool := p != 0 && p &&& g == p

/-- Term `t` fires on signals `g`. -/
def XTerm.fires_ (t : XTerm) (g : BitVec 48) : Bool := t.arm != 0 && (product t.p0 g || product t.p1 g)

/-- Output `o` is true in the present clock at a domain that it drives (R330, R360). -/
def triggerDomain (f : Field) (o d : Nat) : Field :=
  let x := f.dom d
  if x.st == 1 && x.src && x.evt == o then f.modDom d fun x => { x with coming := true } else f

/-- Every EVARM.wait on output `o` of the core is served with the fire count (R367). -/
def serveWaits (s : State) (c o n : Nat) : State :=
  let give (b : Blk) (e : Nat × Wait) : Blk :=
    match e.2 with
    | .evarm out _ m =>
      if out == o then
        let (ta, tb) := targetsOf b e.1
        b.finish e.1 ta tb (numTok 32 m n) (numTok 32 m n)
      else b
    | _ => b
  { s with strands := s.strands.map fun e =>
      if coreOf e.1 = c then (e.1, { e.2 with blocks := e.2.blocks.map fun b => b.waits.foldl give b }) else e }

/-- A firing of the copy gate's output: the oldest ready card starts, after what stands before it and needs no firing
(R284, R360). -/
def gateStart (s : State) (c : Nat) : State :=
  let free (s : State) : State := startJob s c fun j => !gated (core s c) j
  startJob (free (free s)) c fun j => j.card?.isSome

/-- Output `o` is true for the present clock: its domains, the copy gate, the waits (R360). -/
def outputPulse (s : State) (c o n : Nat) : State :=
  let s := modField s c fun f => (List.range 4).foldl (fun f d => triggerDomain f o d) f
  let x := (core s c).xbar
  let s := if x.gateEn && x.gateOut == o then gateStart s c else s
  serveWaits s c o n

/-- TERM_FIRE: the armed terms of the clock just counted fire: fire counts, clears, ONCE disarms; their outputs are true in the
clock after it (R359, R360). -/
def execTermFire (c : Nat) (s : State) : Host.Outcome State Fault Refusal :=
  let x := (core s c).xbar
  match x.now with
  | none => .next s
  | some g =>
    let firing := x.terms.zipIdx.filter fun e => e.1.fires_ g
    let clear := firing.foldl (fun m e => m ||| e.1.clear) (0 : BitVec 16)
    let s := modXbar s c fun b =>
      { b with
        now := none
        counters := b.counters.zipIdx.map fun e => if clear.getLsbD e.2 then { e.1 with value := 0, atv := false } else e.1
        terms := b.terms.map fun t =>
          if t.fires_ g then { t with fires := (t.fires + 1) % 2 ^ 16, arm := if t.arm == 1 then 0 else t.arm } else t }
    .next (firing.foldl (fun s e => outputPulse s c e.2 ((e.1.fires + 1) % 2 ^ 16)) s)

/-- CROSSBAR_TIMER_EXPIRY: a running timer's period is over: its signal in the present clock, and the next period (R358). -/
def execCrossbarTimerExpiry (c n : Nat) (s : State) : Host.Outcome State Fault Refusal :=
  let x := (core s c).xbar
  let t := x.timers.getD n (0, 0)
  match timerDue t with
  | some due =>
    if x.owner.isNone || s.time.toNat < due then .next s
    else .next (pulse (modXbar s c fun b => { b with timers := b.timers.set n (t.1, due) }) c (24 + n))
  | none => .next s

/-- EVARM_WAIT_TIMEOUT: a wait held past the barrier timeout faults BAR_TIMEOUT (R367). -/
def execEvarmWaitTimeout (c e i : Nat) (s : State) : Host.Outcome State Fault Refusal :=
  let key := strandKey c e
  let late (b : Blk) : Option Mask :=
    match find b.waits i with
    | some (.evarm _ since m) => if since + s.barrierLimit ≤ s.time.toNat then some m else none
    | _ => none
  match (find s.strands key).bind fun st => st.blocks.findSome? fun b => (late b).map fun m => (b.uid, m) with
  | some (u, m) => .next (modBlk s key u fun b =>
      { b.raise (clkOf s c) ⟨.barTimeout, i, m, b.addr, 0⟩ with waits := del b.waits i })
  | none => .next s

/-! ## EVCFG, EVARM, EVFIRE (R366 to R368) -/

/-- An item and value of EVCFG are in range (R366). -/
def evcfgOk (cls i v : Nat) : Bool :=
  match cls with
  | 0 => bitsOf v 0 6 < 48 && bitsOf v 7 9 == 0 && bitsOf v 16 16 != 0 && v < 2 ^ 32
  | 1 | 2 => v < 2 ^ 48
  | 3 => v < 2 ^ 16
  | 4 => i < 4 && v < 2 ^ 16
  | 5 => i == 0 && v < 2 ^ 5
  | 15 => i == 0
  | _ => false

/-- EVCFG (R366). On an unowned crossbar it reserves it for the workgroup, whichever of its blocks have done so already. -/
def execEvcfg (w : Plain) (s : State) : Host.Outcome State Fault Refusal :=
  atSite s fun x =>
    let a := x.opnd 0
    let b := x.opnd 1
    let m := a.mask &&& b.mask
    let sel := a.scalar64.toNat
    let cls := bitsOf sel 12 4
    let i := sel % 16
    let v := b.scalar64
    x.perform s w m fun p =>
      let o := (core s x.core).xbar
      let go (s : State) : State := x.commitWith s w.ta w.tb (numTok 32 m 0) (.evcfg cls i v)
      if bitsOf sel 4 8 != 0 || 2 ^ 16 ≤ sel || !evcfgOk cls i v.toNat then x.fault s .blockFormat m x.b.addr
      else if ownsXbar (core s x.core) p then go s
      else if o.owner.isSome then x.fault s .slotState m x.b.addr
      else if o.resv.all fun u => wgOfBlk s u == some p.wk then
        go (if cls == 15 then s else modXbar s x.core fun b => { b with resv := insertNat b.resv x.b.uid })
      else x.fault s .slotState m x.b.addr

/-- The item written (R366). -/
def Xbar.config (b : Xbar) (cls i v now : Nat) : Xbar :=
  match cls with
  | 0 => { b with counters := b.counters.set i ⟨0, bitsOf v 16 16, bitsOf v 0 6, v.testBit 6, false⟩ }
  | 1 => { b with terms := b.terms.modify i fun t => { t with p0 := BitVec.ofNat 48 v } }
  | 2 => { b with terms := b.terms.modify i fun t => { t with p1 := BitVec.ofNat 48 v } }
  | 3 => { b with terms := b.terms.modify i fun t => { t with clear := BitVec.ofNat 16 v } }
  | 4 => { b with timers := b.timers.set i (v % 2 ^ 16, now) }
  | 5 => { b with gateOut := v % 16, gateEn := v.testBit 4 }
  | _ => b

/-- A committed EVCFG: the workgroup owns the crossbar, the item is written, or the crossbar is released (R360, R366). A crossbar
given up since the perform is claimed anew, but never over another workgroup's reservation. -/
def commitEvcfg (s : State) (c : Nat) (p : Place) (cls i : Nat) (v : Word) : State :=
  let x := (core s c).xbar
  let o := x.owner
  let claims := o.isNone && x.resv.all fun u => wgOfBlk s u == some p.wk
  if !claims && !ownsXbar (core s c) p then s
  else if cls == 15 then (if o.isSome then modXbar s c fun _ => Xbar.reset else s)
  else modXbar s c fun b =>
    { (b.config cls i v.toNat s.time.toNat) with
      owner := some (p.w.ctx, p.wk), resv := [], upTo := if o.isSome then b.upTo else clkOf s c }

/-- EVARM.arm (R367). -/
def execEvarmArm (w : Plain) (s : State) : Host.Outcome State Fault Refusal :=
  atSite s fun x =>
    let (v, m) := x.sel w
    x.perform s w m fun p =>
      if 2 ^ 6 ≤ v || bitsOf v 4 2 == 3 then x.fault s .blockFormat m x.b.addr
      else if !ownsXbar (core s x.core) p then x.fault s .slotState m x.b.addr
      else x.commitWith s w.ta w.tb (numTok 32 m 0) (.evarm (v % 16) (bitsOf v 4 2))

/-- A committed EVARM.arm (R367). -/
def commitEvarm (s : State) (c : Nat) (p : Place) (t arm : Nat) : State :=
  if ownsXbar (core s c) p then modXbar s c fun b => { b with terms := b.terms.modify t fun x => { x with arm := arm } } else s

/-- EVARM.wait holds until its output is next true (R367). -/
def execEvarmWait (w : Plain) (s : State) : Host.Outcome State Fault Refusal :=
  atSite s fun x =>
    let (v, m) := x.sel w
    x.perform s w m fun p =>
      if 2 ^ 4 ≤ v then x.fault s .blockFormat m x.b.addr
      else if !ownsXbar (core s x.core) p then x.fault s .slotState m x.b.addr
      else x.mod s fun b => { b.fire x.i with waits := put b.waits x.i (.evarm v s.time.toNat m) }

/-- EVFIRE (R368). -/
def execEvfire (w : Plain) (s : State) : Host.Outcome State Fault Refusal :=
  atSite s fun x =>
    let (v, m) := x.sel w
    x.perform s w m fun p =>
      if 4 ≤ v then x.fault s .blockFormat m x.b.addr
      else if !ownsXbar (core s x.core) p then x.fault s .slotState m x.b.addr
      else x.commitWith s w.ta w.tb (numTok 32 m 0) (.evfire v)

/-- The first clock, from the present one on, in which no EVFIRE input is true; a block has at most 64 EVFIREs. -/
def evfireClock (s : State) (c : Nat) : Nat :=
  let k := clkOf s c
  k + ((List.range 64).find? fun i => bitsOf (get (core s c).xbar.clocks (k + i) 0).toNat 28 4 == 0).getD 64

/-- A committed EVFIRE pulses its input; several of one block pulse in successive clocks (R368). -/
def commitEvfire (s : State) (c : Nat) (p : Place) (n : Nat) : State :=
  if ownsXbar (core s c) p then pulsesAt s c (evfireClock s c) ((1 : BitVec 48) <<< (28 + n)) else s

end Sys2Proof.Machine
end

