-- ==== Sys2Proof/Machine/Counters.lean ====
section
/-! DEFINITION. Counters, the time base, energy and the damper's window (20_counters: R369 to R376). -/

namespace Sys2Proof.Machine

/-! ## Management requests (R404) -/

/-- The package is powered and its firmware runs (R398). -/
def hostAlive (s : State) : Bool := s.boot.powered && s.boot.running

/-- A management request's answer: 0 OK, 1 BUSY, 2 INVALID, 3 DENIED (R404). -/
def reply (s : State) (request status : Nat) : State := { s with out := s.out ++ [.reply request status] }

/-- An answer leaves the device (R403): of SPDM (0), PLDM (1), the test results of diagnostic service mode (2), or a split die's
report over I3C (3, R408). -/
def answer (s : State) (standard item value : Nat) : State := { s with out := s.out ++ [.answer standard item value] }

/-- A message to a package whose firmware does not run: a hob die elected master answers it with the test results, one bit a die;
no other state of the package answers (R399, R403). -/
def diagnose (s : State) : State :=
  match s.boot.master with
  | some m =>
    if s.boot.powered && m != 0 then
      answer s 2 m (s.boot.passed.zipIdx.foldl (fun n e => if e.1 then n + 2 ^ e.2 else n) 0) else s
  | none => s

/-! ## Values (R371) -/

/-- An energy counter: die 0 hearth, 1 to 4 hob; rail 15 is the sum of rails 0 to 3 (R371). -/
def energyOf (s : State) (d r : Nat) : Word :=
  if r = 15 then (List.range 4).foldl (fun v k => v + get s.energy (16 * d + k) 0) 0 else get s.energy (16 * d + r) 0

/-- The word of a crossbar counter (R371). -/
def XCounter.word (x : XCounter) : Nat :=
  x.value + (if x.atv then 2 ^ 16 else 0) + x.thr * 2 ^ 32 + x.sel * 2 ^ 48 + (if x.mode then 2 ^ 54 else 0)

/-- The counter that a selector names, read for a workgroup on core `c`; none outside R371's table. -/
def counterValue (s : State) (c : Nat) (p : Place) (sel : Nat) : Option Word :=
  let cls := bitsOf sel 8 4
  let i := sel % 256
  let x := core s c
  let d := die s (dieOf c)
  let word (v : BitVec 32) : Word := v.setWidth 64
  if 2 ^ 12 ≤ sel then none
  else match cls with
    | 0 => if i = 0 then some d.sample else none
    | 1 => if i = 0 then some (coreClk s c) else if i < 8 then some (x.perf.getD i 0) else none
    | 2 =>
      if i = 0 then some (word x.sat) else if i = 1 then some (word x.corr)
      else if 16 ≤ i && i < 32 then some (word (get x.lost (i - 16) 0)) else none
    | 3 => if i < 5 then some (word (d.counters.getD i 0)) else none
    | 4 => if i / 16 < 5 && (i % 16 < 4 || i % 16 = 15) then some (energyOf s (i / 16) (i % 16)) else none
    | 5 =>
      if 128 ≤ i then none
      else
        let h := get d.heat (i / 2) ⟨0, 0, 0, 0⟩
        some (word (if i % 2 = 0 then h.delivered else h.starve))
    | 6 =>
      let own := ownsXbar x p
      if i < 16 then some (if own then BitVec.ofNat 64 (x.xbar.counters.getD i XCounter.reset).word else 0)
      else if i < 32 then
        let t := x.xbar.terms.getD (i - 16) XTerm.reset
        some (if own then BitVec.ofNat 64 (t.fires + t.arm * 2 ^ 16) else 0)
      else none
    | _ => none

/-- CNTRD (R371, R376). -/
def execCntrd (w : Plain) (s : State) : Host.Outcome State Fault Refusal :=
  atSite s fun x =>
    let (v, m) := x.sel w
    x.perform s w m fun p =>
      match counterValue s x.core p v with
      | some n => x.yield s w.ta w.tb (numTok 64 m n.toNat)
      | none => x.fault s .blockFormat m x.b.addr

/-- CNTSET (R376). -/
def execCntset (w : Plain) (s : State) : Host.Outcome State Fault Refusal :=
  atSite s fun x =>
    let a := x.opnd 0
    let b := x.opnd 1
    let m := a.mask &&& b.mask
    let v := a.scalar64.toNat
    let cls := bitsOf v 8 4
    x.perform s w m fun p =>
      if (counterValue s x.core p v).isNone then x.fault s .blockFormat m x.b.addr
      else if cls = 1 || cls = 2 || ((cls = 3 || cls = 5) && b.scalar64 = 0) then
        x.commitWith s w.ta w.tb (numTok 64 m 0) (.cntset cls (v % 256) b.scalar64)
      else x.fault s .accessViolation m x.b.addr

/-- A committed CNTSET; CLK goes on from the value set (R376). -/
def commitCntset (s : State) (c cls i : Nat) (v : Word) : State :=
  match cls with
  | 1 =>
    let old := (core s c).perf.getD 0 0
    let v := if i = 0 then v - (coreClk s c - old) else v
    modCore s c fun x => { x with perf := x.perf.set i v }
  | 2 => modCore s c fun x =>
      if i = 0 then { x with sat := v.setWidth 32 }
      else if i = 1 then { x with corr := v.setWidth 32 }
      else { x with lost := store x.lost (i - 16) (v.setWidth 32) 0 }
  | 3 => modDie s (dieOf c) fun d => { d with counters := d.counters.set i 0 }
  | 5 => modDie s (dieOf c) fun d =>
      { d with heat := edit d.heat (i / 2) fun h => if i % 2 = 0 then { h with delivered := 0 } else { h with starve := 0 } }
  | _ => s

/-- TIME: the time base and CLK as its block fired, of one clock (R131, R376). -/
def execTime (w : Plain) (s : State) : Host.Outcome State Fault Refusal :=
  atSite s fun x => x.mod s fun b =>
    b.finish x.i w.ta w.tb (numTok 64 b.mask b.time) (numTok 64 b.mask b.clk.toNat)

/-! ## The damper (R373, R374) -/

/-- A launch's corrected estimate for one workgroup (R373). -/
def estimate (l : Launch) : Nat := (l.energy * l.corr + 255) / 256

/-- An amount fits in the current window (R374). -/
def windowFits (d : Damper) (n : Nat) : Bool := d.admitted + d.reserved + d.carry + n ≤ d.budget.toNat

/-- A workgroup of a launch may be admitted now (R374). -/
def admits (d : Damper) (n : Nat) : Bool := windowFits d n && d.measured < d.budget.toNat

/-- ENRD's value (R376). -/
def damperValue (s : State) (p : Place) (n : Nat) : Option Nat :=
  let d := s.damper
  match n with
  | 0 => some d.budget.toNat
  | 1 => some d.admitted
  | 2 => some d.measured
  | 3 => some d.reserved
  | 4 => some d.seq.toNat
  | 5 => some d.carry
  | 6 => some (estimate p.l)
  | _ => none

/-- ENRD (R376). -/
def execEnrd (w : Plain) (s : State) : Host.Outcome State Fault Refusal :=
  atSite s fun x =>
    let (v, m) := x.sel w
    x.perform s w m fun p =>
      match damperValue s p v with
      | some n => x.yield s w.ta w.tb (numTok 64 m n)
      | none => x.fault s .blockFormat m x.b.addr

/-- ENRSV (R376). -/
def execEnrsv (w : Plain) (s : State) : Host.Outcome State Fault Refusal :=
  atSite s fun x =>
    let a := x.opnd 0
    let n := a.scalar64.toNat
    x.perform s w a.mask fun _ =>
      if s.damper.budget.toNat < n then x.fault s .energyDenied a.mask x.b.addr
      else x.commitWith s w.ta w.tb (numTok 64 a.mask 0) (.enrsv n)

/-- A committed ENRSV: granted in this window, or a claim on the next that the strand waits for (R376). -/
def commitEnrsv (s : State) (n : Nat) : Option Nat × State :=
  let d := s.damper
  if n == 0 then (none, s)
  else if windowFits d n then (none, { s with damper := { d with reserved := d.reserved + n } })
  else
    let (u, s) := fresh s
    (some u, { s with damper := { s.damper with claims := s.damper.claims ++ [⟨none, u, n⟩] } })

/-- One claim on the new window: granted, or kept for the next, ahead of later claims; a CORES launch's grant admits it whole,
in that window, by the test of an admission (R50, R374). -/
def applyClaim (s : State) (c : Claim) : State :=
  let d := s.damper
  if !(if c.launch.isSome then admits d c.amount else windowFits d c.amount) then
    { s with damper := { d with claims := d.claims ++ [c] } }
  else match c.launch with
    | some l => modLaunch { s with damper := { d with admitted := d.admitted + c.amount } } l fun l => { l with granted := some d.seq }
    | none => endAsync { s with damper := { d with reserved := d.reserved + c.amount } } c.async none

/-- Firmware's report to the host of the heat pairs that have a window (R372). -/
def heatReport (s : State) : List Obs :=
  s.dies.zipIdx.flatMap fun d => (d.1.heat.filter fun h => h.2.size != 0).map fun h =>
    .heat d.2 h.1 h.2.delivered.toNat h.2.starve.toNat

/-- DAMPER_WINDOW_START: every 10 ms the window's sums clear, the carry and the new budget take effect, waiting claims
are applied in order; firmware reports the heat pairs (R372, R374). -/
def execDamperWindowStart (s : State) : Host.Outcome State Fault Refusal :=
  let d := s.damper
  if s.time.toNat < 10_000_000 * (d.seq.toNat + 1) then .next s
  else
    let t : State := { s with damper :=
      { d with
        budget := d.nextBudget.getD d.budget
        nextBudget := none
        seq := d.seq + 1
        admitted := 0
        reserved := 0
        measured := 0
        carry := d.measured - d.budget.toNat
        claims := [] } }
    .next (d.claims.foldl applyClaim { t with out := t.out ++ heatReport s })

/-- SET_BUDGET: the budget of the windows that follow (R373). -/
def execSetBudget (b : Word) (s : State) : Host.Outcome State Fault Refusal :=
  if !hostAlive s then .next (diagnose s)
  else .next (reply { s with damper := { s.damper with nextBudget := some b } } 3 0)

/-- ENERGY_SAMPLE: every 10 µs the rail monitors add to the energy counters (µJ) and the damper's measure (nJ); rail 2 of
the hearth die reads 0 (R369, R371, R373). -/
def execEnergySample (s : State) : Host.Outcome State Fault Refusal :=
  let d := s.damper
  if s.time.toNat < 10_000 * (d.samples + 1) then .next s
  else
    let rails := ((List.range 5).flatMap fun k => (List.range 4).map fun r => 16 * k + r).filter (· != 2)
    let used (k : Nat) : Nat := Config.railEnergy k d.samples
    .next { s with
      energy := rails.foldl (fun m k => store m k (get m k 0 + BitVec.ofNat 64 (used k)) 0) s.energy
      damper := { d with samples := d.samples + 1, measured := d.measured + 1000 * (rails.map used).sum } }

/-! ## A workgroup's share of its die's energy (R373) -/

/-- Slots that a workgroup holds. -/
def slotsHeld (s : State) (wk : Nat) : Nat :=
  ((groupsOf s wk).map fun e => e.2.core * 64 + e.2.slot).foldl insertNat [] |>.length

/-- The die's occupied slot-clocks are brought up to the present, before a workgroup comes or goes. -/
def tallySlots (s : State) (d : Nat) : State :=
  let held := ((s.wgs.filter fun e => e.2.st = .resident && e.2.die == d).map fun e => slotsHeld s e.1).sum
  modDie s d fun x =>
    { x with slotClocks := x.slotClocks + held * (x.clk - x.slotMark), slotMark := x.clk }

/-- The energy in µJ of a hob die's logic and SRAM rails. -/
def dieRails (s : State) (d : Nat) : Word := energyOf s (d + 1) 0 + energyOf s (d + 1) 1

/-- The measure of a residency that begins now on die `d`, whose slot-clocks are up to date. -/
def meterFrom (s : State) (d spent : Nat) : Meter := ⟨dieRails s d, (die s d).slotClocks, (die s d).clk, spent⟩

/-- The nJ of a resident workgroup so far: its earlier residencies', and of the present one its share of the rails by its part
of the die's slot-clocks, which are up to date. -/
def spentBy (s : State) (wk : Nat) (w : Wg) : Nat :=
  let m := w.meter
  m.spent + 1000 * (dieRails s w.die - m.rails).toNat * (slotsHeld s wk * ((die s w.die).clk - m.since)) /
    ((die s w.die).slotClocks - m.clocks)

/-- A workgroup's retirement corrects its launch's estimate (R373). -/
def correct (l : Launch) (measured : Nat) : Launch :=
  if l.energy = 0 then l
  else
    let r := max 64 (min 1024 (256 * measured / l.energy))
    { l with corr := (7 * l.corr + r) / 8 }

/-- HEAT_WINDOW: a heat pair's window; a size that R372 does not allow is turned away, 0 disables it. -/
def execHeatWindow (d n base size : Nat) (s : State) : Host.Outcome State Fault Refusal :=
  let ok := size = 0 ||
    ((List.range 15).any (fun k => size = 2 ^ (16 + k)) && base % size = 0)
  if !hostAlive s then .next (diagnose s)
  else if n < 64 && d < 4 && ok then
    .next (reply (modDie s d fun x =>
      let h := get x.heat n ⟨0, 0, 0, 0⟩
      { x with heat := put x.heat n { h with base := base, size := size } }) 8 0)
  else .next (reply s 8 2)

end Sys2Proof.Machine
end

