-- ==== Sys2Proof/Machine/Fabric.lean ====
section
/-! DEFINITION. Router stages: cells, tokens, sinks, configuration and the swap (19_fabric: R345 to R355, R361 to R365). -/

namespace Sys2Proof.Machine

/-! ## Configurations and edges (R346, R347) -/

/-- EN. -/
def cfgEn (v : Val) : Bool := v.getLsbD 127
/-- OP. -/
def cfgOp (v : Val) : Nat := bitsOf v.toNat 123 4
/-- FANIN: inputs used, less one. -/
def cfgFanin (v : Val) : Nat := bitsOf v.toNat 121 2
/-- CTX. -/
def cfgCtx (v : Val) : Nat := bitsOf v.toNat 109 12
/-- TMO in µs. -/
def cfgTmo (v : Val) : Nat := bitsOf v.toNat 101 8
/-- CONST. -/
def cfgConst (v : Val) : Nat := bitsOf v.toNat 64 32
/-- OUT0 to OUT3. -/
def cfgOut (v : Val) (k : Nat) : Nat := bitsOf v.toNat (48 - 16 * k) 16

/-- A valid edge address (R347). -/
def edgeOk (e : Nat) : Bool :=
  e < 2 ^ 16 && e.testBit 15 && (if e.testBit 14 then bitsOf e 4 10 == 0 else e % 4 == 0)
/-- The edge is a sink. -/
def edgeSink (e : Nat) : Bool := e.testBit 14
/-- The key of an edge's cell: column × 64 + row × 16 + cell. -/
def edgeCell (e : Nat) : Nat := bitsOf e 4 10
/-- The input of an edge. -/
def edgeInput (e : Nat) : Nat := bitsOf e 2 2
/-- The edge address of input `i` of a cell. -/
def cellEdge (k i : Nat) : Nat := 2 ^ 15 + 16 * k + 4 * i

/-- A cell entry keeps R346 and R347. -/
def cfgOk (v : Val) : Bool :=
  if !cfgEn v then v == 0
  else
    let op := cfgOp v
    let out (k : Nat) : Bool := cfgOut v k == 0 || (op == 7 && edgeOk (cfgOut v k))
    op < 9 && bitsOf v.toNat 96 5 == 0 && cfgTmo v != 0 && edgeOk (cfgOut v 0) &&
      (cfgFanin v == 0 || !(op == 0 || op == 6 || op == 7 || op == 8)) && out 1 && out 2 && out 3

/-- A cell of a die. -/
def cellOf (s : State) (d k : Nat) : Cell := get (die s d).cells k Cell.reset

/-- The state with a cell changed. -/
def modCell (s : State) (d k : Nat) (f : Cell → Cell) : State :=
  modDie s d fun x => { x with cells := store x.cells k (f (get x.cells k Cell.reset)) Cell.reset }

/-- The column of a cell. -/
def columnOf (k : Nat) : Nat := k / 64

/-- The outputs of a cell: OUT0, and for MCAST every valid one in order (R348). -/
def cfgOuts (v : Val) : List Nat :=
  if cfgOp v == 7 then ((List.range 4).map (cfgOut v)).filter fun e => e != 0 else [cfgOut v 0]

/-! ## Combining (R348) -/

/-- Values combined left to right by a cell's operation. -/
def combine (v : Val) (xs : List (BitVec 32)) : BitVec 32 :=
  let fold (f : BitVec 32 → BitVec 32 → BitVec 32) : BitVec 32 :=
    match xs with
    | [] => 0
    | x :: r => r.foldl f x
  match cfgOp v with
  | 1 => fold fun a b => BitVec.ofNat 32 (faddBits .rne f32 a.toNat b.toNat)
  | 2 => fold fun a b => BitVec.ofNat 32 (minMax false f32 a.toNat b.toNat)
  | 3 => fold (· + ·)
  | 4 => fold (· &&& ·)
  | 5 => fold (· ||| ·)
  | 8 => BitVec.ofNat 32 (fmulBits .rne f32 (xs.headD 0).toNat (cfgConst v))
  | _ => xs.headD 0

/-! ## Keys (R349, R350) -/

/-- The key of a data token. -/
def Payload.key? : Payload → Option (Nat × Nat)
  | .data _ th sq _ _ => some (th, sq)
  | .const _ _ => none

/-- The context of a token. -/
def Payload.ctx : Payload → Nat
  | .data c _ _ _ _ => c
  | .const c _ => c

/-- The value and P of a data token. -/
def Payload.val : Payload → BitVec 32
  | .data _ _ _ _ v => v
  | .const _ v => v
/-- P. -/
def Payload.p : Payload → Bool
  | .data _ _ _ p _ => p
  | .const _ _ => false

/-- The tokens of an input that a cell may take: those that no unapplied configuration token stands before. The constant means
nothing to a cell of more than one input, and there it holds nothing back (R348, R365). -/
def Cell.takable (c : Cell) (i : Nat) : List Arrived :=
  let q := c.inputs.getD i []
  if cfgFanin c.cfg == 0 then q.takeWhile fun a => a.pay.key?.isSome else q

/-- The oldest token of a key on each of inputs 0 to FANIN. -/
def takenOf (c : Cell) (key : Nat × Nat) : List (Option Arrived) :=
  (List.range (cfgFanin c.cfg + 1)).map fun i => (c.takable i).find? fun a => a.pay.key? == some key

/-- The keys open at a cell, each with its first token (R350). -/
def openKeys (c : Cell) : List ((Nat × Nat) × Arrived) :=
  let all := (c.inputs.flatMap id).filterMap fun a => a.pay.key?
  all.dedup.filterMap fun k =>
    (leastBy (fun (a b : Arrived) => a.num < b.num)
      ((c.inputs.filterMap fun q => q.find? fun a => a.pay.key? == some k))).map fun a => (k, a)

/-- The complete key that is served first (R350). -/
def nextKey (c : Cell) : Option (Nat × Nat) :=
  let full := (openKeys c).filter fun e => (takenOf c e.1).all Option.isSome
  (leastBy (fun a b => a.2.num < b.2.num) full).map Prod.fst

/-- The cell without the tokens that a serving takes. -/
def Cell.take (c : Cell) (ts : List (Option Arrived)) : Cell :=
  let nums := ts.filterMap fun t => t.map Arrived.num
  { c with inputs := c.inputs.map fun q => q.filter fun a => !nums.contains a.num }

/-- An output's next queue has room; a sink always has (R348). -/
def outRoom (s : State) (d e : Nat) : Bool :=
  edgeSink e || ((cellOf s d (edgeCell e)).inputs.getD (edgeInput e) []).length < 8

/-- A token leaves for an edge. -/
def sendTok (s : State) (d e : Nat) (p : Payload) (missing : Nat) : State :=
  let (n, s) := fresh s
  { s with toks := s.toks ++ [⟨n, d, e, p, missing, false⟩] }

/-- A dropped token is counted by its die (R349). -/
def countDrop (s : State) (d : Nat) : State :=
  modDie s d (Die.count · 0 1)

/-- The result of a cell's serving goes out (R348, R349); FILTER drops a token of another thread. -/
def emit (s : State) (d k : Nat) (key : Nat × Nat) (ts : List Arrived) (partial_ : Bool) (missing : Nat) : State :=
  let v := (cellOf s d k).cfg
  if cfgOp v == 6 && key.1 != cfgConst v % 2 ^ 12 then countDrop s d
  else
    let p : Payload := .data (cfgCtx v) key.1 key.2 (partial_ || ts.any fun a => a.pay.p) (combine v (ts.map fun a => a.pay.val))
    (cfgOuts v).foldl (fun s e => sendTok s d e p missing) s

/-- CELL_SERVE_KEY: the cell combines the complete key that opened first, unless an output's next queue is full (R350). -/
def execCellServeKey (d k : Nat) (s : State) : Host.Outcome State Fault Refusal :=
  let c := cellOf s d k
  match nextKey c with
  | none => .next s
  | some key =>
    if !dieUp s d || !cfgEn c.cfg || !(cfgOuts c.cfg).all (outRoom s d) then .next s
    else
      let ts := takenOf c key
      .next (emit (modCell s d k fun c => c.take ts) d k key (ts.filterMap id) false 0)

/-- A record of the fabric: no core, strand or slot. -/
def fabricRecord (d ctx : Nat) (code : FaultCode) (addr : Nat) : Record :=
  { Record.basic 1 code.code (dieId d) ctx with
    slot := 0xFF, core := 0xFF, strand := 0xFF, addr := BitVec.ofNat 64 (addr % 2 ^ 52) }

/-- CELL_TIMEOUT: an incomplete key whose time is over: the cell emits a partial, reports, and lists the key as late
(R351). -/
def execCellTimeout (d k : Nat) (s : State) : Host.Outcome State Fault Refusal :=
  let c := cellOf s d k
  let over_ := (openKeys c).filter fun e =>
    !(takenOf c e.1).all Option.isSome && e.2.since + 1000 * cfgTmo c.cfg ≤ s.time.toNat
  match leastBy (fun a b => a.2.num < b.2.num) over_ with
  | none => .next s
  | some (key, _) =>
    if !dieUp s d || !cfgEn c.cfg || !(cfgOuts c.cfg).all (outRoom s d) then .next s
    else
      let ts := takenOf c key
      let missing := ts.zipIdx.foldl (fun m e => if e.1.isNone then m + 2 ^ e.2 else m) 0
      if (ts.filterMap id).isEmpty then .next s
      else
        let s := modCell s d k fun c =>
          let c := c.take ts
          { c with late := (if 16 ≤ c.late.length then c.late.drop 1 else c.late) ++ [key] }
        let s := emit s d k key (ts.filterMap id) true missing
        .next (report s d (fabricRecord d (cfgCtx c.cfg) .redTimeout
          (cellEdge k 0 + key.1 * 2 ^ 16 + key.2 * 2 ^ 28 + missing * 2 ^ 36))).1

/-! ## Arrival (R349, R351, R365) -/

/-- The token is the oldest on its way along its edge (R237); one that a hold keeps at its router is not on its way (R355). -/
def firstOnEdge (s : State) (t : RedTok) : Bool :=
  match s.toks.find? fun u => u.die == t.die && u.edge == t.edge && !u.behind with
  | some u => u.uid == t.uid
  | none => false

/-- A token leaves the network. -/
def removeTok (s : State) (t : RedTok) : State := { s with toks := s.toks.filter fun u => u.uid != t.uid }

/-- A token is dropped, counted and reported with its edge (R349). -/
def dropTok (s : State) (t : RedTok) (code : FaultCode) (addr : Nat) : State :=
  (report (countDrop s t.die) t.die (fabricRecord t.die t.pay.ctx code addr)).1

/-- A token enters the queue of input `i`, with its time and its place in the order of arrivals (R349, R350). -/
def enqueue (s : State) (d k i : Nat) (p : Payload) : State :=
  let (n, s) := fresh s
  modCell s d k fun c => { c with inputs := c.inputs.modify i (· ++ [⟨p, s.time.toNat, n⟩]) }

/-- RED_TOKEN_ARRIVAL: the oldest token of an edge to a cell is checked and queued, or dropped; a full queue, or an
injection hold that it came behind, makes it wait (R349, R351, R355). A die out of service drops it (R357). -/
def execRedTokenArrival (id : Nat) (s : State) : Host.Outcome State Fault Refusal :=
  match s.toks.find? fun t => t.uid == id && !edgeSink t.edge with
  | none => .next s
  | some t =>
    let k := edgeCell t.edge
    let i := edgeInput t.edge
    let c := cellOf s t.die k
    if t.behind || !firstOnEdge s t then .next s
    else if !dieUp s t.die then .next (countDrop (removeTok s t) t.die)
    else if !cfgEn c.cfg || cfgCtx c.cfg != t.pay.ctx || cfgFanin c.cfg < i then
      .next (dropTok (removeTok s t) t .tokenContext t.edge)
    else match t.pay.key? with
      | some key =>
        if c.late.contains key then
          .next (countDrop (modCell (removeTok s t) t.die k fun c => { c with late := c.late.erase key }) t.die)
        else if 8 ≤ (c.inputs.getD i []).length then .next s
        else .next (enqueue (removeTok s t) t.die k i t.pay)
      | none =>
        if 8 ≤ (c.inputs.getD i []).length then .next s
        else .next (enqueue (removeTok s t) t.die k i t.pay)

/-- CONFIG_TOKEN_APPLY: a configuration token at the head of its input sets the cell's constant (R365). -/
def execConfigTokenApply (d k i : Nat) (s : State) : Host.Outcome State Fault Refusal :=
  match (cellOf s d k).inputs.getD i [] with
  | ⟨.const _ v, _, _⟩ :: _ => .next (modCell s d k fun c =>
      { c with
        cfg := (c.cfg &&& ~~~(BitVec.ofNat 128 ((2 ^ 32 - 1) * 2 ^ 64))) ||| BitVec.ofNat 128 (v.toNat * 2 ^ 64)
        inputs := c.inputs.modify i (·.drop 1) })
  | _ => .next s

/-! ## Sinks (R352) -/

/-- Where a sink's record goes: translated in its context, with the checks of a store. -/
def sinkAcc (s : State) (ctx va : Nat) : Except FaultCode Acc :=
  if 2 ^ 52 ≤ va then .error .pageFault
  else match translatePkg s ctx va with
    | .fault f => .error f
    | .page e => match accCheck s .store (accOf s e va) with
      | .error (_, f) => .error f
      | .ok a => .ok a

/-- The 8-byte record of a token (R352). -/
def sinkWord (t : RedTok) : Nat :=
  2 ^ 63 + (if t.pay.p then 2 ^ 36 else 0) + t.missing % 16 * 2 ^ 32 + t.pay.val.toNat

/-- SINK_WRITE: the oldest token of an edge to a sink writes its record at package scope, or is dropped with a record
(R352). -/
def execSinkWrite (id : Nat) (s : State) : Host.Outcome State Fault Refusal :=
  match s.toks.find? fun t => t.uid == id && edgeSink t.edge with
  | none => .next s
  | some t =>
    if !firstOnEdge s t then .next s
    else if !dieUp s t.die then .next (countDrop (removeTok s t) t.die)
    else match find (die s t.die).sinks (t.edge % 16) with
      | none => .next (dropTok (removeTok s t) t .tokenContext t.edge)
      | some k =>
        if k.ctx != t.pay.ctx then .next (dropTok (removeTok s t) t .tokenContext t.edge)
        else
          let sq := match t.pay.key? with
            | some key => key.2
            | none => 0
          let va := k.base + 8 * sq
          match sinkAcc s k.ctx va with
          | .error f => .next (dropTok (removeTok s t) t f va)
          | .ok a =>
            if lineHeld s (lineOf (plainPa a.pa)) then .next s
            else .next (homeWrite (removeTok s t) a.pa 8 (sinkWord t))

/-! ## RTCFG (R353, R354, R362) -/

/-- A header of 16 bytes keeps R353. -/
def headerOk (bs : List Nat) : Bool :=
  leAt bs 0 1 ≤ leAt bs 1 1 && leAt bs 1 1 ≤ 15 && leAt bs 2 1 ≤ 16 && (bs.drop 3).all (· == 0)

/-- A sink entry of 16 bytes: number and base, if it keeps R353. -/
def sinkEntry (bs : List Nat) (o : Nat) : Option (Nat × Nat) :=
  let base := leAt bs o 8
  if base % 8 == 0 && base < 2 ^ 52 && leAt bs (o + 8) 1 < 16 && leAt bs (o + 9) 7 == 0 then
    some (leAt bs (o + 8) 1, base)
  else none

/-- The cells of columns C0 to C1, in image order (R353). -/
def regionCells (c0 c1 : Nat) : List Nat := (List.range (64 * (c1 + 1 - c0))).map fun k => 64 * c0 + k

/-- Two ranges of columns share one. -/
def overlaps (a0 a1 b0 b1 : Nat) : Bool := a0 ≤ b1 && b0 ≤ a1

/-- A swap of one of the columns is in progress. -/
def swapping (s : State) (d c0 c1 : Nat) : Bool := (die s d).swaps.any fun w => overlaps w.c0 w.c1 c0 c1

/-- A live or shadow sink of another context. -/
def sinkTaken (x : Die) (ctx n : Nat) : Bool :=
  ((find x.sinks n).any fun k => k.ctx != ctx) || (find x.sinkShadows n).any fun k => k.sink.ctx != ctx

/-- The state conflicts of RTCFG (R362). -/
def rtcfgBusy (s : State) (d ctx c0 c1 : Nat) (sinks : List (Nat × Nat)) : Bool :=
  let x := die s d
  let other (k : Nat) : Bool :=
    let v := (get x.cells k Cell.reset).cfg
    (cfgEn v && cfgCtx v != ctx) || (find x.shadows k).any fun w => w.ctx != ctx
  (regionCells c0 c1).any other || sinks.any (fun n => sinkTaken x ctx n.1) || swapping s d c0 c1

/-- RTCFG (R362). -/
def execRtcfg (w : Plain) (s : State) : Host.Outcome State Fault Refusal :=
  atSite s fun x =>
    let a := x.opnd 0
    let va := a.scalar64.toNat
    x.perform s w a.mask fun p =>
      match regionFault va 16 16 [0] with
      | some (c, e) => x.fault s c a.mask e
      | none => x.readThen s p a.mask va 16 fun s bs =>
        if !headerOk bs then x.fault s .blockFormat a.mask va
        else
          let c0 := leAt bs 0 1
          let c1 := leAt bs 1 1
          let n := leAt bs 2 1
          x.readThen s p a.mask (va + 16) (16 * n) fun s es =>
            match (List.range n).mapM fun k => sinkEntry es (16 * k) with
            | none => x.fault s .blockFormat a.mask va
            | some sinks =>
              if rtcfgBusy s (dieOf x.core) p.w.ctx c0 c1 sinks then x.fault s .slotState a.mask x.b.addr
              else x.commitWith s w.ta w.tb (numTok 32 a.mask 0) (.rtcfg va c0 c1 sinks)

/-- The job enters the issuing core's engines (R362). -/
def commitRtcfg (s : State) (c : Nat) (p : Place) (va c0 c1 : Nat) (sinks : List (Nat × Nat)) (gate : List Nat) :
    Nat × State :=
  addJob s c p (.rtcfg va c0 c1 sinks)
    ([⟨.virt p.w.ctx, va, va + 16 + 16 * sinks.length + 1024 * (c1 + 1 - c0)⟩], []) gate

/-- A failed load marks the shadow of the region invalid with its code (R354). Every router of the region then holds a
shadow of the context. -/
def spoilShadow (s : State) (d ctx c0 c1 : Nat) (code : FaultCode) : State :=
  modDie s d fun x =>
    { x with
      shadows := (regionCells c0 c1).foldl (fun m k => put m k ⟨((find m k).map Shadow.cfg).getD 0, ctx⟩) x.shadows
      shadowBad := (List.range (c1 + 1 - c0)).foldl (fun m k => put m (c0 + k) code) x.shadowBad }

/-- The cell entries of an image loaded one by one: the shadow so far, and what stopped the job with its address (R354). -/
def loadShadow (s : State) (c ctx : Nat) : List Nat → Nat → Die → Die × Option (FaultCode × Nat)
  | [], _, x => (x, none)
  | k :: ks, va, x =>
    match readJob s c ctx va 0 16 with
    | (_, some (f, o)) => (x, some (f.getD .cfgPoison, va + o))
    | (bs, none) =>
      let v : Val := BitVec.ofNat 128 (leAt bs 0 16)
      if !cfgOk v || (cfgEn v && cfgCtx v != ctx) then (x, some (.blockFormat, va))
      else loadShadow s c ctx ks (va + 16) { x with shadows := put x.shadows k ⟨v, ctx⟩ }

/-- The die as a load of columns C0 to C1 begins: no invalid mark there, and the named sinks' shadows in place of those of an
earlier image over these columns (R354). -/
def Die.beginShadow (x : Die) (ctx c0 c1 : Nat) (sinks : List (Nat × Nat)) : Die :=
  { x with
    shadowBad := x.shadowBad.filter fun e => !(c0 ≤ e.1 && e.1 ≤ c1)
    sinkShadows := sinks.foldl (fun m n => put m n.1 ⟨⟨ctx, n.2⟩, c0, c1⟩)
      (x.sinkShadows.filter fun e => !(c0 ≤ e.2.c0 && e.2.c1 ≤ c1)) }

/-- RTCFG_JOB: the shadow of the region and of the named sinks is written, or marked invalid with a record, once no atomics hold a
line of the image (R230, R354). -/
def execRtcfgJob (c id : Nat) (s : State) : Host.Outcome State Fault Refusal :=
  match (core s c).jobs.find? fun j => j.uid == id && j.engine.isSome with
  | none => .next s
  | some j => match j.kind with
    | .rtcfg va c0 c1 sinks =>
      let d := dieOf c
      let n := 16 + 16 * sinks.length + 1024 * (c1 + 1 - c0)
      if readsHeld s c j.ctx va n then .next s else
      let s := engineSee s c j.ctx va n false
      let fail (s : State) (f : FaultCode) (a : Nat) : State :=
        endJob (jobReport (spoilShadow s d j.ctx c0 c1 f) c j f a) c id
      match sinks.find? fun n => sinkTaken (die s d) j.ctx n.1 with
      | some n => .next (fail s .blockFormat (va + 16 + 16 * ((sinks.findIdx? fun k => k == n).getD 0)))
      | none => match loadShadow s c j.ctx (regionCells c0 c1) (va + 16 + 16 * sinks.length) ((die s d).beginShadow j.ctx c0 c1 sinks) with
        | (x, none) => .next (endJob (modDie s d fun _ => x) c id)
        | (x, some (f, a)) => .next (fail (modDie s d fun _ => x) f a)
    | _ => .next s

/-! ## RTSWAP (R355, R363) -/

/-- The columns C0 to C1 without a shadow: cells, sinks of images over them, invalid marks (R363). -/
def Die.dropShadow (x : Die) (c0 c1 : Nat) : Die :=
  { x with
    shadows := x.shadows.filter fun e => !(c0 ≤ columnOf e.1 && columnOf e.1 ≤ c1)
    sinkShadows := x.sinkShadows.filter fun e => !overlaps e.2.c0 e.2.c1 c0 c1
    shadowBad := x.shadowBad.filter fun e => !(c0 ≤ e.1 && e.1 ≤ c1) }

/-- Every router of the columns holds a shadow that the context has loaded, and no job is loading one (R363). -/
def shadowReady (s : State) (d ctx c0 c1 : Nat) : Bool :=
  (regionCells c0 c1).all (fun k => (find (die s d).shadows k).any fun w => w.ctx == ctx) &&
    !(s.cores.any fun e => dieOf e.1 == d && e.2.jobs.any fun j => match j.kind with
      | .rtcfg _ a0 a1 _ => overlaps a0 a1 c0 c1
      | _ => false)

/-- RTSWAP (R363). One that meets an invalid shadow keeps the discard of it beside its fault, for the moment at which the fault is
taken. -/
def execRtswap (w : Plain) (s : State) : Host.Outcome State Fault Refusal :=
  atSite s fun x =>
    let (v, m) := x.sel w
    let c0 := v % 16
    let c1 := bitsOf v 4 4
    let drop := v.testBit 8
    let d := dieOf x.core
    x.perform s w m fun p =>
      if 2 ^ 9 ≤ v || c1 < c0 then x.fault s .blockFormat m x.b.addr
      else if swapping s d c0 c1 || !shadowReady s d p.w.ctx c0 c1 then x.fault s .slotState m x.b.addr
      else match (if drop then none else (List.range (c1 + 1 - c0)).findSome? fun k => find (die s d).shadowBad (c0 + k)) with
        | some f => x.mod (x.fault s f m x.b.addr) fun b => { b with effects := b.effects ++ [(x.i, .rtswap c0 c1 true)] }
        | none => x.commitWith s w.ta w.tb (numTok 32 m 0) (.rtswap c0 c1 drop)

/-- The injection holds of columns C0 to C1. -/
def columnMask (c0 c1 : Nat) : BitVec 16 :=
  (List.range (c1 + 1 - c0)).foldl (fun m k => m ||| ((1 : BitVec 16) <<< (c0 + k))) 0

/-- DROP 1 discards the shadow; DROP 0 sets the holds and begins the drain; a swap begun meanwhile leaves the state (R355,
R363). -/
def commitRtswap (s : State) (c ctx c0 c1 : Nat) (drop : Bool) : Option Nat × State :=
  let d := dieOf c
  if drop then (none, modDie s d fun x => x.dropShadow c0 c1)
  else if swapping s d c0 c1 || !shadowReady s d ctx c0 c1 then (none, s)
  else
    let (u, s) := fresh s
    (some u, modDie s d fun x =>
      { x with holds := x.holds ||| columnMask c0 c1, swaps := x.swaps ++ [⟨u, c0, c1, ctx⟩] })

/-- The swap in progress over a cell's column. -/
def swapOver (x : Die) (k : Nat) : Option Swap := x.swaps.find? fun w => w.c0 ≤ columnOf k && columnOf k ≤ w.c1

/-- Enabled cells of a swap's region that feed an edge. -/
def feeders (x : Die) (w : Swap) (e : Nat) : List Nat :=
  (x.cells.filter fun f => w.c0 ≤ columnOf f.1 && columnOf f.1 ≤ w.c1 && cfgEn f.2.cfg && (cfgOuts f.2.cfg).contains e).map
    Prod.fst

/-- No cell of a swap's region holds a data token and none is on its way to one: nothing comes on an edge between them any more,
a loop of cells among them (R237, R355). -/
def regionSilent (s : State) (d : Nat) (w : Swap) : Bool :=
  (regionCells w.c0 w.c1).all (fun k => (cellOf s d k).inputs.all List.isEmpty) &&
    !(s.toks.any fun t => t.die == d && !edgeSink t.edge && !t.behind &&
      w.c0 ≤ columnOf (edgeCell t.edge) && columnOf (edgeCell t.edge) ≤ w.c1)

/-- DRAIN_TOKEN_PASS: a cell of a region being swapped has received the drain on each input, behind the last data token there, and
has no open key (R355). -/
def execDrainTokenPass (d k : Nat) (s : State) : Host.Outcome State Fault Refusal :=
  let x := die s d
  let c := cellOf s d k
  match swapOver x k with
  | none => .next s
  | some w =>
    let clear (i : Nat) : Bool :=
      !(s.toks.any fun t => t.die == d && t.edge == cellEdge k i && !t.behind) &&
        (regionSilent s d w || (feeders x w (cellEdge k i)).all fun f => f == k || (cellOf s d f).drained == some w.uid)
    if cfgEn c.cfg && c.drained != some w.uid && c.inputs.all List.isEmpty &&
        (List.range (cfgFanin c.cfg + 1)).all clear then
      .next (modCell s d k fun c => { c with drained := some w.uid })
    else .next s

/-- A token is on its way to a sink whose shadow the swap gives it. -/
def sinkComing (s : State) (d : Nat) (w : Swap) : Bool :=
  s.toks.any fun t => t.die == d && edgeSink t.edge &&
    (find (die s d).sinkShadows (t.edge % 16)).any fun h => overlaps h.c0 h.c1 w.c0 w.c1

/-- The region has passed the drain and holds no token, and what it has sent to the named sinks is there: a result of the old
configuration is not written by a sink of the new one (R237, R355). -/
def quiescent (s : State) (d : Nat) (w : Swap) : Bool :=
  !sinkComing s d w && (regionCells w.c0 w.c1).all fun k =>
    let c := cellOf s d k
    !cfgEn c.cfg || (c.drained == some w.uid && c.inputs.all List.isEmpty)

/-- REGION_SWAP: the cells of a quiescent region and the named sinks take their shadows at once; the holds release
(R355). -/
def execRegionSwap (d id : Nat) (s : State) : Host.Outcome State Fault Refusal :=
  match (die s d).swaps.find? fun w => w.uid == id with
  | none => .next s
  | some w =>
    if !quiescent s d w then .next s
    else
      let take (m : KMap Cell) (k : Nat) : KMap Cell :=
        let c := get m k Cell.reset
        store m k { Cell.reset with cfg := ((find (die s d).shadows k).map Shadow.cfg).getD 0, late := c.late } Cell.reset
      let s := modDie s d fun x =>
        let named := x.sinkShadows.filter fun e => overlaps e.2.c0 e.2.c1 w.c0 w.c1
        { (x.dropShadow w.c0 w.c1) with
          cells := (regionCells w.c0 w.c1).foldl take x.cells
          sinks := named.foldl (fun m e => put m e.1 e.2.sink) x.sinks
          holds := x.holds &&& ~~~(columnMask w.c0 w.c1)
          swaps := x.swaps.filter fun v => v.uid != id }
      let freed (t : RedTok) : RedTok :=
        if t.die == d && !edgeSink t.edge && w.c0 ≤ columnOf (edgeCell t.edge) && columnOf (edgeCell t.edge) ≤ w.c1 then
          { t with behind := false } else t
      .next (endAsync { s with toks := s.toks.map freed } id none)

/-! ## RTSEND and QSC (R364, R365) -/

/-- The target of an injection takes tokens of the context (R364). -/
def edgeTakes (s : State) (d ctx e : Nat) : Bool :=
  if edgeSink e then (find (die s d).sinks (e % 16)).any fun k => k.ctx == ctx
  else
    let v := (cellOf s d (edgeCell e)).cfg
    cfgEn v && cfgCtx v == ctx && edgeInput e ≤ cfgFanin v

/-- RTSEND (R364). -/
def execRtsend (w : Plain) (s : State) : Host.Outcome State Fault Refusal :=
  atSite s fun x =>
    let a := x.opnd 0
    let b := x.opnd 1
    let m := a.mask &&& b.mask
    let v := a.scalar64.toNat
    let first := bitsOf v 28 8
    let toks : List (Nat × BitVec 32) :=
      if b.uni then [(first, BitVec.ofNat 32 b.val.toNat)]
      else m.lanes.map fun l => ((first + l) % 256, BitVec.ofNat 32 (b.at_ l).toNat)
    x.perform s w m fun p =>
      if 2 ^ 36 ≤ v || !edgeOk (v % 2 ^ 16) then x.fault s .blockFormat m x.b.addr
      else if !edgeTakes s (dieOf x.core) p.w.ctx (v % 2 ^ 16) then x.fault s .tokenContext m x.b.addr
      else x.commitWith s w.ta w.tb (numTok 32 m 0) (.rtsend (v % 2 ^ 16) (bitsOf v 16 12) toks)

/-- QSC (R365). -/
def execQsc (w : Plain) (s : State) : Host.Outcome State Fault Refusal :=
  atSite s fun x =>
    let a := x.opnd 0
    let b := x.opnd 1
    let m := a.mask &&& b.mask
    let v := a.scalar64.toNat
    x.perform s w m fun p =>
      if 2 ^ 16 ≤ v || !edgeOk v || 2 ^ 32 ≤ b.scalar64.toNat then x.fault s .blockFormat m x.b.addr
      else if edgeSink v || !edgeTakes s (dieOf x.core) p.w.ctx v then x.fault s .tokenContext m x.b.addr
      else x.commitWith s w.ta w.tb (numTok 32 m 0) (.qsc v (b.scalar64.setWidth 32))

/-- A token is injected; behind a hold on its column it waits at its router (R355, R364). -/
def inject (s : State) (d e : Nat) (p : Payload) : State :=
  let (n, s) := fresh s
  let held := !edgeSink e && (die s d).holds.getLsbD (columnOf (edgeCell e))
  { s with toks := s.toks ++ [⟨n, d, e, p, 0, held⟩] }

/-- The tokens of a committed RTSEND in lane order (R364). -/
def commitRtsend (s : State) (c ctx e th : Nat) (toks : List (Nat × BitVec 32)) : State :=
  toks.foldl (fun s t => inject s (dieOf c) e (.data ctx th t.1 false t.2)) s

/-- The configuration token of a committed QSC (R365). -/
def commitQsc (s : State) (c ctx e : Nat) (v : BitVec 32) : State := inject s (dieOf c) e (.const ctx v)

end Sys2Proof.Machine
end

