-- ==== Sys2Proof/Machine/Checks.lean ====
section
/-! DEFINITION. A block's words and the checks made when it becomes its strand's next block (03_encoding: R60 to R72, R80
to R82; 06_registers: R124; 07_ref_block: R144; 21_faults: R384, R387, R388). -/

namespace Sys2Proof.Machine

/-! ## Widths of operands and results (R67, R68, R130) -/

/-- The opcode reads every operand whose type it does not give as R186 reads a member mask (R186, R264, R291). -/
def opControl (op : Nat) : Bool := (0x1C4 ≤ op && op ≤ 0x1C8) || 0x20F ≤ op

/-- The width in bits of operand `k` by its entry. An address or offset beside a window or in scratchpad may come from
one register; a global one is a pair (R240). -/
def opndWidth (p : Parts) (k : Nat) : Nat :=
  match p.body with
  | .exit w => if w.indirect || p.op == 0x1C6 then 64 else 32
  | .fan w => w.ty.tokenWidth
  | .mem w =>
    if k = 0 then (if w.win = 15 && p.op != 0x202 && p.op != 0x203 then 64 else 32)
    else if p.op == 0x210 || p.op == 0x282 || p.op == 0x285 then 64
    else w.ty.tokenWidth
  | .plain w =>
    match p.op, k with
    | 0x004, 1 | 0x006, 2 | 0x007, 1 => 32
    | 0x092, 1 | 0x093, 1 | 0x094, 1 | 0x095, 1 | 0x096, 1 | 0x097, 2 => 32
    | 0x0A0, 1 => 32
    | 0x0A1, _ => 64
    | 0x112, 1 | 0x113, 2 => 32
    | 0x180, _ => match SrcFmt.ofBits p.mod with
      | .ty t => t.tokenWidth
      | .e8m0 => 32
    | 0x181, _ | 0x183, _ => 32
    | 0x184, 1 => 32
    | 0x1C0, 1 => 32
    | 0x1C0, 2 | 0x1C1, 1 | 0x1C2, 1 | 0x1C3, 1 | 0x1C3, 2 => 64
    | 0x286, 1 | 0x382, 1 => 32
    | op, _ => if opControl op then 64 else w.ty.tokenWidth

/-- The width in bits of the token that an instruction delivers, to target B when `second`. -/
def resWidth (p : Parts) (second : Bool) : Nat :=
  match p.body with
  | .exit _ => 32
  | .fan w => w.ty.tokenWidth
  | .mem w => w.ty.tokenWidth
  | .plain w =>
    match p.op with
    | 0x09D | 0x108 | 0x113 | 0x181 | 0x182 => 32
    | 0x183 | 0x211 => 128
    | 0x1C5 | 0x342 | 0x3C0 | 0x3C1 | 0x3C2 | 0x3C3 | 0x3C4 => 64
    | 0x2C7 | 0x2C8 => if second then 32 else 64
    | 0x283 => 32
    | _ => w.ty.tokenWidth

/-- The operand slots that an instruction declares and that take a token (R72, R81). -/
def arityOf (p : Parts) : Nat :=
  match p.body, (opSpec p.op).map OpSpec.fam with
  | .plain w, some (.plain c im _) => if w.imm.isSome then (im.map Prod.fst).getD 0 else c.getD 0
  | .mem w, _ => w.count.toNat
  | .fan _, _ => 1
  | .exit _, _ => 1
  | _, _ => 0

/-- The target bytes of an instruction with the width each is sent. -/
def sendsOf (p : Parts) : List (Nat × Nat) :=
  (match p.body with
    | .plain w => [(w.ta.byte.toNat, resWidth p false), (w.tb.byte.toNat, resWidth p true)]
    | .mem w => [(w.ta.byte.toNat, resWidth p false), (w.tb.byte.toNat, resWidth p true)]
    | .fan w => [w.ta, w.tb, w.tc, w.td].map fun (t : Target) => (t.byte.toNat, resWidth p false)
    | .exit _ => []).filter fun e => e.1 != 0xFF

/-! ## The parts of a block (R60, R63, R67, R68) -/

/-- Header word H0 (R63). -/
def headerOf (w : Word) : Header :=
  let f (lo n : Nat) : Nat := bitsOf w.toNat lo n
  ⟨f 54 6 + 1, f 48 6, f 42 6, f 39 3 + 1, w.getLsbD 38, w.getLsbD 37, f 34 3, f 31 3, w.getLsbD 30, w.getLsbD 29, f 24 5,
   f 20 4⟩

/-- The header's own fields are in range (R64). -/
def h0Ok (w : Word) : Bool :=
  let h := headerOf w
  bitsOf w.toNat 60 4 == 0xB && h.nread ≤ 32 && h.nwrite ≤ 32 && h.rel ≤ 4 && h.acq != 7 && bitsOf w.toNat 0 20 == 0

/-- The first read word of a block. -/
def Header.readAt (h : Header) : Nat := if h.h2v then 3 else 2
/-- The first write word. -/
def Header.writeAt (h : Header) : Nat := h.readAt + (h.nread + 1) / 2
/-- The first instruction word. -/
def Header.insnAt (h : Header) : Nat := h.writeAt + (h.nwrite + 3) / 4
/-- The block's words (R60). -/
def Header.words (h : Header) : Nat := h.insnAt + h.icount

/-- A read entry: kind, register, target bytes (R67). -/
structure REntry where
  kind : Nat
  reg : Nat
  ta : Nat
  tb : Nat
  low : Nat

/-- Read entry `k` of the block's words. -/
def readEntry (h : Header) (ws : List Word) (k : Nat) : REntry :=
  let e := bitsOf (ws.getD (h.readAt + k / 2) 0).toNat (32 * (k % 2)) 32
  ⟨bitsOf e 30 2, bitsOf e 19 11, bitsOf e 11 8, bitsOf e 3 8, bitsOf e 0 3⟩

/-- Write entry `k`: kind, register, its low bits (R68). -/
def writeEntry (h : Header) (ws : List Word) (k : Nat) : Nat × Nat × Nat :=
  let e := bitsOf (ws.getD (h.writeAt + k / 4) 0).toNat (16 * (k % 4)) 16
  (bitsOf e 14 2, bitsOf e 3 11, bitsOf e 0 3)

/-- What the checks and the fire of a block know of it. -/
structure Code where
  addr : Nat
  h : Header
  h1 : Word
  ws : List Word
  insns : List Word
  parts : List (Option Parts)
  /-- bits of a queue register's item, by its binding at fire (R277) -/
  items : Nat → Nat
  vregs : Nat
  sregs : Nat

/-- The block at an address from its words. -/
def codeOf (addr : Nat) (ws : List Word) (items : Nat → Nat) (vregs sregs : Nat) : Code :=
  let h := headerOf (ws.getD 0 0)
  let is := (ws.drop h.insnAt).take h.icount
  ⟨addr, h, ws.getD 1 0, ws, is, is.map fun w => (partsOf w).toOption, items, vregs, sregs⟩

/-- The opcode of instruction `i`. -/
def Code.op (k : Code) (i : Nat) : Nat := bitsOf (k.insns.getD i 0).toNat 54 10
/-- The fields of instruction `i`. -/
def Code.part (k : Code) (i : Nat) : Option Parts := (k.parts[i]?).join
/-- The class of instruction `i`, if its opcode has one. -/
def Code.cls (k : Code) (i : Nat) : Option Cls := (opSpec (k.op i)).map OpSpec.cls
/-- The first instruction with an opcode. -/
def Code.first (k : Code) (op : Nat) : Option Nat := (List.range k.h.icount).find? fun i => k.op i == op
/-- Instructions that satisfy `f`. -/
def Code.count (k : Code) (f : Nat → Bool) : Nat := ((List.range k.h.icount).filter f).length

/-- The width that a target calls for of a kind-v read; a write entry calls for none (R67). -/
def Code.calls (k : Code) (t : Nat) : Nat :=
  if t == 0xFF || t % 4 == 3 then 32
  else match k.part (t / 4) with
    | some p => if t % 4 < arityOf p then opndWidth p (t % 4) else 32
    | none => 32

/-- Bits of the token of a read entry (R67, R68). -/
def Code.readWidth (k : Code) (r : REntry) : Nat :=
  match r.kind with
  | 0 => max (k.calls r.ta) (k.calls r.tb)
  | 1 => 64
  | 2 => k.items r.reg
  | _ => 128

/-- The block's read entries. -/
def Code.reads (k : Code) : List REntry := (List.range k.h.nread).map (readEntry k.h k.ws)

/-- The width of what reaches write entry `n` first (R68). -/
def Code.widthAt (k : Code) (n : Nat) : Nat :=
  let t := 4 * n + 3
  match k.reads.find? fun r => r.ta == t || r.tb == t with
  | some r => k.readWidth r
  | none => ((k.parts.findSome? fun p => p.bind fun p => (sendsOf p).find? fun e => e.1 == t).map Prod.snd).getD 32

/-- The block's write entries with the registers each writes. -/
def Code.writes (k : Code) : List WEntry :=
  (List.range k.h.nwrite).map fun n =>
    let (kind, reg, _) := writeEntry k.h k.ws n
    ⟨kind, reg, if kind = 0 then k.widthAt n / 32 else 1⟩

/-! ## The checks (R64, R65, R69, R81, R82) -/

/-- Steps 2 and 4: LOCK and NSTORE against the instructions, the commit mask (R64, R65). -/
def Code.maskOk (k : Code) : Bool :=
  k.h.lock == (k.first 0x214).isSome && k.h.nstore == k.count (fun i => k.cls i == some .s) &&
    k.h1.toNat < 2 ^ k.h.icount &&
    (List.range k.h.icount).all fun i => k.h1.getLsbD i || !(k.cls i == some .s || k.cls i == some .e)

/-- A register number of a kind with its pair or quad is one that the launch has (R69). -/
def Code.regOk (k : Code) (kind reg span : Nat) : Bool :=
  match kind with
  | 0 => reg % span == 0 && reg + span ≤ k.vregs
  | 1 => reg < k.sregs
  | 2 => reg < 32
  | _ => reg < 16

/-- Step 5: the entries (R67 to R69). -/
def Code.entriesOk (k : Code) : Bool :=
  let unusedRead := k.h.nread % 2 == 0 || (k.ws.getD (k.h.writeAt - 1) 0).toNat < 2 ^ 32
  let unusedWrite := k.h.nwrite % 4 == 0 || (k.ws.getD (k.h.insnAt - 1) 0).toNat < 2 ^ (16 * (k.h.nwrite % 4))
  let apart (a b : WEntry) : Bool := a.kind != b.kind || a.reg + a.span ≤ b.reg || b.reg + b.span ≤ a.reg
  let ws := k.writes
  k.reads.all (fun r => r.low == 0 && k.regOk r.kind r.reg (if r.kind = 0 then k.readWidth r / 32 else 1)) &&
    unusedRead && unusedWrite &&
    (List.range k.h.nwrite).all (fun n => (writeEntry k.h k.ws n).2.2 == 0) &&
    ws.all (fun w => k.regOk w.kind w.reg w.span) &&
    ws.zipIdx.all (fun a => ws.zipIdx.all fun b => a.2 == b.2 || apart a.1 b.1)

/-- Step 6: the first instruction that is none, and why (R82). -/
def Code.badInsn (k : Code) : Option (FaultCode × Nat) :=
  k.insns.zipIdx.findSome? fun e => match decodeWord e.1 with
    | .ok _ => none
    | .error .opcodeUndef => some (.opcodeUndef, e.2)
    | .error _ => some (.blockFormat, e.2)

/-- An edge of the block's graph: the instruction it leaves, or none for a read entry; the target byte; whether it
carries a window token (R124). -/
structure GEdge where
  src : Option Nat
  tgt : Nat
  win : Bool

/-- Operand slots in which an opcode passes a window token on (R124). -/
def passSlots : Nat → List Nat
  | 0x001 | 0x004 => [0]
  | 0x005 | 0x006 => [0, 1]
  | _ => []

/-- A window token reaches slot `j` of instruction `i`. -/
def winAt (es : List GEdge) (i j : Nat) : Bool := es.any fun e => e.tgt == 4 * i + j && e.win

/-- The graph's edges, instructions in index order. -/
def Code.edges (k : Code) : List GEdge :=
  let fromReads := k.reads.flatMap fun r =>
    ([r.ta, r.tb].filter (· != 0xFF)).map fun t => (⟨none, t, r.kind == 3⟩ : GEdge)
  (List.range k.h.icount).foldl (fun es i => match k.part i with
    | some p =>
      let win := p.op == 0x211 || (passSlots p.op).any (winAt es i)
      es ++ (sendsOf p).map fun t => ⟨some i, t.1, win⟩
    | none => es) fromReads

/-- The window rules of R124 at instruction `i`. -/
def Code.winOk (k : Code) (es : List GEdge) (i : Nat) : Bool :=
  let ps := passSlots (k.op i)
  let wide : Bool := bitsOf (k.insns.getD i 0).toNat 50 4 == 15
  if (List.range 3).any (winAt es i) then
    wide && ps.all (winAt es i) && (List.range 3).all fun j => ps.contains j || !winAt es i j
  else true

/-- Step 7: the graph rules (R81, R124, R144, R384). -/
def Code.graphOk (k : Code) : Bool :=
  let es := k.edges
  let arity (i : Nat) : Nat := ((k.part i).map arityOf).getD 0
  let one (t : Nat) : Bool := (es.filter fun e => e.tgt == t).length == 1
  let named (e : GEdge) : Bool :=
    if e.tgt % 4 == 3 then e.tgt / 4 < k.h.nwrite
    else e.tgt / 4 < k.h.icount && e.tgt % 4 < arity (e.tgt / 4) && e.src.all (· < e.tgt / 4)
  let exits := k.parts.filterMap fun p => p.bind fun p => match p.body with
    | .exit w => some w.num.toNat
    | _ => none
  es.all named &&
    (List.range k.h.icount).all (fun i => (List.range (arity i)).all fun j => one (4 * i + j)) &&
    (List.range k.h.nwrite).all (fun n => one (4 * n + 3)) &&
    exits.length == k.h.nexit && (List.range k.h.nexit).all exits.contains &&
    k.count (fun i => k.cls i == some .s) ≤ 31 && k.count (fun i => k.op i == 0x214) ≤ 1 &&
    (List.range k.h.icount).all (k.winOk es) &&
    k.writes.zipIdx.all (fun w => es.all fun e => e.tgt != 4 * w.2 + 3 || e.win == (w.1.kind == 3)) &&
    k.count (fun i => 0x3C5 ≤ k.op i && k.op i ≤ 0x3C8) ≤ 1 &&
    ((k.first 0x009).isNone || k.writes.all fun w => w.kind != 0 || 2 ≤ w.reg)

/-- The first check of steps 4 to 7 that fails, with the index a record carries (R82). -/
def Code.fault (k : Code) : Option (FaultCode × Nat) :=
  if !k.maskOk || !k.entriesOk then some (.blockFormat, 0xFF)
  else match k.badInsn with
    | some f => some f
    | none => if k.graphOk then none else some (.blockFormat, 0xFF)

/-- What the launch and the strand do not allow, with the instruction it lies in: CALL without v0 and v1, HCALL without
s0 to s3, MMA in a narrow group, TRET outside trap mode (R47, R144, R387, R388). -/
def Code.misplaced (k : Code) (sregs width : Nat) (trap : Bool) : Option (FaultCode × Nat) :=
  let bad (op : Nat) (c : Bool) : Option (FaultCode × Nat) := if c then (k.first op).map fun i => (.blockFormat, i) else none
  (bad 0x009 (k.vregs < 2)).or ((bad 0x3C7 (sregs < 4)).or ((bad 0x283 (width < 64)).or (bad 0x3C8 (!trap))))

end Sys2Proof.Machine
end

