-- ==== Sys2Proof/Machine/Lanes.lean ====
section
/-! DEFINITION. Collectives, MASK, REGANG and barrier arrivals (10_ref_lanes: R186 to R201; 05_numbers: R117). Commit puts
the arrivals into force (Commit.lean); waits on barriers stand in Fire.lean. -/

namespace Sys2Proof.Machine

/-! ## Member masks (R186, R187, R307) -/

/-- Lanes parked without a successor (R40). -/
def Group.orphans (g : Group) : Mask :=
  g.parked.foldl (fun m p => if p.succ.isNone then m ||| p.mask else m) 0

/-- Lanes of a group that have quit. -/
def Group.quits (g : Group) : Mask := Mask.below g.width &&& ~~~g.live

/-- The lanes of lane set `pair` of a task group (R307). -/
def laneSet (g : Group) (pair : Nat) : Mask :=
  let tw := match g.joined with
    | some (code, _) => 8 * 2 ^ code
    | none => 0
  Mask.below tw <<< (tw * pair)

/-- A member mask names a lane at or above the group width, or outside a task strand's lane set (R186, R307). -/
def badMember (x : Site) (g : Group) (k : Mask) : Bool :=
  !Mask.within k (Mask.below g.width) ||
    (match x.st.task with
      | some n => !Mask.within k (laneSet g n)
      | none => false)

/-- Why lanes `m` may not arrive under member mask `k`, in the order of R187's table. -/
def arriveError (x : Site) (g : Group) (k m : Mask) : Option FaultCode :=
  if badMember x g k || !Mask.within m k || x.b.mask &&& k &&& ~~~m != 0 then some .illegalConvergence
  else if k &&& g.quits != 0 then some .memberExited
  else if k &&& g.orphans != 0 then some .illegalConvergence
  else none

/-! ## Holding (R188, R189) -/

/-- The lanes that have arrived at an instance. -/
def Collective.arrived (c : Collective) : Mask := c.arrivals.foldl (fun m a => m ||| a.2.2.1) 0

/-- Every named lane has arrived (R188). -/
def Collective.full (c : Collective) : Bool := Mask.within c.member c.arrived

/-- The instruction's results are delivered and kept in the block for a re-run (R189). -/
def giveResult (b : Blk) (i : Nat) (t : Token) : Blk :=
  let (ta, tb) := targetsOf b i
  { b.finish i ta tb t t with results := put b.results i [t] }

/-- An earlier uncommitted block of the strand has not yet resolved the same instruction of the same block address. -/
def Site.sameOpen (x : Site) : Bool := x.earlier.any fun b => b.addr == x.b.addr && !b.resolved.has x.i

/-- The lanes of `m` arrive: at the waiting instance of this instruction, or at a new one (R188). -/
def Site.arrive (x : Site) (s : State) (gk : Nat) (k m : Mask) (a b : Token) : State :=
  let me := (x.key, x.b.uid, m, a, b)
  let here : Collective → Bool := fun c => c.group == gk && c.addr == x.b.addr && c.index == x.i && !c.full
  let hold : Blk → Blk := fun b => { b.fire x.i with waits := put b.waits x.i .collective }
  match s.colls.find? here with
  | some c =>
    if c.member != k then x.fault s .illegalConvergence m x.b.addr
    else x.mod { s with colls := s.colls.map fun d =>
        if d.uid = c.uid then { d with arrivals := d.arrivals ++ [me] } else d } hold
  | none =>
    let (n, s) := fresh s
    x.mod { s with colls := s.colls ++ [⟨n, gk, x.b.addr, x.i, k, s.time.toNat, [me], false⟩] } hold

/-- A collective: an empty M completes at once, kept results are taken at once, otherwise the lanes arrive and the
instruction holds (R187 to R189). `j` is the operand that carries the member mask. -/
def Site.collective (x : Site) (s : State) (w : Plain) (n j : Nat) (empty : Token) : State :=
  let m := maskOf ((List.range n).map x.opnd)
  let k := (x.opnd j).scalar64
  match x.place s with
  | none => s
  | some p =>
    if m == 0 then x.yield s w.ta w.tb empty
    else match p.g.replay.find? fun r => r.blk == some x.b.uid && r.index == x.i with
      | some r =>
        x.mod (modGroup s p.gk fun g => { g with replay := g.replay.erase r }) fun b =>
          giveResult b x.i (r.toks.headD empty)
      | none => match arriveError x p.g k m with
        | some c => x.fault s c m x.b.addr
        | none => if x.sameOpen then s else x.arrive s p.gk k m (x.opnd 0) (x.opnd 1)

/-- SHFL (R190). -/
def execShfl (_m : ShflMode) (w : Plain) (s : State) : Host.Outcome State Fault Refusal :=
  atSite s fun x => x.collective s w 3 2 (laneTok w.ty.tokenWidth 0 fun _ => 0)

/-- VOTE (R191). -/
def execVote (_m : VoteMode) (w : Plain) (s : State) : Host.Outcome State Fault Refusal :=
  atSite s fun x => x.collective s w 2 1 (uniTok w.ty.tokenWidth 0 0)

/-- REDUX (R192). -/
def execRedux (_m : RedMode) (w : Plain) (s : State) : Host.Outcome State Fault Refusal :=
  atSite s fun x => x.collective s w 2 1 (uniTok w.ty.tokenWidth 0 0)

/-- ELECT (R193). -/
def execElect (_hi : Bool) (w : Plain) (s : State) : Host.Outcome State Fault Refusal :=
  atSite s fun x => x.collective s w 1 0 (laneTok 32 0 fun _ => 0)

/-- XSHFL (R194). -/
def execXshfl (w : Plain) (s : State) : Host.Outcome State Fault Refusal :=
  atSite s fun x => x.collective s w 3 2 (laneTok w.ty.tokenWidth 0 fun _ => 0)

/-! ## Results (R190 to R193) -/

/-- The value that lane `l` delivered as operand a to its own strand's instance. -/
def Collective.valA (c : Collective) (l : Nat) : Val :=
  ((c.arrivals.find? fun a => a.2.2.1.has l).map fun a => a.2.2.2.1.at_ l).getD 0

/-- The low 32 bits of operand b in lane `l`. -/
def Collective.valB (c : Collective) (l : Nat) : Nat :=
  ((c.arrivals.find? fun a => a.2.2.1.has l).map fun a => (a.2.2.2.2.at_ l).toNat % 2 ^ 32).getD 0

/-- SHFL's source lane (R190). -/
def shflSource (m : ShflMode) (l b : Nat) : Int :=
  match m with
  | .idx => b
  | .up => (l : Int) - b
  | .down => (l : Int) + b
  | .xor => (l ^^^ b : Nat)

/-- SHFL's value for lane `l` (R190). -/
def shflVal (c : Collective) (m : ShflMode) (width l : Nat) : Val :=
  let src := shflSource m l (c.valB l)
  if 0 ≤ src && src < width && c.member.has src.toNat then c.valA src.toNat else c.valA l

/-- VOTE's value (R191). -/
def voteVal (c : Collective) (m : VoteMode) (t : Ty) : Val :=
  let ls := c.member.lanes
  let a : Nat → Val := fun l => valOf t (c.valA l)
  match m with
  | .all => boolVal (ls.all fun l => a l != 0)
  | .any => boolVal (ls.any fun l => a l != 0)
  | .ballot => BitVec.ofNat 128 (ls.foldl (fun r l => if a l != 0 then r ||| Mask.one l else r) (0 : Mask)).toNat
  | .uni => boolVal (ls.all fun l => a l == a (ls.headD 0))

/-- REDUX's combination of two values (R192). -/
def reduxOp (m : RedMode) (t : Ty) (a b : Val) : Val :=
  if tyFloating t then
    let f := fmtOf t
    let x := a.toNat % 2 ^ t.width
    let y := b.toNat % 2 ^ t.width
    BitVec.ofNat 128 (match m with
      | .min => minMax true f x y
      | .max => minMax false f x y
      | _ => faddBits .rne f x y)
  else match m with
    | .add => carry t (intOf t a + intOf t b)
    | .min => if intOf t a ≤ intOf t b then a else b
    | .max => if intOf t b ≤ intOf t a then a else b
    | .and => carryBits t (a &&& b).toNat
    | .or => carryBits t (a ||| b).toNat
    | .xor => carryBits t (a ^^^ b).toNat

/-- One level of the lane-pairwise tree: a missing one of a pair passes the other up (R117). -/
def treeLevel (f : Val → Val → Val) : List (Option Val) → List (Option Val)
  | some a :: some b :: r => some (f a b) :: treeLevel f r
  | none :: y :: r => y :: treeLevel f r
  | x :: none :: r => x :: treeLevel f r
  | [x] => [x]
  | [] => []

/-- A leaf of the tree: the lane's value, a NaN as the canonical one, so that a tree of one leaf gives it too (R106). -/
def reduxLeaf (t : Ty) (v : Val) : Val :=
  let n := v.toNat % 2 ^ t.width
  if tyFloating t && Fp.ofBits (fmtOf t) n = .nan then BitVec.ofNat 128 (fmtOf t).canon else carryBits t n

/-- The root of the tree over 64 lanes (R117, R192). -/
def reduxVal (c : Collective) (m : RedMode) (t : Ty) : Val :=
  let leaves := (List.range 64).map fun l => if c.member.has l then some (reduxLeaf t (c.valA l)) else none
  let step := treeLevel (reduxOp m t)
  ((step (step (step (step (step (step leaves))))))[0]?.join).getD 0

/-- The lane that ELECT chooses (R193). -/
def elected (k : Mask) (hi : Bool) : Nat := if hi then k.lanes.getLastD 0 else k.lanes.headD 0

/-- The token of a participant with lanes `m` in a completed instance of an instruction (R190 to R193). -/
def collToken (c : Collective) (width : Nat) (i : Instr) (m : Mask) : Option Token :=
  match i with
  | .shfl mode w => some (laneTok w.ty.tokenWidth m fun l => carryBits w.ty (shflVal c mode width l).toNat)
  | .vote mode w => some (uniTok w.ty.tokenWidth m (voteVal c mode w.ty))
  | .redux mode w => some (uniTok w.ty.tokenWidth m (reduxVal c mode w.ty))
  | .elect hi _ => some (laneTok 32 m fun l => boolVal (l == elected c.member hi))
  | _ => none

/-- XSHFL's token for lanes `m` of an instance paired with `d` (R194). -/
def xshflToken (c d : Collective) (t : Ty) (m : Mask) : Token :=
  laneTok t.tokenWidth m fun l => carryBits t (if d.arrived.has l then d.valA l else c.valA l).toNat

/-! ## Completion, exchange and timeouts -/

/-- The instruction word of an instance. -/
def collInstr (s : State) (c : Collective) : Option Instr :=
  c.arrivals.head?.bind fun a => (findBlk s a.2.1).bind fun e => e.2.instr c.index

/-- Every participant of an instance gets the token `f` gives its lanes; the instance is gone (R188). -/
def completeColl (s : State) (c : Collective) (f : Mask → Token) : State :=
  let s := c.arrivals.foldl (fun s a => modBlk s a.1 a.2.1 fun b => giveResult b c.index (f a.2.2.1)) s
  { s with colls := s.colls.filter fun d => d.uid != c.uid }

/-- Every held strand of an instance faults at its block; the instance is gone (R188, R195). -/
def failColl (s : State) (c : Collective) (code : FaultCode) : State :=
  let s := c.arrivals.foldl (fun s a => modBlk s a.1 a.2.1 fun b =>
    { b.raise (clkOf s (coreOf a.1)) ⟨code, c.index, a.2.2.1, b.addr, 0⟩ with waits := del b.waits c.index }) s
  { s with colls := s.colls.filter fun d => d.uid != c.uid }

/-- The group's context, core and width. -/
def groupFacts (s : State) (gk : Nat) : Option (Nat × Nat × Nat) := do
  let g ← find s.groups gk
  let w ← find s.wgs g.wg
  return (w.ctx, g.core, g.width)

/-- An exchange id: bits [15:0] of operand b, as the instance's first arrival gives it (R194). -/
def exchangeId (c : Collective) : Nat := ((c.arrivals.head?.map fun a => a.2.2.2.2.scalar).getD 0) % 2 ^ 16

/-- The type of the XSHFL of an instance: each group's tokens are of its own (R194). -/
def xshflTy (s : State) (c : Collective) : Ty :=
  match collInstr s c with
  | some (.xshfl w) => w.ty
  | _ => .n32

/-- A completed XSHFL instance is offered: it pairs with the oldest unpaired offer of its key from another cluster, or
waits (R194). -/
def offerColl (s : State) (c : Collective) (t : Ty) (ctx core : Nat) : State :=
  let d := dieOf core
  let xid := exchangeId c
  match (die s d).offers.find? fun o => o.ctx == ctx && o.xid == xid && o.cluster != core / 4 with
  | some o =>
    match s.colls.find? fun e => e.uid == o.inst with
    | some e =>
      let s := modDie s d fun x => { x with offers := x.offers.filter fun p => p.uid != o.uid }
      completeColl (completeColl s c (xshflToken c e t)) e (xshflToken e c (xshflTy s e))
    | none => s
  | none =>
    let (n, s) := fresh s
    let s := modDie s d fun x => { x with offers := x.offers ++ [⟨n, ctx, xid, core / 4, c.uid, s.time.toNat⟩] }
    { s with colls := s.colls.map fun e => if e.uid = c.uid then { e with offered := true } else e }

/-- COLLECTIVE_COMPLETE: a held instance completes when every named lane has arrived; an XSHFL is offered to the die's
exchange table (R188, R194). -/
def execCollectiveComplete (id : Nat) (s : State) : Host.Outcome State Fault Refusal :=
  match s.colls.find? fun c => c.uid == id with
  | none => .next s
  | some c =>
    match c.full && !c.offered, collInstr s c, groupFacts s c.group with
    | true, some (.xshfl w), some (ctx, core, _) => .next (offerColl s c w.ty ctx core)
    | true, some i, some (_, _, width) =>
      .next (completeColl s c fun m => (collToken c width i m).getD noTok)
    | _, _, _ => .next s

/-- COLLECTIVE_TIMEOUT: an instance held past the barrier timeout faults BAR_TIMEOUT in every held strand (R188). -/
def execCollectiveTimeout (id : Nat) (s : State) : Host.Outcome State Fault Refusal :=
  match s.colls.find? fun c => c.uid == id with
  | none => .next s
  | some c =>
    if !c.full && c.since + s.barrierLimit ≤ s.time.toNat then .next (failColl s c .barTimeout) else .next s

/-- XSHFL_TIMEOUT: an offer unpaired past its limit is withdrawn and faults its strands (R195). -/
def execXshflTimeout (d id : Nat) (s : State) : Host.Outcome State Fault Refusal :=
  match (die s d).offers.find? fun o => o.uid == id with
  | none => .next s
  | some o =>
    if s.time.toNat < o.since + s.xshflLimit then .next s
    else
      let s := modDie s d fun x => { x with offers := x.offers.filter fun p => p.uid != id }
      match s.colls.find? fun c => c.uid == o.inst with
      | some c => .next (failColl s c .xshflTimeout)
      | none => .next s

/-! ## MASK (R196) -/

/-- The lanes that a MASK removes (R196). -/
def maskRemoves (keep : Bool) (m : Mask) (a : Token) : Mask :=
  if keep then a.mask.lanes.foldl (fun r l => if valOf .n64 (a.at_ l) == 0 then r ||| Mask.one l else r) 0
  else if a.mask == 0 then 0
  else m &&& ~~~a.scalar64

/-- MASK removes lanes from the strand; removed lanes' choices are dropped (R196, R383). Its K names lanes of the group, in
a task strand too (R186). With two MASKs in one block the rule does not say whether the new mask that one delivers leaves out
the lanes that the other removes: here each delivers the mask without its own removals alone (log entry 48). -/
def execMask (keep : Bool) (w : Plain) (s : State) : Host.Outcome State Fault Refusal :=
  atSite s fun x =>
    let a := x.opnd 0
    let r := maskRemoves keep x.b.mask a
    match x.place s with
    | none => s
    | some p =>
      if !keep && a.mask != 0 && !Mask.within a.scalar64 (Mask.below p.g.width) then x.fault s .illegalConvergence a.mask x.b.addr
      else if x.st.trap && r != 0 then x.fault s .illegalConvergence a.mask x.b.addr
      else
        let t := uniTok 64 a.mask (BitVec.ofNat 128 (x.b.mask &&& ~~~r).toNat)
        x.mod s fun b =>
          let b := b.finish x.i w.ta w.tb t t
          { b with removed := b.removed ||| r, choices := b.choices.filter fun e => !r.has e.1 }

/-! ## REGANG (R197, R198) -/

/-- The arrivals waiting at a label: strands with their keys, and parked pairs. -/
def waitingAt (s : State) (gk : Nat) (label : Word) : KMap Strand × List Parked :=
  ((strandsOf s gk).filter fun e => e.2.pc == label && (match e.2.st with
      | .label _ _ => true
      | _ => false),
   match find s.groups gk with
   | some g => g.parked.filter fun p => p.succ == some label && p.regang.isSome
   | none => [])

/-- The member mask that arrivals waiting at a label have set, if any wait (R197). -/
def labelMember (s : State) (gk : Nat) (label : Word) : Option Mask :=
  let (ss, ps) := waitingAt s gk label
  (ss.findSome? fun e => match e.2.st with
    | .label m _ => some m
    | _ => none).or (ps.findSome? Parked.regang)

/-- REGANG: the lanes of a choose to arrive at the label (R197); in trap mode a lane faults ILLEGAL_CONVERGENCE (R383). -/
def execRegang (w : ExitW) (s : State) : Host.Outcome State Fault Refusal :=
  atSite s fun x =>
    let a := x.opnd 0
    let k := a.scalar64
    match x.place s with
    | none => s
    | some p =>
      if a.mask == 0 then x.mod s fun b => b.resolve x.i
      else if x.st.trap || badMember x p.g k || !Mask.within a.mask k then
        x.fault s .illegalConvergence a.mask x.b.addr
      else if k &&& p.g.quits != 0 then x.fault s .memberExited a.mask x.b.addr
      else x.choose s a.mask (fun l => .regang (exitSucc x.b w a l) k) none

/-- The group without waiting pairs at a label and without the named lanes of pairs that have no successor. -/
def Group.rejoin (g : Group) (label : Word) (k : Mask) : Group :=
  { g with parked := (g.parked.filter fun p => !(p.succ == some label && p.regang.isSome)).filterMap fun p =>
      if p.succ.isNone then
        let m := p.mask &&& ~~~k
        if m == 0 then none else some { p with mask := m }
      else some p }

/-- The rejoined strand: the named lanes at the label, with what its members' later blocks must still wait for. -/
def rejoined (gk : Nat) (k : Mask) (label : Word) (task : Option Nat) (ms : List Strand) (ps : List Parked) : Strand :=
  { Strand.start gk k label with
    task := task
    barWait := (ms.flatMap Strand.barWait ++ ps.flatMap Parked.barWait).foldl insertNat []
    l1min := (ms.map Strand.l1min ++ ps.map Parked.l1min).foldl max 0
    asyncs := ms.flatMap Strand.asyncs ++ ps.flatMap Parked.asyncs
    drainFailed := (ms.findSome? Strand.drainFailed).or (ps.findSome? Parked.drainFailed)
    jobMin := (ms.map Strand.jobMin ++ ps.map Parked.jobMin).foldl max 0
    due := (ms.findSome? Strand.due).or (ps.findSome? Parked.due) }

/-- Every named lane has arrived: the members become one strand at the label, in the entry of the member that holds the
lowest lane, or in a free entry, or as a plain parked pair (R198). -/
def completeRegang (s : State) (gk : Nat) (label : Word) (k : Mask) : State :=
  let (ss, ps) := waitingAt s gk label
  let lost := ((find s.groups gk).map Group.parked).getD [] |>.filter fun p => p.succ.isNone && p.mask &&& k != 0
  let t := rejoined gk k label ((find s.groups gk).bind fun g => taskOf g k) (ss.map Prod.snd) (ps ++ lost)
  let s := modGroup s gk fun g => g.rejoin label k
  match leastBy (fun a b => a.2.mask.lowest.getD 64 < b.2.mask.lowest.getD 64) ss with
  | some (key, _) =>
    let s := { s with strands := put s.strands key t }
    (ss.filter fun e => e.1 != key).foldl (fun s e => freeStrand s e.1) s
  | none =>
    match find s.groups gk with
    | none => s
    | some g =>
      match (if groupHasRoom s gk then takeEntry s g.core else none) with
      | some e => { s with uid := s.uid + 1, strands := put s.strands (strandKey g.core e) t }
      | none =>
        modGroup s gk fun g =>
          { g with parked := g.parked ++ [⟨some label, k, s.time.toNat, none, none, t.barWait, t.asyncs, t.drainFailed, t.due,
            t.jobMin, t.l1min⟩] }

/-- REGANG_COMPLETE (R197, R198). -/
def execRegangComplete (gk : Nat) (label : Word) (s : State) : Host.Outcome State Fault Refusal :=
  match labelMember s gk label, find s.groups gk with
  | some k, some g =>
    let (ss, ps) := waitingAt s gk label
    let here := ps.foldl (fun m p => m ||| p.mask) (ss.foldl (fun m e => m ||| e.2.mask) 0)
    if groupHere s g && Mask.within k (here ||| g.orphans) then .next (completeRegang s gk label k) else .next s
  | _, _ => .next s

/-- The time at which a strand began to wait at its label. -/
def Strand.waitSince (t : Strand) : Nat :=
  match t.st with
  | .label _ n => n
  | _ => 0

/-- REGANG_TIMEOUT: waiting past the barrier timeout faults BAR_TIMEOUT at the label in every waiting member; a parked one
takes it when it becomes a strand (R198). -/
def execRegangTimeout (gk : Nat) (label : Word) (s : State) : Host.Outcome State Fault Refusal :=
  let (ss, ps) := waitingAt s gk label
  let starts := ss.map (fun e => e.2.waitSince) ++ ps.map Parked.stamp
  let here := (find s.groups gk).any fun g => groupHere s g
  if here && starts.any fun n => n + s.barrierLimit ≤ s.time.toNat then
    let late : Parked → Parked := fun p =>
      if p.succ == some label && p.regang.isSome then { p with regang := none, after := some .late } else p
    let s := modGroup s gk fun g => { g with parked := g.parked.map late }
    .next (ss.foldl (fun s e => takeFault s e.1 ⟨.barTimeout, 0xFF, e.2.mask, label.toNat, 0⟩ label) s)
  else .next s

/-! ## Barrier arrivals (R199, R200) -/

/-- A group's part in barrier `n`, nothing arrived. -/
def GroupBar.none_ : GroupBar := ⟨0, none, 0, none, []⟩

/-- The group's part in barrier `n`. -/
def Group.bar (g : Group) (n : Nat) : GroupBar := get g.bars n GroupBar.none_

/-- An arrival of lanes `m` with member mask `k` meets another member mask in its generation (R200). -/
def barConflict (b : GroupBar) (m k : Mask) : Bool :=
  (m &&& ~~~b.arrived != 0 && b.member.any (· != k)) || (m &&& b.arrived != 0 && b.memberNext.any (· != k))

/-- BAR and ARRV: checks at resolution, arrival at commit (R200). -/
def Site.barBy (x : Site) (s : State) (n : BitVec 4) (wait : Bool) : State :=
  let a := x.opnd 0
  let k := a.scalar64
  match x.place s with
  | none => s
  | some p =>
    if a.mask == 0 then x.mod s fun b => b.resolve x.i
    else if badMember x p.g k || !Mask.within a.mask k || barConflict (p.g.bar n.toNat) a.mask k then
      x.fault s .illegalConvergence a.mask x.b.addr
    else if k &&& p.g.quits != 0 then x.fault s .memberExited a.mask x.b.addr
    else x.mod s fun b =>
      { b.resolve x.i with effects := b.effects ++ [(x.i, .barArrive n.toNat a.mask k wait)] }

/-- BAR (R200). -/
def execBar (n : BitVec 4) (_w : Plain) (s : State) : Host.Outcome State Fault Refusal :=
  atSite s fun x => x.barBy s n true

/-- ARRV (R200). -/
def execArrv (n : BitVec 4) (_w : Plain) (s : State) : Host.Outcome State Fault Refusal :=
  atSite s fun x => x.barBy s n false

end Sys2Proof.Machine
end

