-- ==== Sys2Proof/Machine/Fire.lean ====
section
/-! DEFINITION. The fire of a block: its fetch, what it waits for, its reservations and the tokens of its header reads;
barrier generations (02_work: R37, R41, R43, R44; 03_encoding: R61, R67, R82, R83; 10_ref_lanes: R199 to R201;
12_ordering: R225). -/

namespace Sys2Proof.Machine

/-! ## Fetch (R61) -/

/-- One word of a block, read through the translation and the die's slice, never through L1. -/
def fetchWord (s : State) (c ctx va : Nat) : Except FaultCode Word × State :=
  if 2 ^ 52 ≤ va then (.error .pageFault, s)
  else match translate s c ctx va pteX with
    | (.fault f, s) => (.error f, s)
    | (.page e, s) =>
      if !pteX e.pte then (.error .accessViolation, s)
      else match accCheck s .load (accOf s e va) with
        | .error (_, f) => (.error f, s)
        | .ok a =>
          let s := fetchLine s (dieOf c) a
          let l := overlay (engineLine s (dieOf c) a) (inWritePath s c (lineOf (plainPa a.pa)))
          if l.2.getLsbD (plainPa a.pa % 128 / 64) then (.error .poisonConsumed, s)
          else (.ok (BitVec.ofNat 64 (lineGet l.1 (plainPa a.pa % 128) 8)), s)

/-- `n` words from `va`, or the first failure with its address. -/
def fetchWords (c ctx : Nat) : Nat → Nat → State → Except (FaultCode × Nat) (List Word) × State
  | 0, _, s => (.ok [], s)
  | n + 1, va, s => match fetchWord s c ctx va with
    | (.error f, s) => (.error (f, va), s)
    | (.ok w, s) => match fetchWords c ctx n (va + 8) s with
      | (.error e, s) => (.error e, s)
      | (.ok ws, s) => (.ok (w :: ws), s)

/-- Bits of the item that a queue register's endpoint gives (R277). -/
def itemBits (g : Group) (q : Nat) : Nat :=
  let b := get g.qregs q 0
  if canPop b && bindKind b != 3 then 128 else 32

/-- Scalar registers that the entries of a strand's block may name: a task bank and a trap bank have four (R305, R382). -/
def sregsOf (st : Strand) (l : Launch) : Nat := if st.trap || st.task.isSome then max l.sregs 4 else l.sregs

/-- The block at an address as strand `key`'s next one, or the fault of its checks: code, index, address (R82). The LOCK and
NSTORE fields of H0 are held to the instruction words, and so after step 3 has fetched them: a failing fetch of the rest goes
before a disagreement (R64; log entry 48). -/
def blockAt (s : State) (key : Nat) (st : Strand) (p : Place) (pc : Nat) : Except (FaultCode × Nat × Nat) Code × State :=
  let c := coreOf key
  match fetchWords c p.w.ctx 2 pc s with
  | (.error (f, a), s) => (.error (f, 0xFF, a), s)
  | (.ok ws, s) =>
    let w := ws.getD 0 0
    if !h0Ok w then (.error (.blockFormat, 0xFF, pc), s)
    else match fetchWords c p.w.ctx ((headerOf w).words - 2) (pc + 16) s with
      | (.error (f, a), s) => (.error (f, 0xFF, a), s)
      | (.ok rest, s) =>
        let k := codeOf pc (ws ++ rest) (itemBits p.g) p.l.vregs (sregsOf st p.l)
        match k.fault.or (k.misplaced p.l.sregs p.g.width st.trap) with
        | some (f, i) => (.error (f, i, pc), s)
        | none => (.ok k, s)

/-! ## Which block is next (R43) -/

/-- An instruction whose block keeps the next one from firing before it has committed (R43). -/
def holdsBack : Instr → Bool
  | .mask _ _ | .regang _ | .bar _ _ | .trap _ | .brk _ | .hcall _ | .tret _ | .xmatchJoin _ => true
  | _ => false

/-- An instruction by which lanes choose (R135). -/
def isExit : Instr → Bool
  | .exit _ | .call _ | .ret _ | .quit _ | .regang _ => true
  | _ => false

/-- The operand slots that take a token which instruction `i` of a block declares; none where it does not decode (R72). -/
def arityAt (b : Blk) (i : Nat) : Option Nat := ((b.words[i]?).bind fun w => (partsOf w).toOption).map arityOf

/-- Every operand slot that instruction `i` declares has been delivered (R72, R131). -/
def delivered (b : Blk) (i : Nat) : Bool :=
  (arityAt b i).any fun n => (List.range n).all fun k => (find b.slots (4 * i + k)).isSome

/-- Instructions without a token operand that have not yet fired: they fire when their block fires (R131). -/
def atFire (b : Blk) : List Nat :=
  (List.range b.words.length).filter fun i => arityAt b i == some 0 && !b.fired.has i

/-- Some instruction of the block satisfies `p`. -/
def Blk.has (b : Blk) (p : Instr → Bool) : Bool :=
  (List.range b.words.length).any fun i => match b.instr i with
    | some j => p j
    | none => false

/-- The lanes of a block by the successor each chose, in order of the lowest lane (R38, R135). -/
def successors (b : Blk) : List (Word × Mask) :=
  b.choices.foldl (fun r e => match e.2 with
    | .goto a =>
      if r.any fun x => x.1 == a then r.map fun x => if x.1 = a then (x.1, x.2 ||| Mask.one e.1) else x
      else r ++ [(a, Mask.one e.1)]
    | _ => r) []

/-- Where the strand goes after an uncommitted block, if it may run ahead of it (R43). -/
def runAhead (b : Blk) : Option (Word × Mask) :=
  if openBelow b 64 isExit || b.has holdsBack || !Mask.within b.mask (chosen b) then none
  else match successors b with
    | [e] => some e
    | _ => none

/-- The strand's next block and its lanes; none while it must wait for a commit (R43). -/
def nextBlock (st : Strand) : Option (Word × Mask) :=
  match st.blocks.getLast? with
  | none => some (st.pc, st.mask)
  | some b => if st.blocks.length < 4 && st.blocks.all fun b => b.raised.isNone then runAhead b else none

/-! ## What a block waits for (R41, R201, R225) -/

/-- An entry of an earlier block writes one of the registers `reg` to `reg + span - 1` of a kind. -/
def WEntry.hits (e : WEntry) (kind reg span : Nat) : Bool :=
  e.kind == kind && e.reg < reg + span && reg < e.reg + e.span

/-- The registers that an uncommitted block will write: its write entries and, with a CALL, the link in v0 and v1. -/
def Blk.willWrite (b : Blk) : List WEntry :=
  b.writes ++ (if b.has fun j => match j with
    | .call _ => true
    | _ => false then [⟨0, 0, 2⟩] else [])

/-- An uncommitted block will bind queue register `q`, or may: which register a QCFG.bind writes is known once it has performed
(R41, R292). -/
def Blk.mayBind (b : Blk) (q : Nat) : Bool :=
  b.effects.any (fun e => match e.2 with
    | .bind n _ _ _ => n == q
    | _ => false) ||
    openBelow b 64 fun i => match i with
      | .qcfgBind _ => true
      | _ => false

/-- Every header read is ready: no earlier uncommitted block will write the register, or bind the queue register (R41, R292). -/
def readsReady (st : Strand) (k : Code) : Bool :=
  k.reads.all fun r => st.blocks.all fun b =>
    b.willWrite.all (fun e => !e.hits r.kind r.reg (if r.kind = 0 then k.readWidth r / 32 else 1)) &&
      (r.kind != 2 || !b.mayBind r.reg)

/-- Generation `g` has reached target `t` (R201). -/
def reached (g t : BitVec 15) : Bool := (g - t).toNat < 2 ^ 14

/-- No lane of `m` has a pending target on barrier `n` that its generation has not reached (R201). -/
def barReached (w : Wg) (g : Group) (n : Nat) (m : Mask) : Bool :=
  (g.bar n).targets.all fun e => !m.has e.1 || reached (get w.barGen n 0) e.2

/-- The barriers that the strand's next block waits on: those of its last block's BARs and its own WAITBAR (R200). -/
def barsOf (st : Strand) (h : Header) : List Nat :=
  if h.waitbar = 0 then st.barWait else insertNat st.barWait h.waitbar

/-- An uncommitted block will arrive at barrier `n`. -/
def Blk.arrivesAt (b : Blk) (n : Nat) : Bool :=
  b.has fun j => match j with
    | .bar k _ => k.toNat == n
    | .arrv k _ => k.toNat == n
    | _ => false

/-- Reads, HOLD, ACQ and barriers let the block fire (R41, R43, R201, R225). R41 makes header reads wait for earlier
blocks' writes and names no such wait for a window that only a memory word names: the block uses that window as committed
at its fire (R240; log entry 48). -/
def fireReady (st : Strand) (p : Place) (k : Code) (m : Mask) : Bool :=
  readsReady st k && (!k.h.hold || (st.blocks.isEmpty && st.asyncs.isEmpty)) &&
    (k.h.acq == 0 || !st.blocks.any fun b => openBelow b 64 fun i => reads i || isLlock i) &&
    (barsOf st k.h).all fun n => barReached p.w p.g n m && !st.blocks.any fun b => b.arrivesAt n

/-! ## Reservations (R44, R278) -/

/-- The queue registers that the block pops, in read-entry order. -/
def popsOf (k : Code) : List Nat := (k.reads.filter fun r => r.kind == 2).map REntry.reg

/-- A read entry's register has no pop, or a write entry's no push (R69, R277). -/
def unbound (g : Group) (k : Code) : Bool :=
  (popsOf k).any (fun q => !canPop (get g.qregs q 0)) ||
    k.writes.any fun w => w.kind == 2 && !canPush (get g.qregs w.reg 0)

/-- The pops reserved for block `uid` with their items, if there are items for all (R278). -/
def reservePops (g : Group) (c uid : Nat) : List Nat → State → Option (List Val × State)
  | [], s => some ([], s)
  | q :: qs, s =>
    let b := get g.qregs q 0
    let items := endItems s c b
    match items.findIdx? fun i => i.resv.isNone with
    | none => none
    | some n =>
      let s := modItems s c b fun l => l.modify n fun i => { i with resv := some uid }
      (reservePops g c uid qs s).map fun r => ((items.getD n ⟨0, none⟩).val :: r.1, r.2)

/-- A window register that nothing has written (R124). -/
def WinReg.none_ : WinReg := ⟨0, ⟨false, 0, 0, 0⟩⟩

/-- The windows that the block's memory words name (R41, R75). A header read of kind w delivers its window as it stands
and does not count as a use that translates it again (log entry 48). -/
def winsUsed (k : Code) : List Nat :=
  k.parts.foldl (fun r p => match p.map Parts.body, p.map Parts.op with
    | some (.mem w), some op => if w.win = 15 || op == 0x202 || op == 0x203 then r else insertNat r w.win.toNat
    | _, _ => r) []

/-- Invalid windows translated again from VBASE, or the failure with that address (R41, R212). R83 reports such a fault at the
block's address and R212 names no other: that the record's ADDR is VBASE is the model's choice (log entry 48). -/
def openWins (c ctx : Nat) : List Nat → KMap WinReg → State → Except (FaultCode × Nat) (KMap WinReg) × State
  | [], ws, s => (.ok ws, s)
  | n :: ns, ws, s =>
    let w := get ws n WinReg.none_
    if winValid w.bits then openWins c ctx ns ws s
    else match fillWindow s c ctx (winVbase w.bits) with
      | (.error f, s) => (.error (f, winVbase w.bits), s)
      | (.ok r, s) => openWins c ctx ns (put ws n r) s

/-! ## The tokens of header reads (R67, R130) -/

/-- Vector register `reg` and its followers of lane `l`, `n` registers in all (R68, R121). -/
def vregVal (g : Group) (l : Nat) : Nat → Nat → Nat
  | _, 0 => 0
  | reg, n + 1 => (get g.vregs (64 * reg + l) 0).toNat + 2 ^ 32 * vregVal g l (reg + 1) n

/-- The token of a read entry; `pop` is the reserved item of one of kind q. -/
def readTok (k : Code) (g : Group) (st : Strand) (m : Mask) (r : REntry) (pop : Val) : Token :=
  let n := k.readWidth r
  match r.kind with
  | 0 => laneTok n m fun l => BitVec.ofNat 128 (vregVal g l r.reg (n / 32))
  | 1 => uniTok 64 m (BitVec.ofNat 128 (sregVal g st r.reg).toNat)
  | 2 => uniTok n m pop
  | _ => { uniTok 128 m (winVal (get g.wins r.reg WinReg.none_)) with win := true }

/-- The block's slots after its header reads (R67). -/
def readSlots (k : Code) (g : Group) (st : Strand) (m : Mask) : List REntry → List Val → KMap Token → KMap Token
  | [], _, r => r
  | e :: es, pops, r =>
    let t := readTok k g st m e (pops.headD 0)
    let put_ : KMap Token → Nat → KMap Token := fun r n => if n = 0xFF then r else put r n t
    readSlots k g st m es (if e.kind = 2 then pops.drop 1 else pops) (put_ (put_ r e.ta) e.tb)

/-! ## The fire -/

/-- Header ACQ makes the block's loads use no L1 line filled before: cluster scope and wider, or workgroup scope with
COOP (R225). -/
def acqFresh (h : Header) (l : Launch) : Bool := 3 ≤ h.acq || (h.acq == 2 && l.coop)

/-- The targets that the fire has waited for clear (R201). -/
def clearTargets (g : Group) (ns : List Nat) (m : Mask) : Group :=
  ns.foldl (fun g n =>
    let b := g.bar n
    let b : GroupBar := { b with targets := b.targets.filter fun e => !m.has e.1 }
    { g with bars := store g.bars n b GroupBar.none_ }) g

/-- The 4 KiB pages whose translations the block holds as it fires: those of its own words, and of the windows that its
memory words name or its header reads (R211). -/
def firePages (k : Code) (wins : KMap WinReg) : List Nat :=
  let own := (List.range (8 * k.ws.length)).foldl (fun r o => insertNat r ((k.addr + o) / 4096)) []
  let used := winsUsed k ++ (k.reads.filter fun r => r.kind == 3).map REntry.reg
  used.foldl (fun r n => match find wins n with
    | some w => if winValid w.bits then insertNat r (winVbase w.bits / 4096) else r
    | none => r) own

/-- The strand's lanes `m` fire the block at `addr` as block `uid`, in trap mode or not: replay records of those lanes and that
mode come a block nearer; one that was next is the block's own if the address and lanes are the same, and is dropped otherwise
(R189, R382). -/
def Group.meetReplay (g : Group) (trap : Bool) (m : Mask) (addr uid : Nat) : Group :=
  { g with replay := g.replay.filterMap fun r =>
      if r.blk.isSome || m &&& r.mask == 0 || r.trap != trap then some r
      else if r.ahead ≠ 0 then some { r with ahead := r.ahead - 1 }
      else if r.addr = addr && r.mask = m then some { r with blk := some uid } else none }

/-- The block enters flight: the windows, the time and CLK as they stand, its tokens delivered, its targets cleared (R41, R42,
R370). A block with HOLD
and those after it use no L1 line that was filled before the last job it waited for had made its writes (R43, R233). -/
def enterFlight (s : State) (key : Nat) (st : Strand) (p : Place) (k : Code) (m : Mask) (uid : Nat) (pops : List Val)
    (wins : KMap WinReg) : State :=
  let (n, s) := if acqFresh k.h p.l then fresh s else (if k.h.hold then max st.l1min st.jobMin else st.l1min, s)
  let b : Blk := ⟨uid, k.addr, 8 * k.ws.length, k.h, k.h1, k.insns, k.writes, m,
    (die s (dieOf (coreOf key))).sample.toNat, coreClk s (coreOf key), (queueOf s p.l.queue).prio,
    readSlots k p.g st m k.reads pops [], 0, 0, [], [], 0, none, 0, [], [], [], wins, firePages k wins, popsOf k, n, 0⟩
  let s := modGroup s p.gk fun g =>
    ({ clearTargets g (barsOf st k.h) m with wins := wins } : Group).meetReplay st.trap m k.addr uid
  bump (modStrand s key fun t => { t with blocks := t.blocks ++ [b], barWait := [], l1min := n }) (coreOf key) 1 1

/-- The strand may fire at all: ready, resident, its die running (R21, R41, R54). -/
def mayFire (s : State) (key : Nat) (st : Strand) (p : Place) : Bool :=
  st.st = .ready && p.w.st = .resident && !p.w.leaving &&
    ((die s (dieOf (coreOf key))).mode == .run || (die s (dieOf (coreOf key))).mode == .ember) &&
    !(die s (dieOf (coreOf key))).inReset && (p.g.joined.isNone || st.task.isSome)

/-- A fault found at fire: with earlier blocks in flight it waits, since their commit decides whether it is reached
(R83, R378). -/
def fireFault (s : State) (key : Nat) (st : Strand) (pc : Word) (m : Mask) (f : FaultCode) (i a : Nat) : State :=
  if st.blocks.isEmpty then takeFault s key ⟨f, i, m, a, 0⟩ pc else s

/-- A strand of a higher entry has popped a queue in this die clock: of strands that fire in one clock, the lower entry reserves
first (R278). -/
def popTurn (s : State) (c e : Nat) : Bool := (core s c).popped.all fun n => n.1 != clkOf s c || n.2 ≤ e

/-- The strand of entry `e` has popped queues as it fired in this clock (R278). -/
def notePops (s : State) (c e : Nat) (pops : List Nat) : State :=
  if pops.isEmpty then s else modCore s c fun x => { x with popped := some (clkOf s c, e) }

/-- A checked and ready block: a failed drain met by HOLD, unbound queues, TASK, pops, windows, then flight (R64, R69,
R83, R249, R278, R380). -/
def fireCode (s : State) (key : Nat) (st : Strand) (p : Place) (pc : Word) (m : Mask) (k : Code) : State :=
  let (uid, t) := fresh s
  if k.h.hold && st.drainFailed.isSome then
    fireFault (modStrand s key fun t => { t with drainFailed := none }) key st pc m .dieOffline 0xFF
      (dieId (st.drainFailed.getD 0))
  else if unbound p.g k then fireFault s key st pc m .queueUnbound 0xFF pc.toNat
  else if k.h.task != (st.first && !st.trap && st.blocks.isEmpty) then fireFault s key st pc m .blockFormat 0xFF pc.toNat
  else if !(popsOf k).isEmpty && !popTurn s (coreOf key) (key % 256) then s
  else match reservePops p.g (coreOf key) uid (popsOf k) (notePops t (coreOf key) (key % 256) (popsOf k)) with
    | none => s
    | some (pops, t) =>
      match openWins (coreOf key) p.w.ctx (winsUsed k) p.g.wins t with
      | (.error (f, a), _) => fireFault s key st pc m f 0xFF a
      | (.ok wins, t) => enterFlight t key st p k m uid pops wins

/-- A strand of the same workgroup on the same core whose turn after a resumption comes before (R392). -/
def turnWaits (s : State) (key : Nat) (st : Strand) (wk : Nat) : Bool :=
  st.turn != 0 && s.strands.any fun e => coreOf e.1 == coreOf key && e.2.turn != 0 && e.2.turn < st.turn &&
    ((find s.groups e.2.group).any fun g => g.wg == wk) && e.2.st = .ready

/-- What a strand with a fault due takes at its next block: the park of a stopped workgroup, whose one record has been sent,
or a barrier's timeout once its earlier blocks have committed (R201, R381). -/
def fireDue (s : State) (key : Nat) (st : Strand) (pc : Word) (m : Mask) (due : FaultCode × Option Untaken) : State :=
  if !st.blocks.isEmpty then s
  else if due.1 = .watchdog then
    modStrand s key fun t => { t with st := .parked .watchdog, record := due.2, due := none }
  else takeFault (modStrand s key fun t => { t with due := none }) key ⟨due.1, 0xFF, m, pc.toNat, 0⟩ pc

/-- The block's words stand in a line that is held for an uncommitted block's atomics: its fetch waits (R230). -/
def fetchHeld (s : State) (c ctx pc : Nat) : Bool :=
  let n := match fetchWord s c ctx pc with
    | (.ok w, _) => if h0Ok w then (headerOf w).words else 2
    | _ => 2
  readsHeld s c ctx pc (8 * n)

/-- BLOCK_FIRE: a strand's next block is fetched and checked, and fires once it is ready (R41, R82, R83). Strands that a
resumption has restored take their first turns in strand-record order (R392). -/
def execBlockFire (core_ entry : Nat) (s : State) : Host.Outcome State Fault Refusal :=
  let key := strandKey core_ entry
  match placeOf s key with
  | none => .next s
  | some (st, p) =>
    if !mayFire s key st p || turnWaits s key st p.wk then .next s
    else match nextBlock st with
      | none => .next s
      | some (pc, m) =>
        match st.due with
        | some e => .next (fireDue s key st pc m e)
        | none =>
        if fetchHeld s core_ p.w.ctx pc.toNat then .next s else
        let s := modStrand s key fun t => { t with turn := 0 }
        match blockAt s key st p pc.toNat with
        | (.error (f, i, a), s) => .next (fireFault s key st pc m f i a)
        | (.ok k, s) => if fireReady st p k m then .next (fireCode s key st p pc m k) else .next s

/-! ## Barrier generations (R199 to R201) -/

/-- Every group's member lanes have arrived or quit, and some lane has arrived (R200). -/
def barComplete (s : State) (wk n : Nat) : Bool :=
  let gs := (groupsOf s wk).map Prod.snd
  gs.all (fun g => Mask.within ((g.bar n).member.getD g.live &&& g.live) (g.bar n).arrived) &&
    gs.any fun g => (g.bar n).arrived != 0

/-- A group's part in the next generation (R199, R200). -/
def GroupBar.advance (b : GroupBar) : GroupBar := ⟨b.arrivedNext, b.memberNext, 0, none, b.targets⟩

/-- Barrier `n` goes on to its next generation, broken or passed (R200, R201). The timeout of a generation whose first arrivals
came early, counted toward it by R200, starts here, as the generation begins; no rule says whether it runs from those arrivals
(log entry 48). -/
def advanceBar (s : State) (wk n : Nat) (broken : Bool) : State :=
  let s := { s with groups := mapVals s.groups fun g =>
      if g.wg = wk then { g with bars := store g.bars n (g.bar n).advance GroupBar.none_ } else g }
  let begun := (groupsOf s wk).any fun e => (e.2.bar n).arrived != 0
  modWg s wk fun w =>
    { w with
      barGen := store w.barGen n (get w.barGen n 0 + 1) 0
      barStart := if begun then put w.barStart n s.time.toNat else del w.barStart n
      broken := if broken = true then insertNat w.broken n else removeNat w.broken n }

/-- Barrier `n` passes as often as it is complete; two generations are the most that can be (R200). -/
def settleBar (s : State) (wk n : Nat) : State :=
  let once : State → State := fun s => if barComplete s wk n then advanceBar s wk n false else s
  once (once s)

/-- A strand waits on barrier `n` at its next block, whether or not earlier blocks of it are still in flight (R201). -/
def waitsOnBar (s : State) (n : Nat) (e : Nat × Strand) : Bool :=
  match placeOf s e.1, nextBlock e.2 with
  | some (st, p), some (pc, m) =>
    let named := st.barWait.contains n || (match fetchWord s (coreOf e.1) p.w.ctx pc.toNat with
      | (.ok w, _) => h0Ok w && (headerOf w).waitbar == n
      | _ => false)
    st.st = .ready && named && !barReached p.w p.g n m
  | _, _ => false

/-- A strand that waits on a broken barrier faults at its waiting block: at once, or once its blocks in flight have committed
(R201, R377). -/
def lateAtBar (s : State) (e : Nat × Strand) : State :=
  if e.2.blocks.isEmpty then takeFault s e.1 ⟨.barTimeout, 0xFF, e.2.mask, e.2.pc.toNat, 0⟩ e.2.pc
  else modStrand s e.1 fun t => { t with due := t.due.or (some (.barTimeout, none)) }

/-- BAR_TIMEOUT: a generation's timeout has passed since its first arrival; it breaks, and every strand waiting on it
faults at its waiting block (R201). -/
def execBarTimeout (wk n : Nat) (s : State) : Host.Outcome State Fault Refusal :=
  match find s.wgs wk with
  | none => .next s
  | some w =>
    match w.st, find w.barStart n with
    | .resident, some t =>
      if s.time.toNat < t + s.barrierLimit then .next s
      else
        let late := (groupsOf s wk).flatMap fun g => (strandsOf s g.1).filter (waitsOnBar s n)
        let s := settleBar (advanceBar s wk n true) wk n
        .next (late.foldl lateAtBar s)
    | _, _ => .next s

end Sys2Proof.Machine
end

