-- ==== Sys2Proof/Machine/Locks.lean ====
section
/-! DEFINITION. Line locks: the instructions, the home slices' lock state, handover, away waiters, timeouts and probe
chains (13_ref_memory: R253 to R260; 11_memories: R216; 12_ordering: R235). -/

namespace Sys2Proof.Machine

/-- Lanes `a` and `b` share a lane. -/
def meet (a b : Mask) : Bool := a &&& b != 0

/-- The group's entry that a request of lanes `m` on a line matches (R254). -/
def heldEntry (g : Group) (line : Nat) (m : Mask) : Option HeldLock :=
  g.locks.find? fun h => h.line == line && meet h.lanes m

/-- The lock of a line. -/
def lockOf (s : State) (line : Nat) : Option Lock := s.locks.find? fun l => l.line == line

/-- A locked line installed in a core's L1 for group `gk`, with the data that the grant carries: the home's, under what the
core's die still holds for it (R235, R255). Where locked lines fill the L1 the group holds the lock without the line there: no rule
says what gives way (R2, R12, R202; log entry 49). -/
def installLocked (s : State) (c line gk : Nat) : State :=
  let (l, s) := serveLine s (((lockOf s line).map Lock.home).getD 4) line false
  let s := fillL1 s c line (overlay l (pending s (dieOf c) line))
  modCore s c fun x => { x with l1 := edit x.l1 line fun l => { l with locked := some gk } }

/-- The waiting instruction gets its status and resolves; its block will make the entry GRANTED (R253, R254). -/
def lockStatus (s : State) (w : Waiter) (line status : Nat) : State :=
  match findBlk s w.blk with
  | some (key, b) =>
    match find b.waits w.index with
    | some (.lock m _) =>
      let t := numTok 32 m status
      let (ta, tb) := targetsOf b w.index
      modBlk s key w.blk fun b =>
        let b := b.finish w.index ta tb t t
        if status == 0 || status == 2 then { b with effects := b.effects ++ [(w.index, .lockSeen line)] } else b
    | _ => s
  | none => s

/-- The waiting instruction faults; a deadlock names the strand's lanes (R241, R257). -/
def lockFault (s : State) (w : Waiter) (c : FaultCode) (addr : Option Nat) : State :=
  match findBlk s w.blk with
  | some (key, b) =>
    match find b.waits w.index with
    | some (.lock m a) =>
      let m := if c = .lockDeadlock then w.lanes else m
      modBlk s key w.blk fun b =>
        { b.raise (clkOf s (coreOf key)) ⟨c, w.index, m, addr.getD a, 0⟩ with waits := del b.waits w.index }
    | _ => s
  | none => s

/-- The state with a line's lock replaced. -/
def setLock (s : State) (l : Lock) : State :=
  { s with locks := (s.locks.filter fun x => x.line != l.line) ++ [l] }

/-- The state without a line's lock. -/
def dropLock (s : State) (line : Nat) : State := { s with locks := s.locks.filter fun x => x.line != line }

/-- A group holds a line: an entry of its held set, the line locked in its core's L1, and later loads ordered as after
a die-scope acquire (R235, R255). -/
def holdLine (s : State) (w : Waiter) (line status : Nat) : State :=
  let s := modGroup s w.group fun g => { g with locks := g.locks ++ [⟨line, w.lanes, status⟩] }
  let s := installLocked s w.core line w.group
  let (n, s) := fresh s
  { s with strands := mapVals s.strands fun t =>
      if t.group = w.group && meet t.mask w.lanes then t.acquire n w.blk else t }

/-- The held-lock set of a group is full (R253, R254). -/
def setFull (s : State) (gk : Nat) : Bool := (find s.groups gk).any fun g => 16 ≤ g.locks.length

/-- Lock `l` goes with a status to the first of a list of waiters that can take it (R255, R256, R258). A grant that reaches an away
waiter is held for it. One that reaches a waiter whose group's held set has filled since it asked passes on, and that LLOCK
delivers LIMIT (log entry 50). With no waiter left the lock is free, marked when the grant carries POISONED. -/
def grantTo (l : Lock) (status : Nat) : List Waiter → State → State
  | [], s =>
    if status = 2 then setLock s { l with owner := none, waiters := [], poisoned := true, awaySince := none, awayPois := false }
    else dropLock s l.line
  | w :: ws, s =>
    if w.away then
      setLock s { l with
        owner := some w, waiters := ws, poisoned := false, awaySince := some s.time.toNat, awayPois := status == 2 }
    else if setFull s w.group then grantTo l status ws (lockStatus s w l.line 3)
    else
      let s := setLock s { l with owner := some w, waiters := ws, poisoned := false, awaySince := none, awayPois := false }
      lockStatus (holdLine s w l.line status) w l.line status

/-- The lock leaves its owner, to those that wait for it, with a status (R256, R258, R260). -/
def passLock (s : State) (l : Lock) (status : Nat) : State := grantTo l status l.waiters s

/-- The status that a held grant carries (R256, R258). -/
def Lock.carried (l : Lock) : Nat := if l.awayPois then 2 else 0

/-- The locks that the home slice of a line keeps (R204, R216). -/
def sliceLocks (s : State) (home line : Nat) : List Lock :=
  s.locks.filter fun l => l.home == home && sliceOf l.line == sliceOf line

/-- The home slice of a line has no free entry in its held-lock table (R216). -/
def lockTableFull (s : State) (home line : Nat) : Bool := 4096 ≤ (sliceLocks s home line).length

/-- The home slice of a line has no free entry in its waiter table (R216). -/
def waiterTableFull (s : State) (home line : Nat) : Bool :=
  512 ≤ ((sliceLocks s home line).map fun l => l.waiters.length).sum

/-- A held grant whose hold window has passed (R256). -/
def windowPassed (s : State) (l : Lock) : Bool :=
  match l.awaySince with
  | some t => t + s.holdLimit ≤ s.time.toNat
  | none => false

/-! ## The instructions -/

/-- LLOCK and LTRY: checks, the held set, LIMIT where it is full, else a request to the home slice (R253 to R255, R259). -/
def Site.lockBy (x : Site) (s : State) (w : MemW) (only : Bool) : State :=
  let a := x.opnd 0
  match x.place s, a.mask.lowest with
  | some p, some l0 =>
    match laneCheck s x p.w.ctx w a 1 .lock l0 with
    | (.error (_, c), s) => x.fault s c a.mask (laneAddr x.b w a l0)
    | (.ok r, s) =>
      let line := lineOf (plainPa r.pa)
      let s := usePages s x [laneAddr x.b w a l0]
      match heldEntry p.g line x.b.mask with
      | some h => x.commitWith s w.ta w.tb (numTok 32 a.mask h.status) (.lockSeen line)
      | none =>
        if 16 ≤ p.g.locks.length then x.yield s w.ta w.tb (numTok 32 a.mask 3)
        else
          let (n, s) := fresh s
          let q : Waiter := ⟨n, p.w.ctx, dieOf x.core, x.core, p.g.slot, p.gk, x.key, x.b.mask, x.b.uid, x.b.addr,
            x.i, false, 0, 0⟩
          let s := x.mod s fun b =>
            { b.fire x.i with waits := put b.waits x.i (.lock a.mask (laneAddr x.b w a l0)) }
          { s with lockMsgs := s.lockMsgs ++ [.request q line r.home only false] }
  | some _, none => x.yield s w.ta w.tb (numTok 32 0 0)
  | none, _ => s

/-- LLOCK (R255). -/
def execLlock (w : MemW) (s : State) : Host.Outcome State Fault Refusal := atSite s fun x => x.lockBy s w false

/-- LTRY (R259). -/
def execLtry (w : MemW) (s : State) : Host.Outcome State Fault Refusal := atSite s fun x => x.lockBy s w true

/-- LUNLK: NOTHELD, or GRANTED with the release at commit (R260). -/
def execLunlk (w : MemW) (s : State) : Host.Outcome State Fault Refusal :=
  atSite s fun x =>
    let a := x.opnd 0
    match x.place s, a.mask.lowest with
    | some p, some l0 =>
      match laneCheck s x p.w.ctx w a 1 .unlock l0 with
      | (.error (_, c), s) => x.fault s c a.mask (laneAddr x.b w a l0)
      | (.ok r, s) =>
        let line := lineOf (plainPa r.pa)
        let s := usePages s x [laneAddr x.b w a l0]
        if (heldEntry p.g line x.b.mask).isSome then
          x.commitWith s w.ta w.tb (numTok 32 a.mask 0) (.lockRelease line)
        else x.yield s w.ta w.tb (numTok 32 a.mask 5)
    | some _, none => x.yield s w.ta w.tb (numTok 32 0 0)
    | none, _ => s

/-- A LUNLK's effect at commit: the entry goes, the locked L1 line is dropped, the release goes to the home slice behind
the stores of all holding lanes to the line (R235, R260). -/
def releaseLine (s : State) (key line : Nat) (m : Mask) : State :=
  match placeOf s key with
  | none => s
  | some (_, p) =>
    match heldEntry p.g line m with
    | none => s
    | some h =>
      let s := modGroup s p.gk fun g => { g with locks := g.locks.filter fun e => e != h }
      let s := modCore s (coreOf key) fun c =>
        { c with l1 := c.l1.filter fun e => !(e.1 == line && e.2.locked == some p.gk) }
      let home := ((lockOf s line).map Lock.home).getD (homeOf s line 0)
      let behind := (s.posted.filter fun q => q.line == line && q.group == p.gk && meet q.lanes h.lanes).map Posted.uid
      let (n, s) := fresh s
      { s with lockMsgs := s.lockMsgs ++ [.release n line home p.gk h.lanes behind] }

/-- A committed block that received a status makes the entry GRANTED (R254). -/
def seeLock (s : State) (key line : Nat) (m : Mask) : State :=
  match find s.strands key with
  | none => s
  | some st => modGroup s st.group fun g =>
      { g with locks := g.locks.map fun h => if h.line = line && meet h.lanes m then { h with status := 0 } else h }

/-! ## At the home slice -/

/-- The number of a lock message. -/
def LockMsg.num : LockMsg → Nat
  | .request w _ _ _ _ => w.uid
  | .release n _ _ _ _ _ => n

/-- A waiting entry that a re-run request takes up again: the same group and lanes, no block attached (R256). -/
def sameWaiter (w v : Waiter) : Bool := v.group == w.group && meet v.lanes w.lanes && v.blk == 0

/-- The entry that a request's own group has come to hold for its lanes while the request was on its way (R254, R256). -/
def ownEntry (s : State) (w : Waiter) (line : Nat) : Option HeldLock :=
  (find s.groups w.group).bind fun g => heldEntry g line w.lanes

/-- An accepted request at a line's lock: granted, LIMIT where its group's held set has filled since it was sent, queued at the
tail, or BUSY for LTRY (R216, R255, R256, R259; log entry 50). -/
def acceptRequest (s : State) (w : Waiter) (line home : Nat) (only : Bool) : State :=
  let (n, s) := fresh s
  let w := { w with since := s.time.toNat, seq := n }
  let grant (l : Lock) (status : Nat) : State :=
    if !w.away && setFull s w.group then lockStatus s w line 3 else grantTo l status [w] s
  match lockOf s line with
  | none => grant ⟨line, home, none, [], false, none, false⟩ 0
  | some l =>
    match l.owner with
    | none => grant l (if l.poisoned then 2 else 0)
    | some _ =>
      if windowPassed s l && l.waiters.isEmpty then grant l l.carried
      else if only = true then lockStatus s w line 4
      else if l.waiters.any (sameWaiter w) then
        let f : Waiter → Waiter := fun v =>
          if sameWaiter w v then { w with lanes := v.lanes, since := v.since, seq := v.seq } else v
        setLock s { l with waiters := l.waiters.map f }
      else setLock s { l with waiters := l.waiters ++ [w] }

/-- LOCK_REQUEST_ARRIVAL: a request reaches the home slice; one that finds a table full is turned back, a dead home
faults it, and one whose group holds the line by now has the entry's status (R216, R241, R254 to R256, R259). -/
def execLockRequestArrival (id : Nat) (s : State) : Host.Outcome State Fault Refusal :=
  match s.lockMsgs.find? fun m => m.num == id with
  | some (.request w line home only false) =>
    let gone := { s with lockMsgs := s.lockMsgs.filter fun m => m.num != id }
    if !dieUp s home then .next (lockFault gone w .dieOffline none)
    else match ownEntry s w line with
    | some h => .next (lockStatus gone w line h.status)
    | none =>
      let full := match lockOf s line with
        | none => lockTableFull s home line
        | some l => l.owner.isSome && !(windowPassed s l && l.waiters.isEmpty) && !l.waiters.any (sameWaiter w) &&
            !only && waiterTableFull s home line
      if full then
        if only = true then .next (lockStatus gone w line 4)
        else .next { s with lockMsgs := s.lockMsgs.map fun m =>
            if m.num = id then .request w line home only true else m }
      else .next (acceptRequest gone w line home only)
  | _ => .next s

/-- LOCK_RESEND: a turned-back request is sent again (R216). -/
def execLockResend (id : Nat) (s : State) : Host.Outcome State Fault Refusal :=
  match s.lockMsgs.find? fun m => m.num == id with
  | some (.request w line home only true) =>
    .next { s with lockMsgs := (s.lockMsgs.filter fun m => m.num != id) ++ [.request w line home only false] }
  | _ => .next s

/-- LOCK_RELEASE_ARRIVAL: a release reaches the home slice once the stores before it are applied there, and the lock
passes to the next waiter (R235, R260). -/
def execLockReleaseArrival (id : Nat) (s : State) : Host.Outcome State Fault Refusal :=
  match s.lockMsgs.find? fun m => m.num == id with
  | some (.release _ line _ g lanes behind) =>
    if s.posted.any fun q => behind.contains q.uid && q.stage < 2 then .next s
    else
      let s := { s with lockMsgs := s.lockMsgs.filter fun m => m.num != id }
      match lockOf s line with
      | some l =>
        match l.owner with
        | some w =>
          if dieUp s l.home && w.group == g && meet w.lanes lanes && l.awaySince.isNone then .next (passLock s l 0)
          else .next s
        | none => .next s
      | none => .next s
  | _ => .next s

/-- HOLD_WINDOW_EXPIRY: a grant held for an away waiter passes to the waiter behind with the status it carried; with
none behind it stays held (R256, R258). -/
def execHoldWindowExpiry (line : Nat) (s : State) : Host.Outcome State Fault Refusal :=
  match lockOf s line with
  | some l =>
    if dieUp s l.home && windowPassed s l && !l.waiters.isEmpty then
      .next (passLock s l l.carried)
    else .next s
  | none => .next s

/-! ## Timeouts and probe chains (R257) -/

/-- The lines on which a group has a waiter entry, in the order in which the entries were accepted. -/
def waitsOn (s : State) (gk : Nat) : List Nat :=
  let es := s.locks.flatMap fun l => (l.waiters.filter fun w => w.group == gk).map fun w => (w.seq, l.line)
  (es.mergeSort fun a b => a.1 ≤ b.1).map Prod.snd

/-- The owner group of a line. -/
def ownerOf (s : State) (line : Nat) : Option Nat := (lockOf s line).bind fun l => l.owner.map Waiter.group

/-- The probe chain over at most `n` owners: the groups to follow, each with the path of groups and lines that led to it;
the answer is the path of a cycle back to `me`. -/
def probe (s : State) (me : Nat) : Nat → List (Nat × List (Nat × Nat)) → Option (List (Nat × Nat))
  | 0, _ => none
  | _, [] => none
  | n + 1, (g, path) :: rest =>
    if g == me then some path
    else
      let next := (waitsOn s g).filterMap fun line => (ownerOf s line).map fun o => (o, path ++ [(g, line)])
      probe s me n (next ++ rest)

/-- The lanes of a group that hold its lock on the line that `prev` waits for. -/
def holdingLanes (s : State) (line : Nat) : Mask := (((lockOf s line).bind Lock.owner).map Waiter.lanes).getD 0

/-- The type-5 records of a cycle, in its order: each member with the line it waits on and the lanes that hold the lock
the member before it waits for (R257, R287). -/
def cycleRecords (s : State) (cyc : List (Nat × Nat)) : List Record :=
  let n := cyc.length
  cyc.zipIdx.filterMap fun e =>
    let before := (cyc.getD ((e.2 + n - 1) % n) (0, 0)).2
    (find s.groups e.1.1).map fun g =>
      let ctx := ((find s.wgs g.wg).map Wg.ctx).getD 0
      let tag := ((launchOfWg s g.wg).map Launch.tag).getD 0
      { Record.basic 5 FaultCode.lockDeadlock.code (dieId (dieOf g.core)) ctx with
        slot := g.slot, core := g.core, strand := 0xFF, tag := tag, addr := BitVec.ofNat 64 e.1.2,
        mask := holdingLanes s before, seq := e.2, ncyc := n }

/-- The strand that a waiter's lanes belong to now: a resumption may have given it another entry (R257, R392). -/
def strandNow (s : State) (w : Waiter) : Nat :=
  ((strandsOf s w.group).find? fun e => meet e.2.mask w.lanes).map Prod.fst |>.getD w.strand

/-- The LOCK_TIMEOUT record of a waiter (R257). -/
def timeoutRecord (s : State) (w : Waiter) (line : Nat) : Record :=
  let tag := (((find s.groups w.group).bind fun g => launchOfWg s g.wg).map Launch.tag).getD 0
  { Record.basic 1 FaultCode.lockTimeout.code (dieId w.die) w.ctx with
    slot := w.slot, core := w.core, strand := strandNow s w % 256, tag := tag, mask := w.lanes,
    addr := BitVec.ofNat 64 (line + w.index * 2 ^ 56) }

/-- LOCK_TIMEOUT: a resident waiter's entry is removed; a cycle found by the probe chain faults its LLOCK with
LOCK_DEADLOCK and is recorded, otherwise the LLOCK delivers TIMEOUT with a record (R256, R257). -/
def execLockTimeout (id : Nat) (s : State) : Host.Outcome State Fault Refusal :=
  match s.locks.findSome? fun l => (l.waiters.find? fun w => w.uid == id).map fun w => (l, w) with
  | none => .next s
  | some (l, w) =>
    if w.away || s.time.toNat < w.since + s.lockLimit then .next s
    else
      let s := setLock s { l with waiters := l.waiters.filter fun v => v.uid != id }
      let start := (l.owner.map fun o => (o.group, ([] : List (Nat × Nat)))).toList
      match probe s w.group 8 start with
      | some path =>
        let cyc := (w.group, l.line) :: path
        .next (lockFault (reportAll s l.home (cycleRecords s cyc)) w .lockDeadlock (some l.line))
      | none => .next (lockStatus (reportAll s l.home [timeoutRecord s w l.line]) w l.line 1)

end Sys2Proof.Machine
end

