-- ==== Sys2Proof/Machine/Rings.lean ====
section
/-! DEFINITION. Match tables and the crossing rings (17_rings: R301 to R323). Ring states carry the numbers of XSTAT's
ring word: 0 IDLE, 1 OPEN, 2 ARMED, 3 RUN, 4 HALTED, 5 DONE, 6 FAILED, 7 CLEARING. -/

namespace Sys2Proof.Machine

/-! ## Parts of a ring -/

/-- The ring of a core (R301). -/
def ringOf (c : Nat) : Nat := ringKey (dieOf c) (c % 48 / 16)

/-- The member position of a core. -/
def memberOf (c : Nat) : Nat := c % 16

/-- The package core of member `m` of ring `rk`. -/
def memberCore (rk m : Nat) : Nat := 48 * (rk / 3) + 16 * (rk % 3) + m

/-- Member `m` of a ring. -/
def Ring.member (r : Ring) (m : Nat) : Member := r.members.getD m Member.reset

/-- The ring with a member changed. -/
def Ring.modMember (r : Ring) (m : Nat) (f : Member → Member) : Ring := { r with members := r.members.modify m f }

/-- The member with a task pair changed. -/
def Member.modPair (m : Member) (k : Nat) (f : TaskPair → TaskPair) : Member := { m with pairs := m.pairs.modify k f }

/-- Task pair `k` of a member. -/
def Member.pair (m : Member) (k : Nat) : TaskPair := m.pairs.getD k TaskPair.reset

/-- A rule's TRI condition (R319). -/
def RuleDesc.triOk (d : RuleDesc) (i j : Nat) : Bool :=
  match d.tri with
  | 0 => true
  | 1 => i < j
  | _ => i ≤ j

/-- A rule's pairs, by i, then by j (R319). -/
def RuleDesc.pairs (d : RuleDesc) : List (Nat × Nat) :=
  ((List.range (d.ihi - d.ilo)).flatMap fun a => (List.range (d.jhi - d.jlo)).map fun b => (d.ilo + a, d.jlo + b)).filter
    fun p => d.triOk p.1 p.2

/-- The number of a pair's met bit (R319). -/
def RuleDesc.bit (d : RuleDesc) (i j : Nat) : Option Nat := d.pairs.findIdx? fun p => p == (i, j)

/-- A rule's lowest clear met bit, with its pair. -/
def RingRule.clear (r : RingRule) : Option (Nat × Nat × Nat) :=
  (r.d.pairs.zipIdx.find? fun e => !r.met.contains e.2).map fun e => (e.2, e.1.1, e.1.2)

/-- A rule is done (R311). -/
def RingRule.isDone (r : RingRule) : Bool := r.done == r.d.pairs.length

/-- Pairs completed over all rules (R312). -/
def Ring.served (r : Ring) : Nat := (r.rules.map fun e => e.2.done).sum

/-- The workgroup key of a ring's owner. -/
def Ring.wk (r : Ring) : Option Nat := r.owner.map Prod.snd

/-- The workgroup is resident and has not been asked to leave. -/
def staying (s : State) (wk : Nat) : Bool := (find s.wgs wk).any fun w => w.st = .resident && !w.leaving

/-- The workgroup of a task group or of the owner is not resident, or is leaving (R314, R391). -/
def ringAway (s : State) (r : Ring) : Bool :=
  let gone : Nat → Bool := fun w => !staying s w
  (match r.wk with
    | some w => gone w
    | none => false) ||
    r.members.any fun m => match m.group.bind (find s.groups) with
      | some g => gone g.wg
      | none => false

/-! ## Task strands (R305 to R308) -/

/-- Lane set and pair `k` of member `m` can take a task: the pair FREE, the lane set inside the group, a strand-table
entry free beside those that copies in progress will take (R305, R307). -/
def pairIdle (s : State) (rk m : Nat) (k : Nat) : Bool :=
  let r := ring s rk
  let b := r.member m
  match b.group.bind fun gk => (find s.groups gk).map fun g => (gk, g) with
  | none => false
  | some (gk, g) =>
    let tw := match g.joined with
      | some (code, _) => 8 * 2 ^ code
      | none => 0
    let copying := (b.pairs.filter fun p => p.st == 1).length
    (b.pair k).st == 0 && (k + 1) * tw ≤ g.width && staying s g.wg &&
      copying < (freeEntries s g.core).length && (strandsOf s gk).length + copying < 16

/-- The pair that the next task of member `m` takes. -/
def idlePair (s : State) (rk m : Nat) : Option Nat := (List.range 2).find? (pairIdle s rk m)

/-- s0 to s3 of a task strand at spawn (R307). -/
def taskBank (d : RuleDesc) (rule i j k : Nat) (swept : Bool) : List Word :=
  [BitVec.ofNat 64 i, BitVec.ofNat 64 j,
   d.base + BitVec.ofNat 64 i * d.stridei.signExtend 64 + BitVec.ofNat 64 j * d.stridej.signExtend 64,
   BitVec.ofNat 64 (28 + 2 * k + (29 + 2 * k) * 2 ^ 8 + rule * 2 ^ 16 + if swept then 2 ^ 22 else 0)]

/-- What a strand that starts in the workgroup is to take at its first block: the park of one that the watchdog has stopped
(R381). -/
def dueIn (s : State) (wk : Nat) : Option (FaultCode × Option Untaken) :=
  if (find s.wgs wk).any Wg.stopped then some (.watchdog, none) else none

/-- The pair's task strand starts on its lane set with its bank; the pair is BUSY (R305, R307). -/
def spawnTask (s : State) (rk m k : Nat) : State :=
  let r := ring s rk
  let b := r.member m
  let t := b.pair k
  match b.group.bind (fun gk => (find s.groups gk).map fun g => (gk, g)), find r.rules t.rule, takeEntry s (memberCore rk m) with
  | some (gk, g), some ru, some e =>
    let s := modRing s rk fun r =>
      { r.modMember m fun b => b.modPair k fun t => { t with st := 2, ended := false } with
        swept := if t.swept then r.swept + 1 else r.swept }
    let s := modGroup s gk fun g => { g with banks := g.banks.set k (taskBank ru.d t.rule t.i t.j k t.swept) }
    { s with
      uid := s.uid + 1
      strands := put s.strands (strandKey g.core e)
        { Strand.start gk (laneSet g k) ru.d.task with task := some k, first := true, due := dueIn s g.wg } }
  | _, _, _ => s

/-- Operand slot `n` of a core copied to slot `k` of it, poison with it (R305). -/
def copySlot (s : State) (c n k : Nat) : State :=
  modCore s c fun x =>
    { x with
      slots := store x.slots k (get x.slots n []) []
      slotPoison := store x.slotPoison k (get x.slotPoison n 0) 0 }

/-- A copy of the member's pair `t` must wait: for a copy that became ready before, or for a running MMA (R19, R305). -/
def copyWaits (s : State) (c : Nat) (b : Member) (t : TaskPair) : Bool :=
  (b.pairs.any fun p => p.st == 1 && !p.swept && p.num < t.num) || (core s c).mq.any fun q => q.started && q.isMma

/-- The task group of a member can take a spawned strand: its workgroup is resident. One that has been asked to leave still takes
those whose copies or fetches are under way; they fire no block before it returns (R305, R391). -/
def spawnable (s : State) (b : Member) : Bool := (b.group.bind (find s.groups)).any (groupHere s)

/-- TASK_SPAWN: an encounter's copy ends within its tick, in its turn on the read port, and the task strand starts (R19, R305,
R306). -/
def execTaskSpawn (d rg m k : Nat) (s : State) : Host.Outcome State Fault Refusal :=
  let rk := ringKey d rg
  let b := (ring s rk).member m
  let t := b.pair k
  let c := memberCore rk m
  if t.st != 1 || t.swept || (takeEntry s c).isNone || 2 < rg || copyWaits s c b t || !spawnable s b then .next s
  else match (List.range 4).find? fun n => find b.tags n == some t.i,
      (List.range 4).find? fun n => find b.tags (4 + n) == some t.j with
    | some x, some y => .next (spawnTask (copySlot (copySlot s c (20 + x) (28 + 2 * k)) c (24 + y) (29 + 2 * k)) rk m k)
    | _, _ => .next s

/-! ## Sweeps (R309, R310) -/

/-- The home core starts one sweep fetch, if a swept rule has a clear bit and no fetch under way, and a pair is free; none
otherwise (R309). -/
def sweepOne (s : State) (rk : Nat) : Option State := do
  let r := ring s rk
  if r.st != 3 && r.st != 4 then none else
  let fetching (n : Nat) : Bool := (r.member 0).pairs.any fun p => p.st == 1 && p.swept && p.rule == n
  let (n, ru) ← r.rules.find? fun e => e.2.sweeping && e.2.clear.isSome && !fetching e.1
  let (b, i, j) ← ru.clear
  let k ← idlePair s rk 0
  let (ctx, wk) ← r.owner
  let l ← launchOfWg s wk
  let c := memberCore rk 0
  let cwa := get r.tiles i (2 ^ 52)
  let ccwa := get r.tiles (64 + j) (2 ^ 52)
  let (u, s) := fresh s
  let s := modRing s rk fun r =>
    { r.modMember 0 fun m => m.modPair k fun _ => ⟨1, u, n, i, j, true, false⟩ with
      rules := edit r.rules n fun ru => { ru with met := insertNat ru.met b } }
  let slot (n : Nat) : Region := ⟨.slot, n * 16384, (n + 1) * 16384⟩
  return modCore s c fun x => { x with jobs := x.jobs ++
    [⟨u, .sweep (rk / 3) (rk % 3) k n i j cwa ccwa, ctx, wk, l.tag, 0xFF,
      [⟨.virt ctx, cwa, cwa + 16384⟩, ⟨.virt ctx, ccwa, ccwa + 16384⟩], [slot (28 + 2 * k), slot (29 + 2 * k)], [],
      none, none⟩] }

/-- Sweeps go on, each with one pair after another, on the two task pairs of the home core; a rule with no clear bit is no
longer swept (R309). -/
def sweepStep (s : State) (rk : Nat) : State :=
  let s := (sweepOne s rk).getD s
  let s := (sweepOne s rk).getD s
  modRing s rk fun r => { r with rules := mapVals r.rules fun u => { u with sweeping := u.sweeping && u.clear.isSome } }

/-- RING_LAP_LIMIT's condition for a rule (R309). -/
def lapDue (r : Ring) (u : RingRule) : Bool := r.st == 3 && r.tick == 16 * u.d.laps && !u.sweeping && u.clear.isSome

/-! ## Ticks (R303 to R306) -/

/-- A candidate rule of tiles i and j: the lowest-numbered one they match with a clear met bit (R305). -/
def candidate (r : Ring) (i j : Nat) : Option (Nat × Nat) :=
  r.rules.findSome? fun e => (e.2.d.bit i j).bind fun b => if e.2.met.contains b then none else some (e.1, b)

/-- Member `m` scans one of its pairs of slots and serves a candidate while it has a free pair (R305). -/
def scanPair (rk m : Nat) (s : State) (xy : Nat × Nat) : State :=
  let r := ring s rk
  let b := r.member m
  match find b.tags xy.1, find b.tags (4 + xy.2) with
  | some i, some j =>
    match candidate r i j, idlePair s rk m with
    | some (n, bit), some k =>
      let (u, s) := fresh s
      modRing s rk fun r =>
        { r.modMember m fun b => b.modPair k fun _ => ⟨1, u, n, i, j, false, false⟩ with
          rules := edit r.rules n fun u => { u with met := insertNat u.met bit } }
    | _, _ => s
  | _, _ => s

/-- Every member scans its 16 co-resident pairs in order (R305). -/
def scanRing (s : State) (rk : Nat) : State :=
  (List.range 16).foldl (fun s m =>
    ((List.range 4).flatMap fun a => (List.range 4).map fun b => (a, b)).foldl (scanPair rk m) s) s

/-- A tick begins: once no sweep is still to be started for its lap limit, every member scans (R305, R309). -/
def beginTick (s : State) (rk : Nat) : State :=
  let r := ring s rk
  if r.rules.any fun e => lapDue r e.2 then modRing s rk fun r => { r with scan := true }
  else scanRing (modRing (sweepStep s rk) rk fun r => { r with scan := false }) rk

/-- RING_LAP_LIMIT: the home core starts the rule's sweep (R309). -/
def execRingLapLimit (d rg n : Nat) (s : State) : Host.Outcome State Fault Refusal :=
  let rk := ringKey d rg
  let r := ring s rk
  match find r.rules n with
  | none => .next s
  | some u =>
    if !lapDue r u then .next s
    else .next (beginTick (modRing s rk fun r => { r with rules := edit r.rules n fun u => { u with sweeping := true } }) rk)

/-- The slot tags and tiles of slot `k` moved round the ring: member m takes from member `from_ m` (R303). -/
def shiftSlot (rk : Nat) (from_ : Nat → Nat) (s : State) (k : Nat) : State :=
  let old := s
  (List.range 16).foldl (fun s m =>
    let src := from_ m
    let oc := core old (memberCore rk src)
    let s := modCore s (memberCore rk m) fun x =>
      { x with
        slots := store x.slots (20 + k) (get oc.slots (20 + k) []) []
        slotPoison := store x.slotPoison (20 + k) (get oc.slotPoison (20 + k) 0) 0 }
    modRing s rk fun r => r.modMember m fun b =>
      { b with tags := match find ((ring old rk).member src).tags k with
          | some i => put b.tags k i
          | none => del b.tags k }) s

/-- The shift at the end of tick `t` (R303). -/
def shiftRing (s : State) (rk t : Nat) : State :=
  if t % 2 = 0 then (List.range 4).foldl (shiftSlot rk fun m => (m + 15) % 16) s
  else (List.range 4).foldl (fun s k => shiftSlot rk (fun m => (m + 1) % 16) s (4 + k)) s

/-- The pairs that satisfy `gone` are abandoned: FREE, their met bits clear again (R306). -/
def Ring.abandon (r : Ring) (gone : TaskPair → Bool) : Ring :=
  let pairs := r.members.flatMap fun m => m.pairs.filter gone
  let rules := pairs.foldl (fun rs p => edit rs p.rule fun u =>
    { u with met := match u.d.bit p.i p.j with
        | some b => removeNat u.met b
        | none => u.met }) r.rules
  { r with
    rules := rules
    members := r.members.map fun m => { m with pairs := m.pairs.map fun p => if gone p then TaskPair.reset else p } }

/-- Encounter copies that have not ended are abandoned at the shift (R306). -/
def abandonCopies (r : Ring) : Ring := r.abandon fun p => p.st == 1 && !p.swept

/-- RING_TICK_END: at the end of the tick, in the die clock that the period gives, one family shifts, the counter rises, unfinished copies are abandoned, every
member's crossbar sees it; the next tick begins, or the ring halts (R303, R306, R314, R358). -/
def execRingTickEnd (d rg : Nat) (s : State) : Host.Outcome State Fault Refusal :=
  let rk := ringKey d rg
  let r := ring s rk
  if r.st != 3 || r.scan || (die s d).clk < r.tickStart + r.period then .next s
  else
    let s := shiftRing s rk r.tick
    let s := modRing s rk fun r =>
      { abandonCopies r with tick := (r.tick + 1) % 2 ^ 32, tickStart := r.tickStart + r.period }
    let s := (List.range 16).foldl (fun s m => pulse s (memberCore rk m) 2) s
    if (ring s rk).halting then .next (modRing s rk fun r => { r with st := 4, halting := false })
    else .next (beginTick s rk)

/-- RING_START: an armed ring with 16 task groups, no pending fill and a valid rule enters RUN with tick 0 (R320). With a
task group or the owner away it halts at the end of the tick (R314). -/
def execRingStart (d rg : Nat) (s : State) : Host.Outcome State Fault Refusal :=
  let rk := ringKey d rg
  let r := ring s rk
  if r.st == 2 && r.members.all (fun m => m.group.isSome && m.fills.isEmpty) && !r.rules.isEmpty then
    .next (beginTick (modRing s rk fun r =>
      { r with st := 3, tick := 0, tickStart := (die s d).clk, halting := ringAway s r }) rk)
  else .next s

/-- A halted ring whose task groups and owner are all resident again runs; the tick that the counter names begins (R314). -/
def resumeRing (s : State) (rk : Nat) : State :=
  let r := ring s rk
  if r.st == 4 && !ringAway s r then
    beginTick (modRing s rk fun r =>
      { r with st := 3, tickStart := (die s (rk / 3)).clk }) rk
  else if r.st == 3 && !ringAway s r then modRing s rk fun r => { r with halting := false }
  else s

/-- A running ring of the workgroup halts at the end of its tick (R314). -/
def haltRings (s : State) : State :=
  (keys s.rings).foldl (fun s rk =>
    if (ring s rk).st == 3 && ringAway s (ring s rk) then modRing s rk fun r => { r with halting := true } else s) s

/-! ## The ring's end (R310 to R313) -/

/-- A completion record's 128 bits (R312). -/
def ringRecord (r : Ring) (status n i j : Nat) : Val :=
  BitVec.ofNat 128 (r.tag % 2 ^ 16 * 2 ^ 112 + status * 2 ^ 108 + n * 2 ^ 102 + r.tick % 2 ^ 32 * 2 ^ 64 + i * 2 ^ 56 +
    j * 2 ^ 48 + r.swept % 2 ^ 16 * 2 ^ 32 + r.served % 2 ^ 32)

/-- Rotation has stopped: copies and fetches in progress are abandoned with their met bits, no sweep goes on, no fill is pending
(R306, R313). -/
def stopRing (r : Ring) (st : Nat) : Ring :=
  let r := r.abandon fun p => p.st == 1
  { r with
    st := st
    scan := false
    halting := false
    rules := mapVals r.rules fun u => { u with sweeping := false }
    members := r.members.map fun m => { m with fills := [] } }

/-- The posted stores of the ring's task groups that are still in a core's write path. -/
def taskStores (s : State) (r : Ring) : List Nat :=
  (s.posted.filter fun q => q.stage == 0 && r.members.any fun m => m.group == some q.group).map Posted.uid

/-- The ring ends DONE or FAILED with its record (R310, R311). -/
def finishRing (s : State) (rk status n i j : Nat) : State :=
  let r := ring s rk
  let rec_ : RingRec :=
    ⟨ringRecord r status n i j, if status = 0 then taskStores s r else [], status = 0⟩
  let s := modRing s rk fun r => { stopRing r (if status = 0 then 5 else 6) with records := r.records ++ [rec_] }
  if status = 0 then s
  else
    let c := memberCore rk 0
    match r.owner with
    | some (ctx, wk) =>
      let tag := ((launchOfWg s wk).map Launch.tag).getD 0
      (report s (dieOf c) (jobRecord c ctx 0xFF tag .ringMissLimit (n + i * 2 ^ 8 + j * 2 ^ 16))).1
    | none => s

/-- Every valid rule is done: the ring is DONE (R311). -/
def checkDone (s : State) (rk : Nat) : State :=
  let r := ring s rk
  if (r.st == 3 || r.st == 4) && r.rules.all fun e => e.2.isDone then finishRing s rk 0 0 0 0 else s

/-- The pulses of completion records whose task stores are visible; a pulse does not wait for the queue (R311). -/
def pulseRecords (s : State) (rk : Nat) : State :=
  let due (s : State) (e : RingRec) : Bool := e.pulse && gateOpen s e.gate
  let before := s
  let s := ((ring s rk).records.filter (due s)).foldl (fun s _ => pulse s (memberCore rk 0) 3) s
  modRing s rk fun r =>
    { r with records := r.records.map fun e => if due before e then { e with pulse := false } else e }

/-- RING_COMPLETION_RECORD: once the task stores are visible the home core's crossbar sees it, and the oldest record enters the
ring completion queue when it has room (R311). -/
def execRingCompletionRecord (d rg : Nat) (s : State) : Host.Outcome State Fault Refusal :=
  let rk := ringKey d rg
  let s := pulseRecords s rk
  let r := ring s rk
  match r.records with
  | [] => .next s
  | e :: rest =>
    if gateOpen s e.gate && r.queue.length < 16 then
      .next (modRing s rk fun r => { r with records := rest, queue := r.queue ++ [⟨e.val, none⟩] })
    else .next s

/-- A task of pair `k` has ended: it counts, and the lane set is idle (R308, R311). -/
def endTask (s : State) (rk m k : Nat) : State :=
  let t := ((ring s rk).member m).pair k
  let s := modRing s rk fun r =>
    { r.modMember m fun b => b.modPair k fun t => { t with ended := true } with
      rules := edit r.rules t.rule fun u => { u with done := u.done + 1 } }
  checkDone s rk

/-- Tasks of a task group that have ended: no strand and no parked lane of the lane set is left (R308). -/
def settleTasks (s : State) (gk : Nat) : State :=
  match find s.groups gk with
  | none => s
  | some g =>
    if g.joined.isNone then s
    else
      let rk := ringOf g.core
      let m := memberOf g.core
      (List.range 2).foldl (fun s k =>
        let t := ((ring s rk).member m).pair k
        let left := ((strandsOf s gk).any fun e => e.2.task == some k) ||
          g.parked.any fun p => p.mask &&& laneSet g k != 0
        if t.st == 2 && !t.ended && !left then endTask s rk m k else s) s

/-- An XEJECT's job or a matrix command still reads a slot of task pair `k` of the core (R308). -/
def pairRead (c : Core) (k : Nat) : Bool :=
  (c.jobs.any fun j => match j.kind with
    | .xeject _ n _ => n == 28 + 2 * k || n == 29 + 2 * k
    | _ => false) ||
    c.mq.any fun q => q.op.uses.1.contains (28 + 2 * k) || q.op.uses.1.contains (29 + 2 * k)

/-- TASK_PAIR_FREE: the pair of an ended task is FREE once its readers have completed (R308). -/
def execTaskPairFree (d rg m k : Nat) (s : State) : Host.Outcome State Fault Refusal :=
  let rk := ringKey d rg
  let t := ((ring s rk).member m).pair k
  if t.st == 2 && t.ended && !pairRead (core s (memberCore rk m)) k then
    .next (sweepStep (modRing s rk fun r => r.modMember m fun b => b.modPair k fun _ => TaskPair.reset) rk)
  else .next s

/-- The ring is ending (R313). -/
def Ring.ending (r : Ring) : Bool := 5 ≤ r.st

/-- A task group returns: all its lanes are one strand at the join's return block, its banks dropped (R313). -/
def returnGroup (s : State) (rk m gk : Nat) : State :=
  match find s.groups gk, takeEntry s (memberCore rk m) with
  | some g, some e =>
    let all := Mask.below g.width
    let pc := (g.joined.map Prod.snd).getD 0
    let s := modGroup s gk fun g => { g with joined := none, banks := [], live := all }
    let s := modRing s rk fun r => r.modMember m fun b => { b with group := b.group.filter (· != gk) }
    { s with uid := s.uid + 1, strands := put s.strands (strandKey g.core e) { Strand.start gk all pc with due := dueIn s g.wg } }
  | _, _ => s

/-- The task groups of a member that are to return: its own once the ring is ending and no lane set serves a task, and one
whose ring has become IDLE before it could; each is resident and has no strand (R313). -/
def groupsBack (s : State) (rk m : Nat) : List Nat :=
  let r := ring s rk
  let b := r.member m
  (s.groups.filter fun e => e.2.joined.isSome && e.2.core == memberCore rk m && staying s e.2.wg && (strandsOf s e.1).isEmpty &&
    (b.group != some e.1 || (r.ending && b.pairs.all fun p => p.st == 0 || p.ended))).map Prod.fst

/-- TASK_GROUP_RETURN (R313). -/
def execTaskGroupReturn (d rg m : Nat) (s : State) : Host.Outcome State Fault Refusal :=
  let rk := ringKey d rg
  match groupsBack s rk m with
  | gk :: _ => .next (returnGroup s rk m gk)
  | [] => .next s

/-- Slots 20 to 31 of a core put into state `st`, without an owner (R302, R313). -/
def ringSlots (s : State) (c st : Nat) : State :=
  modCore s c fun x => (List.range 12).foldl (fun x k => x.modRes (20 + k) fun _ => { Res.reset with st := st }) x

/-- A ring that becomes IDLE has no owner and no task, and its members have given back what they held; its tables, counts and
tile addresses stand until the next XMATCH.open (R301, R313, R317). -/
def Ring.idle (r : Ring) : Ring :=
  { r with
    st := 0
    owner := none
    scan := false
    halting := false
    members := r.members.map fun m => { Member.reset with tags := m.tags } }

/-- RING_IDLE: members whose task pairs are FREE give their slots back; the ring is IDLE when all 16 have (R313). Records on
their way stay, and a task group that could not return yet still will. -/
def execRingIdle (d rg : Nat) (s : State) : Host.Outcome State Fault Refusal :=
  let rk := ringKey d rg
  let r := ring s rk
  if !r.ending then .next s
  else
    let s := (List.range 16).foldl (fun s m =>
      if (r.member m).freed || !(r.member m).pairs.all (fun p => p.st == 0) then s
      else modRing (ringSlots s (memberCore rk m) 0) rk fun r => r.modMember m fun b => { b with freed := true }) s
    if (ring s rk).members.all Member.freed then
      .next (modRing s rk Ring.idle)
    else .next s

/-- The ring is cleared: CLEARING at once, until it is IDLE (R313). -/
def clearRing (s : State) (rk : Nat) : State :=
  if (ring s rk).st == 0 || (ring s rk).st == 7 then s else modRing s rk fun r => stopRing r 7

/-! ## Jobs of a ring -/

/-- The 16 KiB of a tile at a virtual address read by core `c`'s engine: bytes and the poisoned granules, or the first
failure with its address. -/
def readTile (s : State) (c ctx va : Nat) : Except (FaultCode × Nat) (List (List Nat × Bool)) :=
  (List.range 256).mapM fun k =>
    match gather (fun o => engineByte s c ctx (va + o)) (64 * k) 64 with
    | .error (f, o) => .error (f, va + o)
    | .ok r => .ok r

/-- A slot filled with a tile, granule by granule. -/
def fillTile (s : State) (c n : Nat) (t : List (List Nat × Bool)) : State :=
  modCore s c fun x => t.zipIdx.foldl (fun x e => writeSlot x n (64 * e.2) e.1.1 e.1.2) x

/-- A fill of XINJ ends: the tile is in its slot, or the slot is left empty with a record. A fill that the ring's end has
abandoned writes nothing, and one that reads a line held for atomics waits (R230, R321). -/
def runInject (s : State) (c : Nat) (j : Job) (src pos fam slot idx : Nat) : State :=
  if readsHeld s c j.ctx src 16384 then s else
  let rk := ringOf c
  let k := 4 * fam + slot
  let s := endJob s c j.uid
  if !((ring s rk).member pos).fills.contains j.uid then s
  else
    let s := modRing s rk fun r => r.modMember pos fun m => { m with fills := removeNat m.fills j.uid }
    let s := engineSee s c j.ctx src 16384 false
    match readTile s c j.ctx src with
    | .ok t => fillTile s (memberCore rk pos) (20 + k) t
    | .error (f, a) =>
      let s := modRing s rk fun r => r.modMember pos fun m =>
        if find m.tags k == some idx then { m with tags := del m.tags k } else m
      jobReport s c j f a

/-- An XEJECT's job copies its slot to memory or scratchpad (R286, R322). -/
def runEject (s : State) (c : Nat) (j : Job) (dst n : Nat) (sp : Bool) : State :=
  if !sp && writesBlocked s c j.ctx dst (dst + 16384) then s
  else
    let r := transfer (fun s _ _ => s) (fun s o => .ok (slotByte (core s c) n o))
      (fun s o bs p => if sp then engineScratch s c j.wg (dst + o) bs p else engineWrite s c j.ctx (dst + o) bs p)
      id (dst + ·) dst 16384 258 ⟨s, 0, none, none, none⟩
    let s := match r.bad with
      | some (f, a) => jobReport r.s c j f a
      | none => r.s
    endJob s c j.uid

/-- COPY_JOB_COMPLETE: a started card, fill or eject job runs to its end (R286, R321, R322). -/
def execCopyJobComplete (c id : Nat) (s : State) : Host.Outcome State Fault Refusal :=
  match (core s c).jobs.find? fun j => j.uid == id && j.engine.isSome with
  | none => .next s
  | some j => match j.kind with
    | .card d => .next (runCard s c j d)
    | .xinj src pos fam slot idx => .next (runInject s c j src pos fam slot idx)
    | .xeject dst n sp => .next (runEject s c j dst n sp)
    | _ => .next s

/-- SWEEP_FETCH_COMPLETE: a fetch that fails, or a tile without an address, fails the ring; otherwise both tiles are in the
pair's slots and the task starts, once the home core's task group is there to take it, and the sweep goes on. The fetch of a pair
that has been abandoned since ends without effect; one that reads a line held for atomics waits (R230, R309, R310, R313). -/
def execSweepFetchComplete (d rg k : Nat) (s : State) : Host.Outcome State Fault Refusal :=
  let rk := ringKey d rg
  let c := memberCore rk 0
  let mine (j : Job) : Bool := match j.kind with
    | .sweep d' r' k' _ _ _ _ _ => d' == d && r' == rg && k' == k
    | _ => false
  match (core s c).jobs.find? fun j => mine j && j.engine.isSome with
  | none => .next s
  | some j => match j.kind with
    | .sweep _ _ _ n a b cwa ccwa =>
      let t := ((ring s rk).member 0).pair k
      if t.st != 1 || !t.swept || t.num ≠ j.uid then .next (endJob s c j.uid)
      else if readsHeld s c j.ctx cwa 16384 || readsHeld s c j.ctx ccwa 16384 then .next s
      else
        let t := engineSee (engineSee s c j.ctx cwa 16384 false) c j.ctx ccwa 16384 false
        match readTile t c j.ctx cwa, readTile t c j.ctx ccwa with
        | .ok x, .ok y =>
          if (takeEntry s c).isNone || !spawnable s ((ring s rk).member 0) then .next s
          else .next (sweepStep (spawnTask (fillTile (fillTile (endJob t c j.uid) c (28 + 2 * k) x) c (29 + 2 * k) y) rk 0 k) rk)
        | _, _ => .next (finishRing (endJob t c j.uid) rk 1 n a b)
    | _ => .next s

/-! ## XMATCH (R317 to R320) -/

/-- The strand's workgroup owns its ring, in one of the states. -/
def ringOwned (r : Ring) (p : Place) (sts : List Nat) : Bool := r.owner == some (p.w.ctx, p.wk) && sts.contains r.st

/-- Slots 20 to 31 of every member are FREE (R317). -/
def ringSlotsFree (s : State) (rk : Nat) : Bool :=
  (List.range 16).all fun m => (List.range 12).all fun k => claimable (core s (memberCore rk m)) (20 + k)

/-- The quotas of the workgroups resident on a core (R262). -/
def quotaOn (s : State) (c : Nat) : Nat :=
  ((s.wgs.filter fun e => e.2.st = .resident && e.2.cores.contains c).map fun e => e.2.oslots).sum

/-- XMATCH.open (R317). -/
def execXmatchOpen (w : Plain) (s : State) : Host.Outcome State Fault Refusal :=
  atSite s fun x =>
    let a := x.opnd 0
    let m := a.mask &&& (x.opnd 1).mask
    let v := a.scalar64.toNat
    let rk := ringOf x.core
    x.perform s w m fun p =>
      if !p.l.cores || (ring s rk).st != 0 || !ringSlotsFree s rk ||
          (List.range 16).any fun k => 20 < quotaOn s (memberCore rk k) then x.fault s .slotState m x.b.addr
      else if (1 ≤ v % 2 ^ 16 && v % 2 ^ 16 ≤ 79) || 2 ^ 32 ≤ v then x.fault s .blockFormat m x.b.addr
      else x.commitWith s w.ta w.tb (numTok 32 m 0)
        (.ringOpen (if v % 2 ^ 16 = 0 then 96 else v % 2 ^ 16) (bitsOf v 16 16))

/-- An open commits: the ring is OPEN and owned, its tables clear, the 12 slots of every member in RING; nothing changes
where the ring or a slot has been taken meanwhile (R302, R317). -/
def commitOpen (s : State) (c : Nat) (p : Place) (period tag : Nat) : State :=
  let rk := ringOf c
  if (ring s rk).st != 0 || !ringSlotsFree s rk then s
  else
    let s := (List.range 16).foldl (fun s m => ringSlots s (memberCore rk m) 2) s
    modRing s rk fun r =>
      { Ring.reset with
        st := 1, owner := some (p.w.ctx, p.wk), tag := tag, period := period, records := r.records, queue := r.queue }

/-- The fields of a rule descriptor's 32 bytes (R319). -/
def ruleOf (bs : List Nat) : RuleDesc :=
  ⟨BitVec.ofNat 64 (leAt bs 0 8), BitVec.ofNat 32 (leAt bs 8 4), BitVec.ofNat 32 (leAt bs 12 4),
   BitVec.ofNat 64 (leAt bs 16 8), leAt bs 24 1, leAt bs 25 1, leAt bs 26 1, leAt bs 27 1, leAt bs 28 1, leAt bs 29 1⟩

/-- A descriptor passes its checks (R319). -/
def ruleOk (bs : List Nat) : Bool :=
  let d := ruleOf bs
  d.task.toNat % 16 == 0 && d.ilo < d.ihi && d.ihi ≤ 64 && d.jlo < d.jhi && d.jhi ≤ 64 && 1 ≤ d.laps && d.tri < 3 &&
    leAt bs 30 2 == 0 && 1 ≤ d.pairs.length && d.pairs.length ≤ 1024

/-- XMATCH.rule (R319). -/
def execXmatchRule (w : Plain) (s : State) : Host.Outcome State Fault Refusal :=
  atSite s fun x =>
    let a := x.opnd 0
    let b := x.opnd 1
    let m := a.mask &&& b.mask
    let va := a.scalar64.toNat
    let n := b.scalar64.toNat
    x.perform s w m fun p =>
      if !ringOwned (ring s (ringOf x.core)) p [1, 2] || 63 < n then x.fault s .slotState m x.b.addr
      else match regionFault va 32 32 [0] with
        | some (c, a) => x.fault s c m a
        | none => x.readThen s p m va 32 fun s bs =>
          if ruleOk bs then x.commitWith s w.ta w.tb (numTok 32 m 0) (.ringRule n (ruleOf bs))
          else x.fault s .blockFormat m va

/-- The strand's workgroup still owns its ring: what its instruction has checked as it performed takes effect at the commit,
whatever state the ring has come to since (R316). -/
def ringKept (r : Ring) (p : Place) : Bool := r.owner == some (p.w.ctx, p.wk)

/-- A rule is written with a clear bitmap and count (R316, R319). -/
def commitRule (s : State) (c : Nat) (p : Place) (n : Nat) (d : RuleDesc) : State :=
  let rk := ringOf c
  if ringKept (ring s rk) p then modRing s rk fun r => { r with rules := put r.rules n ⟨d, [], 0, false⟩ } else s

/-- Another uncommitted block on the core is about to join (R318). -/
def joinHeld (s : State) (c uid : Nat) : Bool :=
  s.strands.any fun e => coreOf e.1 == c && e.2.blocks.any fun b => b.uid != uid && b.effects.any fun f =>
    match f.2 with
    | .ringJoin _ _ => true
    | _ => false

/-- The ring's owner is of the launch of the strand's workgroup (R318). -/
def ringLaunch (s : State) (r : Ring) (p : Place) : Bool := (r.wk.bind (find s.wgs)).any fun o => o.launch == p.w.launch

/-- XMATCH.join (R318). -/
def execXmatchJoin (w : Plain) (s : State) : Host.Outcome State Fault Refusal :=
  atSite s fun x =>
    let a := x.opnd 0
    let b := x.opnd 1
    let m := a.mask &&& b.mask
    let v := a.scalar64.toNat
    let ret := b.scalar64
    let r := ring s (ringOf x.core)
    x.perform s w m fun p =>
      if r.st != 1 && r.st != 2 then x.fault s .slotState m x.b.addr
      else if x.b.mask != Mask.below p.g.width then x.fault s .illegalConvergence m x.b.addr
      else if 4 ≤ v || p.g.width < 8 * 2 ^ (v % 4) then x.fault s .blockFormat m x.b.addr
      else if (r.member (memberOf x.core)).group.isSome || joinHeld s x.core x.b.uid || !ringLaunch s r p then
        x.fault s .slotState m x.b.addr
      else if ret.toNat % 16 != 0 then x.fault s .misaligned m ret.toNat
      else x.commitWith s w.ta w.tb (numTok 32 m 0) (.ringJoin v ret)

/-- The group becomes the member's task group, all lane sets idle; its strand leaves the scheduler. Where the ring has become
IDLE since the check, the group is one of no ring, and returns (R313, R316, R318). -/
def commitJoin (s : State) (key : Nat) (p : Place) (code : Nat) (ret : Word) : State :=
  let c := coreOf key
  let rk := ringOf c
  let r := ring s rk
  let t := modGroup s p.gk fun g =>
    { g with joined := some (code, ret), banks := List.replicate 2 (List.replicate 4 0) }
  if r.st != 0 && ringLaunch s r p && (r.member (memberOf c)).group.isNone then
    modRing t rk fun r => r.modMember (memberOf c) fun m => { m with group := some p.gk }
  else t

/-- XMATCH.start (R320). -/
def execXmatchStart (w : Plain) (s : State) : Host.Outcome State Fault Refusal :=
  atSite s fun x =>
    let m := (x.opnd 0).mask &&& (x.opnd 1).mask
    x.perform s w m fun p =>
      if ringOwned (ring s (ringOf x.core)) p [1] then x.commitWith s w.ta w.tb (numTok 32 m 0) .ringStart
      else x.fault s .slotState m x.b.addr

/-- The ring is ARMED (R320). -/
def commitStart (s : State) (c : Nat) (p : Place) : State :=
  if ringOwned (ring s (ringOf c)) p [1] then modRing s (ringOf c) fun r => { r with st := 2 } else s

/-! ## XCLR, XINJ, XEJECT (R321 to R323) -/

/-- XCLR (R323). -/
def execXclr (w : Plain) (s : State) : Host.Outcome State Fault Refusal :=
  atSite s fun x =>
    let (n, m) := x.sel w
    let r := ring s (ringOf x.core)
    x.perform s w m fun p =>
      let ok := if n = 0x40 then ringOwned r p [1, 2, 3, 4, 5, 6, 7] else n < 64 && ringOwned r p [1, 2]
      if ok then x.commitWith s w.ta w.tb (numTok 32 m 0) (.ringClear n) else x.fault s .slotState m x.b.addr

/-- A rule becomes invalid, or the ring is cleared (R313, R323). -/
def commitXclr (s : State) (c : Nat) (p : Place) (n : Nat) : State :=
  let rk := ringOf c
  if !ringKept (ring s rk) p then s
  else if n = 0x40 then clearRing s rk
  else modRing s rk fun r => { r with rules := del r.rules n }

/-- The tile index stands in the family at another slot (R321). -/
def indexElsewhere (r : Ring) (fam pos slot idx : Nat) : Bool :=
  r.members.zipIdx.any fun e => (List.range 4).any fun k =>
    find e.1.tags (4 * fam + k) == some idx && !(e.2 == pos && k == slot)

/-- XINJ (R321). -/
def execXinj (w : Plain) (s : State) : Host.Outcome State Fault Refusal :=
  atSite s fun x =>
    let a := x.opnd 0
    let b := x.opnd 1
    let m := a.mask &&& b.mask
    let va := a.scalar64.toNat
    let v := b.scalar64.toNat
    let fam := bitsOf v 4 1
    let slot := bitsOf v 5 2
    let idx := bitsOf v 7 6
    let r := ring s (ringOf x.core)
    x.perform s w m fun p =>
      if !ringOwned r p [1, 2] then x.fault s .slotState m x.b.addr
      else if 2 ^ 13 ≤ v then x.fault s .blockFormat m x.b.addr
      else match regionFault va 128 16384 [0] with
        | some (c, a) => x.fault s c m a
        | none =>
          if indexElsewhere r fam (v % 16) slot idx then x.fault s .slotState m x.b.addr
          else x.spanThen s p m va 16384 .load fun s =>
            x.commitWith s w.ta w.tb (numTok 32 m 0) (.ringInject va (v % 16) fam slot idx)

/-- The tag and the address are set and the fill job enters the issuing core's engines (R321). -/
def commitXinj (s : State) (c : Nat) (p : Place) (va pos fam slot idx : Nat) (gate : List Nat) : Option Nat × State :=
  let rk := ringOf c
  if !ringKept (ring s rk) p then (none, s)
  else
    let n := 20 + 4 * fam + slot
    let lo := (32 * pos + n) * 16384
    let (u, s) := addJob s c p (.xinj va pos fam slot idx)
      ([⟨.virt p.w.ctx, va, va + 16384⟩], [⟨.slot, lo, lo + 16384⟩]) gate
    (some u, modRing s rk fun r =>
      { r.modMember pos fun m => { m with tags := put m.tags (4 * fam + slot) idx, fills := insertNat m.fills u } with
        tiles := put r.tiles (64 * fam + idx) va })

/-- XEJECT (R322). -/
def execXeject (w : Plain) (s : State) : Host.Outcome State Fault Refusal :=
  atSite s fun x =>
    let a := x.opnd 0
    let b := x.opnd 1
    let m := a.mask &&& b.mask
    let va := a.scalar64.toNat
    let v := b.scalar64.toNat
    let kind := v % 4
    let slot := bitsOf v 2 2
    let sp := v.testBit 4
    let r := ring s (ringOf x.core)
    let n := if kind = 2 then 28 + slot else 20 + 4 * kind + slot
    x.perform s w m fun p =>
      let go (s : State) : State := x.commitWith s w.ta w.tb (numTok 32 m 0) (.ringEject va kind slot sp)
      if kind == 3 || 2 ^ 5 ≤ v then x.fault s .blockFormat m x.b.addr
      else if kind < 2 && !(ringOwned r p [0, 1, 2, 5, 6, 7] && (find (r.member (memberOf x.core)).tags (4 * kind + slot)).isSome)
        then x.fault s .slotState m x.b.addr
      else if kind == 2 && !ownTaskSlot s x n then x.fault s .slotState m x.b.addr
      else if sp then
        if va % 128 != 0 then x.fault s .misaligned m va
        else match scratchKey p x.core va 16384 with
          | some _ => go s
          | none => x.fault s .accessViolation m va
      else match regionFault va 128 16384 [0] with
        | some (c, a) => x.fault s c m a
        | none => x.spanThen s p m va 16384 .store go

/-- The eject job enters the core's engines (R322). -/
def commitXeject (s : State) (c : Nat) (p : Place) (va kind slot : Nat) (sp : Bool) (gate : List Nat) : Nat × State :=
  let n := if kind = 2 then 28 + slot else 20 + 4 * kind + slot
  let lo := (32 * memberOf c + n) * 16384
  let dst : Space := if sp then .scratch p.wk else .virt p.w.ctx
  addJob s c p (.xeject va n sp) ([⟨.slot, lo, lo + 16384⟩], [⟨dst, va, va + 16384⟩]) gate

/-! ## XCNT, XSWEEP, XSTAT (R323) -/

/-- The ring's owner has the strand's context. -/
def ringContext (r : Ring) (p : Place) : Bool := (r.owner.map Prod.fst) == some p.w.ctx

/-- XCNT (R323). -/
def execXcnt (w : Plain) (s : State) : Host.Outcome State Fault Refusal :=
  atSite s fun x =>
    let (n, m) := x.sel w
    let r := ring s (ringOf x.core)
    x.perform s w m fun p =>
      if !ringContext r p || !(n < 64 || n == 0x40) then x.fault s .slotState m x.b.addr
      else x.yield s w.ta w.tb (numTok 32 m (if n = 0x40 then r.tick else ((find r.rules n).map RingRule.done).getD 0))

/-- XSWEEP (R323). -/
def execXsweep (w : Plain) (s : State) : Host.Outcome State Fault Refusal :=
  atSite s fun x =>
    let (n, m) := x.sel w
    let r := ring s (ringOf x.core)
    x.perform s w m fun p =>
      if n < 64 && ringOwned r p [3] && (find r.rules n).isSome then
        x.commitWith s w.ta w.tb (numTok 32 m 0) (.ringSweep n)
      else x.fault s .slotState m x.b.addr

/-- The rule's sweep starts, or goes on, also where a tick's end has halted the ring since the check (R309, R316, R323). -/
def commitSweep (s : State) (c : Nat) (p : Place) (n : Nat) : State :=
  let rk := ringOf c
  if ringOwned (ring s rk) p [3, 4] then
    sweepStep (modRing s rk fun r => { r with rules := edit r.rules n fun u => { u with sweeping := true } }) rk
  else s

/-- The ring word (R323). -/
def ringWord (r : Ring) (p : Place) : Nat :=
  r.st + (if r.owner == some (p.w.ctx, p.wk) then 8 else 0) + 16 * (r.members.filter fun m => m.group.isSome).length +
    (if r.members.any fun m => !m.fills.isEmpty then 512 else 0)

/-- The rule word (R323). -/
def ruleWord (u : RingRule) : Nat :=
  1 + (if u.sweeping then 2 else 0) + (if u.isDone then 4 else 0) + 8 * u.d.pairs.length + 2 ^ 14 * u.met.length

/-- XSTAT (R323). -/
def execXstat (w : Plain) (s : State) : Host.Outcome State Fault Refusal :=
  atSite s fun x =>
    let (n, m) := x.sel w
    let r := ring s (ringOf x.core)
    x.perform s w m fun p =>
      if !(r.st == 0 || ringContext r p) || !(n < 64 || n == 0x40) then x.fault s .slotState m x.b.addr
      else x.yield s w.ta w.tb (numTok 32 m
        (if n = 0x40 then ringWord r p else ((find r.rules n).map ruleWord).getD 0))

end Sys2Proof.Machine
end

