-- ==== Sys2Proof/Machine/System.lean ====
section
/-! DEFINITION. TRAP, BRK, HCALL and TRET, and firmware's answer to a call (21_faults: R382 to R388). What happens at the
successor after their blocks commit stands in Commit.lean. -/

namespace Sys2Proof.Machine

/-- TRAP or HCALL: a number above 0xFFFF, or trap mode, faults; else the effect is kept for the commit (R383 to R385). -/
def Site.raiseBy (x : Site) (s : State) (w : Plain) (f : Nat → Effect) : State :=
  let (n, m) := x.sel w
  let t := numTok 32 m 0
  if m == 0 then x.yield s w.ta w.tb t
  else if x.st.trap then x.fault s .illegalConvergence m x.b.addr
  else if 0xFFFF < n then x.fault s .blockFormat m x.b.addr
  else x.commitWith s w.ta w.tb t (f n)

/-- TRAP (R385). -/
def execTrap (w : Plain) (s : State) : Host.Outcome State Fault Refusal := atSite s fun x => x.raiseBy s w .trap

/-- BRK (R386). -/
def execBrk (w : Plain) (s : State) : Host.Outcome State Fault Refusal :=
  atSite s fun x => x.commitWith s w.ta w.tb (numTok 32 x.b.mask 0) .brk

/-- HCALL (R387). -/
def execHcall (w : Plain) (s : State) : Host.Outcome State Fault Refusal := atSite s fun x => x.raiseBy s w .hcall

/-- TRET: the exit choice of every lane; the token goes out as it resolves (R388). -/
def execTret (w : Plain) (s : State) : Host.Outcome State Fault Refusal :=
  atSite s fun x =>
    let t := numTok 32 x.b.mask 0
    let x' : Site := { x with b := (x.b.deliver w.ta t).deliver w.tb t }
    x'.choose s x.b.mask (fun _ => .tret) (some .tret)

/-- A commit's call record in the mailbox (R387). -/
def placeCall (s : State) (key : Nat) (p : Place) (n : Nat) (succ : Word) : Nat × State :=
  let (u, s) := fresh s
  let c := coreOf key
  let args := (List.range 4).map fun k => match find s.groups p.gk, find s.strands key with
    | some g, some st => sregVal g st k
    | _, _ => 0
  (u, { s with mailbox := s.mailbox ++ [⟨u, n, p.w.ctx, dieOf c, c, p.g.slot, p.gk, [], succ, args⟩] })

/-- The task bank that a call's registers stand in, if its lanes serve a task: by a strand that waits for it, or by lanes
still parked at its successor (R307). -/
def callTask (s : State) (c : Call) : Option Nat :=
  match c.strands.findSome? (find s.strands) with
  | some st => st.task
  | none => (find s.groups c.group).bind fun g =>
      (g.parked.find? fun p => p.after == some (.call c.uid)).bind fun p => taskOf g p.mask

/-- A call's results in s0 and s1 of its group; an aborted call writes s0 alone, and so does one whose number the running
image does not define (R387). Which numbers an image defines and what a service answers are the image's own, free values
(log entry 5). -/
def callResults (s : State) (c : Call) (stop : Bool) : State :=
  let t := callTask s c
  modGroup s c.group fun g =>
    if stop then g.setSreg t 0 0xFFFF_FFFF_FFFF_FFFE
    else if !Config.serves s.boot.image.version c.n then g.setSreg t 0 0xFFFF_FFFF_FFFF_FFFF
    else (g.setSreg t 0 (Config.service c.uid 0)).setSreg t 1 (Config.service c.uid 1)

/-- The lowest lane of the strands that wait for a call, or of the pairs still parked at its successor (R123, R387). -/
def callLane (s : State) (c : Call) : Nat :=
  let ms := (c.strands.filterMap (find s.strands)).map Strand.mask ++
    (((find s.groups c.group).map Group.parked).getD [] |>.filter fun p => p.after == some (.call c.uid)).map Parked.mask
  (ms.foldl (· ||| ·) 0).lowest.getD 0

/-- HCALL_SERVICE: firmware serves or aborts the call in a mailbox slot: results, applied as one commit of the group in its turn
among those of the die clock, and the strands resume at their successors (R123, R387). Strands that are still parked pairs find
no call when they become strands. -/
def execHcallService (slot : Nat) (stop : Bool) (s : State) : Host.Outcome State Fault Refusal :=
  match s.mailbox[slot]? with
  | none => .next s
  | some c =>
    let now := clkOf s c.core
    let lane := callLane s c
    if (find s.groups c.group).any fun g => !g.turn now lane then .next s else
    let s := modGroup (callResults s c stop) c.group fun g => { g with committed := some (now, lane) }
    let wake (t : Strand) : Strand := if t.st = .call c.uid then { t with st := .ready } else t
    .next { s with mailbox := s.mailbox.eraseIdx slot, strands := mapVals s.strands wake }

end Sys2Proof.Machine
end

