-- ==== Sys2Proof/Machine/Commit.lean ====
section
/-! DEFINITION. The commit of a block, the split of its strand, faults taken, starvation, and the retirement of a workgroup
(02_work: R32, R38 to R42, R45; 06_registers: R122, R123; 07_ref_block: R134, R135; 12_ordering: R222 to R228;
21_faults: R377 to R388). -/

namespace Sys2Proof.Machine

/-! ## When a commit may begin (R42, R45) -/

/-- Every instruction marked in H1 has resolved, every write entry is delivered, every active lane has chosen (R42, R135,
R196); an instruction without a token operand has fired, since it fires with its block (R131). -/
def Blk.complete (b : Blk) : Bool :=
  b.raised.isNone && b.h1 &&& ~~~b.resolved == 0 && (atFire b).isEmpty &&
    (List.range b.writes.length).all (fun n => (find b.slots (4 * n + 3)).isSome) &&
    Mask.within (b.mask &&& ~~~b.removed) (chosen b)

/-- The pushes of a block's write entries: binding and token. An empty mask pushes nothing (R278). -/
def pushesOf (g : Group) (b : Blk) : List (BitVec 32 × Token) :=
  b.writes.zipIdx.filterMap fun e =>
    let t := get b.slots (4 * e.2 + 3) noTok
    if e.1.kind = 2 && t.mask != 0 then some (get g.qregs e.1.reg 0, t) else none

/-- Effects of the block that satisfy `p`. -/
def Blk.count (b : Blk) (p : Effect → Bool) : Nat := (b.effects.filter fun e => p e.2).length

/-- Effects in instruction-index order. -/
def Blk.inOrder (b : Blk) : List (Nat × Effect) := b.effects.mergeSort fun x y => x.1 ≤ y.1

/-- Items that a receive queue can still take from its own core: in the queue while nothing is spilled, then in the spill
area (R278, R280). -/
def recvRoom (q : RecvQ) : Nat :=
  (if q.head == q.tail then 64 - q.items.length else 0) + (if q.slog = 0 then 0 else 2 ^ q.slog - (q.tail - q.head))

/-- The queues have room for the block's pushes and commands (R45, R264, R278, R294). -/
def queueRoom (s : State) (c : Nat) (g : Group) (b : Blk) : Bool :=
  let ps := pushesOf g b
  let x := core s c
  let n (f : BitVec 32 → Bool) : Nat := (ps.filter fun p => f p.1).length
  let jobs := b.count fun e => match e with
    | .job _ => true
    | _ => false
  let cmds := b.count fun e => match e with
    | .mcmd _ => true
    | _ => false
  n (fun k => bindKind k == 1) + jobs ≤ cardRoom x && n (fun k => bindKind k == 6) ≤ eventRoom s &&
    (ps.all fun p => bindKind p.1 != 5 || n (· == p.1) ≤ recvRoom (recvOf x (bindIndex p.1))) &&
    (cmds == 0 || x.mq.length + cmds ≤ 16)

/-- Each LNCH into an enabled queue finds the next slots after the last one posted free; one into a disabled queue does not
wait (R45, R299). -/
def launchRoom (s : State) (b : Blk) : Bool :=
  b.effects.all fun e => match e.2 with
    | .lnch q _ _ =>
      let n := b.count fun f => match f with
        | .lnch r _ _ => r == q
        | _ => false
      !(queueOf s q).enable || (List.range (min n 64)).all fun k => slotFree s q (((queueOf s q).post + k) % 64)
    | _ => true

/-- What else an effect waits for: room in the call mailbox, other strands' reservations on a queue register, a shadow table
that another block has reserved, a signal word's held line (R45, R230, R292, R300, R337, R387). -/
def effectReady (s : State) (key : Nat) (st : Strand) (b : Blk) (e : Effect) : Bool :=
  match e with
  | .hcall _ => s.mailbox.length < 64
  | .bind q _ _ _ => (strandsOf s st.group).all fun t => t.1 == key || !t.2.blocks.any fun k => k.pops.contains q
  | .ipatch _ _ _ _ => (core s (coreOf key)).field.shadowResv.all fun u => st.blocks.any fun k => k.uid == u
  | .signal pa _ _ => !heldFor s (lineOf (plainPa pa)) b.uid
  | _ => true

/-- A scope code that reaches past the core: cluster and wider, or workgroup with COOP (R219). -/
def farScope (p : Place) (n : Nat) : Bool := 3 ≤ n || (n == 2 && p.l.coop)

/-- The block's stores must reach the die's slice as it commits: by REL, before its effects are sent, by a FENCE among them, or
by a release that takes effect with the commit (R224, R226, R227). -/
def postsNow (p : Place) (b : Blk) : Bool :=
  farScope p b.h.rel || !(b.releases p).isEmpty || b.has fun i => match i with
    | .fence sc _ => farScope p sc.toNat
    | _ => false

/-- Nothing holds the block's stores back from the die's slice: no other block's atomics on their lines, no older store of
the core (R223, R230). -/
def storesClear (s : State) (c : Nat) (b : Blk) : Bool :=
  !storesHeld s b && b.stores.all fun t => t.scratch || t.lanes.all fun l =>
    (inWritePath s c (lineOf (plainPa l.pa))).isEmpty

/-- A push into a receive queue of its own core that will spill finds the line of the spill entry free of other blocks' atomics
(R230, R280). -/
def spillClear (s : State) (c : Nat) (p : Place) (b : Blk) : Bool :=
  (pushesOf p.g b).all fun t => bindKind t.1 != 5 || !spillMeets s c (bindIndex t.1) fun l => heldFor s l b.uid

/-- The cards that the block pushes, and their descriptors, can be read as it commits (R225, R230, R294). -/
def cardsClear (s : State) (c : Nat) (p : Place) (b : Blk) : Bool :=
  (pushesOf p.g b).all fun t => bindKind t.1 != 1 || !cardBlocked s c b p t.2.scalar64.toNat

/-- The spilled items that the block's pops bring back into receive queues stand in no line that another block holds (R230,
R280). -/
def refillClear (s : State) (c : Nat) (b : Blk) : Bool :=
  (core s c).recv.all fun e => !(e.2.items.any fun i => i.resv == some b.uid) || match e.2.owner with
    | none => true
    | some (ctx, _) => (List.range (min 64 (e.2.tail - e.2.head))).all fun k =>
      match engineAcc s c ctx (e.2.sbase + 16 * ((e.2.head + k) % 2 ^ e.2.slog)) .load with
      | .ok a => !heldFor s (lineOf (plainPa a.pa)) b.uid
      | .error _ => true

/-- A push into a receive queue of its own core comes behind what the group has sent there before (R231). -/
def sendsArrived (s : State) (c : Nat) (g : Group) (b : Blk) : Bool :=
  (pushesOf g b).all fun t => bindKind t.1 != 5 ||
    !s.recvMsgs.any fun m => m.dst == c && m.queue == bindIndex t.1 && m.src == c && m.slot == g.slot

/-- Every effect of a complete block that can be refused or must wait can go (R45, R224). -/
def commitReady (s : State) (key : Nat) (st : Strand) (p : Place) (b : Blk) : Bool :=
  let c := coreOf key
  sendsArrived s c p.g b && spillClear s c p b && cardsClear s c p b && refillClear s c b && queueRoom s c p.g b && launchRoom s b &&
    b.effects.all (fun e => effectReady s key st b e.2) && releasesReady s p b &&
    (b.h.rel == 0 || storesVisible s p b.mask b.h.rel) && (!postsNow p b || storesClear s c b)

/-! ## Barrier arrivals and REGANG arrivals, checked as the commit begins (R197, R200) -/

/-- Lanes `m` arrive at barrier `n`, whose generation is `gen`: those not yet there at this generation, the others at the
next (R200). -/
def Group.arriveBar (g : Group) (gen : BitVec 15) (n : Nat) (m k : Mask) : Group :=
  let b := g.bar n
  let now := m &&& ~~~b.arrived
  let later := m &&& b.arrived
  let ts := m.lanes.foldl (fun r l => put r l (if b.arrived.has l then gen + 2 else gen + 1)) b.targets
  let b : GroupBar := ⟨b.arrived ||| now, if now != 0 then b.member.or (some k) else b.member, b.arrivedNext ||| later,
    if later != 0 then b.memberNext.or (some k) else b.memberNext, ts⟩
  { g with bars := put g.bars n b }

/-- The first of the block's barrier arrivals that meets another member mask: index and lanes. -/
def barError (g : Group) : List (Nat × Effect) → Option (Nat × Mask)
  | [] => none
  | (i, .barArrive n m k _) :: r =>
    if barConflict (g.bar n) m k then some (i, m) else barError (g.arriveBar 0 n m k) r
  | _ :: r => barError g r

/-- The REGANG by which lane `l` chose: its index and the mask of its operand. -/
def regangOf (b : Blk) (l : Nat) : Nat × Mask :=
  ((List.range b.words.length).findSome? fun i => match b.instr i with
    | some (.regang _) =>
      let m := (get b.slots (4 * i) noTok).mask
      if m.has l then some (i, m) else none
    | _ => none).getD (0xFF, 0)

/-- The first REGANG arrival, in lane order, whose member mask differs from that of arrivals at its label (R197). -/
def regangError (s : State) (gk : Nat) (b : Blk) : KMap Choice → List (Word × Mask) → Option (Nat × Mask)
  | [], _ => none
  | (l, .regang a k) :: r, seen =>
    let set := ((seen.find? fun e => e.1 == a).map Prod.snd).or (labelMember s gk a)
    if set.any (· != k) then some (regangOf b l) else regangError s gk b r ((a, k) :: seen)
  | _ :: r, seen => regangError s gk b r seen

/-! ## Register writes and pushes (R68, R122, R123, R278) -/

/-- A token written to `span` vector registers from `reg` on, for the lanes of its mask (R68, R122). -/
def Group.setVregs (g : Group) (reg span : Nat) (t : Token) : Group :=
  { g with vregs := t.mask.lanes.foldl (fun m l => (List.range span).foldl (fun m j =>
      store m (64 * (reg + j) + l) (BitVec.ofNat 32 ((t.at_ l).toNat / 2 ^ (32 * j))) 0) m) g.vregs }

/-- A scalar register write of a strand: to its trap bank, its task's bank, or the group (R123, R307, R382). -/
def setSreg (s : State) (key gk n : Nat) (v : Word) : State :=
  match find s.strands key with
  | none => s
  | some st =>
    if st.trap && n < 4 then modStrand s key fun t => { t with bank := t.bank.set n v }
    else modGroup s gk fun g => g.setSreg st.task n v

/-- One write entry's token goes to its register; pushes are sent later (R68, R122 to R124). A window token that is per-lane
writes the window of its lowest lane, and one with the empty mask leaves the register, as R123 says of scalar registers
(log entry 48). -/
def writeReg (key gk : Nat) (s : State) (e : WEntry) (t : Token) : State :=
  if t.mask == 0 then s
  else match e.kind with
    | 0 => modGroup s gk fun g => g.setVregs e.reg e.span t
    | 1 => setSreg s key gk e.reg t.scalar64
    | 3 => modGroup s gk fun g => { g with wins := put g.wins e.reg (winOfVal (t.at_ (t.mask.lowest.getD 0))) }
    | _ => s

/-- The address after a block, which a CALL links (R144). -/
def Blk.after (b : Blk) : Nat := b.addr + (b.len + 15) / 16 * 16

/-- The register writes of a block: its write entries and the link of a CALL (R42, R144). -/
def writeRegs (s : State) (key : Nat) (p : Place) (b : Blk) : State :=
  let s := b.writes.zipIdx.foldl (fun s e => writeReg key p.gk s e.1 (get b.slots (4 * e.2 + 3) noTok)) s
  b.inOrder.foldl (fun s e => match e.2 with
    | .link m => modGroup s p.gk fun g => g.setVregs 0 2 (uniTok 64 m (BitVec.ofNat 128 b.after))
    | _ => s) s

/-- A core without the items that a committing block has reserved (R44). -/
def Core.consume (uid : Nat) (c : Core) : Core :=
  let keep : List Item → List Item := fun l => l.filter fun i => i.resv != some uid
  { c with
    compq := (mapVals c.compq keep).filter fun e => !e.2.isEmpty
    recv := mapVals c.recv fun q => { q with items := keep q.items }
    deque := { c.deque with entries := keep c.deque.entries }
    field := { c.field with ports := c.field.ports.map fun p => { p with queue := keep p.queue } } }

/-- The block's reserved pops are consumed, and receive queues refill from their spill areas (R44, R280). -/
def consumePops (s : State) (c : Nat) (b : Blk) : State :=
  let popped := (core s c).recv.filter fun q => q.2.items.any fun i => i.resv == some b.uid
  let s : State := { s with
    cores := mapVals s.cores (Core.consume b.uid)
    rings := mapVals s.rings fun r => { r with queue := r.queue.filter fun i => i.resv != some b.uid } }
  popped.foldl (fun s q => refill c q.1 64 s) s

/-- One push at commit but to the event queue (R278, R279, R294); the answer is the job it starts. -/
def pushItem (s : State) (key : Nat) (p : Place) (gate : List Nat) (k : BitVec 32) (t : Token) :
    List Nat × State :=
  let c := coreOf key
  match bindKind k with
  | 1 =>
    let r := pushCard s key p t.scalar64.toNat gate
    (r.1.toList, r.2)
  | 5 =>
    let (n, s) := fresh s
    ([], arriveItem s ⟨n, c, bindIndex k, recvItem t.scalar64 c p.g.slot, p.w.ctx, dieOf c, p.g.slot, p.l.tag, c⟩)
  | _ => ([], s)

/-- The block's pushes to the event queue, for which its commit has found room; they are never held (R278, R287, R288). -/
def pushEvents (s : State) (key : Nat) (p : Place) (b : Blk) : State :=
  let c := coreOf key
  ((pushesOf p.g b).filter fun t => bindKind t.1 == 6).foldl (fun s t =>
    let (n, s) := fresh s
    deliverRecords s (dieOf c) [{ Record.basic 4 0 (dieId (dieOf c)) p.w.ctx with
      uid := n, slot := p.g.slot, core := c, strand := key % 256, tag := p.l.tag,
      mask := b.mask &&& ~~~b.removed, addr := t.2.scalar64 }]) s

/-! ## The other effects -/

/-- Arrivals at barrier `n` come into force; the first of a generation starts its timeout (R200, R201). -/
def commitBar (s : State) (p : Place) (n : Nat) (m k : Mask) : State :=
  let gen := ((find s.wgs p.wk).map fun w => get w.barGen n 0).getD 0
  let s := modGroup s p.gk fun g => g.arriveBar gen n m k
  modWg s p.wk fun w => if (find w.barStart n).isSome then w else { w with barStart := put w.barStart n s.time.toNat }

/-- A matrix command enters the core's queue (R264). One that has passed its checks enters it, and runs, also where a release of its
resource by another block, or by a lower-indexed ORLSE of its own, has committed before it: R264 checks the claim at perform, and
no rule says what becomes of such a command (log entry 20). -/
def commitCmd (s : State) (c : Nat) (p : Place) (op : MOp) (gate : List Nat) : Nat × State :=
  let (n, s) := fresh s
  (n, modCore s c fun x => { x with mq := x.mq ++ [⟨n, op, p.w.ctx, p.wk, p.lk, p.g.slot, p.l.tag, gate, false, none⟩] })

/-- An effect that starts nothing. -/
def quiet (s : State) : List Nat × State := ([], s)

/-- An effect that starts one asynchronous operation. -/
def starts (r : Nat × State) : List Nat × State := ([r.1], r.2)

/-- An effect that may start one. -/
def mayStart (r : Option Nat × State) : List Nat × State := (r.1.toList, r.2)

/-- One effect of the block comes into force; the answer is the asynchronous operations it starts (R43). Links, drains,
and what is met at the successor are made elsewhere. -/
def applyEffect (key : Nat) (p : Place) (m : Mask) (gate : List Nat) (s : State) (e : Effect) : List Nat × State :=
  let c := coreOf key
  match e with
  | .satCount => quiet (bump s c 8 1)
  | .barArrive n l k _ => quiet (commitBar s p n l k)
  | .lockSeen line => quiet (seeLock s key line m)
  | .lockRelease line => quiet (releaseLine s key line m)
  | .oclaim n => quiet (commitClaim s c n)
  | .orlse n => quiet (commitRelease s c p n)
  | .mcmd op => starts (commitCmd s c p op gate)
  | .bind q k slog sbase => quiet (commitBind s c p q k slog sbase)
  | .deq => quiet (commitDeq s c p)
  | .undeq => quiet (commitUndeq s c p)
  | .job d => starts (addJob s c p (.card d) (cardFoot p.w.ctx p.wk d) gate)
  | .send dst q v => quiet (commitSend s c p dst q v)
  | .dqpush v => quiet (commitDqpush s c v)
  | .lnch q src r => quiet (commitLnch s q src r)
  | .signal pa home v => quiet (commitSignal s c pa home v)
  | .ringOpen period tag => quiet (commitOpen s c p period tag)
  | .ringRule n d => quiet (commitRule s c p n d)
  | .ringJoin w ret => quiet (commitJoin s key p w ret)
  | .ringStart => quiet (commitStart s c p)
  | .ringClear n => quiet (commitXclr s c p n)
  | .ringInject src pos fam slot idx => mayStart (commitXinj s c p src pos fam slot idx gate)
  | .ringEject dst kind slot sp => starts (commitXeject s c p dst kind slot sp gate)
  | .ringSweep n => quiet (commitSweep s c p n)
  | .ipatch a first count start => mayStart (commitIpatch s c p a first count start gate)
  | .iset cls idx v => quiet (commitIset s c p cls idx v)
  | .istep dom n => mayStart (commitIstep s c p dom n)
  | .irun mask act => quiet (commitIrun s c p mask act)
  | .ihalt mask rel => quiet (commitIhalt s c p mask rel)
  | .isave a => mayStart (commitIsave s c p a gate)
  | .irest a => mayStart (commitIrest s c p a gate)
  | .iout port cell en => quiet (commitIout s c p port cell en)
  | .rtcfg a c0 c1 sinks => starts (commitRtcfg s c p a c0 c1 sinks gate)
  | .rtswap c0 c1 drop => mayStart (commitRtswap s c p.w.ctx c0 c1 drop)
  | .rtsend edge th toks => quiet (commitRtsend s c p.w.ctx edge th toks)
  | .qsc edge v => quiet (commitQsc s c p.w.ctx edge v)
  | .evcfg cls idx v => quiet (commitEvcfg s c p cls idx v)
  | .evarm t arm => quiet (commitEvarm s c p t arm)
  | .evfire n => quiet (commitEvfire s c p n)
  | .cntset cls idx v => quiet (commitCntset s c cls idx v)
  | .enrsv n => mayStart (commitEnrsv s n)
  | .link _ | .flsig _ _ _ | .trap _ | .brk | .hcall _ | .tret => quiet s

/-- The FLSIGs of a block share one drain over the strand's stores that are not yet acknowledged; a store already dropped
makes it fail (R228, R248, R249). -/
def startDrain (s : State) (key : Nat) (p : Place) (b : Blk) : List Nat × State :=
  let fl := b.inOrder.filterMap fun e => match e.2 with
    | .flsig g add sys => some (g.map fun x => (x, add), sys)
    | _ => none
  if fl.isEmpty then quiet s
  else
    let (n, s) := fresh s
    let mine := s.posted.filter fun q => q.group == p.gk && q.lanes &&& b.mask != 0
    let lost := ((find s.groups p.gk).map Group.lost).getD []
    let d : Drain := ⟨n, key, coreOf key, dieOf (coreOf key), p.w.ctx, p.l.tag, b.mask, p.g.slot, mine.map Posted.uid,
      (mine.map Posted.home).foldl insertNat [], fl.filterMap Prod.fst, fl.any Prod.snd,
      (lost.find? fun e => e.1 &&& b.mask != 0).map Prod.snd⟩
    let s := modGroup s p.gk fun g => { g with lost := g.lost.filter fun e => e.1 &&& b.mask == 0 }
    ([n], { s with drains := s.drains ++ [d] })

/-- The block's stores, pushes and other effects, in that order, effects by instruction index; the answer is the
asynchronous operations that begin (R42, R222, R224, R264). -/
def applyEffects (s : State) (key : Nat) (p : Place) (b : Blk) : List Nat × State :=
  let s := postStores s key p b b.mask (postsNow p b)
  let gate := (s.posted.filter fun q => q.group == p.gk && q.lanes &&& b.mask != 0 && q.stage == 0).map Posted.uid
  let r := (pushesOf p.g b).foldl (fun r t =>
    let q := pushItem r.2 key p gate t.1 t.2
    (r.1 ++ q.1, q.2)) (([], s) : List Nat × State)
  let r := b.inOrder.foldl (fun r e =>
    let q := applyEffect key p b.mask gate r.2 e.2
    (r.1 ++ q.1, q.2)) r
  let d := startDrain r.2 key p b
  (r.1 ++ d.1, d.2)

/-! ## The split (R38 to R40) -/

/-- A successor of a commit: its address, the member mask of lanes that arrive there by REGANG, its lanes. -/
structure Out where
  succ : Word
  member : Option Mask
  mask : Mask

/-- The successors that lanes not removed have chosen, in order of their lowest lanes (R38, R135, R196). -/
def outsOf (b : Blk) : List Out :=
  let one : Nat × Choice → Option Out := fun e => match e.2 with
    | .goto a => some ⟨a, none, Mask.one e.1⟩
    | .regang a k => some ⟨a, some k, Mask.one e.1⟩
    | _ => none
  ((b.choices.filter fun e => !b.removed.has e.1).filterMap one).foldl (fun r o =>
    if r.any fun x => x.succ == o.succ && x.member == o.member then
      r.map fun x => if x.succ == o.succ && x.member == o.member then { x with mask := x.mask ||| o.mask } else x
    else r ++ [o]) []

/-- Where the lanes of a successor stand: ready, or waiting at the label (R197). -/
def Out.stand (o : Out) (now : Nat) : StrandSt :=
  match o.member with
  | none => .ready
  | some k => .label k now

/-- The lanes of one successor take the strand's own entry, a new entry, or the parked set (R38, R197). `t` is the strand
as the commit leaves it. The answer lists the strands that go on at a successor. -/
def placeOut (key : Nat) (t : Strand) (after : Option After) (r : Bool × List Nat × State) (o : Out) :
    Bool × List Nat × State :=
  let (kept, ks, s) := r
  let st := o.stand s.time.toNat
  let more : Nat → List Nat := fun k => if o.member.isNone then ks ++ [k] else ks
  if !kept then
    (true, more key, modStrand s key fun _ => { t with mask := o.mask, pc := o.succ, st := st })
  else match (if groupHasRoom s t.group then takeEntry s (coreOf key) else none) with
    | some e =>
      let k := strandKey (coreOf key) e
      (true, more k, { s with
        uid := s.uid + 1
        strands := put s.strands k { Strand.start t.group o.mask o.succ with
          st := st, task := t.task, barWait := t.barWait, l1min := t.l1min, asyncs := t.asyncs,
          drainFailed := t.drainFailed, due := t.due, jobMin := t.jobMin } })
    | none => (true, ks, modGroup s t.group fun g =>
        { g with parked := g.parked ++ [⟨some o.succ, o.mask, s.time.toNat, o.member,
          if o.member.isNone then after else none, t.barWait, t.asyncs, t.drainFailed, t.due, t.jobMin,
          t.l1min⟩] })

/-- Lanes of a block that chose QUIT (R146). -/
def quitsOf (b : Blk) : Mask :=
  (b.choices.filter fun e => e.2 = .quit && !b.removed.has e.1).foldl (fun m e => m ||| Mask.one e.1) 0

/-- The lanes of `m` have quit: they are live no more, and wait for no barrier (R146, R200). -/
def Group.quit (g : Group) (m : Mask) : Group :=
  { g with
    live := g.live &&& ~~~m
    bars := mapVals g.bars fun b => { b with targets := b.targets.filter fun e => !m.has e.1 } }

/-- The group without the replay records of a committed block, and without those that wait for lanes which the commit has
divided otherwise (R189). -/
def Group.dropReplay (g : Group) (b : Blk) : Group :=
  { g with replay := g.replay.filter fun r => r.blk != some b.uid &&
      (r.blk.isSome || b.mask &&& r.mask == 0 || (outsOf b).any fun o => o.mask == r.mask) }

/-- What the strands that a commit leaves meet at their successors (R385 to R387); HCALL places its record. -/
def metAfter (s : State) (key : Nat) (p : Place) (b : Blk) : Option After × State :=
  b.inOrder.foldl (fun r e => match e.2 with
    | .trap n => (some (.trap n e.1), r.2)
    | .brk => (some (.brk e.1), r.2)
    | .hcall n =>
      let succ := ((outsOf b).find? fun o => o.member.isNone).map Out.succ
      let c := placeCall r.2 key p n (succ.getD 0)
      (some (.call c.1), c.2)
    | _ => r) (none, s)

/-- The strand after a commit's effects, its block gone (R42). -/
def Strand.committed (t : Strand) (b : Blk) (asyncs : List Nat) : Strand :=
  let bars := b.inOrder.filterMap fun e => match e.2 with
    | .barArrive n _ _ true => some n
    | _ => none
  { t with
    blocks := t.blocks.drop 1
    barWait := bars.foldl insertNat t.barWait
    asyncs := t.asyncs ++ asyncs
    first := t.first && t.trap }

/-- The lanes go where they chose: removed lanes into the parked set, quits out, the others to their successors; a strand
that none of them keeps is freed; traps, breaks and calls are met (R38 to R40, R146, R196, R385 to R387). The strand of a
group that has joined a ring leaves, whatever its lanes chose (R318). -/
def splitStrand (s : State) (key : Nat) (p : Place) (b : Blk) (asyncs : List Nat) : State :=
  match find s.strands key with
  | none => s
  | some st =>
    let joined := ((find s.groups p.gk).bind Group.joined).isSome && p.g.joined.isNone
    let t := st.committed b asyncs
    if !joined && b.choices.any fun e => e.2 = .tret then trapReturn (modStrand s key fun _ => t) key
    else
      let (after, s) := metAfter s key p b
      if joined then freeStrand (modGroup s p.gk fun g => (g.dropReplay b).dropTrapReplay st.mask) key else
      let gone := b.removed &&& b.mask
      let s := modGroup s p.gk fun g =>
        let g := if gone == 0 then g else
          { g with parked := g.parked ++ [⟨none, gone, s.time.toNat, none, none, [], [], none, none, t.jobMin, t.l1min⟩] }
        (if t.task.isNone then g.quit (quitsOf b) else g).dropReplay b
      let (kept, ks, s) := (outsOf b).foldl (placeOut key t after) (false, [], s)
      let s := if kept then s else freeStrand s key
      ks.foldl (fun s k => meetAfter s k after) s

/-! ## Retirement (R32, R40) -/

/-- One MASK_ORPHAN record for a group whose last lanes are orphans (R40). -/
def orphanRecord (s : State) (wk : Nat) (g : Group) : State :=
  if g.orphans == 0 then s
  else
    let tag := ((launchOfWg s wk).map Launch.tag).getD 0
    let ctx := ((find s.wgs wk).map Wg.ctx).getD 0
    (report s (dieOf g.core) { Record.basic 1 FaultCode.maskOrphan.code (dieId (dieOf g.core)) ctx with
      slot := g.slot, core := g.core, strand := 0xFF, tag := tag, mask := g.orphans }).1

/-- A core gives back what a workgroup owns there: claims as their commands complete, receive queues with their items
counted lost, the deque, the crossbar (R262, R289, R292, R360). -/
def Core.release (ctx wk : Nat) (c : Core) : Core :=
  let me := some (ctx, wk)
  let lost := c.recv.filter fun q => q.2.owner == me
  settle { c with
    res := c.res.map fun r => if r.st = 1 && r.owner = me then { r with releasing := true } else r
    counted := lost.foldl (fun m q => countIn m (16 + q.1) (q.2.items.length + (q.2.tail - q.2.head))) c.counted
    recv := c.recv.filter fun q => q.2.owner != me
    deque := if c.deque.owner == me then Deque.reset else c.deque
    xbar := if c.xbar.owner == me then Xbar.reset else c.xbar }

/-- Everything that a workgroup owns on its cores, and its rings, is given back (R32, R262, R313, R332). -/
def releaseOwned (s : State) (wk ctx : Nat) (cores : List Nat) : State :=
  let s := cores.foldl (fun s c =>
    let s := if (core s c).field.owner == some (ctx, wk) then releaseField s c else s
    modCore s c (Core.release ctx wk)) s
  (keys s.rings).foldl (fun s k => if (ring s k).owner == some (ctx, wk) then clearRing s k else s) s

/-- A workgroup is gone with its groups, strands and what it owned. -/
def removeWg (s : State) (wk : Nat) : State :=
  match find s.wgs wk with
  | none => s
  | some w =>
    let s := releaseOwned (tallySlots s w.die) wk w.ctx w.cores
    { s with
      strands := s.strands.filter fun e => !(find s.groups e.2.group).any fun g => g.wg == wk
      groups := s.groups.filter fun e => e.2.wg != wk
      wgs := del s.wgs wk }

/-- A workgroup retires when every lane of every group has quit; lanes parked without a successor are recorded and removed.
The damper measures it (R32, R40, R373). -/
def settleWg (s : State) (wk : Nat) : State :=
  let gs := groupsOf s wk
  let done := gs.all fun e =>
    e.2.joined.isNone && e.2.parked.all (fun p => p.succ.isNone) && (strandsOf s e.1).isEmpty
  match find s.wgs wk, done with
  | some w, true =>
    if w.st = .resident then
      let s := tallySlots (gs.foldl (fun s e => orphanRecord s wk e.2) s) w.die
      modLaunch (removeWg s wk) w.launch fun l => correct l (spentBy s wk w)
    else s
  | _, _ => s

/-! ## The events -/

/-- What follows a commit at once: barriers that pass, tasks that end, a workgroup that retires. -/
def settleAfter (s : State) (gk wk : Nat) : State :=
  let s := (List.range 15).foldl (fun s n => settleBar s wk (n + 1)) s
  settleWg (settleTasks s gk) wk

/-- Strand `key` of group `gk` has committed in this clock (R123, R197). -/
def noteCommit (s : State) (key gk : Nat) : State :=
  match find s.strands key with
  | some st => modGroup s gk fun g => { g with committed := some (clkOf s (coreOf key), st.mask.lowest.getD 0) }
  | none => s

/-- A commit that has begun: the block's atomics become visible, registers are written, stores and effects made, the
lanes divided (R42, R45, R221). -/
def commitBlock (s : State) (key : Nat) (p : Place) (b : Blk) : State :=
  let s := consumePops (releaseHeld (pushEvents s key p b) (coreOf key) b.uid) (coreOf key) b
  let (asyncs, s) := applyEffects (writeRegs s key p b) key p b
  let s := splitStrand (noteCommit s key p.gk) key p b asyncs
  settleAfter (bump s (coreOf key) 2 1) p.gk p.wk

/-- BLOCK_COMMIT: a strand's oldest block, complete and with room for every effect, applies them at one point, in its turn among
the commits of the clock; a REGANG or barrier arrival with another member mask faults instead (R42, R45, R123, R197, R200). -/
def execBlockCommit (core_ entry : Nat) (s : State) : Host.Outcome State Fault Refusal :=
  let key := strandKey core_ entry
  match placeOf s key with
  | none => .next s
  | some (st, p) =>
    match st.blocks with
    | [] => .next s
    | b :: _ =>
      if p.w.st != .resident || !b.complete || !p.g.turn (clkOf s core_) (st.mask.lowest.getD 0) then .next s
      else match (regangError s p.gk b (b.choices.filter fun e => !b.removed.has e.1) []).or (barError p.g b.inOrder) with
        | some (i, m) => .next (modBlk s key b.uid fun b => b.raise (clkOf s core_) ⟨.illegalConvergence, i, m, b.addr, 0⟩)
        | none => if commitReady s key st p b then .next (commitBlock s key p b) else .next s

/-- The RTSWAP whose fault is taken met an invalid shadow: it discards it (R363). An RTSWAP that faults for another reason keeps
no effect. -/
def dropInvalid (s : State) (key : Nat) (b : Blk) (r : Raised) : State :=
  b.effects.foldl (fun s e => match e.2 with
    | .rtswap c0 c1 true =>
      if e.1 = r.index then modDie s (dieOf (coreOf key)) fun d => d.dropShadow c0 c1 else s
    | _ => s) s

/-- FAULT_TAKE: a fault raised in the strand's oldest uncommitted block is taken: this and later blocks are discarded, and
the strand enters its handler or parks (R377, R378, R380). -/
def execFaultTake (core_ entry : Nat) (s : State) : Host.Outcome State Fault Refusal :=
  let key := strandKey core_ entry
  match find s.strands key with
  | none => .next s
  | some st =>
    match st.blocks with
    | [] => .next s
    | b :: _ =>
      match b.raised with
      | none => .next s
      | some r => .next (takeFault (dropInvalid s key b r) key r (BitVec.ofNat 64 b.addr))

/-- The block has drained: nothing is held or on its way, and no instruction can fire (R134). -/
def Blk.drained (b : Blk) : Bool :=
  b.waits.isEmpty && (List.range b.words.length).all fun i => b.fired.has i || !delivered b i

/-- Whom a drained block that cannot commit names: the strand's lanes, or those that chose no exit (R134). -/
def starvedMask (b : Blk) : Mask :=
  if b.h1 &&& ~~~b.resolved != 0 || (List.range b.writes.length).any fun n => (find b.slots (4 * n + 3)).isNone then b.mask
  else b.mask &&& ~~~b.removed &&& ~~~chosen b

/-- BLOCK_STARVED_DRAIN: the oldest block drains before it can commit (R134). A later block that has drained faults once
it is the oldest (R377). -/
def execBlockStarvedDrain (core_ entry : Nat) (s : State) : Host.Outcome State Fault Refusal :=
  let key := strandKey core_ entry
  match find s.strands key with
  | none => .next s
  | some st =>
    match st.blocks with
    | [] => .next s
    | b :: _ =>
      if b.raised.isSome || b.complete || !b.drained then .next s
      else .next (takeFault s key ⟨.blockStarved, 0xFF, starvedMask b, b.addr, 0⟩ (BitVec.ofNat 64 b.addr))

end Sys2Proof.Machine
end

