-- ==== Sys2Proof/Machine/Launch.lean ====
section
/-! DEFINITION. Launch records, the line monitor, the dispatcher and the distributors: parse, fit, placement, room made by
pre-emption, completion, the watchdog, queue descriptors (02_work: R22 to R36, R48 to R54; 06_registers: R129;
14_ref_matrix: R262; 20_counters: R373, R374; 21_faults: R381, R404). -/

namespace Sys2Proof.Machine

/-! ## Launch records (R24, R28) -/

/-- The bytes of a launch slot. -/
def slotBytes (s : State) (q k : Nat) : List Nat := (List.range 256).map fun o => homeRead s (slotAddr q k o) 1

/-- The physical address, with its raw alias bit, and home of a signal word in a context, if its page is a writable one of HBM or
host memory (R28, R31). -/
def signalWord (s : State) (ctx va : Nat) : Option (Nat × Nat) :=
  if 2 ^ 52 ≤ va then none
  else match translatePkg s ctx va with
    | .fault _ => none
    | .page e =>
      let k := kindAt (plainPa (e.pa va))
      if pteW e.pte && populated (e.pa va) && (k = .hbm || k = .host) then
        some (e.pa va, homeOf s (plainPa (e.pa va)) (pteHome e.pte)) else none

/-- The extents of fields 2 to 5; 0 stands for 2^32 (R24). -/
def extentsOf (bs : List Nat) : List Nat :=
  (List.range 4).map fun k => let e := leAt bs (0x30 + 4 * k) 4; if e = 0 then 2 ^ 32 else e

/-- The field widths, those beyond FCOUNT included (R24). -/
def widthsOf (bs : List Nat) : List Nat := (List.range 6).map fun k => leAt bs (0x18 + k) 1

/-- The range entries in use: die identifier, first and end workgroup number (R24). -/
def rangesOf (bs : List Nat) : List (Nat × Nat × Nat) :=
  (List.range (leAt bs 0x84 1)).map fun k => (leAt bs (0x80 + k) 1, leAt bs (0x40 + 16 * k) 8, leAt bs (0x48 + 16 * k) 8)

/-- The waits in use: address and value (R24). -/
def waitsOf (bs : List Nat) : List (Nat × Nat) :=
  (List.range (leAt bs 0x85 1)).map fun k => (leAt bs (0x88 + 16 * k) 8, leAt bs (0x90 + 16 * k) 8)

/-- The accepted launch that a record describes (R24, R31, R373). -/
def launchOf (s : State) (q k : Nat) (bs : List Nat) : Launch :=
  let ctx := (queueOf s q).ctx
  let fl := leAt bs 0x1F 1
  let done := leAt bs 0xC8 8
  let doneAt := if done = 0 then (0, 0) else (signalWord s ctx done).getD (0, 0)
  { queue := q
    slot := k
    ctx := ctx
    tag := leAt bs 0xFC 2
    entry := BitVec.ofNat 64 (leAt bs 0 8)
    cbase := BitVec.ofNat 64 (leAt bs 8 8)
    tbase := BitVec.ofNat 64 (leAt bs 0x10 8)
    widths := (widthsOf bs).take (leAt bs 0x1E 1)
    extents := extentsOf bs
    groups := leAt bs 0x20 2
    vregs := leAt bs 0x22 2
    sregs := leAt bs 0x24 2
    oslots := leAt bs 0x26 1
    scratch := leAt bs 0x28 4
    coop := fl.testBit 0
    cores := fl.testBit 1
    early := fl.testBit 2
    notify := fl.testBit 3
    args := (List.range 4).map fun k => BitVec.ofNat 64 (leAt bs (0xD8 + 8 * k) 8)
    energy := leAt bs 0xF8 4
    ranges := (rangesOf bs).map fun r => ⟨r.1 % 8, r.2.1, r.2.2⟩
    waits := (waitsOf bs).map fun w => 
      let p := (signalWord s ctx w.1).getD (0, 0)
      ⟨w.1, plainPa p.1, p.2, BitVec.ofNat 64 w.2⟩
    doneVa := done
    donePa := doneAt.1
    doneHome := doneAt.2
    doneInc := BitVec.ofNat 64 (leAt bs 0xD0 8)
    corr := 256
    dispatched := false
    order := 0
    granted := none
    failed := none }

/-- Workgroups of the grid (R23). -/
def gridOf (l : Launch) : Nat := l.extents.foldl (· * ·) 1

/-- The group width (R22). -/
def Launch.width (l : Launch) : Nat := 2 ^ l.widths.headD 3

/-- FORMAT: reserved bytes, widths, extents, counts, alignments, signal words (R22, R24, R28). -/
def formatOk (s : State) (ctx : Nat) (bs : List Nat) : Bool :=
  let fc := leAt bs 0x1E 1
  let ws := widthsOf bs
  let w (k : Nat) : Nat := ws.getD k 0
  let zero (o n : Nat) : Bool := leAt bs o n == 0
  let done := leAt bs 0xC8 8
  zero 0x27 1 && zero 0x2C 4 && zero 0x86 2 && zero 0xFE 1 && leAt bs 0x1F 1 < 16 &&
    3 ≤ fc && fc ≤ 6 && (ws.drop fc).all (· == 0) && 3 ≤ w 0 && w 0 ≤ 6 && w 1 ≤ 11 && (ws.drop 2).all (· ≤ 32) &&
    ws.sum ≤ 64 && leAt bs 0 8 % 16 == 0 && 1 ≤ leAt bs 0x20 2 && leAt bs 0x20 2 ≤ 2 ^ w 1 &&
    1 ≤ leAt bs 0x22 2 && leAt bs 0x22 2 ≤ 2048 && leAt bs 0x24 2 ≤ 1024 && leAt bs 0x26 1 ≤ 32 &&
    leAt bs 0x28 4 % 256 == 0 && leAt bs 0x28 4 ≤ 2 ^ 20 &&
    (List.range 4).all (fun k =>
      let e := leAt bs (0x30 + 4 * k) 4
      if e = 0 then w (k + 2) == 32 else e ≤ 2 ^ w (k + 2)) &&
    1 ≤ leAt bs 0x84 1 && leAt bs 0x84 1 ≤ 4 && leAt bs 0x85 1 ≤ 4 &&
    (waitsOf bs).all (fun x => x.1 % 8 == 0 && (signalWord s ctx x.1).isSome) &&
    done % 8 == 0 && (done == 0 || (signalWord s ctx done).isSome)

/-- RANGE: the entries name hob dies and cover exactly [0, grid size), each number once (R28). -/
def rangeOk (bs : List Nat) : Bool :=
  let rs := (rangesOf bs).mergeSort fun a b => a.2.1 < b.2.1 || (a.2.1 == b.2.1 && a.2.2 ≤ b.2.2)
  let last := rs.foldl (fun (n : Option Nat) r => n.bind fun n => if r.2.1 = n && n ≤ r.2.2 then some r.2.2 else none)
    (some 0)
  rs.all (fun r => 8 ≤ r.1 && r.1 ≤ 11) && last == some ((extentsOf bs).foldl (· * ·) 1)

/-! ## Capacity (R26, R35 to R37, R129, R262) -/

/-- What of a core is taken: runs of lanes as launch, slot, position, width; register-file and scratchpad bytes; operand
slots open to a quota; free strand-table entries. -/
structure Cap where
  runs : List (Nat × Nat × Nat × Nat)
  vec : Nat
  sca : Nat
  scr : Nat
  quota : Nat
  entries : Nat

/-- An empty core (R26). -/
def Cap.empty : Cap := ⟨[], 0, 0, 0, 32, 256⟩

/-- Bytes of the vector file that a group takes (R129). -/
def vecBytes (l : Launch) : Nat := 4 * l.width * ((l.vregs + 7) / 8 * 8)

/-- Bytes of the scalar file that a group takes (R129). -/
def scaBytes (l : Launch) : Nat := 8 * ((l.sregs + 7) / 8 * 8)

/-- What of core `c` is taken when the workgroups of `ex` are thought away. -/
def capOf (s : State) (ex : List Nat) (c : Nat) : Cap :=
  let here := s.wgs.filter fun e => e.2.st = .resident && e.2.cores.contains c && !ex.contains e.1
  let gs := s.groups.filter fun e => e.2.core == c && here.any fun w => w.1 == e.2.wg
  let launch (g : Group) : Nat := ((find s.wgs g.wg).map Wg.launch).getD 0
  let of (f : Launch → Nat) (k : Nat) : Nat := ((find s.launches k).map f).getD 0
  let freed := (s.strands.filter fun e => coreOf e.1 == c && (find s.groups e.2.group).any fun g => ex.contains g.wg).length
  ⟨gs.map fun e => (launch e.2, e.2.slot, e.2.pos, e.2.width),
   (gs.map fun e => of vecBytes (launch e.2)).sum, (gs.map fun e => of scaBytes (launch e.2)).sum,
   (here.map fun e => of Launch.scratch e.2.launch).sum,
   ((List.range 32).filter fun n => (resOf (core s c) n).st != 2).length - (here.map fun e => e.2.oslots).sum,
   (freeEntries s c).length + freed⟩

/-- Slots of a core that hold a group. -/
def Cap.slots (c : Cap) : Nat := ((c.runs.map fun r => r.2.1).foldl insertNat []).length

/-- The first aligned free run of `g` positions in a slot. -/
def Cap.freePos (c : Cap) (slot g : Nat) : Option Nat :=
  ((List.range (64 / g)).map (· * g)).find? fun p =>
    c.runs.all fun r => r.2.1 != slot || p + g ≤ r.2.2.1 || r.2.2.1 + r.2.2.2 ≤ p

/-- Where a group of launch `lk` goes on a core: the lowest slot of its launch with room, else the lowest empty one
(R35). -/
def Cap.spot (c : Cap) (lk g : Nat) : Option (Nat × Nat) :=
  let own := (List.range 64).find? fun k => (c.runs.any fun r => r.1 == lk && r.2.1 == k) && (c.freePos k g).isSome
  match own with
  | some k => (c.freePos k g).map fun p => (k, p)
  | none => ((List.range 64).find? fun k => c.runs.all fun r => r.2.1 != k).map fun k => (k, 0)

/-- One group more on a core, with `need` strand-table entries; `first` when it is its workgroup's first there (R26, R35,
R36, R129, R262). -/
def Cap.add (c : Cap) (lk : Nat) (l : Launch) (need : Nat) (first : Bool) : Option ((Nat × Nat) × Cap) :=
  let share := !first || (c.scr + l.scratch ≤ 2 ^ 20 && l.oslots ≤ c.quota)
  if share && c.vec + vecBytes l ≤ 2 ^ 19 && c.sca + scaBytes l ≤ 2 ^ 18 && need ≤ c.entries then
    (c.spot lk l.width).map fun k =>
      (k, ⟨c.runs ++ [(lk, k.1, k.2, l.width)], c.vec + vecBytes l, c.sca + scaBytes l,
        if first then c.scr + l.scratch else c.scr, if first then c.quota - l.oslots else c.quota, c.entries - need⟩)
  else none

/-- Groups placed in order on the cores of a unit: each on core `k` of it or, without a fixed place, on a later one (R36).
A group is its number of strand-table entries and its fixed member; the answer is a member, slot and position for each. -/
def fillUnit (lk : Nat) (l : Launch) : List (Nat × Option Nat) → Nat → List Nat → List Cap →
    Option (List (Nat × Nat × Nat) × List Cap)
  | [], _, _, caps => some ([], caps)
  | (need, at_) :: gs, k, used, caps =>
    let ks := match at_ with
      | some m => [m]
      | none => (List.range caps.length).filter fun m => k ≤ m
    match ks.findSome? fun m => ((caps.getD m Cap.empty).add lk l need (!used.contains m)).map fun r => (m, r) with
    | none => none
    | some (m, spot, cap) =>
      (fillUnit lk l gs m (insertNat used m) (caps.set m cap)).map fun r => ((m, spot) :: r.1, r.2)

/-- The units of a die on which a workgroup may be placed: cores, or for COOP clusters (R36). -/
def unitsOf (d : Nat) (coop : Bool) : List (List Nat) :=
  if coop then (List.range 12).map fun c => (List.range 4).map fun i => 48 * d + 4 * c + i
  else (List.range 48).map fun c => [48 * d + c]

/-- The unit that R49 chooses: the fewest occupied slots among those where the groups fit and `ok` holds, then the lowest;
with the groups' places and the unit's cores after it. -/
def chooseUnit (caps : Nat → Cap) (lk : Nat) (l : Launch) (d : Nat) (gs : List (Nat × Option Nat)) (ok : List Nat → Bool) :
    Option (List Nat × List (Nat × Nat × Nat) × List Cap) :=
  let fits := (unitsOf d l.coop).filterMap fun u =>
    if ok u then (fillUnit lk l gs 0 [] (u.map caps)).map fun r =>
      (((u.map fun c => (caps c).slots).sum, u.headD 0), u, r.1, r.2) else none
  (leastBy (fun a b => a.1.1 < b.1.1 || (a.1.1 == b.1.1 && a.1.2 < b.1.2)) fits).map Prod.snd

/-- The groups of a new workgroup: one entry each, anywhere. -/
def newGroups (l : Launch) : List (Nat × Option Nat) := List.replicate l.groups (1, none)

/-- The unit for a new workgroup of a launch on a die as it stands. -/
def chooseNew (s : State) (ex : List Nat) (lk : Nat) (l : Launch) (d : Nat) :
    Option (List Nat × List (Nat × Nat × Nat) × List Cap) :=
  chooseUnit (capOf s ex) lk l d (newGroups l) fun _ => true

/-- `n` workgroups of a launch placed one after another on die `d` (R51). -/
def placeMany (lk : Nat) (l : Launch) (d : Nat) : Nat → KMap Cap → (Nat → Cap) → Option (KMap Cap)
  | 0, m, _ => some m
  | n + 1, m, base =>
    let caps (c : Nat) : Cap := (find m c).getD (base c)
    match chooseUnit caps lk l d (newGroups l) fun _ => true with
    | none => none
    | some (u, _, cs) => placeMany lk l d n ((u.zip cs).foldl (fun m e => put m e.1 e.2) m) base

/-- The cores that a launch takes when every workgroup of it is placed at once, if they can be (R51). -/
def wholeTaken (base : Nat → Cap) (lk : Nat) (l : Launch) : Option (KMap Cap) :=
  l.ranges.foldl (fun (m : Option (KMap Cap)) r => m.bind fun m => placeMany lk l r.die (r.hi - r.next) m base) (some [])

/-- Every workgroup of a launch can be resident at once (R51). -/
def wholeFits (base : Nat → Cap) (lk : Nat) (l : Launch) : Bool := (wholeTaken base lk l).isSome

/-- How many of `n` workgroups of a launch find room one after another on die `d`, beside what of its cores is taken (R49). -/
def roomFor (lk : Nat) (l : Launch) (d : Nat) (base : Nat → Cap) : Nat → KMap Cap → Nat
  | 0, _ => 0
  | n + 1, m =>
    match chooseUnit (fun c => (find m c).getD (base c)) lk l d (newGroups l) fun _ => true with
    | none => 0
    | some (u, _, cs) => 1 + roomFor lk l d base n ((u.zip cs).foldl (fun m e => put m e.1 e.2) m)

/-- FIT: a workgroup fits an empty core or cluster, and a CORES launch its empty dies (R26, R28, R51). -/
def fitOk (l : Launch) : Bool :=
  let lanes := l.width * l.groups
  lanes ≤ (if l.coop then 16384 else 4096) &&
    (chooseUnit (fun _ => Cap.empty) 0 l 0 (newGroups l) fun _ => true).isSome &&
    (!l.cores || (gridOf l * lanes ≤ 4 * 48 * 4096 && wholeFits (fun _ => Cap.empty) 0 l))

/-- The status of a posted record: FORMAT, RANGE, FIT, DIE, ENERGY, or accepted (R28). -/
def recordStatus (s : State) (q k : Nat) (bs : List Nat) : Nat :=
  let l := launchOf s q k bs
  if !formatOk s (queueOf s q).ctx bs then 0xE1
  else if !rangeOk bs then 0xE2
  else if !fitOk l then 0xE3
  else if l.ranges.any fun r => (die s r.die).mode == .off || (die s r.die).inReset then 0xE4
  else if l.cores && s.damper.budget.toNat < gridOf l * l.energy then 0xE5
  else 0x5A

/-- QUEUE written into the source records that wait for it, those whose line no block holds (R299). -/
def payOwed (s : State) (q : Nat) : State :=
  let due := (queueOf s q).owed.filter fun a => !sourceHeld s a
  due.foldl (fun s a => writeSource s a 0xE6) (modQueue s q fun d => { d with owed := d.owed.filter fun a => !due.contains a })

/-- The next slot of an enabled queue reads 0xA5: the record is checked, its status written, and a good one accepted (R28,
R30, R299). -/
def parseNext (s : State) (q : Nat) : Host.Outcome State Fault Refusal :=
  let d := queueOf s q
  let mark := slotAddr q d.next 0xFF
  let src := find d.src d.next
  if !d.enable || homeRead s mark 1 != 0xA5 || src.any (sourceHeld s) then .next s
  else
    let bs := slotBytes s q d.next
    let st := recordStatus s q d.next bs
    let l := launchOf s q d.next bs
    let s := homeWrite s mark 1 st
    let s := match src with
      | some a => writeSource s a st
      | none => s
    let s := modQueue s q fun x => { x with next := (d.next + 1) % 64, src := del x.src d.next }
    if st != 0x5A then .next s
    else
      let (n, s) := fresh s
      .next (modQueue { s with launches := put s.launches n l } q fun x => { x with fifo := x.fifo ++ [n] })

/-- LAUNCH_PARSE (R28, R30, R299). -/
def execLaunchParse (q : Nat) (s : State) : Host.Outcome State Fault Refusal :=
  if !hostAlive s || 64 ≤ q then .next s else parseNext (payOwed s q) q

/-! ## Waits and EARLY (R31, R52) -/

/-- A wait's word has reached its value; a word that cannot be read has not (R31). -/
def waitMet (s : State) (w : SigWait) : Bool :=
  dieUp s w.home && !homePoisoned s w.pa && w.value.toNat ≤ homeRead s w.pa 8

/-- The launches that produce a wait (R52). -/
def producersOf (s : State) (lk : Nat) (l : Launch) (w : SigWait) : List Nat :=
  (s.launches.filter fun e => e.1 != lk && e.2.ctx == l.ctx && e.2.doneVa != 0 && e.2.doneVa == w.va).map Prod.fst

/-- A launch is dispatchable: its waits are met, or for EARLY their producers are dispatchable themselves (R31, R52). `n`
bounds the launches followed. -/
def dispatchable (s : State) : Nat → Nat → Bool
  | 0, _ => false
  | n + 1, lk =>
    match find s.launches lk with
    | none => false
    | some l => l.dispatched || l.waits.all fun w =>
        let ps := producersOf s lk l w
        if l.early && !ps.isEmpty then ps.all (dispatchable s n) else waitMet s w

/-! ## Residency (R36) -/

/-- The level of a launch: that of its queue (R53). -/
def levelOf (s : State) (l : Launch) : Nat := (queueOf s l.queue).prio

/-- A group as it becomes resident (R36, R121). -/
def newGroup (l : Launch) (wk n c slot pos : Nat) : Group :=
  { wg := wk
    num := n
    core := c
    slot := slot
    pos := pos
    width := l.width
    cbase := l.cbase
    tbase := l.tbase
    vregs := []
    sregs := (List.range (min 4 l.sregs)).foldl (fun m k => store m k (l.args.getD k 0) 0) []
    wins := []
    qregs := []
    live := Mask.below l.width
    parked := []
    locks := []
    replay := []
    bars := []
    joined := none
    banks := []
    lost := []
    committed := none }

/-- A group starts as one strand at ENTRY with every lane active (R36). -/
def startGroup (s : State) (gk : Nat) (g : Group) (pc : Word) : State :=
  match takeEntry s g.core with
  | some e => { s with
      uid := s.uid + 1
      groups := put s.groups gk g
      strands := put s.strands (strandKey g.core e) (Strand.start gk (Mask.below g.width) pc) }
  | none => s

/-- An idle die takes RUN as its state, and as its requested one, as work comes to it; thermal control may hold it in EMBER (R34,
R409, R410). -/
def wake (s : State) (d : Nat) : State := if (die s d).mode == .idle then setMode s d (die s d).running .run else s

/-- A new workgroup becomes resident on a unit (R36, R202, R262, R374). `counted` says that its launch's grant has already
admitted it. -/
def placeWg (s : State) (lk : Nat) (l : Launch) (d num : Nat) (unit : List Nat) (spots : List (Nat × Nat × Nat))
    (counted : Bool) : State :=
  let s := tallySlots (wake s d) d
  let (wk, s) := fresh s
  let cores := (spots.map fun p => unit.getD p.1 0).foldl insertNat []
  let w : Wg :=
    { launch := lk
      ctx := l.ctx
      num := num
      die := d
      cores := cores
      st := .resident
      leaving := false
      since := s.time.toNat
      resTime := 0
      barGen := []
      barStart := []
      broken := []
      scratch := []
      scratchBad := []
      oslots := l.oslots
      saved := []
      admitted := estimate l
      stopped := false
      left := 0
      meter := meterFrom s d 0 }
  let s : State := { s with
    wgs := put s.wgs wk w
    damper := if counted then s.damper else { s.damper with admitted := s.damper.admitted + estimate l } }
  spots.zipIdx.foldl (fun s p =>
    let (gk, s) := fresh s
    startGroup s gk (newGroup l wk p.2 (unit.getD p.1.1 0) p.1.2.1 p.1.2.2) l.entry) s

/-- A launch's next workgroup on a die is taken from its ranges; a launch with none left leaves its queue (R33, R48). -/
def takeNext (s : State) (lk d : Nat) : State :=
  let step (r : List Range) : List Range :=
    match r.findIdx? fun r => r.die == d && r.next < r.hi with
    | some i => r.modify i fun x => { x with next := x.next + 1 }
    | none => r
  let s := modLaunch s lk fun l => { l with ranges := step l.ranges }
  match find s.launches lk with
  | some l => if l.ranges.all fun r => r.hi ≤ r.next then
      modQueue s l.queue fun q => { q with fifo := q.fifo.filter (· != lk) } else s
  | none => s

/-- The next undispatched workgroup of a launch on a die (R33). Of two range entries that name one die the model finishes the
first before the second (log entry 48). -/
def nextNum (l : Launch) (d : Nat) : Option Nat := (l.ranges.find? fun r => r.die == d && r.next < r.hi).map Range.next

/-- The workgroups of a launch still to be dispatched to die `d`, as far as the die could ever hold them: 8 in each of 64 slots of
48 cores (R35). -/
def leftOn (l : Launch) (d : Nat) : Nat := min 24_576 ((l.ranges.filter fun r => r.die == d).map fun r => r.hi - r.next).sum

/-- A producer of the EARLY launch would lose room on die `d` that its undispatched workgroups have, if the cores were taken as in
`m`: those workgroups have first claim on the capacity (R52). -/
def producerFirst (s : State) (lk : Nat) (l : Launch) (d : Nat) (m : KMap Cap) : Bool :=
  l.early && l.waits.any fun w => (producersOf s lk l w).any fun k => (find s.launches k).any fun p =>
    roomFor k p d (capOf s []) (leftOn p d) m < roomFor k p d (capOf s []) (leftOn p d) []

/-- The cores that a unit's places take. -/
def takenBy (r : List Nat × List (Nat × Nat × Nat) × List Cap) : KMap Cap := (r.1.zip r.2.2).foldl (fun m e => put m e.1 e.2) []

/-- The die takes new work: not OFF, not in reset or about to be (R34, R405). -/
def dieOpen (s : State) (d : Nat) : Bool :=
  (die s d).mode != .off && !(die s d).inReset && (die s d).resetting.isNone && !(die s d).closing

/-! ## Room by pre-emption (R48, R52, R54) -/

/-- A workgroup has a call in the mailbox (R387). -/
def callOut (s : State) (wk : Nat) : Bool := s.mailbox.any fun c => (find s.groups c.group).any fun g => g.wg == wk

/-- Resident workgroups of the dies that may be made to leave, and none of the dies' is leaving already. -/
def pool (s : State) (ds : List Nat) : KMap Wg :=
  let here := s.wgs.filter fun e => e.2.st = .resident && ds.contains e.2.die
  if here.any fun e => e.2.leaving then [] else here.filter fun e => !callOut s e.1

/-- A workgroup is asked to leave; the rings it owns or has joined halt at the end of their tick (R54, R314, R391). -/
def askLeave (s : State) (wk : Nat) : State := haltRings (modWg s wk fun w => { w with leaving := true })

/-- A resident workgroup's launch is an EARLY one that waits on the DONE of launch `l` (R52). -/
def consumes (s : State) (l : Launch) (w : Wg) : Bool :=
  match find s.launches w.launch with
  | some c => c.early && c.ctx == l.ctx && l.doneVa != 0 && c.waits.any fun x => x.va == l.doneVa
  | none => false

/-- The workgroups whose removal a producer's claim may ask for, in the order in which they go: most slots, then
highest-numbered (R52). R54 says that a workgroup of a lower level never pre-empts and R52 names no level: that a producer of a
lower level has its claim too is the model's choice (log entry 48). -/
def consumersFirst (s : State) (l : Launch) (ws : KMap Wg) : List Nat :=
  ((ws.filter fun e => consumes s l e.2).mergeSort fun a b =>
    slotsHeld s b.1 < slotsHeld s a.1 || (slotsHeld s a.1 == slotsHeld s b.1 && b.2.num ≤ a.2.num)).map Prod.fst

/-- The lower-level workgroups in the order in which they go: lowest level, then most recently resident (R54). -/
def lowerFirst (s : State) (l : Launch) (ws : KMap Wg) : List Nat :=
  let lev (w : Wg) : Nat := ((find s.launches w.launch).map (levelOf s)).getD 0
  ((ws.filter fun e => lev e.2 < levelOf s l).mergeSort fun a b =>
    lev a.2 < lev b.2 || (lev a.2 == lev b.2 && b.2.since ≤ a.2.since)).map Prod.fst

/-- The shortest prefix of `rest` that makes `f` true when it is added to `took`. -/
def prefixFor (f : List Nat → Bool) : List Nat → List Nat → Option (List Nat)
  | took, [] => if f took then some took else none
  | took, w :: ws => if f took then some took else prefixFor f (took ++ [w]) ws

/-- Work of launch `l` finds no room, where `fits` says whether it would with some workgroups thought away: the workgroups that
consume its results and then those of lower levels go, in their order, as far as that makes room; of those of lower levels only
the ones whose slots are needed (R48, R52, R54). -/
def clearFor (s : State) (l : Launch) (fits : List Nat → Bool) (ws : KMap Wg) : State :=
  let cs := consumersFirst s l ws
  match prefixFor fits [] (cs ++ (lowerFirst s l ws).filter fun w => !cs.contains w) with
  | none => s
  | some took =>
    let need := took.reverse.foldl (fun keep w =>
      if !cs.contains w && fits (removeNat keep w) then removeNat keep w else keep) took
    need.foldl askLeave s

/-- Room for the next workgroup of a launch on a die (R52, R54). -/
def makeRoom (s : State) (lk : Nat) (l : Launch) (d : Nat) : State :=
  clearFor s l (fun ex => (chooseNew s ex lk l d).isSome) (pool s [d])

/-- Room for a whole CORES launch, at once (R48, R52). -/
def makeRoomWhole (s : State) (lk : Nat) (l : Launch) : State :=
  clearFor s l (fun ex => wholeFits (capOf s ex) lk l) (pool s (l.ranges.map Range.die))

/-! ## The return of pre-empted workgroups (R54) -/

/-- The pre-empted workgroup of a queue that returns first on a die: the last one to leave (R54). -/
def firstBack (s : State) (q d : Nat) : Option (Nat × Wg) :=
  leastBy (fun a b => b.2.left < a.2.left) (s.wgs.filter fun e =>
    e.2.st = .preempted && e.2.die == d && (find s.launches e.2.launch).any fun l => l.queue == q)

/-- A pre-empted workgroup of a queue waits on a die: it goes before the queue's undispatched ones (R54). -/
def returning (s : State) (q d : Nat) : Bool := (firstBack s q d).isSome

/-- The groups of a pre-empted workgroup as they are placed again: each on its member of the cluster, with a strand-table
entry for every saved strand (R392). -/
def returnGroups (s : State) (wk : Nat) (w : Wg) (l : Launch) : List (Nat × Option Nat) :=
  (groupsOf s wk).map fun e =>
    (((w.saved.flatMap Saved.strands).filter fun t => t.group == e.1).length, some (if l.coop then e.2.core % 4 else 0))

/-- The workgroup must return to core `c`, which it left: it holds a receive queue there, a task group, or the ring (R281,
R314). -/
def tied (s : State) (wk : Nat) (w : Wg) (c : Nat) : Bool :=
  (core s c).recv.any (fun q => q.2.owner == some (w.ctx, wk)) ||
    (groupsOf s wk).any (fun g => g.2.core == c && g.2.joined.isSome) ||
    (keys s.rings).any fun rk => (ring s rk).owner == some (w.ctx, wk)

/-- The saved completion records for which a core's queues have no room, and which its record buffer is to hold (R275, R286). -/
def recordOverflow (c : Core) (v : Saved) : Nat := (v.compq.map fun e => e.2.length + (get c.compq e.1 []).length - 64).sum

/-- Core `c` can take what was saved from one core: resource numbers free, field, deque and crossbar unowned, room for the saved
records in its completion queues and its record buffer (R262, R275, R281, R286, R289, R314, R333, R360). -/
def coreTakes (s : State) (wk : Nat) (w : Wg) (v : Saved) (c : Nat) : Bool :=
  let x := core s c
  v.res.all (fun r => claimable x r.num) && (!tied s wk w v.core || c == v.core) &&
    (v.deque.isNone || x.deque.owner.isNone) && (v.field.isNone || (x.field.owner.isNone && x.field.resv.isEmpty)) &&
    (v.xbar.isNone || (x.xbar.owner.isNone && x.xbar.resv.isEmpty)) &&
    (recordOverflow x v == 0 || recordsDue x + recordOverflow x v ≤ 4)

/-- Where a pre-empted workgroup fits when the workgroups of `ex` are thought away (R54, R392). -/
def returnFit (s : State) (ex : List Nat) (wk : Nat) (w : Wg) (l : Launch) :
    Option (List Nat × List (Nat × Nat × Nat) × List Cap) :=
  chooseUnit (capOf s ex) w.launch l w.die (returnGroups s wk w l) fun u =>
    w.saved.all fun v => coreTakes s wk w v (u.getD v.member 0)

/-- A pre-empted workgroup of a level above `lev` can return to die `d` (R48, R54). -/
def outranked (s : State) (d lev : Nat) : Bool :=
  (List.range 64).any fun q => lev < (queueOf s q).prio && match firstBack s q d with
    | some (wk, w) => (find s.launches w.launch).any fun l => (returnFit s [] wk w l).isSome
    | none => false

/-! ## Dispatch (R48 to R51) -/

/-- Every workgroup of a range is placed in turn. `n` bounds the steps. -/
def placeRange (lk : Nat) (l : Launch) (d : Nat) (counted : Bool) : Nat → State → State
  | 0, s => s
  | n + 1, s =>
    match (find s.launches lk).bind fun l => nextNum l d, chooseNew s [] lk l d with
    | some k, some (u, spots, _) => placeRange lk l d counted n (takeNext (placeWg s lk l d k u spots counted) lk d)
    | _, _ => s

/-- A CORES launch is placed whole (R51). -/
def placeWhole (s : State) (lk : Nat) (l : Launch) (counted : Bool) : State :=
  (l.ranges.map Range.die).foldl (fun s d => placeRange lk l d counted (gridOf l) s) s

/-- A launch has been handed to the distributors (R33). -/
def handOver (s : State) (lk : Nat) : State :=
  let (n, s) := fresh s
  modLaunch s lk fun l => { l with dispatched := true, order := n }

/-- The present window has been granted to a CORES launch; a grant counts in its own window alone (R50, R374). -/
def grantedNow (s : State) (l : Launch) : Bool := l.granted == some s.damper.seq

/-- A dispatchable CORES launch whose estimate exceeds what is left of the window, and not the whole window, claims the next one
(R50). -/
def claimWindow (s : State) (lk : Nat) (l : Launch) : State :=
  let d := s.damper
  let total := gridOf l * estimate l
  if grantedNow s l || windowFits d total || d.budget.toNat < total || d.claims.any (fun c => c.launch == some lk) then s
  else { s with damper := { d with claims := d.claims ++ [⟨some lk, 0, total⟩] } }

/-- The dies of a CORES launch are open, and no workgroup that returns to its queue goes before it there (R51, R54). -/
def wholeClear (s : State) (l : Launch) : Bool := l.ranges.all fun r => dieOpen s r.die && !returning s l.queue r.die

/-- A CORES launch takes room to which the producers that it waits on have first claim (R52). -/
def wholeBarred (s : State) (lk : Nat) (l : Launch) : Bool :=
  (wholeTaken (capOf s []) lk l).any fun m => l.ranges.any fun r => producerFirst s lk l r.die m

/-- The launches with workgroups for a die, by level and order of dispatch; those that a producer's workgroups go before stand
back (R33, R48, R52). -/
def waitingFor (s : State) (d : Nat) : List Nat :=
  ((s.launches.filter fun e => e.2.dispatched && (nextNum e.2 d).isSome && !returning s e.2.queue d &&
      !(chooseNew s [] e.1 e.2 d).any fun r => producerFirst s e.1 e.2 d (takenBy r)).mergeSort fun a b =>
    levelOf s b.2 < levelOf s a.2 || (levelOf s a.2 == levelOf s b.2 && a.2.order ≤ b.2.order)).map Prod.fst

/-- The CORES launches at the heads of queues that are dispatchable and wait for their dies, `d` among them. -/
def wholeWaiting (s : State) (d : Nat) : List Nat :=
  s.queues.filterMap fun q => q.fifo.head?.filter fun lk => (find s.launches lk).any fun l =>
    l.cores && !l.dispatched && (l.ranges.any fun r => r.die == d) && wholeClear s l && !wholeBarred s lk l &&
      dispatchable s (s.launches.length + 1) lk

/-- Work of a launch that satisfies `p` waits for die `d`, fits there when the workgroups of `ex` are thought away, and is
admitted. -/
def placeable (s : State) (ex : List Nat) (d : Nat) (p : Launch → Bool) : Bool :=
  (waitingFor s d).any (fun k => (find s.launches k).any fun m =>
    p m && (chooseNew s ex k m d).isSome && admits s.damper (estimate m)) ||
  (wholeWaiting s d).any fun k => (find s.launches k).any fun m =>
    p m && wholeFits (capOf s ex) k m && (grantedNow s m || admits s.damper (gridOf m * estimate m))

/-- Work of a level above `lev` can be placed on die `d`, or can return to it: lower levels have the capacity that it leaves
(R48, R54). -/
def higherFirst (s : State) (d lev : Nat) : Bool := outranked s d lev || placeable s [] d fun m => lev < levelOf s m

/-- A CORES launch at a head: placed whole when it fits and is admitted; else room or budget is claimed (R48, R50, R51, R52). -/
def serveWhole (s : State) (lk : Nat) (l : Launch) : Option State × State :=
  let s := claimWindow s lk l
  if !wholeClear s l || wholeBarred s lk l || l.ranges.any fun r => higherFirst s r.die (levelOf s l) then (none, s)
  else if !wholeFits (capOf s []) lk l then (none, makeRoomWhole s lk l)
  else if grantedNow s l then (some (placeWhole (handOver s lk) lk l true), s)
  else if admits s.damper (gridOf l * estimate l) then (some (placeWhole (handOver s lk) lk l false), s)
  else (none, s)

/-- The heads of a level's queues are served round-robin: the first that can be is dispatched (R48). -/
def serveHeads (lev : Nat) : List Nat → State → Bool × State
  | [], s => (false, s)
  | q :: qs, s =>
    let turn (s : State) : State := { s with rr := s.rr.set lev ((q + 1) % 64) }
    match (queueOf s q).fifo.head? with
    | none => serveHeads lev qs s
    | some lk => match find s.launches lk with
      | none => serveHeads lev qs s
      | some l =>
        if l.dispatched || !dispatchable s (s.launches.length + 1) lk then serveHeads lev qs s
        else if l.cores then
          match serveWhole s lk l with
          | (some t, _) => (true, turn t)
          | (none, s) => serveHeads lev qs s
        else (true, turn (handOver s lk))

/-- The queues of a level from its round-robin place on. -/
def queuesOf (s : State) (lev : Nat) : List Nat :=
  ((List.range 64).map fun k => (s.rr.getD lev 0 + k) % 64).filter fun q => (queueOf s q).prio == lev

/-- The levels are served from the highest down (R48). -/
def serveLevels : List Nat → State → State
  | [], s => s
  | lev :: ls, s => match serveHeads lev (queuesOf s lev) s with
    | (true, s) => s
    | (false, s) => serveLevels ls s

/-- LAUNCH_DISPATCH: the dispatcher serves one dispatchable launch at a queue's head (R48). -/
def execLaunchDispatch (s : State) : Host.Outcome State Fault Refusal :=
  .next (if hostAlive s then serveLevels [3, 2, 1, 0] s else s)

/-- The first waiting workgroup that fits and is admitted is placed; one that finds no room may make another leave; one
that is not admitted waits (R48, R49, R50). -/
def placeFirst (d : Nat) : List Nat → State → State
  | [], s => s
  | lk :: ls, s =>
    match find s.launches lk with
    | none => placeFirst d ls s
    | some l => match nextNum l d, chooseNew s [] lk l d with
      | some n, some (u, spots, _) =>
        if admits s.damper (estimate l) && !higherFirst s d (levelOf s l) then takeNext (placeWg s lk l d n u spots false) lk d
        else placeFirst d ls s
      | some _, none => placeFirst d ls (makeRoom s lk l d)
      | none, _ => placeFirst d ls s

/-- WORKGROUP_PLACE: a die's distributor places a workgroup (R49). -/
def execWorkgroupPlace (d : Nat) (s : State) : Host.Outcome State Fault Refusal :=
  .next (if hostAlive s && dieOpen s d && d < 4 then placeFirst d (waitingFor s d) s else s)

/-! ## Completion (R32) -/

/-- A launch is complete and gone: as failed with a record, or with NOTIFY alone (R32, R287). -/
def endLaunch (s : State) (lk : Nat) (l : Launch) (bad : Option (FaultCode × Nat)) : State :=
  let s := match bad with
    | some (c, a) => reportHearth s { Record.basic 1 c.code 0 l.ctx with tag := l.tag, addr := BitVec.ofNat 64 (a % 2 ^ 52) }
    | none => s
  let s := if l.notify then reportHearth s { Record.basic 2 (if bad.isSome then 0x1A else 0) 0 l.ctx with tag := l.tag } else s
  { s with launches := del s.launches lk }

/-- An ACCFL of the launch has not made all its writes (R272). -/
def flushPending (s : State) (lk : Nat) : Bool := s.cores.any fun c => c.2.mq.any fun m => m.launch == lk && m.isFlush

/-- LAUNCH_COMPLETE: the last workgroup has retired and every store and ACCFL of the launch is visible; DONE is added to
(R32, R272). -/
def execLaunchComplete (lk : Nat) (s : State) : Host.Outcome State Fault Refusal :=
  match find s.launches lk with
  | none => .next s
  | some l =>
    if !(l.ranges.all fun r => r.hi ≤ r.next) || s.wgs.any (fun e => e.2.launch == lk) ||
        s.posted.any (fun p => p.launch == lk) || flushPending s lk then .next s
    else if l.failed.isSome || l.doneVa == 0 then .next (endLaunch s lk l l.failed)
    else if !dieUp s l.doneHome then .next (endLaunch s lk l (some (.dieOffline, l.doneVa)))
    else if homePoisoned s (plainPa l.donePa) then .next (endLaunch s lk l (some (.poisonConsumed, l.doneVa)))
    else if lineHeld s (lineOf (plainPa l.donePa)) then .next s
    else .next (endLaunch (homeWrite s l.donePa 8 ((homeRead s (plainPa l.donePa) 8 + l.doneInc.toNat) % 2 ^ 64)) lk l none)

/-! ## The watchdog (R381) -/

/-- A resident workgroup's time over all its residencies (R381). -/
def residentTime (s : State) (w : Wg) : Nat := w.resTime + (s.time.toNat - w.since)

/-- Every strand and waiting pair of a workgroup parks at its next block by `due`, its uncommitted blocks discarded (R378,
R381). -/
def parkAll (s : State) (wk : Nat) (due : FaultCode × Option Untaken) : State :=
  let gs := (groupsOf s wk).map Prod.fst
  let keys := (s.strands.filter fun e => gs.contains e.2.group).map Prod.fst
  let s := keys.foldl (fun s k => modStrand (discardAll s k false) k fun t => { t with due := some due }) s
  { s with groups := s.groups.map fun e =>
      if e.2.wg = wk then (e.1, { e.2 with parked := e.2.parked.map fun p => { p with due := some due } }) else e }

/-- WATCHDOG: a workgroup whose resident time passes the limit is stopped, once, with one record (R380, R381). -/
def execWatchdog (wk : Nat) (s : State) : Host.Outcome State Fault Refusal :=
  match find s.wgs wk with
  | none => .next s
  | some w =>
    if w.st != .resident || w.stopped || s.watchdogLimit == 0 || residentTime s w ≤ s.watchdogLimit then .next s
    else
      let tag := ((find s.launches w.launch).map Launch.tag).getD 0
      let r : Record := { Record.basic 1 FaultCode.watchdog.code (dieId w.die) w.ctx with
        slot := 0xFF, core := w.cores.headD 0, strand := 0xFF, tag := tag,
        addr := BitVec.ofNat 64 (residentTime s w / 1000 % 2 ^ 52 + 0xFF * 2 ^ 56) }
      let (s, n) := report s w.die r
      .next (modWg (parkAll s wk (.watchdog, n)) wk fun w => { w with stopped := true })

/-! ## Queue descriptors (R30, R404) -/

/-- A slot of the queue holds an unparsed record (R28). -/
def unparsed (s : State) (q : Nat) : Bool := (List.range 64).any fun k => !slotFree s q k

/-- QUEUE_DESC: INVALID fields, BUSY with an unparsed record on disabling, DENIED for a context without a root; else the
descriptor is written, and at enable Next, behind whose records LNCH posts on (R28, R30, R208, R299, R404). -/
def execQueueDesc (q : Nat) (enable : Bool) (prio slice ctx next : Nat) (s : State) : Host.Outcome State Fault Refusal :=
  let d := queueOf s q
  if !hostAlive s then .next (diagnose s)
  else if 64 ≤ q || 4 ≤ prio || slice < 1 || 1000 < slice || 4096 ≤ ctx || 64 ≤ next then .next (reply s 4 2)
  else if d.enable && !enable && unparsed s q then .next (reply s 4 1)
  else if enable && (find s.roots ctx).isNone then .next (reply s 4 3)
  else .next (reply (modQueue s q fun x =>
    { x with
      enable := enable
      prio := prio
      slice := slice
      ctx := ctx
      next := if enable && !d.enable then next else x.next
      post := if enable && !d.enable then nextFree s q next else x.post }) 4 0)

end Sys2Proof.Machine
end

