-- ==== Sys2Proof/Machine/Husk.lean ====
section
/-! DEFINITION. Time slices, pre-emption, the husk and its restore (02_work: R54 to R56; 10_ref_lanes: R189; 13_ref_memory:
R256; 14_ref_matrix: R262; 15_queues: R281, R289; 17_rings: R314; 18_integrators: R333; 19_fabric: R360; 21_faults: R390 to
R395, R258). -/

namespace Sys2Proof.Machine

/-! ## Time slices (R54, R56) -/

/-- A launch is of another queue of launch `l`'s level. -/
def equalOther (s : State) (l m : Launch) : Bool := m.queue != l.queue && levelOf s m == levelOf s l

/-- Another queue of the same level waits for capacity on the workgroup's die: a dispatched launch whose next workgroup
does not fit, a CORES launch that does not, or a pre-empted workgroup that cannot return (R54). -/
def equalWaits (s : State) (w : Wg) (l : Launch) : Bool :=
  (waitingFor s w.die).any (fun k => (find s.launches k).any fun m =>
    equalOther s l m && (chooseNew s [] k m w.die).isNone) ||
  (wholeWaiting s w.die).any (fun k => (find s.launches k).any fun m =>
    equalOther s l m && !wholeFits (capOf s []) k m) ||
  (List.range 64).any fun q => q != l.queue && (queueOf s q).prio == levelOf s l &&
    (firstBack s q w.die).any fun e => (find s.launches e.2.launch).any fun m => (returnFit s [] e.1 e.2 m).isNone

/-- TIME_SLICE_EXPIRY: a workgroup resident for its queue's slice is asked to leave for one of an equal level (R54). -/
def execTimeSliceExpiry (wk : Nat) (s : State) : Host.Outcome State Fault Refusal :=
  match find s.wgs wk, launchOfWg s wk with
  | some w, some l =>
    if w.st = .resident && !w.leaving && !callOut s wk &&
        w.since + (queueOf s l.queue).slice * 100_000 ≤ s.time.toNat && equalWaits s w l then .next (askLeave s wk)
    else .next s
  | _, _ => .next s

/-! ## The husk's bytes (R393, R394) -/

/-- Bytes filled with zeros to a multiple of 128. -/
def padLine (bs : List Byte) : List Byte := bs ++ List.replicate ((128 - bs.length % 128) % 128) 0

/-- The first `n` bytes of a list, zeros behind it. -/
def fitBytes (n : Nat) (bs : List Byte) : List Byte := (bs ++ List.replicate n 0).take n

/-- The place of a group in a husk: groups stand in slot order. -/
def groupIndex (gs : KMap Group) (gk : Nat) : Nat := (gs.findIdx? fun e => e.1 == gk).getD 0xFF

/-- Section 0. -/
def groupBytes (ss : List (Nat × Strand)) (e : Nat × Group) : List Byte :=
  fitBytes 64 (leBytes 8 e.2.num ++ leBytes 1 (Nat.log2 e.2.width) ++ leBytes 1 e.2.slot ++
    leBytes 1 (ss.filter fun t => t.2.group == e.1).length ++ leBytes 1 e.2.parked.length ++
    leBytes 8 e.2.cbase.toNat ++ leBytes 8 e.2.tbase.toNat)

/-- Section 1. -/
def vregBytes (l : Launch) (g : Group) : List Byte :=
  (List.range l.vregs).flatMap fun n => (List.range g.width).flatMap fun k => leBytes 4 (get g.vregs (64 * n + k) 0).toNat

/-- Section 2. -/
def sregBytes (l : Launch) (g : Group) : List Byte :=
  (List.range l.sregs).flatMap fun n => leBytes 8 (get g.sregs n 0).toNat

/-- Section 3. -/
def winBytes (g : Group) : List Byte :=
  (List.range 16).flatMap fun n => leBytes 16 (get g.wins n WinReg.none_).bits.toNat

/-- Section 4. -/
def qregBytes (g : Group) : List Byte := (List.range 32).flatMap fun n => leBytes 8 (get g.qregs n 0).toNat

/-- The state byte of a strand record, and the fault code beside it. -/
def strandState (t : Strand) : Nat × Nat :=
  match t.st with
  | .parked c => (if t.trap then 3 else 2, c.code)
  | .label _ _ => (5, 0)
  | _ => (if t.trap then 1 else if t.task.isSome then 4 else 0, 0)

/-- Section 5. -/
def strandBytes (gs : KMap Group) (e : Nat × Strand) : List Byte :=
  let bank := if e.2.trap then e.2.bank else match e.2.task, find gs e.2.group with
    | some k, some g => g.banks.getD k []
    | _, _ => []
  leBytes 1 (groupIndex gs e.2.group) ++ leBytes 1 (e.1 % 256) ++ leBytes 1 (strandState e.2).1 ++
    leBytes 1 (strandState e.2).2 ++ leBytes 4 0 ++ leBytes 8 e.2.pc.toNat ++ leBytes 8 e.2.mask.toNat ++ leBytes 8 0 ++
    fitBytes 32 (bank.flatMap fun w => leBytes 8 w.toNat)

/-- Section 6. -/
def parkedBytes (i : Nat) (p : Parked) : List Byte :=
  leBytes 1 i ++ leBytes 1 (if p.regang.isSome then 1 else 0) ++ leBytes 6 0 ++
    leBytes 8 ((p.succ.getD 0xFFFF_FFFF_FFFF_FFFF).toNat) ++ leBytes 8 p.mask.toNat ++ leBytes 8 (p.regang.getD 0).toNat

/-- Section 7. -/
def replayBytes (ss : List (Nat × Strand)) (gk : Nat) (r : Replay) : List Byte :=
  let e := ((ss.find? fun t => t.2.group == gk && meet t.2.mask r.mask).map fun t => t.1 % 256).getD 0xFF
  leBytes 8 r.addr ++ leBytes 1 r.index ++ leBytes 1 e ++ leBytes 22 0 ++
    (List.range 64).flatMap fun l => leBytes 8 (((r.toks.head?).map fun t => (t.at_ l).toNat).getD 0)

/-- Section 8: the generations. -/
def genBytes (w : Wg) : List Byte :=
  (List.range 15).flatMap fun n =>
    leBytes 8 ((get w.barGen (n + 1) 0).toNat + if w.broken.contains (n + 1) then 2 ^ 15 else 0)

/-- Lanes with a pending target `k` generations ahead. -/
def pendingLanes (w : Wg) (b : GroupBar) (n k : Nat) : Nat :=
  (b.targets.filter fun e => e.2 == get w.barGen n 0 + BitVec.ofNat 15 k).foldl (fun m e => m + 2 ^ e.1) 0

/-- Section 8: a group's part in each barrier. -/
def barBytes (w : Wg) (g : Group) : List Byte :=
  (List.range 15).flatMap fun n =>
    let b := g.bar (n + 1)
    leBytes 8 b.arrived.toNat ++ leBytes 8 (b.member.getD 0).toNat ++ leBytes 8 (pendingLanes w b (n + 1) 1) ++
      leBytes 8 (pendingLanes w b (n + 1) 2)

/-- Section 9: held entries, then waiting ones marked away. -/
def lockBytes (s : State) (e : Nat × Group) : List Byte :=
  let one (line : Nat) (m : Mask) (st away : Nat) : List Byte :=
    leBytes 8 line ++ leBytes 8 m.toNat ++ leBytes 4 st ++ leBytes 1 away ++ leBytes 3 0
  let away := s.locks.flatMap fun l => (l.waiters.filter fun w => w.group == e.1).map fun w => (l.line, w.lanes)
  fitBytes (16 * 24) ((e.2.locks.flatMap fun h => one h.line h.lanes h.status 0) ++
    away.flatMap fun a => one a.1 a.2 0 1)

/-- Section 10: the region's bytes on the member. -/
def scratchBytes (w : Wg) (l : Launch) (m : Nat) : List Byte :=
  (List.range l.scratch).map fun o => get w.scratch (m * 2 ^ 20 + o) 0

/-- Section 11. -/
def resBytes (r : SavedRes) : List Byte :=
  leBytes 1 r.num ++ leBytes 31 r.poison.toNat ++
    (List.range (if r.num < 32 then 2048 else 8192)).flatMap fun k =>
      if r.num < 32 then leBytes 8 (get r.data k 0).toNat
      else leBytes 4 (get r.data (2 * k) 0).toNat ++ leBytes 4 (get r.data (2 * k + 1) 0).toNat

/-- Section 12. -/
def fieldBytes (f : Field) : List Byte :=
  f.image ++ f.liveBytes ++ ((List.range 384).flatMap fun c => leBytes 8 (get f.shadow c 0).toNat) ++
    leBytes 48 (f.loaded.foldl (fun m c => m + 2 ^ c) 0) ++
    fitBytes 16 (leBytes 1 (if f.dirty then 1 else 0) ++ leBytes 2 f.badCell ++ f.doms.flatMap fun d => leBytes 1 d.st)

/-- Section 13. -/
def dequeBytes (l : List Item) : List Byte :=
  fitBytes 16 (leBytes 2 l.length) ++ l.flatMap fun (i : Item) => leBytes 8 i.val.toNat

/-- One queue of section 14. -/
def queueBytes (kind : Nat) (e : Nat × List Item) : List Byte :=
  leBytes 1 kind ++ leBytes 1 e.1 ++ leBytes 2 e.2.length ++ leBytes 4 0 ++
    e.2.flatMap fun (i : Item) => leBytes 16 i.val.toNat

/-- Section 15: the items of R345, each in whole bytes; a timer's phase is the ns since its last expiry at time `now`. They take
more than the 256 bytes of R394's table (log entry 9). -/
def xbarBytes (now : Nat) (x : Xbar) : List Byte :=
  fitBytes 512 ((x.counters.flatMap fun c => leBytes 5 (c.value + 2 ^ 16 * c.thr + 2 ^ 32 * c.sel +
      (if c.mode then 2 ^ 38 else 0) + if c.atv then 2 ^ 39 else 0)) ++
    (x.terms.flatMap fun t => leBytes 6 t.p0.toNat ++ leBytes 6 t.p1.toNat ++ leBytes 2 t.clear.toNat ++ leBytes 1 t.arm ++
      leBytes 2 t.fires) ++
    (x.timers.flatMap fun t => leBytes 2 t.1 ++ leBytes 4 (now - t.2)) ++
    leBytes 1 (x.gateOut + if x.gateEn then 16 else 0))

/-- A section's bytes, none where there is nothing to hold. -/
def optBytes {α : Type} (o : Option α) (f : α → List Byte) : List Byte :=
  match o with
  | some a => f a
  | none => []

/-- Section 6: the pairs of the groups in the order of their stamps (R39). -/
def pairBytes (gs : KMap Group) : List Byte :=
  let all := gs.flatMap fun e => e.2.parked.map fun p => (groupIndex gs e.1, p)
  (all.mergeSort fun a b => a.2.stamp ≤ b.2.stamp).flatMap fun e => parkedBytes e.1 e.2

/-- The sixteen sections of a husk (R394). -/
def sections (s : State) (w : Wg) (l : Launch) (gs : KMap Group) (ss : List (Nat × Strand)) (v : Saved) : List (List Byte) :=
  let gl := gs.map Prod.snd
  [gs.flatMap (groupBytes ss), gl.flatMap (vregBytes l), gl.flatMap (sregBytes l), gl.flatMap winBytes,
   gl.flatMap qregBytes, ss.flatMap (strandBytes gs), pairBytes gs,
   gs.flatMap fun e => e.2.replay.flatMap (replayBytes ss e.1), genBytes w ++ gl.flatMap (barBytes w),
   gs.flatMap (lockBytes s), scratchBytes w l v.member, v.res.flatMap resBytes, optBytes v.field fieldBytes,
   optBytes v.deque dequeBytes, v.recv.flatMap (queueBytes 1) ++ v.compq.flatMap (queueBytes 2), optBytes v.xbar (xbarBytes s.time.toNat)]

/-- The directory: offset and length of each section, the first at offset `o` (R393). -/
def dirBytes : Nat → List (List Byte) → List Byte
  | _, [] => []
  | o, b :: r => leBytes 4 o ++ leBytes 4 b.length ++ dirBytes (o + (padLine b).length) r

/-- FLAGS (R393). -/
def huskFlags (s : State) (wk : Nat) (w : Wg) (l : Launch) (gs : KMap Group) (v : Saved) : Nat :=
  (if l.coop then 1 else 0) + (if gs.any fun e => e.2.joined.isSome then 2 else 0) +
    (if (keys s.rings).any fun rk => (ring s rk).owner == some (w.ctx, wk) then 4 else 0) +
    (if v.field.isSome then 8 else 0) + (if v.xbar.isSome then 16 else 0) + if v.deque.isSome then 32 else 0

/-- The bytes of a husk, a multiple of 128 (R393, R394). -/
def huskBytes (s : State) (wk : Nat) (w : Wg) (l : Launch) (gs : KMap Group) (ss : List (Nat × Strand)) (v : Saved) :
    List Byte :=
  let secs := sections s w l gs ss v
  let rest := dirBytes 256 secs ++ leBytes 64 0 ++ (secs.map padLine).flatten
  [0x48, 0x53, 0x4B, 0x01] ++ leBytes 2 1 ++ leBytes 2 gs.length ++ leBytes 8 (64 + rest.length) ++ leBytes 8 w.num ++
    leBytes 2 w.ctx ++ leBytes 1 (dieId w.die) ++ leBytes 1 (v.core % 48) ++ leBytes 1 (huskFlags s wk w l gs v) ++
    leBytes 1 v.member ++ leBytes 2 l.tag ++ leBytes 8 w.resTime ++ leBytes 4 (crc32 rest).toNat ++ leBytes 20 0 ++ rest

/-- The address of place `k` of a context's husk area on a die (R393; log entry 9). -/
def huskPlace (ctx d k : Nat) : Nat := d * 2 ^ 37 + (Config.huskArea ctx d + k) % 2 ^ 14 * 2 ^ 23

/-- Husks that stand in memory. -/
def husks (s : State) : List Nat := s.wgs.flatMap fun e => e.2.saved.map Saved.base

/-- The lowest place of a context's area on a die that no husk takes. -/
def freeHusk (s : State) (ctx d : Nat) : Nat :=
  let used := husks s
  (((List.range (used.length + 1)).map (huskPlace ctx d)).find? fun a => !used.contains a).getD (huskPlace ctx d 0)

/-- A husk's bytes written at their homes, line by line. -/
def writeHusk : State → Nat → List (List Byte) → State
  | s, _, [] => s
  | s, a, b :: r => writeHusk (homeStore s a (~~~(0 : BitVec 128)) (BitVec.ofNat 1024 (leNat b)) 0 0) (a + 128) r

/-- The lines of a list of bytes. -/
def linesOf (bs : List Byte) : List (List Byte) :=
  (List.range ((bs.length + 127) / 128)).map fun k => (bs.drop (128 * k)).take 128

/-! ## Pre-emption (R391) -/

/-- Asynchronous operations that the workgroup's strands and parked pairs have outstanding. -/
def asyncsOf (s : State) (wk : Nat) : List Nat :=
  (groupsOf s wk).flatMap fun g =>
    (g.2.parked.flatMap Parked.asyncs) ++ (strandsOf s g.1).flatMap fun t => t.2.asyncs

/-- A job's sweep belongs to the ring and goes on with it. -/
def Job.isSweep (j : Job) : Bool :=
  match j.kind with
  | .sweep _ _ _ _ _ _ _ _ => true
  | _ => false

/-- The workgroup's engine commands on a core have completed (R391 step 3). -/
def enginesDone (wk : Nat) (c : Core) : Bool :=
  c.mq.all (fun m => m.wg != wk) && c.jobs.all fun j => j.wg != wk || j.isSweep

/-- No block of another workgroup has reserved an entry of the workgroup's deque on a core. -/
def dequeQuiet (s : State) (ctx wk c : Nat) : Bool :=
  (core s c).deque.owner != some (ctx, wk) || (core s c).deque.entries.all fun i =>
    match i.resv with
    | some u => wgOfBlk s u == some wk
    | none => true

/-- A ring that the workgroup owns or has joined still runs (R314, R391). -/
def ringRuns (s : State) (wk : Nat) (w : Wg) : Bool :=
  s.rings.any fun e => e.2.st == 3 && (e.2.owner == some (w.ctx, wk) ||
    e.2.members.any fun m => (m.group.bind (find s.groups)).any fun g => g.wg == wk)

/-- The husk may be written: faults raised in oldest blocks have been taken, no call is out, engines and drains are done, its
rings have halted (R387, R391). -/
def mayStop (s : State) (wk : Nat) (w : Wg) : Bool :=
  w.st = .resident && w.leaving && !callOut s wk &&
    (groupsOf s wk).all (fun g => (strandsOf s g.1).all fun t => (t.2.blocks.head?.bind Blk.raised).isNone) &&
    w.cores.all (fun c => enginesDone wk (core s c) && dequeQuiet s w.ctx wk c) && !ringRuns s wk w &&
    !s.drains.any fun d => (asyncsOf s wk).contains d.uid

/-- Copy completion queues of core `c` that the workgroup's groups alone are bound to (R276, R286). -/
def ownCompq (s : State) (wk c : Nat) : List Nat :=
  let bound (g : Group) (n : Nat) : Bool := g.qregs.any fun e => bindKind e.2 == 2 && bindIndex e.2 == n
  (List.range 4).filter fun n =>
    (groupsOf s wk).any (fun e => e.2.core == c && bound e.2 n) &&
      !s.groups.any fun e => e.2.core == c && e.2.wg != wk && bound e.2 n &&
        (find s.wgs e.2.wg).any fun w => w.st = .resident

/-- A claimed resource's contents (R394). -/
def saveRes (c : Core) (n : Nat) : SavedRes :=
  if n < 32 then ⟨n, get c.slots n [], get c.slotPoison n 0⟩
  else ⟨n, (get c.tiles (n - 32) []).map fun e => (e.1, e.2.setWidth 64),
    if c.tilePoison.getLsbD (n - 32) then 1 else 0⟩

/-- The crossbar with its clocks counted from the first that has not been taken. -/
def Xbar.leave (x : Xbar) : Xbar := { x with clocks := x.clocks.map fun e => (e.1 - x.upTo, e.2), upTo := 0 }

/-- A saved crossbar goes on in die clock `clk`, its timers later by the time it was away (R360). -/
def Xbar.back (clk away : Nat) (x : Xbar) : Xbar :=
  { x with
    clocks := x.clocks.map fun e => (e.1 + clk, e.2)
    upTo := clk
    timers := x.timers.map fun t => (t.1, t.2 + away) }

/-- What is kept of a workgroup on core `c` (R391, R394). -/
def saveCore (s : State) (wk : Nat) (w : Wg) (l : Launch) (c base : Nat) : Saved :=
  let x := core s c
  let me := some (w.ctx, wk)
  let gs := (groupsOf s wk).filter fun e => e.2.core == c
  { core := c
    member := if l.coop then c % 4 else 0
    strands := (s.strands.filter fun e => coreOf e.1 == c && gs.any fun g => g.1 == e.2.group).map Prod.snd
    res := ((List.range 36).filter fun n => (resOf x n).st == 1 && (resOf x n).owner == me).map (saveRes x)
    field := if x.field.owner == me then some x.field else none
    deque := if x.deque.owner == me then some x.deque.entries else none
    recv := (x.recv.filter fun q => q.2.owner == me).map fun q => (q.1, q.2.items)
    compq := (ownCompq s wk c).map fun n =>
      (n, get x.compq n [] ++ (x.recbuf.filter fun r => r.1 == n).map fun r => ⟨r.2, none⟩)
    xbar := if x.xbar.owner == me then some x.xbar.leave else none
    image := []
    base := base }

/-- A core gives a resource up. -/
def Core.dropRes (c : Core) (n : Nat) : Core :=
  let c := c.modRes n fun _ => Res.reset
  if n < 32 then { c with slots := store c.slots n [] [], slotPoison := store c.slotPoison n 0 0 }
  else { c with
    tiles := store c.tiles (n - 32) [] []
    tilePoison := c.tilePoison &&& ~~~((1 : BitVec 4) <<< (n - 32)) }

/-- A core frees what was saved; receive queues stay and take no item, locked lines of the groups go (R281, R391). -/
def Core.leave (gs : List Nat) (v : Saved) (c : Core) : Core :=
  let c := v.res.foldl (fun c r => c.dropRes r.num) c
  { c with
    l1 := c.l1.filter fun e => !(match e.2.locked with
      | some g => gs.contains g
      | none => false)
    field := if v.field.isSome then Field.reset else c.field
    deque := if v.deque.isSome then Deque.reset else c.deque
    xbar := if v.xbar.isSome then Xbar.reset else c.xbar
    compq := v.compq.foldl (fun m e => store m e.1 [] []) c.compq
    recbuf := c.recbuf.filter fun r => !v.compq.any fun e => e.1 == r.1 }

/-- The receive queues that were saved accept no item (R281). -/
def Core.awayRecv (v : Saved) (c : Core) : Core :=
  v.recv.foldl (fun c e => c.modRecv e.1 fun q => { q with items := [], away := true }) c

/-- One core of a leaving workgroup: its husk is written and what it holds there is freed (R391). -/
def leaveCore (wk : Nat) (w : Wg) (l : Launch) (s : State) (c : Nat) : State :=
  let gs := (groupsOf s wk).filter fun e => e.2.core == c
  let v := saveCore s wk w l c (freeHusk s w.ctx w.die)
  let ss := s.strands.filter fun e => coreOf e.1 == c && gs.any fun g => g.1 == e.2.group
  let v := { v with image := huskBytes s wk w l (gs.mergeSort fun a b => 64 * a.2.slot + a.2.pos ≤ 64 * b.2.slot + b.2.pos) ss v }
  let s := writeHusk s v.base (linesOf v.image)
  let s := modCore s c fun x => (x.leave (gs.map Prod.fst) v).awayRecv v
  let s : State := { s with strands := s.strands.filter fun e => !ss.any fun t => t.1 == e.1 }
  modWg s wk fun w => { w with saved := w.saved ++ [v] }

/-- Entries of core `c` that `s` holds and `t` does not are taken up by parked pairs (R39). -/
def wakeFreed (s : State) (t : State) (c : Nat) : State := wakeMany c ((freeEntries t c).length - (freeEntries s c).length) t

/-- Every lock request of the groups is away (R256). -/
def awayWaiters (s : State) (gs : List Nat) : State :=
  let f : Waiter → Waiter := fun w => if gs.contains w.group then { w with away := true } else w
  { s with
    locks := s.locks.map fun l => { l with waiters := l.waiters.map f }
    lockMsgs := s.lockMsgs.map fun m => match m with
      | .request w line home only r => .request (f w) line home only r
      | m => m }

/-- PREEMPT: a leaving workgroup stops at block boundaries; its husks are written and its capacity is free; rings it holds
have halted (R55, R391). -/
def execPreempt (wk : Nat) (s : State) : Host.Outcome State Fault Refusal :=
  match find s.wgs wk, launchOfWg s wk with
  | some w, some l =>
    if !mayStop s wk w then .next s
    else
      let keys := (groupsOf s wk).flatMap fun g => (strandsOf s g.1).map Prod.fst
      let s := awayWaiters (keys.foldl (fun s k => discardAll s k true) s) ((groupsOf s wk).map Prod.fst)
      let s := tallySlots s w.die
      let w := { w with resTime := residentTime s w, meter := { w.meter with spent := spentBy s wk w } }
      let before := s
      let s := w.cores.foldl (leaveCore wk w l) s
      let (n, s) := fresh s
      let s := modWg s wk fun v =>
        { v with
          st := .preempted
          leaving := false
          left := n
          resTime := w.resTime
          since := s.time.toNat
          meter := w.meter }
      .next (w.cores.foldl (wakeFreed before) s)
  | _, _ => .next s

/-! ## Killing a context (R258, R390) -/

/-- The group is one of the context's. -/
def groupOfCtx (s : State) (ctx gk : Nat) : Bool :=
  (find s.groups gk).any fun g => (find s.wgs g.wg).any fun w => w.ctx == ctx

/-- A lock owned by a killed context's group, a retired one too, passes on: POISONED from a holder, with the status it carried from
a held grant (R256, R258). -/
def killLock (ctx : Nat) (s : State) (line : Nat) : State :=
  match lockOf s line with
  | some l =>
    match l.owner with
    | some w => if w.ctx != ctx then s else passLock s l (if l.awaySince.isSome then l.carried else 2)
    | none => s
  | none => s

/-- The waiters and requests of the context are gone, and then its locks pass on (R258, R390). -/
def killLocks (s : State) (ctx : Nat) : State :=
  let mine (w : Waiter) : Bool := w.ctx == ctx
  let s : State := { s with
    locks := s.locks.map fun l => { l with waiters := l.waiters.filter fun w => !mine w }
    lockMsgs := s.lockMsgs.filter fun m => match m with
      | .request w _ _ _ _ => !mine w
      | .release _ _ _ _ _ _ => true }
  (s.locks.map Lock.line).foldl (killLock ctx) s

/-- The member's task group is gone. -/
def Member.bereft (s : State) (m : Member) : Bool := m.group.any fun gk => (find s.groups gk).isNone

/-- Ring members whose task group is gone hold none: copies are abandoned, tasks have ended (R306, R313, R390). -/
def dropTaskGroups (s : State) : State :=
  { s with rings := mapVals s.rings fun r =>
      let gone := (r.members.filter (Member.bereft s)).flatMap Member.pairs
      let r := r.abandon fun p => p.st == 1 && gone.contains p
      { r with members := r.members.map fun m =>
          if m.bereft s then
            { m with group := none, pairs := m.pairs.map fun p => if p.st == 2 then { p with ended := true } else p }
          else m } }

/-- Everything of a context's work ends (R390). -/
def killContext (s : State) (ctx : Nat) : State :=
  let ws := (s.wgs.filter fun e => e.2.ctx == ctx).map Prod.fst
  let ks := ws.flatMap fun wk => (groupsOf s wk).flatMap fun g => (strandsOf s g.1).map Prod.fst
  let s := ks.foldl (fun s k => discardAll s k false) s
  let s := killLocks s ctx
  let before := s
  let s := dropTaskGroups (ws.foldl removeWg s)
  let s := ((before.wgs.filter fun e => e.2.ctx == ctx).flatMap fun e => e.2.cores).foldl (wakeFreed before) s
  let ls := (s.launches.filter fun e => e.2.ctx == ctx).map Prod.fst
  { s with
    launches := s.launches.filter fun e => e.2.ctx != ctx
    queues := s.queues.map fun q => { q with fifo := q.fifo.filter fun k => !ls.contains k }
    damper := { s.damper with claims := s.damper.claims.filter fun c => !(match c.launch with
      | some k => ls.contains k
      | none => false) }
    mailbox := s.mailbox.filter fun c => c.ctx != ctx }

/-- A strand of the context has a record that its die still holds, or has dropped, and that firmware has not taken (R288). -/
def recordHeld (s : State) (ctx : Nat) : Bool :=
  let waits (d : Option (FaultCode × Option Untaken)) : Bool := d.any fun e => e.2.isSome
  let held (t : Strand) : Bool := t.record.isSome || waits t.due
  s.strands.any (fun e => held e.2 && groupOfCtx s ctx e.2.group) ||
    s.groups.any (fun e => groupOfCtx s ctx e.1 && e.2.parked.any fun p => waits p.due) ||
    s.wgs.any fun e => e.2.ctx == ctx && e.2.saved.any fun v => v.strands.any held

/-! ## Resumption (R256, R392, R395, R397) -/

/-- A husk is whole: no poison, its MAGIC, and a CHECK that agrees with its bytes (R393, R395). -/
def huskWhole (s : State) (v : Saved) : Bool :=
  let bs := readBytes s.mem v.base v.image.length
  (List.range ((v.image.length + 63) / 64)).all (fun k => !homePoisoned s (v.base + 64 * k)) &&
    bs.take 4 == [0x48, 0x53, 0x4B, 0x01] && leNat ((bs.drop 0x28).take 4) == (crc32 (bs.drop 64)).toNat

/-- A window at resumption: rights from the page tables, VALID cleared where its page translates otherwise; a frame at or above
2^44, which FRAME cannot hold, is the window's only where every access is translated (R124, R212). -/
def rebuildWin (s : State) (ctx : Nat) (w : WinReg) : WinReg :=
  if !winValid w.bits then w
  else match translatePkg s ctx (winVbase w.bits) with
    | .page e =>
      let pa := e.pa (winVbase w.bits)
      if pa / 2 ^ 12 % 2 ^ 32 * 2 ^ 12 = winFrame w.bits ∧ (winLimit w.bits = 0 ∨ pa < 2 ^ 44) then
        ⟨w.bits, ⟨pteW e.pte, pteAtom e.pte, pteCache e.pte, pteHome e.pte⟩⟩
      else ⟨w.bits &&& ~~~((1 : Val) <<< 127), w.rights⟩
    | .fault _ => ⟨w.bits &&& ~~~((1 : Val) <<< 127), w.rights⟩

/-- A group at its new place; lanes waiting at a label have not waited meanwhile (R392). -/
def Group.back (s : State) (ctx away : Nat) (g : Group) (c slot pos : Nat) : Group :=
  { g with
    core := c
    slot := slot
    pos := pos
    wins := mapVals g.wins (rebuildWin s ctx)
    parked := g.parked.map fun p => if p.regang.isSome then { p with stamp := p.stamp + away } else p }

/-- A saved strand, the `n`th record of its husk, takes a free entry of its group's core and its turn to fire (R37, R392). -/
def returnStrand (away : Nat) (c : Nat) (s : State) (e : Strand × Nat) : State :=
  let (t, n) := e
  match takeEntry s c with
  | none => s
  | some e =>
    let st := match t.st with
      | .label k since => .label k (since + away)
      | x => x
    { s with uid := s.uid + 1, strands := put s.strands (strandKey c e) { t with st := st, l1min := s.uid, turn := n + 1 } }

/-- A resource back on a core with its owner and contents (R262). -/
def Core.takeRes (me : Nat × Nat) (c : Core) (r : SavedRes) : Core :=
  let c := c.modRes r.num fun _ => { Res.reset with st := 1, owner := some me }
  if r.num < 32 then
    { c with slots := store c.slots r.num r.data [], slotPoison := store c.slotPoison r.num r.poison 0 }
  else { c with
    tiles := store c.tiles (r.num - 32) (r.data.map fun e => (e.1, e.2.setWidth 32)) []
    tilePoison := if r.poison.getLsbD 0 then c.tilePoison ||| ((1 : BitVec 4) <<< (r.num - 32)) else c.tilePoison }

/-- Saved completion records return behind those that stand in their queue; what finds no place waits in the record buffer (R275,
R286). -/
def Core.takeRecords (c : Core) (e : Nat × List Item) : Core :=
  let q := get c.compq e.1 []
  { c with
    compq := store c.compq e.1 (q ++ e.2.take (64 - q.length)) []
    recbuf := c.recbuf ++ (e.2.drop (64 - q.length)).map fun (i : Item) => (e.1, i.val) }

/-- What was saved is back on a core in die clock `clk`; receive queues take items again (R262, R281, R289, R333, R360). -/
def Core.back (me : Nat × Nat) (clk away : Nat) (v : Saved) (c : Core) : Core :=
  let c := v.compq.foldl Core.takeRecords c
  let c := v.res.foldl (Core.takeRes me) c
  let c := v.recv.foldl (fun c e => c.modRecv e.1 fun q => { q with items := e.2, away := false }) c
  { c with
    field := (v.field.map fun f => { f with upTo := clk }).getD c.field
    deque := match v.deque with
      | some l => ⟨some me, l, none⟩
      | none => c.deque
    xbar := (v.xbar.map (Xbar.back clk away)).getD c.xbar }

/-- One core of a returning workgroup: its strands, and what was saved (R392). -/
def returnCore (wk : Nat) (w : Wg) (unit : List Nat) (away : Nat) (s : State) (v : Saved) : State :=
  let c := unit.getD v.member 0
  let s := v.strands.zipIdx.foldl (returnStrand away c) s
  let s := modCore s c (Core.back (w.ctx, wk) (clkOf s c) away v)
  v.recv.foldl (fun s e => refill c e.1 64 s) s

/-- The group's lock entries after its return: its waiters lose their away marks, a grant held for it is taken, its held
lines are locked in the new core's L1. Of a waiter's time, that before the group left counts (R255, R256). -/
def returnLock (gk : Nat) (g : Group) (left : Nat) (s : State) (line : Nat) : State :=
  match lockOf s line with
  | none => s
  | some l =>
    let here : Waiter → Waiter := fun w =>
      if w.group == gk then
        { w with away := false, blk := 0, since := s.time.toNat - (left - w.since), core := g.core, slot := g.slot } else w
    let l := { l with waiters := l.waiters.map here }
    match l.owner with
    | none => setLock s l
    | some w =>
      if w.group != gk then setLock s l
      else
        let w := { w with away := false, blk := 0, core := g.core, slot := g.slot }
        if l.awaySince.isNone then installLocked (setLock s { l with owner := some w }) g.core line gk
        else if windowPassed s l && !l.waiters.isEmpty then passLock s l l.carried
        else grantTo l l.carried (w :: l.waiters) s

/-- A group's locks and requests after its return (R256). -/
def returnLocks (left : Nat) (s : State) (gk : Nat) : State :=
  match find s.groups gk with
  | none => s
  | some g =>
    let s : State := { s with lockMsgs := s.lockMsgs.filter fun m => match m with
      | .request w _ _ _ _ => w.group != gk
      | .release _ _ _ _ _ _ => true }
    (s.locks.map Lock.line).foldl (returnLock gk g left) s

/-- A pre-empted workgroup is resident again on a unit (R392). -/
def returnWg (s : State) (wk : Nat) (w : Wg) (unit : List Nat) (spots : List (Nat × Nat × Nat)) : State :=
  let away := s.time.toNat - w.since
  let gs := groupsOf s wk
  let s := tallySlots (wake s w.die) w.die
  let s := (gs.zip spots).foldl (fun s e =>
    modGroup s e.1.1 fun g => g.back s w.ctx away (unit.getD e.2.1 0) e.2.2.1 e.2.2.2) s
  let s := modWg s wk fun w =>
    { w with
      st := .resident
      since := s.time.toNat
      cores := (spots.map fun p => unit.getD p.1 0).foldl insertNat []
      barStart := mapVals w.barStart fun t => t + away
      meter := meterFrom s w.die w.meter.spent
      saved := [] }
  let s := w.saved.foldl (returnCore wk w unit away) s
  let s := (gs.map Prod.fst).foldl (returnLocks w.since) s
  let s := (w.saved.map fun v => unit.getD v.member 0).foldl (fun s c => wakeMany c (freeEntries s c).length s) s
  (keys s.rings).foldl (fun s rk => if rk / 3 == w.die then resumeRing s rk else s) s

/-- A bad husk kills the context, with a POISON_CONSUMED record at the husk (R395). -/
def badHusk (s : State) (w : Wg) (l : Launch) (v : Saved) : State :=
  let r : Record := { Record.basic 1 FaultCode.poisonConsumed.code (dieId w.die) w.ctx with
    slot := 0xFF, core := v.core, strand := 0xFF, tag := l.tag, addr := BitVec.ofNat 64 (v.base + 0xFF * 2 ^ 56) }
  (report (killContext s w.ctx) w.die r).1

/-- A workgroup that has left since then, of another queue of launch `l`'s level, can return to the die (R54). -/
def earlierBack (s : State) (l : Launch) (w : Wg) : Bool :=
  (List.range 64).any fun q => (firstBack s q w.die).any fun e => (find s.launches e.2.launch).any fun m =>
    equalOther s l m && e.2.left < w.left && (returnFit s [] e.1 e.2 m).isSome

/-- Work that the room on a pre-empted workgroup's die is for goes before its return to the places `r`: a producer's that would lose
room by it, a workgroup or a CORES launch of a higher level or of another queue of its own, once those that are leaving have left
(R52, R54; log entry 51). -/
def claimedBefore (s : State) (w : Wg) (l : Launch) (r : List Nat × List (Nat × Nat × Nat) × List Cap) : Bool :=
  let ex := (s.wgs.filter fun e => e.2.leaving).map Prod.fst
  producerFirst s w.launch l w.die (takenBy r) || earlierBack s l w ||
    placeable s ex w.die fun m => levelOf s l < levelOf s m || equalOther s l m

/-- WORKGROUP_RESUME: the pre-empted workgroup that left its queue's die last returns where it fits; one that finds no room
may make workgroups of a lower level leave, and one that others go before waits; a bad husk kills the context (R52, R54, R392,
R395). -/
def execWorkgroupResume (wk : Nat) (s : State) : Host.Outcome State Fault Refusal :=
  match find s.wgs wk, launchOfWg s wk with
  | some w, some l =>
    if w.st != .preempted || !hostAlive s || !dieOpen s w.die ||
        ((firstBack s l.queue w.die).map Prod.fst) != some wk then .next s
    else match returnFit s [] wk w l with
      | none => .next (clearFor s l (fun ex => (returnFit s ex wk w l).isSome) (pool s [w.die]))
      | some (unit, spots, caps) =>
        if outranked s w.die (levelOf s l) || claimedBefore s w l (unit, spots, caps) then .next s
        else match w.saved.find? fun v => !huskWhole s v with
          | some v => .next (badHusk s w l v)
          | none => .next (returnWg s wk w unit spots)
  | _, _ => .next s

end Sys2Proof.Machine
end

