-- ==== Sys2Proof/Machine/Integer.lean ====
section
/-! DEFINITION. Integer, bit and address instructions (08_ref_integer: R149 to R163). Each is a function of operand
values lifted over the lanes of the result mask. -/

namespace Sys2Proof.Machine

/-! ## Functions of operand values -/

/-- A function of the exact values, its result carried at the type (R150). -/
def onInt1 (t : Ty) (f : Int → Int) (a : Val) : Val := carry t (f (intOf t a))

/-- As `onInt1` for two operands. -/
def onInt2 (t : Ty) (f : Int → Int → Int) (a b : Val) : Val := carry t (f (intOf t a) (intOf t b))

/-- As `onInt1` for three operands. -/
def onInt3 (t : Ty) (f : Int → Int → Int → Int) (a b c : Val) : Val :=
  carry t (f (intOf t a) (intOf t b) (intOf t c))

/-- A function of the bit patterns, its result carried at the type (R156). -/
def onBits2 (t : Ty) (f : Val → Val → Val) (a b : Val) : Val := carryBits t (f (valOf t a) (valOf t b)).toNat

/-- The unsigned value of an operand at the type's width. -/
def natOf (t : Ty) (a : Val) : Nat := a.toNat % 2 ^ t.width

/-- The signed value of an operand at the type's width, whatever the type (R157). -/
def signedOf (t : Ty) (a : Val) : Int := (BitVec.ofNat t.width a.toNat).toInt

/-- Low 32 bits of an operand, unsigned (R157). -/
def low32 (b : Val) : Nat := b.toNat % 2 ^ 32

/-- SHL (R157). -/
def shlVal (t : Ty) (a b : Val) : Val :=
  if t.width ≤ low32 b then 0 else carryBits t (natOf t a * 2 ^ low32 b)

/-- SHR (R157). -/
def shrVal (t : Ty) (a b : Val) : Val :=
  if t.width ≤ low32 b then 0 else carryBits t (natOf t a / 2 ^ low32 b)

/-- SAR (R157). -/
def sarVal (t : Ty) (a b : Val) : Val := carry t (signedOf t a / 2 ^ min (low32 b) (t.width - 1))

/-- ROT (R157). -/
def rotVal (t : Ty) (a b : Val) : Val :=
  let k := low32 b % t.width
  carryBits t (natOf t a * 2 ^ k + natOf t a / 2 ^ (t.width - k))

/-- BFX (R158). -/
def bfxVal (t : Ty) (a ctl : Val) : Val :=
  let pos := ctl.toNat % 128
  let len := min (ctl.toNat / 256 % 128) t.width
  let f := natOf t a / 2 ^ pos % 2 ^ len
  if t.signed && 0 < len then carry t (BitVec.ofNat len f).toInt else carryBits t f

/-- BFI (R158). -/
def bfiVal (t : Ty) (a b ctl : Val) : Val :=
  let pos := ctl.toNat % 128
  let len := min (ctl.toNat / 256 % 128) t.width
  let m : BitVec 256 := BitVec.ofNat 256 ((2 ^ len - 1) * 2 ^ pos % 2 ^ t.width)
  let x : BitVec 256 := BitVec.ofNat 256 (natOf t a)
  let y : BitVec 256 := BitVec.ofNat 256 (natOf t b * 2 ^ pos)
  carryBits t ((x &&& ~~~m) ||| (y &&& m)).toNat

/-- POPC over the low `n` bits (R159). -/
def popcount (v : Nat) : Nat → Nat
  | 0 => 0
  | n + 1 => (if v.testBit n then 1 else 0) + popcount v n

/-- Zero bits above the highest set bit, of the low `n` bits (R159). -/
def leadingZeros (v : Nat) : Nat → Nat
  | 0 => 0
  | n + 1 => if v.testBit n then 0 else 1 + leadingZeros v n

/-- Zero bits below the lowest set bit, from bit `i` on, of `n` bits left (R159). -/
def trailingZeros (v i : Nat) : Nat → Nat
  | 0 => 0
  | n + 1 => if v.testBit i then 0 else 1 + trailingZeros v (i + 1) n

/-- The low `n` bits in reverse order (R159). -/
def reverseBits (v n : Nat) : Nat := (List.range n).foldl (fun r i => 2 * r + (if v.testBit i then 1 else 0)) 0

/-- The low `n` bytes in reverse order (R159). -/
def reverseBytes (v n : Nat) : Nat := (List.range n).foldl (fun r i => 256 * r + v / 256 ^ i % 256) 0

/-- The carry-less product of the low 64 bits (R161). -/
def clmulExact (a b : Val) : BitVec 128 :=
  let x : BitVec 128 := lowBits 64 a
  (List.range 64).foldl (fun p i => if b.getLsbD i then p ^^^ (x <<< i) else p) 0

/-- LEA: base plus scaled index plus offset, modulo 2^64 (R162). -/
def leaVal (t : Ty) (scale : Nat) (a b c : Val) : Val :=
  let idx : Int := if t.signed then (BitVec.ofNat 32 b.toNat).toInt else (low32 b : Nat)
  carry .n64 ((a.toNat : Int) + idx * 2 ^ scale + (c.toNat : Int))

/-- Field `k` of a work identifier under field widths `ws` (R163). -/
def widField (ws : List Nat) (k : Nat) (a : Nat) : Nat :=
  a % 2 ^ 64 / 2 ^ (ws.take k).sum % 2 ^ ws.getD k 0

/-! ## The instructions -/

/-- ADD (R152). -/
def execAdd (w : Plain) (s : State) : Host.Outcome State Fault Refusal :=
  atSite s fun x => x.bin s w .t w.ty.tokenWidth (onInt2 w.ty (· + ·))

/-- SUB (R152). -/
def execSub (w : Plain) (s : State) : Host.Outcome State Fault Refusal :=
  atSite s fun x => x.bin s w .t w.ty.tokenWidth (onInt2 w.ty (· - ·))

/-- ADDS (R152). -/
def execAdds (w : Plain) (s : State) : Host.Outcome State Fault Refusal :=
  atSite s fun x => x.bin s w .t w.ty.tokenWidth (onInt2 w.ty fun a b => satTo w.ty (a + b))

/-- SUBS (R152). -/
def execSubs (w : Plain) (s : State) : Host.Outcome State Fault Refusal :=
  atSite s fun x => x.bin s w .t w.ty.tokenWidth (onInt2 w.ty fun a b => satTo w.ty (a - b))

/-- ADDC: the sum to target A, the carry out to target B (R153). -/
def execAddc (w : Plain) (s : State) : Host.Outcome State Fault Refusal :=
  atSite s fun x =>
    let a := x.opnd 0
    let b := x.opnd 1
    let c := x.opnd 2
    let r := lift3 w.ty.tokenWidth (fun a b c => carryBits w.ty (addcExact w.ty.width a b c)) a b c
    let o := lift3 w.ty.tokenWidth (fun a b c => boolVal (2 ^ w.ty.width ≤ addcExact w.ty.width a b c)) a b c
    x.mod s fun k => k.finish x.i w.ta w.tb r o

/-- SUBB: the difference to target A, the borrow out to target B (R153). -/
def execSubb (w : Plain) (s : State) : Host.Outcome State Fault Refusal :=
  atSite s fun x =>
    let a := x.opnd 0
    let b := x.opnd 1
    let c := x.opnd 2
    let r := lift3 w.ty.tokenWidth (fun a b c => carry w.ty (subbExact w.ty.width a b c)) a b c
    let o := lift3 w.ty.tokenWidth (fun a b c => boolVal (subbExact w.ty.width a b c < 0)) a b c
    x.mod s fun k => k.finish x.i w.ta w.tb r o

/-- MUL (R154). -/
def execMul (w : Plain) (s : State) : Host.Outcome State Fault Refusal :=
  atSite s fun x => x.bin s w .t w.ty.tokenWidth (onInt2 w.ty (· * ·))

/-- MULH: the floor of the product over 2^W (R154). -/
def execMulh (w : Plain) (s : State) : Host.Outcome State Fault Refusal :=
  atSite s fun x => x.bin s w .t w.ty.tokenWidth (onInt2 w.ty fun a b => (a * b) / 2 ^ w.ty.width)

/-- MAD (R154). -/
def execMad (w : Plain) (s : State) : Host.Outcome State Fault Refusal :=
  atSite s fun x => x.ter s w .t w.ty.tokenWidth (onInt3 w.ty fun a b c => a * b + c)

/-- MIN (R155). -/
def execMin (w : Plain) (s : State) : Host.Outcome State Fault Refusal :=
  atSite s fun x => x.bin s w .t w.ty.tokenWidth (onInt2 w.ty min)

/-- MAX (R155). -/
def execMax (w : Plain) (s : State) : Host.Outcome State Fault Refusal :=
  atSite s fun x => x.bin s w .t w.ty.tokenWidth (onInt2 w.ty max)

/-- ABS (R155). -/
def execAbs (w : Plain) (s : State) : Host.Outcome State Fault Refusal :=
  atSite s fun x => x.un s w w.ty.tokenWidth (onInt1 w.ty fun a => (a.natAbs : Int))

/-- NEG (R155). -/
def execNeg (w : Plain) (s : State) : Host.Outcome State Fault Refusal :=
  atSite s fun x => x.un s w w.ty.tokenWidth (onInt1 w.ty fun a => -a)

/-- AND (R156). -/
def execAnd (w : Plain) (s : State) : Host.Outcome State Fault Refusal :=
  atSite s fun x => x.bin s w .t w.ty.tokenWidth (onBits2 w.ty (· &&& ·))

/-- OR (R156). -/
def execOr (w : Plain) (s : State) : Host.Outcome State Fault Refusal :=
  atSite s fun x => x.bin s w .t w.ty.tokenWidth (onBits2 w.ty (· ||| ·))

/-- XOR (R156). -/
def execXor (w : Plain) (s : State) : Host.Outcome State Fault Refusal :=
  atSite s fun x => x.bin s w .t w.ty.tokenWidth (onBits2 w.ty (· ^^^ ·))

/-- ANDN (R156). -/
def execAndn (w : Plain) (s : State) : Host.Outcome State Fault Refusal :=
  atSite s fun x => x.bin s w .t w.ty.tokenWidth (onBits2 w.ty fun a b => a &&& ~~~b)

/-- NOT (R156). -/
def execNot (w : Plain) (s : State) : Host.Outcome State Fault Refusal :=
  atSite s fun x => x.un s w w.ty.tokenWidth fun a => carryBits w.ty (~~~a).toNat

/-- SHL (R157). -/
def execShl (w : Plain) (s : State) : Host.Outcome State Fault Refusal :=
  atSite s fun x => x.bin s w .z w.ty.tokenWidth (shlVal w.ty)

/-- SHR (R157). -/
def execShr (w : Plain) (s : State) : Host.Outcome State Fault Refusal :=
  atSite s fun x => x.bin s w .z w.ty.tokenWidth (shrVal w.ty)

/-- SAR (R157). -/
def execSar (w : Plain) (s : State) : Host.Outcome State Fault Refusal :=
  atSite s fun x => x.bin s w .z w.ty.tokenWidth (sarVal w.ty)

/-- ROT (R157). -/
def execRot (w : Plain) (s : State) : Host.Outcome State Fault Refusal :=
  atSite s fun x => x.bin s w .z w.ty.tokenWidth (rotVal w.ty)

/-- BFX (R158). -/
def execBfx (w : Plain) (s : State) : Host.Outcome State Fault Refusal :=
  atSite s fun x => x.bin s w .z w.ty.tokenWidth (bfxVal w.ty)

/-- BFI (R158). -/
def execBfi (w : Plain) (s : State) : Host.Outcome State Fault Refusal :=
  atSite s fun x => x.ter s w .z w.ty.tokenWidth (bfiVal w.ty)

/-- POPC (R159). -/
def execPopc (w : Plain) (s : State) : Host.Outcome State Fault Refusal :=
  atSite s fun x => x.un s w w.ty.tokenWidth fun a => carryBits w.ty (popcount a.toNat w.ty.width)

/-- CLZ (R159). -/
def execClz (w : Plain) (s : State) : Host.Outcome State Fault Refusal :=
  atSite s fun x => x.un s w w.ty.tokenWidth fun a => carryBits w.ty (leadingZeros a.toNat w.ty.width)

/-- CTZ (R159). -/
def execCtz (w : Plain) (s : State) : Host.Outcome State Fault Refusal :=
  atSite s fun x => x.un s w w.ty.tokenWidth fun a => carryBits w.ty (trailingZeros a.toNat 0 w.ty.width)

/-- BREV (R159). -/
def execBrev (w : Plain) (s : State) : Host.Outcome State Fault Refusal :=
  atSite s fun x => x.un s w w.ty.tokenWidth fun a => carryBits w.ty (reverseBits a.toNat w.ty.width)

/-- BSWAP (R159). -/
def execBswap (w : Plain) (s : State) : Host.Outcome State Fault Refusal :=
  atSite s fun x => x.un s w w.ty.tokenWidth fun a => carryBits w.ty (reverseBytes a.toNat (w.ty.width / 8))

/-- CMP: a 32-bit 1 or 0 (R160). -/
def execCmp (c : ICond) (w : Plain) (s : State) : Host.Outcome State Fault Refusal :=
  atSite s fun x => x.bin s w .t 32 fun a b => boolVal (icondHolds c w.ty a b)

/-- CLMUL (R161). -/
def execClmul (w : Plain) (s : State) : Host.Outcome State Fault Refusal :=
  atSite s fun x => x.bin s w .t 64 fun a b => lowBits 64 (clmulExact a b)

/-- CLMULH (R161). -/
def execClmulh (w : Plain) (s : State) : Host.Outcome State Fault Refusal :=
  atSite s fun x => x.bin s w .t 64 fun a b => clmulExact a b >>> 64

/-- LEA (R162). -/
def execLea (scale : BitVec 3) (w : Plain) (s : State) : Host.Outcome State Fault Refusal :=
  atSite s fun x => x.ter s w .s 64 (leaVal w.ty scale.toNat)

/-- WIDF: the field under the widths of the issuing group's launch (R163). -/
def execWidf (field : BitVec 3) (w : Plain) (s : State) : Host.Outcome State Fault Refusal :=
  atSite s fun x =>
    let ws := match x.place s with
      | some p => p.l.widths
      | none => []
    x.un s w w.ty.tokenWidth fun a => carryBits w.ty (widField ws field.toNat a.toNat)

end Sys2Proof.Machine
end

