-- ==== Sys2Proof/Machine/Manage.lean ====
section
/-! DEFINITION. Management requests, boot, dies and links, errors, the host's accesses and the event queue (11_memories:
R206, R208, R211, R217; 12_ordering: R238; 15_queues: R287, R288; 21_faults: R381, R389, R390; 22_dies: R396 to R410). -/

namespace Sys2Proof.Machine

/-- An input that cannot be served yet stays with the machine, as it stands (log entry 52). -/
def holdInput (s : State) : State := { s with asked := false }

/-! ## Strands and contexts: request 0x06 (R389, R390) -/

/-- Firmware may act on a strand: parked by a fault, its record taken (R288, R389). -/
def mayAct (t : Strand) : Bool :=
  t.record.isNone && match t.st with
    | .parked _ => true
    | _ => false

/-- STRAND_RESUME: the parked strand fires its block again (R389). -/
def execStrandResume (c e : Nat) (s : State) : Host.Outcome State Fault Refusal :=
  let key := strandKey c e
  if !hostAlive s then .next (diagnose s)
  else match find s.strands key with
    | some t => if mayAct t then .next (reply (modStrand s key fun t => { t with st := .ready }) 6 0) else .next (reply s 6 2)
    | none => .next (reply s 6 2)

/-- The strand continues at an address; in trap mode it first leaves trap mode (R389). -/
def Strand.redirect (dest : Word) (t : Strand) : Strand :=
  { t with st := .ready, pc := dest, trap := false, bank := [] }

/-- STRAND_REDIRECT: the parked strand continues at a 16-byte-aligned address (R389). -/
def execStrandRedirect (c e : Nat) (dest : Word) (s : State) : Host.Outcome State Fault Refusal :=
  let key := strandKey c e
  if !hostAlive s then .next (diagnose s)
  else match find s.strands key with
    | some t =>
      if mayAct t && dest.toNat % 16 == 0 then .next (reply (modStrand s key (Strand.redirect dest)) 6 0)
      else .next (reply s 6 2)
    | none => .next (reply s 6 2)

/-- CONTEXT_KILL: the context's work ends; not while a record of it is held (R288, R390). -/
def execContextKill (ctx : Nat) (s : State) : Host.Outcome State Fault Refusal :=
  if !hostAlive s then .next (diagnose s)
  else if recordHeld s ctx then .next (reply s 6 3)
  else .next (reply (killContext s ctx) 6 0)

/-! ## Translations: request 0x05, and the root table (R208, R211) -/

/-- The first block of a strand that used a translation of [lo, hi). -/
def usedRange (lo hi : Nat) (t : Strand) : Option Nat :=
  (t.blocks.find? fun b => b.pages.any fun p => 4096 * p < hi && lo < 4096 * (p + 1)).map Blk.uid

/-- A group's windows whose VBASE lies in [lo, hi) are invalid (R211). -/
def Group.shoot (lo hi : Nat) (g : Group) : Group :=
  { g with wins := mapVals g.wins fun w =>
      if lo ≤ winVbase w.bits && winVbase w.bits < hi then ⟨w.bits &&& ~~~((1 : Val) <<< 127), w.rights⟩ else w }

/-- A command or job of a context whose write footprint, in its virtual addresses, meets [lo, hi). -/
def writesIn (ctx lo hi : Nat) (ws : List Region) : Bool := anyMeet ws [⟨.virt ctx, lo, hi⟩]

/-- One that contributes to a merge on its way; one that is gone counts as well. -/
def Owner.writesIn (s : State) (ctx lo hi : Nat) (o : Owner) : Bool :=
  if o.job then ((Machine.core s o.core).jobs.find? fun j => j.uid == o.num).all fun j => Machine.writesIn ctx lo hi j.writes
  else ((Machine.core s o.core).mq.find? fun m => m.uid == o.num).all fun m => Machine.writesIn ctx lo hi m.foot.2

/-- Writes of a context at addresses that [lo, hi) gave are still on their way: stores of committed blocks, signals of drains,
merges of engines (R211). -/
def rangeInUse (s : State) (ctx lo hi : Nat) : Bool :=
  (s.posted.any fun p => ((find s.launches p.launch).all fun l => l.ctx == ctx) &&
    p.pages.any fun n => 4096 * n < hi && lo < 4096 * (n + 1)) ||
  (s.drains.any fun d => d.ctx == ctx && d.sigs.any fun g => g.1.va < hi && lo < g.1.va + g.1.size) ||
  (s.merges.any fun m => m.ctx == ctx && m.owners.any (Owner.writesIn s ctx lo hi)) ||
  s.portLines.any fun p => p.ctx == ctx && p.owners.any (Owner.writesIn s ctx lo hi)

/-- SHOOTDOWN: TLB entries of the range go, windows in it lose VALID, blocks that used it are discarded; it is answered once what
has been committed is made at the old frames (R211). The windows of the context's pre-empted groups lose VALID as those of its
resident ones do: R211 has every window of the range, R124 every resident group, and the model follows R211 (log entry 48). -/
def execShootdown (ctx lo hi : Nat) (s : State) : Host.Outcome State Fault Refusal :=
  if !hostAlive s then .next (diagnose s)
  else
    let keep (e : TlbEntry) : Bool := !(e.ctx == ctx && e.va < hi && lo < e.va + e.size)
    let s : State := { s with
      ptlb := s.ptlb.filter keep
      cores := mapVals s.cores fun c => { c with tlb := c.tlb.filter keep } }
    let ours := (s.groups.filter fun e => groupOfCtx s ctx e.1).map Prod.fst
    let hit : Nat × Group → Nat × Group := fun e => if ours.contains e.1 then (e.1, e.2.shoot lo hi) else e
    let s : State := { s with groups := s.groups.map hit }
    let shot := s.strands.filterMap fun e =>
      if ours.contains e.2.group then (usedRange lo hi e.2).map (fun u => (e.1, u)) else none
    let s := shot.foldl (fun s e => discardFrom s e.1 e.2) s
    .next (if rangeInUse s ctx lo hi then holdInput s else reply s 5 0)

/-- TRANSLATION_ROOT_WRITE: a context's root, 64 KiB-aligned, or none (R208). -/
def execTranslationRootWrite (ctx : Nat) (root : Option Nat) (s : State) : Host.Outcome State Fault Refusal :=
  if !hostAlive s || 4096 ≤ ctx then .next s
  else match root with
    | none => .next { s with roots := del s.roots ctx }
    | some r => if r % 2 ^ 16 == 0 && r < 2 ^ 52 then .next { s with roots := put s.roots ctx r } else .next s

/-- FORMAT_WINDOW_WRITE: a format window in all 16 controllers. That no launch reads through it is firmware's part; decoded
lines stay (R127, R128). -/
def execFormatWindowWrite (n : Nat) (v : Val) (s : State) : Host.Outcome State Fault Refusal :=
  if !hostAlive s || 16 ≤ n then .next s
  else .next { s with dies := s.dies.map fun d => { d with fw := store d.fw n v 0 } }

/-! ## Limits: request 0x07 (R195, R199, R216, R381) -/

/-- A limit, where it is given, lies in its range in ns. -/
def limitOk (v : Option Nat) (lo hi : Nat) : Bool := v.all fun n => lo ≤ n && n ≤ hi

/-- TIMEOUTS: the limits given are set, all of them in range (R404). -/
def execTimeouts (t : Limits) (s : State) : Host.Outcome State Fault Refusal :=
  if !hostAlive s then .next (diagnose s)
  else if limitOk t.lock 1_000 100_000_000 && limitOk t.hold 1_000 100_000_000 && limitOk t.barrier 100_000 1_000_000_000 &&
      limitOk t.xshfl 10_000 10_000_000 && (t.watchdog == some 0 || limitOk t.watchdog 1_000_000 3_600_000_000_000) then
    .next (reply { s with
      lockLimit := t.lock.getD s.lockLimit
      holdLimit := t.hold.getD s.holdLimit
      barrierLimit := t.barrier.getD s.barrierLimit
      xshflLimit := t.xshfl.getD s.xshflLimit
      watchdogLimit := t.watchdog.getD s.watchdogLimit } 7 0)
  else .next (reply s 7 2)

/-! ## Links (R9, R401, R407, R408) -/

/-- Port or ring link `n` works: 2d and 2d + 1 are hob die d's hearth ports, 8 + d joins hob dies d and d + 1 mod 4. -/
def linkUp (s : State) (n : Nat) : Bool := s.links.getD n false

/-- The hob dies among `ds` and their neighbours over working ring links; a die that is off, absent or in reset passes nothing
on (R21, R398, R405). -/
def spreadDies (s : State) (ds : List Nat) : List Nat :=
  let relay (n : Nat) : Bool := ds.contains n && dieUp s n
  (List.range 4).filter fun d => ds.contains d || (linkUp s (8 + d) && relay ((d + 1) % 4)) ||
    (linkUp s (8 + (d + 3) % 4) && relay ((d + 3) % 4))

/-- The hob dies that reach the hearth die over some path of working ports (R408). -/
def joinedDies (s : State) : List Nat :=
  let own := (List.range 4).filter fun d => linkUp s (2 * d) || linkUp s (2 * d + 1)
  spreadDies s (spreadDies s (spreadDies s own))

/-- LINK_FLIT_CRC_FAIL: the data of a flit that fails after its replays is written poisoned, behind the atomics that hold its line,
and the port retrains (R217, R230, R401). -/
def execLinkFlitCrcFail (port pa : Nat) (s : State) : Host.Outcome State Fault Refusal :=
  if !linkUp s port || !populated pa then .next s
  else if lineHeld s (lineOf (plainPa pa)) then .next (holdInput s)
  else .next (setPoison (dropCopies s (lineOf (plainPa pa))) (plainPa pa) true)

/-- LINK_DOWN: a port that fails to retrain is down; traffic takes another path where there is one (R401, R407). -/
def execLinkDown (port : Nat) (s : State) : Host.Outcome State Fault Refusal :=
  .next { s with links := s.links.set port false }

/-! ## A die leaves and returns (R258, R402, R405, R406, R409) -/

/-- A line that may be homed on die `d`. Lines of host memory and decoded views count, since their homes stand elsewhere. -/
def maybeHome (line d : Nat) : Bool := kindAt line != .hbm || bitsOf line 37 2 == d

/-- Copies of lines homed on die `d` are recalled from the other dies and the package cache (R405 step 4). -/
def recallCopies (s : State) (d : Nat) : State :=
  { s with
    dies := s.dies.map fun x => { x with copies := x.copies.filter fun e => !maybeHome e.1 d }
    pkgCache := s.pkgCache.filter fun l => !maybeHome l.1 d }

/-- Locks homed on die `d` are lost with its tables; what waits on them faults DIE_OFFLINE (R241, R258). -/
def loseLocks (s : State) (d : Nat) : State :=
  let gone := s.locks.filter fun l => l.home == d
  let lost (line : Nat) : Bool := gone.any fun l => l.line == line
  let s : State := { s with
    locks := s.locks.filter fun l => l.home != d
    groups := mapVals s.groups fun g => { g with locks := g.locks.filter fun h => !lost h.line } }
  (gone.flatMap Lock.waiters).foldl (fun s w => if w.away then s else lockFault s w .dieOffline none) s

/-- The accepted traffic from die `d` and to it has completed: stores, loads, atomics, contributions, lock messages, drains, the
jobs of its cores; nothing is held at it, no probe either (R405 step 2). -/
def trafficDone (s : State) (d : Nat) : Bool :=
  let homed (line : Nat) : Bool := kindAt line = .hbm && bitsOf line 37 2 == d
  s.posted.all (fun p => p.die != d && p.home != d) && s.drains.all (fun x => x.die != d && !x.dies.contains d) &&
    s.merges.all (fun m => m.srcDie != d && m.home != d) && s.portLines.all (fun p => p.die != d && !homed p.line) &&
    s.atoms.all (fun a => a.die != d && a.home != d) && s.reqs.all (fun r => r.die != d && r.home != d) &&
    s.lockMsgs.all (fun m => match m with
      | .request _ _ home _ _ | .release _ _ home _ _ _ => home != d) &&
    s.held.all (fun h => !homed h.line) && s.probes.all (fun h => h.die != d) &&
    (List.range 48).all fun k => (core s (48 * d + k)).jobs.isEmpty && (core s (48 * d + k)).mq.isEmpty

/-- Die `d` may leave: its traffic has completed, and it holds no record back (R288, R405 step 2). -/
def quietDie (s : State) (d : Nat) : Bool := trafficDone s d && (die s d).holding.isEmpty

/-- The die's fabric configuration as after its reset; swaps in progress there end (R345, R357). -/
def clearFabric (s : State) (d : Nat) : State :=
  modDie ((die s d).swaps.foldl (fun s w => endAsync s w.uid none) s) d fun x =>
    { x with cells := [], shadows := [], shadowBad := [], sinks := [], sinkShadows := [], holds := 0, swaps := [] }

/-- Receive items on their way to a die that has left are lost, each with its record (R296, R406). -/
def loseItems (s : State) (d : Nat) : State :=
  let gone := s.recvMsgs.filter fun m => dieOf m.dst == d
  gone.foldl (fun s m => loseItem s m.dst m.queue m.ctx m.slot m.tag m.src)
    { s with recvMsgs := s.recvMsgs.filter fun m => dieOf m.dst != d }

/-- A core after its die's reset. What firmware keeps on the hearth die for pre-empted workgroups' receive queues is
rewritten at admission (R8, R397). -/
def Core.afterReset (c : Core) : Core := { Core.reset with recv := c.recv.filter fun q => q.2.away }

/-- The ports of die `d`: to the hearth die, and to its two neighbours. -/
def portsOf (d : Nat) : List Nat := [2 * d, 2 * d + 1, 8 + d, 8 + (d + 3) % 4]

/-- The ports of die `d` that train with it: a die that failed its self-test stays silent on its side (R398, R401). -/
def trains (s : State) (d : Nat) : List Nat :=
  let present (n : Nat) : Bool := s.boot.passed.getD n true
  (portsOf d).filter fun p => p < 8 || present (if p == 8 + d then (d + 1) % 4 else (d + 3) % 4)

/-- Die `d` has reset, its links have trained, and it is admitted with the present time, in EMBER while it is hot (R8, R345, R369,
R370, R402, R405 steps 5 to 7, R410). -/
def resetDie (s : State) (d : Nat) : State :=
  let s := clearFabric s d
  let s := (List.range 48).foldl (fun s k => modCore s (48 * d + k) Core.afterReset) s
  { modDie s d fun x => { Die.reset with mode := x.running, hot := x.hot, fw := x.fw, sample := s.time } with
    rings := s.rings.filter fun e => e.1 / 3 != d
    toks := s.toks.filter fun t => t.die != d
    reqs := s.reqs.filter fun r => r.die != d
    probes := s.probes.filter fun p => p.die != d
    links := (trains s d).foldl (fun l p => l.set p true) s.links }

/-- Die `d` leaves service, its state changed by `f`: its fabric is cleared, and what is on its way to its queues is lost (R296,
R357, R406). -/
def quitDie (s : State) (d : Nat) (f : State → State) : State := loseItems (f (clearFabric s d)) d

/-- Die `d` is marked in reset. -/
def markReset (s : State) (d : Nat) : State := quitDie s d fun s => modDie s d fun x => { x with inReset := true }

/-- Workgroups are resident on die `d`. -/
def residents (s : State) (d : Nat) : KMap Wg := s.wgs.filter fun e => e.2.die == d && e.2.st = .resident

/-- The contexts that a leaving die ends: of the workgroups that own or have joined its rings, those that are CLEARING too, or of
all resident ones (R301, R405 step 1). -/
def doomed (s : State) (d : Nat) (kill : Bool) : List Nat :=
  let of (wk : Nat) : List Nat := ((find s.wgs wk).map Wg.ctx).toList
  let rs := (s.rings.filter fun e => e.1 / 3 == d && e.2.st != 0).map Prod.snd
  let own := rs.flatMap fun r => (r.owner.map fun o => of o.2).getD []
  let joined := rs.flatMap fun r => r.members.flatMap fun m =>
    ((m.group.bind (find s.groups)).map fun g => of g.wg).getD []
  let here := if kill then (residents s d).map fun e => e.2.ctx else []
  (own ++ joined ++ here).foldl insertNat []

/-- Dispatch has stopped; the resident workgroups are killed, or asked to leave (R405 step 1). A context with a held
record is killed once firmware has taken it (R288). -/
def leaveDie (s : State) (d : Nat) (kill : Bool) : State :=
  let s := ((doomed s d kill).filter fun c => !recordHeld s c).foldl killContext s
  if kill then s else ((residents s d).map Prod.fst).foldl askLeave s

/-- The answers to a WARM_RESET and to those asked for while it was under way (R404). -/
def replyResets (s : State) (n : Nat) : State := (List.range (n + 1)).foldl (fun s _ => reply s 2 0) s

/-- One step of a warm reset that has been asked for: workgroups leave, links quiesce, the die resets and is admitted
(R405). -/
def advanceReset (s : State) (d : Nat) (kill : Bool) : State :=
  if !(residents s d).isEmpty || (s.rings.any fun e => e.1 / 3 == d && e.2.owner.isSome && e.2.st != 7) then
    leaveDie s d kill
  else if !(die s d).inReset then (if quietDie s d then markReset s d else s)
  else replyResets (resetDie (loseLocks (recallCopies s d) d) d) (die s d).owed

/-- Another die is in a warm reset or changes its state (R404). -/
def dieBusy (s : State) (d : Nat) : Bool :=
  (List.range 4).any fun n => n != d && ((die s n).resetting.isSome || (die s n).closing)

/-- WARM_RESET: asked for and carried on; INVALID for a die that is OFF, BUSY while another die is in one or changes its state;
one asked for again while it is under way is answered with it, under another mode BUSY (R404, R405). -/
def execWarmReset (d : Nat) (kill : Bool) (s : State) : Host.Outcome State Fault Refusal :=
  if !hostAlive s then .next (diagnose s)
  else if 4 ≤ d || (die s d).mode == .off then .next (reply s 2 2)
  else match (die s d).resetting with
    | some k =>
      if k ≠ kill then .next (reply s 2 1)
      else if s.asked then .next (modDie s d fun x => { x with owed := x.owed + 1 })
      else .next (advanceReset s d kill)
    | none =>
      if dieBusy s d || (die s d).closing then .next (reply s 2 1)
      else .next (leaveDie (modDie s d fun x => { x with resetting := some kill }) d kill)

/-- Work is dispatched to die `d`, or would return to it (R409). -/
def workFor (s : State) (d : Nat) : Bool :=
  !(residents s d).isEmpty || s.launches.any (fun e => e.2.dispatched && (nextNum e.2 d).isSome) ||
    s.wgs.any fun e => e.2.die == d && e.2.st = .preempted

/-- Die `d` goes OFF: steps 2 to 4 of R405, then power gating (R409). -/
def turnOff (s : State) (d : Nat) : State :=
  quitDie (loseLocks (recallCopies s d) d) d fun s => modDie (setMode s d .off .off) d fun x => { x with closing := false }

/-- DIE_STATE (R409): a die that thermal control holds in EMBER takes RUN as its requested state, and comes out of IDLE into EMBER
(R410). A change to OFF that must
wait for traffic is carried on, and what is asked for meanwhile is BUSY (R404). -/
def execDieState (d : Nat) (m : DieMode) (s : State) : Host.Outcome State Fault Refusal :=
  let x := die s d
  if !hostAlive s then .next (diagnose s)
  else if 4 ≤ d then .next (reply s 1 2)
  else if x.inReset || x.resetting.isSome || (x.closing && s.asked) then .next (reply s 1 1)
  else match x.mode, m with
    | .run, .run | .ember, .ember | .idle, .idle | .off, .off => .next (reply (setMode s d m m) 1 0)
    | .run, .ember => .next (reply (setMode s d m m) 1 0)
    | .ember, .run | .idle, .run => .next (reply (setMode s d x.running .run) 1 0)
    | .run, .idle | .ember, .idle => if workFor s d then .next (reply s 1 1) else .next (reply (setMode s d .idle .idle) 1 0)
    | .run, .off | .ember, .off | .idle, .off =>
      if !(residents s d).isEmpty || s.rings.any (fun e => e.1 / 3 == d && e.2.st != 0) then .next (reply s 1 1)
      else if !quietDie s d then .next (modDie s d fun x => { x with closing := true })
      else .next (reply (turnOff s d) 1 0)
    | .off, .run => .next (reply (resetDie s d) 1 0)
    | .idle, .ember | .off, .ember | .off, .idle => .next (reply s 1 2)

/-- A posted store of a die that is split off, or to it: dropped, unless it has been applied at a live home already, and a line of a
live die that the split die's L2 holds dirty is poisoned where it was written (R408). -/
def splitStore (d : Nat) (s : State) (p : Posted) : State :=
  if p.stage == 2 && p.home != d then { s with posted := s.posted.filter fun q => q.uid != p.uid }
  else
    let s := dropStore s p
    let hit (k : Nat) : Bool := p.home != d && p.stage == 1 && p.bytes.extractLsb' (64 * k) 64 != 0
    let s := if hit 0 then setPoison s p.line true else s
    if hit 1 then setPoison s (p.line + 64) true else s

/-- The management requests that wait for a die to leave service are answered as it is split off: it is in reset (R404, R406). -/
def endClosing (s : State) (d : Nat) : State :=
  if (die s d).closing then reply (modDie s d fun x => { x with closing := false }) 1 1 else s

/-- DIE_SPLIT: a die without a path to the hearth die is as in reset; the contexts resident on it are killed, what it had
in flight is lost, it reports over I3C. Its copies are gone, so that stores that wait for them wait no more; contributions held at
its ports are lost with their records (R295, R406, R408). -/
def execDieSplit (d : Nat) (s : State) : Host.Outcome State Fault Refusal :=
  if !hostAlive s || 4 ≤ d || (joinedDies s).contains d || (die s d).inReset then .next s
  else
    let s := (doomed s d true).foldl killContext s
    let s := (s.posted.filter fun p => p.die == d || p.home == d).foldl (splitStore d) s
    let s := endClosing (loseLocks (recallCopies s d) d) d
    let s := (s.probes.filter fun p => p.die == d).foldl actProbe { s with
      probes := s.probes.filter fun p => p.die != d
      merges := s.merges.filter fun m => m.srcDie != d }
    let s := (s.portLines.filter fun p => p.die == d).foldl forwardPort s
    .next (markReset (answer { s with
      toks := s.toks.filter fun t => t.die != d
      reqs := (s.reqs.filter fun r => r.die != d).map fun r => if r.home = d then { r with reply := none } else r
      recvMsgs := s.recvMsgs.filter fun m => m.die != d || dieOf m.dst == d
      lockMsgs := s.lockMsgs.filter fun m => match m with
        | .request w _ _ _ _ => w.die != d
        | .release _ _ home _ _ _ => home != d } 3 (dieId d) 0) d)

/-! ## Heat (R410) -/

/-- THERMAL_THROTTLE: at 100 °C a die goes to EMBER and stays there while it is hot; one in IDLE stays idle and runs in EMBER
(R410; log entry 52). -/
def execThermalThrottle (d : Nat) (s : State) : Host.Outcome State Fault Refusal :=
  if !hostAlive s || (die s d).mode == .off then .next s
  else .next (modDie s d fun x => { x with mode := if x.mode == .run then .ember else x.mode, hot := true })

/-- THERMAL_RECOVER: at 95 °C the die returns to its requested state (R410). -/
def execThermalRecover (d : Nat) (s : State) : Host.Outcome State Fault Refusal :=
  if !hostAlive s || !(die s d).hot then .next s
  else .next (modDie s d fun x =>
    { x with hot := false, mode := if x.mode == .ember && x.request == .run then .run else x.mode })

/-- Everything that a package cold reset loses is lost; the flash, the host's own memory, and the model's own fields, stay
(R203, R396). -/
def coldState (s : State) (b : Boot) : State :=
  { State.reset with
    turn := s.turn
    uid := s.uid
    inbox := s.inbox
    out := s.out
    mem := s.mem.filter fun c => 2 ^ 44 ≤ c.1
    poison := s.poison.filter fun p => 2 ^ 44 ≤ p
    boot := b }

/-- THERMAL_TRIP: at 110 °C the package powers down (R396, R410). -/
def execThermalTrip (s : State) : Host.Outcome State Fault Refusal :=
  if !s.boot.powered then .next s
  else .next { coldState s { Boot.reset with
      powered := false, running := false, flash := s.boot.flash, master := none, regs := none } with
    dies := List.replicate 4 { Die.reset with mode := .off, request := .off } }

/-! ## Boot (R398 to R400, R403) -/

/-- The elected master: the lowest identifier among the dies that passed their self-test, hob dies 0 to 3 and the hearth die
(R399). -/
def electMaster (passed : List Bool) : Option Nat :=
  if passed.getD hearth false then some 0 else ((List.range 4).find? fun d => passed.getD d false).map dieId

/-- The register block that firmware of an image publishes (R27, R403). -/
def regsOf (img : FwImage) : CxlRegs := ⟨slotAddr 0 0 0, img.version⟩

/-- The boot state after a cold reset: under the hearth die as master, the image that BOOTSRC names runs if it is authentic, or
the hearth die waits for the host; a hob die as master serves diagnostics alone (R399, R400). -/
def bootOf (passed : List Bool) (flash : FwImage) : Boot :=
  let m := electMaster passed
  let ok := flash.authentic && !Config.bootFromHost
  { Boot.reset with
    running := m == some 0 && ok
    recovery := m == some 0 && !ok
    flash := flash
    image := flash
    master := m
    passed := passed
    regs := if m == some 0 && ok then some (regsOf flash) else none }

/-- A hob die after a cold reset: admitted, or absent where it failed its self-test (R398, R402; log entry 7). -/
def dieAfterTest (passed : Bool) : Die :=
  if passed then Die.reset else { Die.reset with mode := .off, request := .off, inReset := true }

/-- The published register block as the host sees it (R398 step 5, R403). -/
def publish (s : State) : State :=
  match s.boot.regs with
  | some r => { s with out := s.out ++ [.regs r Config.hopTable] }
  | none => s

/-- PACKAGE_COLD_RESET: power-on or PERST#: each die tests itself and is admitted, or is absent and silent on its ports; the
master boots the package (R396, R398 to R400). -/
def execPackageColdReset (s : State) : Host.Outcome State Fault Refusal :=
  let passed := (List.range 5).map fun d => Config.selfTest d s.uid
  let dead := (List.range 4).filter fun d => !passed.getD d false
  .next (publish { coldState s (bootOf passed s.boot.flash) with
    uid := s.uid + 1
    dies := (List.range 4).map fun d => dieAfterTest (passed.getD d false)
    links := (dead.flatMap portsOf).foldl (fun l p => l.set p false) State.reset.links })

/-- RECOVERY_MAILBOX_LOAD: an authentic image loaded by the waiting hearth die's host runs, and publishes its register block
(R398, R400). -/
def execRecoveryMailboxLoad (img : FwImage) (s : State) : Host.Outcome State Fault Refusal :=
  if s.boot.powered && s.boot.recovery && img.authentic then
    .next (publish { s with boot :=
      { s.boot with running := true, recovery := false, image := img, regs := some (regsOf img) } })
  else .next s

/-- PLDM_FIRMWARE_UPDATE: the flash holds the new image for the next cold reset (R400). -/
def execPldmFirmwareUpdate (img : FwImage) (s : State) : Host.Outcome State Fault Refusal :=
  if hostAlive s then .next { s with boot := { s.boot with flash := img } } else .next (diagnose s)

/-- PLDM_MONITORING: sensor 16 × die + rail is that energy counter, every other one a free value (R403; log entry 4). -/
def execPldmMonitoring (sensor : Nat) (s : State) : Host.Outcome State Fault Refusal :=
  if !hostAlive s then .next (diagnose s)
  else if sensor < 80 && (sensor % 16 < 4 || sensor % 16 == 15) then
    .next (answer s 1 sensor (energyOf s (sensor / 16) (sensor % 16)).toNat)
  else .next (answer { s with uid := s.uid + 1 } 1 sensor (Config.answer sensor s.uid))

/-- An SPDM request is answered: its number as the item, the contents a free value (R403; log entry 4). -/
def spdm (s : State) (item : Nat) : State := answer { s with uid := s.uid + 1 } 0 item (Config.answer item s.uid)

/-- The answer to an SPDM request that comes out of order: an error (item 0x7F). -/
def spdmError (s : State) : State := answer s 0 0x7F 0

/-- GET_VERSION: a new session of requests begins (R403). -/
def execGetVersion (s : State) : Host.Outcome State Fault Refusal :=
  if !hostAlive s then .next (diagnose s)
  else .next (spdm { s with boot := { s.boot with spdmVersion := true, spdmCaps := false, spdmAlgs := false } } 0x84)

/-- GET_CAPABILITIES (R403). -/
def execGetCapabilities (s : State) : Host.Outcome State Fault Refusal :=
  if !hostAlive s then .next (diagnose s)
  else if s.boot.spdmVersion then .next (spdm { s with boot := { s.boot with spdmCaps := true, spdmAlgs := false } } 0xE1)
  else .next (spdmError s)

/-- NEGOTIATE_ALGORITHMS: ECDSA P-384 and SHA-384 alone are supported (R403). -/
def execNegotiateAlgorithms (ecdsaP384 sha384 : Bool) (s : State) : Host.Outcome State Fault Refusal :=
  if !hostAlive s then .next (diagnose s)
  else if s.boot.spdmCaps && ecdsaP384 && sha384 then .next (spdm { s with boot := { s.boot with spdmAlgs := true } } 0xE3)
  else .next (spdmError s)

/-- A request that needs negotiated algorithms. -/
def afterAlgs (s : State) (item : Nat) : State :=
  if !hostAlive s then diagnose s else if s.boot.spdmAlgs then spdm s item else spdmError s

/-- GET_DIGESTS (R403). -/
def execGetDigests (s : State) : Host.Outcome State Fault Refusal := .next (afterAlgs s 0x81)

/-- GET_CERTIFICATE (R403). -/
def execGetCertificate (_slot _offset _len : Nat) (s : State) : Host.Outcome State Fault Refusal := .next (afterAlgs s 0x82)

/-- CHALLENGE (R403). -/
def execChallenge (_nonce : Nat) (s : State) : Host.Outcome State Fault Refusal := .next (afterAlgs s 0x83)

/-- GET_MEASUREMENTS of ROM, fuses and firmware (R403). -/
def execGetMeasurements (_index : Nat) (s : State) : Host.Outcome State Fault Refusal := .next (afterAlgs s 0xE0)

/-! ## Errors (R217, R369, R371) -/

/-- The poison of a line with an error in the sector of address `p`. -/
def struck (b : BitVec 2) (p : Nat) : BitVec 2 := b ||| ((1 : BitVec 2) <<< (p % 128 / 64))

/-- UNCORRECTABLE_ERROR: poison is set where the error struck, behind the atomics that hold a line of memory (R217, R230). -/
def execUncorrectableError (site : ErrSite) (s : State) : Host.Outcome State Fault Refusal :=
  match site with
  | .sector pa =>
    if !populated pa then .next s
    else .next (if lineHeld s (lineOf (plainPa pa)) then holdInput s else setPoison s (plainPa pa) true)
  | .l1 c pa =>
    let p := plainPa pa
    .next (modCore s c fun x => { x with l1 := edit x.l1 (lineOf p) fun l => { l with poison := struck l.poison p } })
  | .copy d pa =>
    let p := plainPa pa
    .next (modDie s d fun x => { x with copies := edit x.copies (lineOf p) fun l => (l.1, struck l.2 p) })
  | .decoded d pa =>
    let p := plainPa pa
    .next (modDie s d fun x => { x with decoded := edit x.decoded (lineOf p) fun l => (l.1, struck l.2 p) })
  | .pkg pa =>
    let p := plainPa pa
    .next { s with pkgCache := edit s.pkgCache (lineOf p) fun b => struck b p }
  | .scratch wk off => .next (modWg s wk fun w => { w with scratchBad := insertNat w.scratchBad (off / 4 * 4) })
  | .core _ | .die _ => .next s

/-- A core's correctable-error count rises (R369). -/
def countCore (s : State) (c : Nat) : State := bump s c 9 1

/-- A die's correctable-error count rises (R371). -/
def countDie (s : State) (d : Nat) : State := modDie s d (Die.count · 2 1)

/-- CORRECTABLE_ERROR: corrected, and counted by the core or the die (R217, R369, R371). -/
def execCorrectableError (site : ErrSite) (s : State) : Host.Outcome State Fault Refusal :=
  match site with
  | .sector pa => if kindAt (plainPa pa) = .hbm then .next (countDie s (bitsOf pa 37 2)) else .next s
  | .l1 c _ | .core c => .next (countCore s c)
  | .scratch wk off => match find s.wgs wk with
    | some w => .next (countCore s ((w.cores.find? fun c => c % 4 == bitsOf off 20 2).getD (w.cores.headD 0)))
    | none => .next s
  | .copy d _ | .decoded d _ | .die d => .next (countDie s d)
  | .pkg _ => .next s

/-! ## The host (R206, R238) -/

/-- A line of the device as the host's CXL.mem access gets it: from its home through the package cache, a view's decoded; the
launch window is in no cache, and the host's own memory is not reached so (R203, R205, R213, R238). -/
def hostLine (s : State) (line : Nat) : (Line × BitVec 2) × State :=
  if kindAt line = .host then (homeLine s line, s)
  else
    let (l, s) := serveLine s (homeOf s line hearth) line false
    if copyAble line 0 then viaPkgCache s line l else (l, s)

/-- The lines of an access, in order. -/
def hostLines (s : State) : List Nat → KMap (Line × BitVec 2) × State
  | [] => ([], s)
  | k :: ks =>
    let (l, s) := hostLine s k
    let (m, s) := hostLines s ks
    (put m k l, s)

/-- The byte of a physical address among lines read, with its poison. -/
def hostByte (m : KMap (Line × BitVec 2)) (pa : Nat) : Byte × Bool :=
  let p := plainPa pa
  let l := get m (lineOf p) (0, 0)
  (BitVec.ofNat 8 (lineGet l.1 (p % 128) 1), l.2.getLsbD (p % 128 / 64))

/-- The home of a byte serves it (R21, R406). -/
def hostReach (s : State) (pa : Nat) : Bool := dieUp s (homeOf s (plainPa pa) hearth)

/-- The host's access to a home that serves nothing receives an error reply (R21, R406). -/
def hostFails (s : State) (pa : Nat) (write : Bool) : State := { s with out := s.out ++ [.hostError pa write] }

/-- HOST_MEM_WRITE: a host's write is made at the home before it completes, behind the atomics that hold a line of it; host memory
is the host's own; a view takes none (R206, R214, R230, R238). -/
def execHostMemWrite (pa : Nat) (bs : List Byte) (s : State) : Host.Outcome State Fault Refusal :=
  let at_ := (List.range bs.length).map (pa + ·)
  if !hostAlive s || !(at_.all fun a => populated a && kindAt (plainPa a) != .view) then .next s
  else if !(at_.all (hostReach s)) then .next (hostFails s pa true)
  else if at_.any fun a => lineHeld s (lineOf (plainPa a)) then .next (holdInput s)
  else .next (homeBytes s pa bs)

/-- HOST_MEM_READ: served at the package cache or the home slice (R238). -/
def execHostMemRead (pa n : Nat) (s : State) : Host.Outcome State Fault Refusal :=
  let at_ := (List.range n).map (pa + ·)
  if !hostAlive s || !(at_.all populated) then .next s
  else if !(at_.all (hostReach s)) then .next (hostFails s pa false)
  else
    let (m, s) := hostLines s (at_.foldl (fun r a => insertNat r (lineOf (plainPa a))) [])
    let bs := at_.map (hostByte m)
    .next { s with out := s.out ++ [.hostRead pa (bs.map Prod.fst) (bs.any Prod.snd)] }

/-- CXL_CACHE_HOST_SNOOP: the host snoops a line of its memory; an invalidation takes the device's copies, behind the atomics that
hold the line and behind a miss that is outstanding at a die (R230, R236, R238). No L1 is touched. -/
def execCxlCacheHostSnoop (line : Nat) (inval : Bool) (s : State) : Host.Outcome State Fault Refusal :=
  let k := lineOf line
  if !hostAlive s || kindAt k != .host then .next s
  else if inval && lineHeld s k then .next (holdInput s)
  else
    let l := homeLine s k
    let s : State := { s with out := s.out ++ [.hostRead k ((leBytes 128 l.1.toNat)) (l.2 != 0)] }
    if !inval then .next s
    else
      let behind := (List.range 4).filter fun d => missOut s d k
      let drop : Die × Nat → Die := fun e =>
        if behind.contains e.2 then e.1 else { e.1 with copies := e.1.copies.filter fun c => c.1 != k }
      .next { s with
        dies := s.dies.zipIdx.map drop
        pkgCache := del s.pkgCache k
        probes := s.probes ++ behind.map fun d => ⟨d, k, none⟩ }

/-! ## The event queue (R288) -/

/-- EVENT_RECORD_OFFER: every 1 µs a die offers its oldest held record to the event queue, which takes it if it has room, with
the lost count; the records of a lock cycle enter together (R257, R287, R288). -/
def execEventRecordOffer (d : Nat) (s : State) : Host.Outcome State Fault Refusal :=
  match (die s d).holding with
  | [] => .next s
  | r :: rest =>
    let n := if r.type = 5 then min (r.ncyc - 1) rest.length else 0
    if s.time.toNat < (die s d).offered + 1000 then .next s
    else
      let s := modDie s d fun x => { x with offered := s.time.toNat }
      if eventRoom s ≤ n then .next s
      else .next (modDie (deliverRecords s d (r :: rest.take n)) d fun x => { x with holding := rest.drop n })

/-- Firmware has taken a record with these: its own number, or for a dropped one a record of its die that was delivered after the
drop with a lost count (R288, R389). -/
def Untaken.seen (rs : List Record) (d : Nat) : Untaken → Bool
  | .held n => rs.any fun r => r.uid == n
  | .dropped n => rs.any fun r => r.die == dieId d && r.lost != 0 && n < r.sent

/-- What is left to take once firmware has taken the records `rs`. -/
def stillUntaken (rs : List Record) (d : Nat) (u : Option Untaken) : Option Untaken := u.filter fun u => !u.seen rs d

/-- A fault due, likewise: the park that waits for its record to be taken (R381). -/
def dueSeen (rs : List Record) (d : Nat) (e : Option (FaultCode × Option Untaken)) : Option (FaultCode × Option Untaken) :=
  e.map fun e => (e.1, stillUntaken rs d e.2)

/-- A strand after the records `rs` have been taken (R288, R389). -/
def Strand.seen (rs : List Record) (d : Nat) (t : Strand) : Strand :=
  { t with record := stillUntaken rs d t.record, due := dueSeen rs d t.due }

/-- EVENT_QUEUE_TAKE: the oldest records are taken, and the hearth die's waiting ones move up (R288). -/
def execEventQueueTake (n : Nat) (s : State) : Host.Outcome State Fault Refusal :=
  if !hostAlive s then .next s
  else
    let rs := s.events.take n
    let room := 4096 - (s.events.drop n).length
    .next { s with
      out := s.out ++ [.records (rs.map Record.bytes)]
      events := s.events.drop n ++ s.dispRecs.take room
      dispRecs := s.dispRecs.drop room
      strands := s.strands.map fun e => (e.1, e.2.seen rs (dieOf (coreOf e.1)))
      groups := mapVals s.groups fun g =>
        { g with parked := g.parked.map fun p => { p with due := dueSeen rs (dieOf g.core) p.due } }
      wgs := mapVals s.wgs fun w =>
        { w with saved := w.saved.map fun v => { v with strands := v.strands.map fun t => t.seen rs w.die } } }

end Sys2Proof.Machine
end

