-- ==== Sys2Proof/Machine/Dispatch.lean ====
section
/-! DEFINITION. One arm per instruction and event: each calls its meaning. -/

namespace Sys2Proof.Machine

def exec (i : Instr) (s : State) : Host.Outcome State Fault Refusal :=
  match i with
  | .nop w => Sys2Proof.Machine.execNop w s
  | .mov w => Sys2Proof.Machine.execMov w s
  | .const shift w => Sys2Proof.Machine.execConst shift w s
  | .consth w => Sys2Proof.Machine.execConsth w s
  | .steer w => Sys2Proof.Machine.execSteer w s
  | .merge w => Sys2Proof.Machine.execMerge w s
  | .select w => Sys2Proof.Machine.execSelect w s
  | .nullify w => Sys2Proof.Machine.execNullify w s
  | .exit w => Sys2Proof.Machine.execExit w s
  | .call w => Sys2Proof.Machine.execCall w s
  | .ret w => Sys2Proof.Machine.execRet w s
  | .quit w => Sys2Proof.Machine.execQuit w s
  | .idx w => Sys2Proof.Machine.execIdx w s
  | .spr w => Sys2Proof.Machine.execSpr w s
  | .add w => Sys2Proof.Machine.execAdd w s
  | .sub w => Sys2Proof.Machine.execSub w s
  | .adds w => Sys2Proof.Machine.execAdds w s
  | .subs w => Sys2Proof.Machine.execSubs w s
  | .addc w => Sys2Proof.Machine.execAddc w s
  | .subb w => Sys2Proof.Machine.execSubb w s
  | .mul w => Sys2Proof.Machine.execMul w s
  | .mulh w => Sys2Proof.Machine.execMulh w s
  | .mad w => Sys2Proof.Machine.execMad w s
  | .min w => Sys2Proof.Machine.execMin w s
  | .max w => Sys2Proof.Machine.execMax w s
  | .abs w => Sys2Proof.Machine.execAbs w s
  | .neg w => Sys2Proof.Machine.execNeg w s
  | .and w => Sys2Proof.Machine.execAnd w s
  | .or w => Sys2Proof.Machine.execOr w s
  | .xor w => Sys2Proof.Machine.execXor w s
  | .andn w => Sys2Proof.Machine.execAndn w s
  | .not w => Sys2Proof.Machine.execNot w s
  | .shl w => Sys2Proof.Machine.execShl w s
  | .shr w => Sys2Proof.Machine.execShr w s
  | .sar w => Sys2Proof.Machine.execSar w s
  | .rot w => Sys2Proof.Machine.execRot w s
  | .bfx w => Sys2Proof.Machine.execBfx w s
  | .bfi w => Sys2Proof.Machine.execBfi w s
  | .popc w => Sys2Proof.Machine.execPopc w s
  | .clz w => Sys2Proof.Machine.execClz w s
  | .ctz w => Sys2Proof.Machine.execCtz w s
  | .brev w => Sys2Proof.Machine.execBrev w s
  | .bswap w => Sys2Proof.Machine.execBswap w s
  | .cmp c w => Sys2Proof.Machine.execCmp c w s
  | .clmul w => Sys2Proof.Machine.execClmul w s
  | .clmulh w => Sys2Proof.Machine.execClmulh w s
  | .lea scale w => Sys2Proof.Machine.execLea scale w s
  | .widf field w => Sys2Proof.Machine.execWidf field w s
  | .fadd rm w => Sys2Proof.Machine.execFadd rm w s
  | .fsub rm w => Sys2Proof.Machine.execFsub rm w s
  | .fmul rm w => Sys2Proof.Machine.execFmul rm w s
  | .ffma rm w => Sys2Proof.Machine.execFfma rm w s
  | .fmin w => Sys2Proof.Machine.execFmin w s
  | .fmax w => Sys2Proof.Machine.execFmax w s
  | .fabs w => Sys2Proof.Machine.execFabs w s
  | .fneg w => Sys2Proof.Machine.execFneg w s
  | .fcmp c w => Sys2Proof.Machine.execFcmp c w s
  | .frcp w => Sys2Proof.Machine.execFrcp w s
  | .frsq w => Sys2Proof.Machine.execFrsq w s
  | .fexp2 w => Sys2Proof.Machine.execFexp2 w s
  | .flog2 w => Sys2Proof.Machine.execFlog2 w s
  | .fsinp w => Sys2Proof.Machine.execFsinp w s
  | .fcosp w => Sys2Proof.Machine.execFcosp w s
  | .fsqrt rm w => Sys2Proof.Machine.execFsqrt rm w s
  | .frnd rm w => Sys2Proof.Machine.execFrnd rm w s
  | .fcls w => Sys2Proof.Machine.execFcls w s
  | .fscl rm w => Sys2Proof.Machine.execFscl rm w s
  | .fdot2 rm w => Sys2Proof.Machine.execFdot2 rm w s
  | .cvt src w => Sys2Proof.Machine.execCvt src w s
  | .pack rm w => Sys2Proof.Machine.execPack rm w s
  | .unpk w => Sys2Proof.Machine.execUnpk w s
  | .lqd w => Sys2Proof.Machine.execLqd w s
  | .sclx w => Sys2Proof.Machine.execSclx w s
  | .shfl m w => Sys2Proof.Machine.execShfl m w s
  | .vote m w => Sys2Proof.Machine.execVote m w s
  | .redux m w => Sys2Proof.Machine.execRedux m w s
  | .elect hi w => Sys2Proof.Machine.execElect hi w s
  | .xshfl w => Sys2Proof.Machine.execXshfl w s
  | .mask keep w => Sys2Proof.Machine.execMask keep w s
  | .regang w => Sys2Proof.Machine.execRegang w s
  | .bar n w => Sys2Proof.Machine.execBar n w s
  | .arrv n w => Sys2Proof.Machine.execArrv n w s
  | .ld w => Sys2Proof.Machine.execLd w s
  | .lds w => Sys2Proof.Machine.execLds w s
  | .ldc w => Sys2Proof.Machine.execLdc w s
  | .st w => Sys2Proof.Machine.execSt w s
  | .sts w => Sys2Proof.Machine.execSts w s
  | .pref l2 w => Sys2Proof.Machine.execPref l2 w s
  | .aadd w => Sys2Proof.Machine.execAadd w s
  | .afadd w => Sys2Proof.Machine.execAfadd w s
  | .amin w => Sys2Proof.Machine.execAmin w s
  | .amax w => Sys2Proof.Machine.execAmax w s
  | .aand w => Sys2Proof.Machine.execAand w s
  | .aor w => Sys2Proof.Machine.execAor w s
  | .axor w => Sys2Proof.Machine.execAxor w s
  | .axchg w => Sys2Proof.Machine.execAxchg w s
  | .acas w => Sys2Proof.Machine.execAcas w s
  | .fence sc w => Sys2Proof.Machine.execFence sc w s
  | .flsig add w => Sys2Proof.Machine.execFlsig add w s
  | .win w => Sys2Proof.Machine.execWin w s
  | .invl all w => Sys2Proof.Machine.execInvl all w s
  | .wbl w => Sys2Proof.Machine.execWbl w s
  | .llock w => Sys2Proof.Machine.execLlock w s
  | .ltry w => Sys2Proof.Machine.execLtry w s
  | .lunlk w => Sys2Proof.Machine.execLunlk w s
  | .oclaim w => Sys2Proof.Machine.execOclaim w s
  | .orlse w => Sys2Proof.Machine.execOrlse w s
  | .ofill w => Sys2Proof.Machine.execOfill w s
  | .mma mix w => Sys2Proof.Machine.execMma mix w s
  | .accz w => Sys2Proof.Machine.execAccz w s
  | .accfl add w => Sys2Proof.Machine.execAccfl add w s
  | .accrd w => Sys2Proof.Machine.execAccrd w s
  | .mstat w => Sys2Proof.Machine.execMstat w s
  | .qcfgBind w => Sys2Proof.Machine.execQcfgBind w s
  | .qcfgDeq w => Sys2Proof.Machine.execQcfgDeq w s
  | .qcfgUndeq w => Sys2Proof.Machine.execQcfgUndeq w s
  | .qlen w => Sys2Proof.Machine.execQlen w s
  | .cpyc w => Sys2Proof.Machine.execCpyc w s
  | .gthc w => Sys2Proof.Machine.execGthc w s
  | .colc w => Sys2Proof.Machine.execColc w s
  | .send w => Sys2Proof.Machine.execSend w s
  | .dqpush w => Sys2Proof.Machine.execDqpush w s
  | .dqpop w => Sys2Proof.Machine.execDqpop w s
  | .dqsteal w => Sys2Proof.Machine.execDqsteal w s
  | .lnch w => Sys2Proof.Machine.execLnch w s
  | .signl w => Sys2Proof.Machine.execSignl w s
  | .xmatchOpen w => Sys2Proof.Machine.execXmatchOpen w s
  | .xmatchRule w => Sys2Proof.Machine.execXmatchRule w s
  | .xmatchJoin w => Sys2Proof.Machine.execXmatchJoin w s
  | .xmatchStart w => Sys2Proof.Machine.execXmatchStart w s
  | .xclr w => Sys2Proof.Machine.execXclr w s
  | .xinj w => Sys2Proof.Machine.execXinj w s
  | .xeject w => Sys2Proof.Machine.execXeject w s
  | .xcnt w => Sys2Proof.Machine.execXcnt w s
  | .xsweep w => Sys2Proof.Machine.execXsweep w s
  | .xstat w => Sys2Proof.Machine.execXstat w s
  | .ipatch w => Sys2Proof.Machine.execIpatch w s
  | .iset w => Sys2Proof.Machine.execIset w s
  | .iget w => Sys2Proof.Machine.execIget w s
  | .istep w => Sys2Proof.Machine.execIstep w s
  | .irun w => Sys2Proof.Machine.execIrun w s
  | .ihalt w => Sys2Proof.Machine.execIhalt w s
  | .isave w => Sys2Proof.Machine.execIsave w s
  | .irest w => Sys2Proof.Machine.execIrest w s
  | .iout w => Sys2Proof.Machine.execIout w s
  | .rtcfg w => Sys2Proof.Machine.execRtcfg w s
  | .rtswap w => Sys2Proof.Machine.execRtswap w s
  | .rtsend w => Sys2Proof.Machine.execRtsend w s
  | .qsc w => Sys2Proof.Machine.execQsc w s
  | .evcfg w => Sys2Proof.Machine.execEvcfg w s
  | .evarmArm w => Sys2Proof.Machine.execEvarmArm w s
  | .evarmWait w => Sys2Proof.Machine.execEvarmWait w s
  | .evfire w => Sys2Proof.Machine.execEvfire w s
  | .cntrd w => Sys2Proof.Machine.execCntrd w s
  | .cntset w => Sys2Proof.Machine.execCntset w s
  | .time w => Sys2Proof.Machine.execTime w s
  | .enrd w => Sys2Proof.Machine.execEnrd w s
  | .enrsv w => Sys2Proof.Machine.execEnrsv w s
  | .trap w => Sys2Proof.Machine.execTrap w s
  | .brk w => Sys2Proof.Machine.execBrk w s
  | .hcall w => Sys2Proof.Machine.execHcall w s
  | .tret w => Sys2Proof.Machine.execTret w s
  | .hostMemWrite pa bytes => Sys2Proof.Machine.execHostMemWrite pa bytes s
  | .hostMemRead pa n => Sys2Proof.Machine.execHostMemRead pa n s
  | .launchParse q => Sys2Proof.Machine.execLaunchParse q s
  | .launchDispatch => Sys2Proof.Machine.execLaunchDispatch s
  | .workgroupPlace die => Sys2Proof.Machine.execWorkgroupPlace die s
  | .damperWindowStart => Sys2Proof.Machine.execDamperWindowStart s
  | .blockFire core entry => Sys2Proof.Machine.execBlockFire core entry s
  | .blockCommit core entry => Sys2Proof.Machine.execBlockCommit core entry s
  | .launchComplete launch => Sys2Proof.Machine.execLaunchComplete launch s
  | .faultTake core entry => Sys2Proof.Machine.execFaultTake core entry s
  | .blockStarvedDrain core entry => Sys2Proof.Machine.execBlockStarvedDrain core entry s
  | .collectiveComplete id => Sys2Proof.Machine.execCollectiveComplete id s
  | .collectiveTimeout id => Sys2Proof.Machine.execCollectiveTimeout id s
  | .xshflTimeout die id => Sys2Proof.Machine.execXshflTimeout die id s
  | .regangComplete group label => Sys2Proof.Machine.execRegangComplete group label s
  | .regangTimeout group label => Sys2Proof.Machine.execRegangTimeout group label s
  | .barTimeout wg bar => Sys2Proof.Machine.execBarTimeout wg bar s
  | .timeSliceExpiry wg => Sys2Proof.Machine.execTimeSliceExpiry wg s
  | .preempt wg => Sys2Proof.Machine.execPreempt wg s
  | .workgroupResume wg => Sys2Proof.Machine.execWorkgroupResume wg s
  | .watchdog wg => Sys2Proof.Machine.execWatchdog wg s
  | .pageWalk core ctx va => Sys2Proof.Machine.execPageWalk core ctx va s
  | .homeStoreApply id => Sys2Proof.Machine.execHomeStoreApply id s
  | .homeLineRequest id => Sys2Proof.Machine.execHomeLineRequest id s
  | .probeAct die line => Sys2Proof.Machine.execProbeAct die line s
  | .atomicHomePerform id => Sys2Proof.Machine.execAtomicHomePerform id s
  | .nearCacheMerge id => Sys2Proof.Machine.execNearCacheMerge id s
  | .flsigToken id die => Sys2Proof.Machine.execFlsigToken id die s
  | .lockRequestArrival id => Sys2Proof.Machine.execLockRequestArrival id s
  | .lockResend id => Sys2Proof.Machine.execLockResend id s
  | .lockReleaseArrival id => Sys2Proof.Machine.execLockReleaseArrival id s
  | .holdWindowExpiry line => Sys2Proof.Machine.execHoldWindowExpiry line s
  | .lockTimeout id => Sys2Proof.Machine.execLockTimeout id s
  | .copyJobStart core => Sys2Proof.Machine.execCopyJobStart core s
  | .copyJobComplete core id => Sys2Proof.Machine.execCopyJobComplete core id s
  | .engineRecordDrain core => Sys2Proof.Machine.execEngineRecordDrain core s
  | .linkPortCombine id => Sys2Proof.Machine.execLinkPortCombine id s
  | .linkPortWaitExpiry id => Sys2Proof.Machine.execLinkPortWaitExpiry id s
  | .matrixCommandStart core id => Sys2Proof.Machine.execMatrixCommandStart core id s
  | .matrixCommandComplete core id => Sys2Proof.Machine.execMatrixCommandComplete core id s
  | .receiveArrival id => Sys2Proof.Machine.execReceiveArrival id s
  | .eventRecordOffer die => Sys2Proof.Machine.execEventRecordOffer die s
  | .ringStart die ring => Sys2Proof.Machine.execRingStart die ring s
  | .ringTickEnd die ring => Sys2Proof.Machine.execRingTickEnd die ring s
  | .taskSpawn die ring pos pair => Sys2Proof.Machine.execTaskSpawn die ring pos pair s
  | .taskPairFree die ring pos pair => Sys2Proof.Machine.execTaskPairFree die ring pos pair s
  | .ringLapLimit die ring rule => Sys2Proof.Machine.execRingLapLimit die ring rule s
  | .sweepFetchComplete die ring pair => Sys2Proof.Machine.execSweepFetchComplete die ring pair s
  | .ringCompletionRecord die ring => Sys2Proof.Machine.execRingCompletionRecord die ring s
  | .taskGroupReturn die ring pos => Sys2Proof.Machine.execTaskGroupReturn die ring pos s
  | .ringIdle die ring => Sys2Proof.Machine.execRingIdle die ring s
  | .integratorStep core doms => Sys2Proof.Machine.execIntegratorStep core doms s
  | .patchJob core id => Sys2Proof.Machine.execPatchJob core id s
  | .isaveJob core id => Sys2Proof.Machine.execIsaveJob core id s
  | .irestJob core id => Sys2Proof.Machine.execIrestJob core id s
  | .redTokenArrival id => Sys2Proof.Machine.execRedTokenArrival id s
  | .cellServeKey die cell => Sys2Proof.Machine.execCellServeKey die cell s
  | .cellTimeout die cell => Sys2Proof.Machine.execCellTimeout die cell s
  | .sinkWrite id => Sys2Proof.Machine.execSinkWrite id s
  | .configTokenApply die cell inp => Sys2Proof.Machine.execConfigTokenApply die cell inp s
  | .rtcfgJob core id => Sys2Proof.Machine.execRtcfgJob core id s
  | .drainTokenPass die cell => Sys2Proof.Machine.execDrainTokenPass die cell s
  | .regionSwap die id => Sys2Proof.Machine.execRegionSwap die id s
  | .crossbarThreshold core => Sys2Proof.Machine.execCrossbarThreshold core s
  | .termFire core => Sys2Proof.Machine.execTermFire core s
  | .evarmWaitTimeout core entry index => Sys2Proof.Machine.execEvarmWaitTimeout core entry index s
  | .crossbarTimerExpiry core timer => Sys2Proof.Machine.execCrossbarTimerExpiry core timer s
  | .energySample => Sys2Proof.Machine.execEnergySample s
  | .hcallService slot stop => Sys2Proof.Machine.execHcallService slot stop s
  | .dieState die mode => Sys2Proof.Machine.execDieState die mode s
  | .warmReset die kill => Sys2Proof.Machine.execWarmReset die kill s
  | .setBudget b => Sys2Proof.Machine.execSetBudget b s
  | .queueDesc q enable prio slice ctx next => Sys2Proof.Machine.execQueueDesc q enable prio slice ctx next s
  | .shootdown ctx lo hi => Sys2Proof.Machine.execShootdown ctx lo hi s
  | .strandResume core entry => Sys2Proof.Machine.execStrandResume core entry s
  | .strandRedirect core entry dest => Sys2Proof.Machine.execStrandRedirect core entry dest s
  | .contextKill ctx => Sys2Proof.Machine.execContextKill ctx s
  | .timeouts t => Sys2Proof.Machine.execTimeouts t s
  | .heatWindow die pair base size => Sys2Proof.Machine.execHeatWindow die pair base size s
  | .packageColdReset => Sys2Proof.Machine.execPackageColdReset s
  | .recoveryMailboxLoad img => Sys2Proof.Machine.execRecoveryMailboxLoad img s
  | .pldmFirmwareUpdate img => Sys2Proof.Machine.execPldmFirmwareUpdate img s
  | .pldmMonitoring sensor => Sys2Proof.Machine.execPldmMonitoring sensor s
  | .getVersion => Sys2Proof.Machine.execGetVersion s
  | .getCapabilities => Sys2Proof.Machine.execGetCapabilities s
  | .negotiateAlgorithms ecdsaP384 sha384 => Sys2Proof.Machine.execNegotiateAlgorithms ecdsaP384 sha384 s
  | .getDigests => Sys2Proof.Machine.execGetDigests s
  | .getCertificate slot offset len => Sys2Proof.Machine.execGetCertificate slot offset len s
  | .challenge nonce => Sys2Proof.Machine.execChallenge nonce s
  | .getMeasurements index => Sys2Proof.Machine.execGetMeasurements index s
  | .linkFlitCrcFail port pa => Sys2Proof.Machine.execLinkFlitCrcFail port pa s
  | .linkDown port => Sys2Proof.Machine.execLinkDown port s
  | .dieSplit die => Sys2Proof.Machine.execDieSplit die s
  | .uncorrectableError site => Sys2Proof.Machine.execUncorrectableError site s
  | .thermalThrottle die => Sys2Proof.Machine.execThermalThrottle die s
  | .thermalRecover die => Sys2Proof.Machine.execThermalRecover die s
  | .thermalTrip => Sys2Proof.Machine.execThermalTrip s
  | .eventQueueTake n => Sys2Proof.Machine.execEventQueueTake n s
  | .cxlCacheHostSnoop line inval => Sys2Proof.Machine.execCxlCacheHostSnoop line inval s
  | .correctableError site => Sys2Proof.Machine.execCorrectableError site s
  | .formatWindowWrite n val => Sys2Proof.Machine.execFormatWindowWrite n val s
  | .translationRootWrite ctx root => Sys2Proof.Machine.execTranslationRootWrite ctx root s

end Sys2Proof.Machine
end

