-- ==== Sys2Proof/Machine/Sched.lean ====
section
/-! DEFINITION. What may happen next (R14, R57, R132, R236; log entry 1), and the machine about to fire one instruction. An
action that is not enabled changes nothing, so the lists below may name more than is enabled. -/

namespace Sys2Proof.Machine

/-! ## What may happen -/

/-- The instructions of a block in flight that have their operands and have not fired (R131). -/
def turnsOf (b : Blk) : List Nat := (List.range b.words.length).filter fun i => !b.fired.has i && delivered b i

/-- Events of a strand: fire, commit, fault, drain, its instructions and its waits. -/
def strandActs (e : Nat × Strand) : List Act :=
  let c := coreOf e.1
  let n := e.1 % 256
  [Act.event (.blockFire c n), Act.event (.blockCommit c n), Act.event (.faultTake c n),
    Act.event (.blockStarvedDrain c n)].append
    (e.2.blocks.flatMap fun b =>
      (((List.range b.words.length).filter fun i => (turnsOf b).contains i || b.owed.has i).map fun i => Act.insn c n b.uid i).append
        (b.waits.map fun w => Act.event (.evarmWaitTimeout c n w.1)))

/-- Events of a core's engines. -/
def coreActs (e : Nat × Core) : List Instr :=
  let c := e.1
  List.flatten
    [[Instr.copyJobStart c, Instr.engineRecordDrain c],
      e.2.jobs.flatMap fun j => [Instr.copyJobComplete c j.uid, Instr.patchJob c j.uid, Instr.isaveJob c j.uid,
        Instr.irestJob c j.uid, Instr.rtcfgJob c j.uid],
      e.2.mq.flatMap fun m => [Instr.matrixCommandStart c m.uid, Instr.matrixCommandComplete c m.uid]]

/-- Events of a ring. -/
def ringActs (e : Nat × Ring) : List Instr :=
  let d := e.1 / 3
  let r := e.1 % 3
  List.flatten
    [[Instr.ringCompletionRecord d r, Instr.ringIdle d r, Instr.sweepFetchComplete d r 0, Instr.sweepFetchComplete d r 1],
      (List.range 16).flatMap fun m => [Instr.taskSpawn d r m 0, Instr.taskSpawn d r m 1, Instr.taskPairFree d r m 0,
        Instr.taskPairFree d r m 1, Instr.taskGroupReturn d r m]]

/-- Events of a die: its distributor, held records, fabric, exchange table, a warm reset or a change to OFF under way. -/
def dieActs (d : Nat) (x : Die) : List Instr :=
  List.flatten
    [[Instr.workgroupPlace d, Instr.eventRecordOffer d],
      (x.resetting.map fun k => Instr.warmReset d k).toList,
      if x.closing then [Instr.dieState d .off] else [],
      x.offers.map fun o => Instr.xshflTimeout d o.uid,
      x.swaps.map fun w => Instr.regionSwap d w.uid,
      x.cells.flatMap fun c => [Instr.cellServeKey d c.1, Instr.cellTimeout d c.1, Instr.drainTokenPass d c.1],
      x.cells.flatMap fun c => (List.range 4).map fun i => Instr.configTokenApply d c.1 i]

/-- Events of a workgroup. -/
def wgActs (wk : Nat) : List Instr :=
  List.append [Instr.timeSliceExpiry wk, Instr.preempt wk, Instr.workgroupResume wk, Instr.watchdog wk]
    ((List.range 15).map fun n => Instr.barTimeout wk (n + 1))

/-- The labels at which lanes of a group wait (R197). -/
def labelsOf (s : State) (gk : Nat) (g : Group) : List Word :=
  List.append
    ((strandsOf s gk).filterMap fun e => match e.2.st with
      | .label _ _ => some e.2.pc
      | _ => none)
    (g.parked.filterMap fun p => if p.regang.isSome then p.succ else none)

/-- Events of the memory system. -/
def memoryActs (s : State) : List Instr :=
  List.flatten
    [s.posted.map fun p => Instr.homeStoreApply p.uid,
      s.reqs.flatMap fun r => [Instr.homeLineRequest r.uid, Instr.probeAct r.die r.line],
      s.probes.map fun p => Instr.probeAct p.die p.line,
      s.atoms.map fun a => Instr.atomicHomePerform a.uid,
      s.merges.flatMap fun m => [Instr.nearCacheMerge m.uid, Instr.linkPortCombine m.uid],
      s.portLines.map fun p => Instr.linkPortWaitExpiry p.uid,
      s.drains.flatMap fun d => (if d.dies.isEmpty then [0] else d.dies).map fun h => Instr.flsigToken d.uid h,
      s.lockMsgs.flatMap fun m => [Instr.lockRequestArrival m.num, Instr.lockResend m.num, Instr.lockReleaseArrival m.num],
      s.locks.map fun l => Instr.holdWindowExpiry l.line,
      s.locks.flatMap fun l => l.waiters.map fun w => Instr.lockTimeout w.uid]

/-- Events of launches, calls, collectives and messages. -/
def workActs (s : State) : List Instr :=
  List.flatten
    [[Instr.launchDispatch, Instr.damperWindowStart, Instr.energySample],
      (List.range 64).map fun q => Instr.launchParse q,
      s.launches.map fun l => Instr.launchComplete l.1,
      (List.range s.mailbox.length).flatMap fun n => [Instr.hcallService n false, Instr.hcallService n true],
      s.colls.flatMap fun c => [Instr.collectiveComplete c.uid, Instr.collectiveTimeout c.uid],
      s.groups.flatMap fun g => (labelsOf s g.1 g.2).flatMap fun a => [Instr.regangComplete g.1 a, Instr.regangTimeout g.1 a],
      s.recvMsgs.map fun m => Instr.receiveArrival m.uid,
      s.toks.flatMap fun t => [Instr.redTokenArrival t.uid, Instr.sinkWrite t.uid]]

/-- Everything that may happen without the outside. -/
def candidates (s : State) : List Act :=
  List.append (s.strands.flatMap strandActs)
    ((List.flatten [workActs s, memoryActs s, s.dies.zipIdx.flatMap fun e => dieActs e.2 e.1, s.cores.flatMap coreActs,
      s.rings.flatMap ringActs, s.wgs.flatMap fun w => wgActs w.1]).map Act.event)

/-! ## A machine about to fire one instruction -/

/-- A launch of one group that runs one block. -/
def probeLaunch : Launch :=
  { queue := 0, slot := 0, ctx := 0, tag := 0, entry := 0, cbase := 0, tbase := 0, widths := [3, 0, 0], extents := [],
    groups := 1, vregs := 1, sregs := 4, oslots := 0, scratch := 0, coop := false, cores := false, early := false,
    notify := false, args := [], energy := 0, ranges := [], waits := [], doneVa := 0, donePa := 0, doneHome := 0,
    doneInc := 0, corr := 256, dispatched := true, order := 0, granted := none, failed := none }

/-- Its workgroup, resident on core 0. -/
def probeWg (lk : Nat) : Wg :=
  { launch := lk, ctx := 0, num := 0, die := 0, cores := [0], st := .resident, leaving := false, since := 0, resTime := 0,
    barGen := [], barStart := [], broken := [], scratch := [], scratchBad := [], oslots := 0, saved := [], admitted := 0,
    stopped := false, left := 0, meter := ⟨0, 0, 0, 0⟩ }

/-- A block in flight whose instruction 0 is the word `w`, every operand slot of it holding a uniform zero over the
strand's eight lanes. -/
def probeBlk (u : Nat) (w : Word) : Blk :=
  let t := uniTok 64 (Mask.below 8) 0
  { uid := u, addr := 0, len := 32, h := ⟨1, 0, 0, 1, false, false, 0, 0, false, false, 0, 0⟩, h1 := 1, words := [w],
    writes := [], mask := Mask.below 8, time := 0, clk := 0, prio := 0, slots := [(0, t), (1, t), (2, t)], fired := 0, resolved := 0,
    waits := [], choices := [], removed := 0, raised := none, raisedAt := 0, effects := [], stores := [], results := [], wins := [],
    pages := [], pops := [], l1min := 0, owed := 0 }

/-- The state with such a launch, workgroup, group, strand and block, and the instruction's turn next. -/
def place (s : State) (w : Word) : State :=
  let u := s.uid
  { s with
    uid := u + 4
    launches := put s.launches u probeLaunch
    wgs := put s.wgs (u + 1) (probeWg u)
    groups := put s.groups (u + 2) (newGroup probeLaunch (u + 1) 0 0 0 0)
    strands := put s.strands 0 { Strand.start (u + 2) (Mask.below 8) 0 with blocks := [probeBlk (u + 3) w] }
    pick := some (.insn 0 0 (u + 3) 0) }

end Sys2Proof.Machine
end

