-- ==== Sys2Proof/Machine/Issue.lean ====
section
/-! DEFINITION. An action happens, and the next one is selected: instructions that fire at once, the picks of a partition by
priority and age, and, where the spec fixes no order, a free value (R14, R53, R57, R131 to R135, R236, R370; log entries 1
and 2). -/

namespace Sys2Proof.Machine

/-! ## An instruction's turn -/

/-- The word of instruction `i` of a block in flight, if its operands have been delivered and it has not fired (R131,
R132). -/
def readyWord (s : State) (c e u i : Nat) : Option Word := do
  let st ← find s.strands (strandKey c e)
  let b ← st.blocks.find? fun b => b.uid == u
  let w ← b.words[i]?
  if !b.fired.has i && delivered b i then some w else none

/-- The state with an instruction in focus. -/
def focusOn (s : State) (c e u i : Nat) : State := { s with focus := some ⟨c, e, u, i⟩ }

/-- The issue pipes of a partition (R11, R53). -/
inductive Pipe where
  | scalar
  | fma
  | integer
  | special
  | memory
  deriving DecidableEq, Repr

/-- The pipe that an opcode's entry names, the memory port where it names none (R53, R132, R149, R164, R185). -/
def pipeNamed (op : Nat) : Pipe :=
  if op < 0x100 || op == 0x183 then .integer
  else if 0x109 ≤ op && op ≤ 0x10F then .special
  else if op < 0x1C0 then .fma
  else if op < 0x200 then .integer
  else .memory

/-- IDX, and SPR of %lane: no token operand and a per-lane token (R132). -/
def perLane : Instr → Bool
  | .idx _ => true
  | .spr w => w.imm == some 0
  | _ => false

/-- The pipe to which an instruction of a block issues: the scalar pipe where every token operand is uniform; NOP issues to
none (R53, R132). A WIN with a per-lane operand goes to the memory port, as R53 has it for an instruction of its chapter, though
R250 runs WIN on the scalar pipe: log entry 48. -/
def pipeOf (b : Blk) (i : Nat) : Option Pipe :=
  ((b.words[i]?).bind fun w => (partsOf w).toOption).bind fun p =>
    if p.op = 0x000 then none
    else if (b.instr i).any perLane then some .integer
    else if (List.range (arityOf p)).all fun k => (get b.slots (4 * i + k) noTok).uni then some .scalar
    else some (pipeNamed p.op)

/-- An instruction that resolves in the clock in which its operand is delivered. -/
def resolvesAtOnce : Instr → Bool
  | .exit _ | .call _ | .ret _ | .quit _ | .regang _ | .bar _ _ | .arrv _ _ => true
  | _ => false

/-- An instruction acts before its pick: it has no token operand and its block has fired, or it resolves as its operand is
delivered (R131, R134, R185). -/
def atOnce (b : Blk) (i : Nat) : Bool := arityAt b i == some 0 || (b.instr i).any resolvesAtOnce

/-- The block after instruction `i` has fired: one that acts before its pick still owes it, NOP alone needs none (R53, R131, R134;
log entry 1). -/
def Blk.owe (b : Blk) (i : Nat) : Blk :=
  if atOnce b i && (pipeOf b i).isSome then { b with owed := b.owed ||| Mask.one i } else b

/-- The instruction's turn is over: INSTR counts it if it has fired, and it may owe its pick (R53, R371). -/
def leaveFocus (s : State) (c e u i : Nat) : State :=
  let t : State := { s with focus := none }
  if (findBlk s u).any fun k => k.2.fired.has i then modBlk (bump t c 4 1) (strandKey c e) u fun b => b.owe i else t

/-- The pick that instruction `i` of a block owes is taken (R53). -/
def takeOwed (s : State) (c e u i : Nat) : State :=
  modBlk s (strandKey c e) u fun b => { b with owed := b.owed &&& ~~~Mask.one i }

/-- A management request, of those that firmware serves one at a time in arrival order (R404). -/
def isRequest : Instr → Bool
  | .dieState _ _ | .warmReset _ _ | .setBudget _ | .queueDesc _ _ _ _ _ _ | .shootdown _ _ _ | .strandResume _ _
  | .strandRedirect _ _ _ | .contextKill _ | .timeouts _ | .heatWindow _ _ _ _ => true
  | _ => false

/-- The inputs with one that has to wait: a request ahead of the other requests, behind what else there is, and anything else last
(R238, R404; log entry 52). -/
def putBack (i : Instr) (l : List Instr) : List Instr :=
  if isRequest i then l.filter (fun j => !isRequest j) ++ i :: l.filter isRequest else l ++ [i]

/-- An event has happened to the state `s`; an input that is held stays with the machine. -/
def keepHeld (i : Instr) (s t : State) : State :=
  if s.asked && !t.asked then { t with inbox := putBack i t.inbox } else t

/-- An action happens: an event, the firing of an instruction of a block in flight whose operands are there, or the pick of one
that has acted before it. -/
def run (a : Act) (s : State) : Host.Outcome State Fault Refusal :=
  match a with
  | .event i =>
    match exec i s with
    | .next t => .next (keepHeld i s t)
    | .fault f => .fault f
    | .refused r => .refused r
  | .insn c e u n =>
    match readyWord s c e u n with
    | none => .next (takeOwed s c e u n)
    | some w =>
      match decodeWord w with
      | .error _ => .refused .undecoded
      | .ok i =>
        match exec i (focusOn s c e u n) with
        | .next t => .next (leaveFocus t c e u n)
        | .fault f => .fault f
        | .refused r => .refused r

/-- The action has an effect now: an instruction that must still wait leaves everything as it is. -/
def changes (s : State) (a : Act) : Bool :=
  match run a s with
  | .next t => decide (t ≠ s)
  | _ => true

/-! ## What happens in its own clock (R131, R134, R185, R303, R330, R358, R359) -/

/-- The instructions that fire at once, the lower index of a block first, so that of two faults of one clock the lower index
decides (R135). -/
def urgent (s : State) : List Act :=
  s.strands.flatMap fun e => e.2.blocks.flatMap fun b =>
    ((turnsOf b).filter (atOnce b)).map fun i => Act.insn (coreOf e.1) (e.1 % 256) b.uid i

/-- What a core's clock brings with it: the field and then the crossbar take the clock that is over, timers expire (R330, R358,
R359). -/
def clockActs (e : Nat × Core) : List Instr :=
  let c := e.1
  (if e.2.field.owner.isSome then
      [Instr.integratorStep c (e.2.field.dueSet.foldl (fun m d => m ||| ((1 : BitVec 4) <<< d)) 0)] else []) ++
    if e.2.xbar.owner.isSome then
      [Instr.crossbarThreshold c, Instr.termFire c] ++ (List.range 4).map fun n => Instr.crossbarTimerExpiry c n
    else []

/-- What a ring's clock brings with it: the start of an armed ring, the sweeps of lap limits, the end of a tick (R303, R309,
R320). -/
def tickActs (e : Nat × Ring) : List Instr :=
  let d := e.1 / 3
  let r := e.1 % 3
  if e.2.st == 2 then [Instr.ringStart d r]
  else if e.2.st == 3 then (e.2.rules.map fun n => Instr.ringLapLimit d r n.1) ++ [Instr.ringTickEnd d r]
  else []

/-- Everything that goes before the next choice and before time passes. -/
def dueActs (s : State) : List Act :=
  ((s.cores.flatMap clockActs ++ s.rings.flatMap tickActs).map Act.event) ++ urgent s

/-! ## The picks of a partition (R53) -/

/-- A ready strand as a pick sees it: its key, its level, its count of picks that passed over it, its oldest ready block and
that block's ready instructions. -/
structure Ready where
  key : Nat
  level : Nat
  passed : Nat
  blk : Nat
  turns : List Nat
  deriving DecidableEq, Repr

/-- The instructions of a block that owe a pick. -/
def owedOf (b : Blk) : List Nat := (List.range b.words.length).filter fun i => b.owed.has i

/-- The strand's part in the picks to the pipes of `q` (R53). -/
def readyOf (s : State) (q : Pipe → Bool) (key : Nat) : Option Ready := do
  let (st, p) ← placeOf s key
  st.blocks.findSome? fun b =>
    match (turnsOf b ++ owedOf b).filter fun i => (pipeOf b i).any q && changes s (.insn (coreOf key) (key % 256) b.uid i) with
    | [] => none
    | l => some ⟨key, levelOf s p.l, st.passed, b.uid, l⟩

/-- The strands of partition `n` of core `c`: those of its slots (R11, R35). -/
def partitionOf (s : State) (c n : Nat) : List Nat :=
  (s.strands.filter fun e => coreOf e.1 == c && (find s.groups e.2.group).any fun g => g.slot % 4 == n).map Prod.fst

/-- Passed over 64 times (R53). -/
def Ready.aged (r : Ready) : Bool := 64 ≤ r.passed

/-- A pick takes `a` before `b`: one passed over 64 times first, then the higher level, then the older block (R53). -/
def Ready.before (a b : Ready) : Bool :=
  (a.aged && !b.aged) ||
    (a.aged == b.aged && (b.level < a.level || (a.level == b.level && a.blk ≤ b.blk)))

/-- The strand that a pick takes of those ready for its pipe. -/
def bestOf : List Ready → Option Ready
  | [] => none
  | r :: rs => match bestOf rs with
    | none => some r
    | some x => some (if r.before x then r else x)

/-- The counts after a pick: every ready strand of the partition that was passed over counts one; one taken by its age
starts again from 0, and AGED counts (R53, R371). -/
def passOver (s : State) (c n : Nat) (r : Ready) : State :=
  let ready := (partitionOf s c n).filter fun k => (readyOf s (fun _ => true) k).isSome
  let t : State := { s with strands := s.strands.map fun e =>
    (e.1, { e.2 with passed :=
      if e.1 = r.key then (if r.aged then 0 else e.2.passed)
      else if ready.contains e.1 then e.2.passed + 1 else e.2.passed }) }
  if r.aged then bump t c 7 1 else t

/-- A pick of partition `n` of core `c` to pipe `q`, if a strand is ready for it: which ready instruction of the strand's
block goes is the free value `k` (R53; log entry 1). -/
def issue (s : State) (c n : Nat) (q : Pipe) (k : Nat) : Option State :=
  (bestOf ((partitionOf s c n).filterMap (readyOf s (· == q)))).map fun r =>
    { passOver s c n r with pick := some (.insn c (r.key % 256) r.blk (r.turns.getD (k % r.turns.length) 0)) }

/-! ## The selection -/

/-- What comes of a selected action: an event as it stands; an instruction's turn is a pick of its partition to its pipe,
which takes the strand that R53 names. -/
def take (s : State) (a : Act) (k : Nat) : State :=
  let plain : State := { s with pick := some a }
  match a with
  | .event _ => plain
  | .insn c e u i =>
    match find s.strands (strandKey c e) with
    | none => plain
    | some st =>
      match (find s.groups st.group, (st.blocks.find? fun b => b.uid == u).bind fun b => pipeOf b i) with
      | (some g, some q) => (issue s c (g.slot % 4) q k).getD plain
      | _ => plain

/-- A nanosecond of the time base passes, or none, and new clocks of the dies begin, as free values say at turn `k` (R370, R371;
log entry 2). -/
def passTime (s : State) (k : Nat) : State :=
  let t := if Config.elapsed k then s.time + 1 else s.time
  let starts (d : Nat) (x : Die) : Bool := x.begins t (Config.edge d k) (Config.lag d k)
  { s with
    time := t
    dies := s.dies.zipIdx.map fun e => if starts e.2 e.1 then e.1.newClock t (Config.lag e.2 k) else e.1
    cores := s.cores.map fun e =>
      if starts (dieOf e.1) (die s (dieOf e.1)) then (e.1, e.2.newClock) else e }

/-- The next action: what is due in the present clock, and an instruction that fires at once, before all else; otherwise, by a
free value, the outside's oldest input, time passes, or an action of the machine's own is picked (log entries 1 and 2). -/
def select (s : State) : State :=
  let t : State := { s with turn := s.turn + 1, asked := false }
  match (dueActs s).find? (changes s) with
  | some a => { t with pick := some a }
  | none =>
    let own := candidates s
    let free := Config.choose s.turn
    match free % (own.length + 2), s.inbox with
    | 0, i :: rest => { t with pick := some (.event i), inbox := rest, asked := true }
    | 0, [] => t
    | 1, _ => passTime t s.turn
    | n + 2, _ => match own[n]? with
      | some a => take t a (free / (own.length + 2))
      | none => t

end Sys2Proof.Machine
end

