-- ==== Sys2Proof/Machine/Step.lean ====
section
/-! DEFINITION. One step: an action that has been chosen happens, or the next one is chosen. -/

namespace Sys2Proof.Machine

/-- One step. -/
def step (s : State) : Host.Outcome State Fault Refusal :=
  match s.pick with
  | none => .next (select s)
  | some a => run a { s with pick := none }

/-- `s` with the word `w` as an instruction about to fire, so that the next step runs it: an instruction of this machine
is a word of a block in flight (R61, R62), and a program is loaded from outside by memory, a root table and a launch record
(log entry 39). -/
def State.withFetchWord (s : State) (_nbits w : Nat) : State := place s (BitVec.ofNat 64 w)

end Sys2Proof.Machine
end

