-- ==== Sys2Proof/Safety.lean ====
section
/-! DEFINITION. What counts as a safe run, and the terms the statements are made in: results lane by lane, what an
instruction's turn may change, real values of floating-point patterns, reads of memory. They are written from the rules'
formulas, apart from the functions the machine computes with. -/

namespace Sys2Proof

/-- `n` steps from `s` all answer a next state. -/
def SafeFor (n : Nat) (s : Machine.State) : Prop := ∃ t, core.run n s = .next t

/-- Every run from `s` is safe: every fault of the manual is a next state, so a run is safe while the machine goes on. -/
def Safe (s : Machine.State) : Prop := ∀ n, SafeFor n s

namespace Claim

open Sys2Proof.Machine

/-! ## Results lane by lane -/

/-- The operand value at the width of type `t` (R130, reading; R150). -/
def at_ (t : Ty) (v : Val) : BitVec t.width := v.setWidth t.width

/-- The operand value as an exact integer, signed for an i type (R102, R150). -/
def val (t : Ty) (v : Val) : Int := if t.signed then (at_ t v).toInt else ((at_ t v).toNat : Int)

/-- A result as a token carries it: an i type sign-extended to the token's width, every other zero-extended (R103, R130). -/
def carried (t : Ty) (x : BitVec t.width) : Val :=
  if t.signed then (x.signExtend t.tokenWidth).setWidth 128 else x.setWidth 128

/-- wrap(x, W) as a token carries it (R102, R150). -/
def wrapped (t : Ty) (x : Int) : Val := carried t (BitVec.ofInt t.width x)

/-- sat(x, T) (R102): the nearest integer in the type's range. -/
def sat (t : Ty) (x : Int) : Int :=
  let lo : Int := if t.signed then -(2 ^ (t.width - 1) : Int) else 0
  let hi : Int := if t.signed then (2 ^ (t.width - 1) : Int) - 1 else (2 ^ t.width : Int) - 1
  if x < lo then lo else if hi < x then hi else x

/-- Token `t` has this width, uniform flag and mask, is no window token, and its value for each lane of the mask satisfies
`P`. -/
structure Lanewise (t : Token) (width : Nat) (u : Bool) (m : Mask) (P : Nat → Val → Prop) : Prop where
  hasWidth : t.width = width
  noWindow : t.win = false
  isUniform : t.uni = u
  hasMask : t.mask = m
  perLane : ∀ l, m.has l = true → P l (t.at_ l)

/-- At site `x`, instruction `i` fires, resolves and delivers to targets `ga` and `gb` one token of the given width, with
the AND of the masks of operands `ops`, uniform when all are, whose lanes satisfy `P` (R131, R132, R151). -/
def Yields (i : Instr) (s : State) (x : Site) (ga gb : Target) (width : Nat) (ops : List Token) (P : Nat → Val → Prop) :
    Prop :=
  ∃ t, exec i s = .next (x.yield s ga gb t) ∧ Lanewise t width (uniOf ops) (maskOf ops) P

/-- As `Yields` for a result that is a function of the lane. -/
def Gives (i : Instr) (s : State) (x : Site) (w : Plain) (width : Nat) (ops : List Token) (f : Nat → Val) : Prop :=
  Yields i s x w.ta w.tb width ops fun l v => v = f l

/-! ## What an instruction's turn may change -/

/-- `t` is `s` but for the block of site `x`, of which only slots, fired and resolved instructions, waits, exit choices,
removed lanes, the raised fault with its time, effects, buffered stores, results and the used pages have changed. -/
def OnlyBlock (x : Site) (s t : State) : Prop :=
  ∃ f : Blk → Blk, t = x.mod s f ∧ ∀ b, f b =
    { b with
      slots := (f b).slots
      fired := (f b).fired
      resolved := (f b).resolved
      waits := (f b).waits
      choices := (f b).choices
      removed := (f b).removed
      raised := (f b).raised
      raisedAt := (f b).raisedAt
      effects := (f b).effects
      stores := (f b).stores
      results := (f b).results
      pages := (f b).pages }

/-! ## Floating point -/

/-- Element `k` of an operand: 16 bits of a packed pair, else the operand at the type's width (R103, R166). -/
def elem (t : Ty) (v : Val) (k : Nat) : Nat :=
  if t = .f16x2 ∨ t = .bf16x2 then (v.extractLsb' (16 * k) 16).toNat else (at_ t v).toNat

/-- A float result from the patterns of its elements, zero above them (R103, R166). -/
def packed (t : Ty) (g : Nat → Nat) : Val :=
  if t = .f16x2 ∨ t = .bf16x2 then BitVec.ofNat 128 (g 0 + 2 ^ 16 * g 1) else BitVec.ofNat 128 (g 0)

/-- Bits of a format in all. -/
def wd (f : Fmt) : Nat := 1 + f.ebits + f.fbits

/-- The magnitude bits of a pattern. -/
def mag (f : Fmt) (p : Nat) : Nat := p % 2 ^ (wd f - 1)

/-- The sign bit of a pattern. -/
def neg (f : Fmt) (p : Nat) : Bool := p.testBit (wd f - 1)

/-- The pattern of +∞, or of the largest finite value in a format without infinities (R104). -/
def lastNumber (f : Fmt) : Nat := if f.infs then f.top + 1 else f.top

/-- The pattern is a NaN (R104). -/
def isNan (f : Fmt) (p : Nat) : Prop := lastNumber f < mag f p

/-- The magnitude that the exponent and fraction bits `g` stand for, as R104 gives it, and on beyond the largest finite one
as if the exponent range had no top. -/
noncomputable def magVal (f : Fmt) (g : Nat) : ℝ :=
  if g < 2 ^ f.fbits then (g : ℝ) * 2 ^ (1 - f.bias - f.fbits : ℤ)
  else (2 ^ f.fbits + (g % 2 ^ f.fbits : ℕ) : ℝ) * 2 ^ ((g / 2 ^ f.fbits : ℕ) - f.bias - f.fbits : ℤ)

/-- The real number a finite pattern stands for (R104). -/
noncomputable def realOf (f : Fmt) (p : Nat) : ℝ := (if neg f p then -1 else 1) * magVal f (mag f p)

/-- The real number an exact finite value stands for. -/
noncomputable def fpReal : Fp → ℝ
  | .fin n m e => (if n then -1 else 1) * (m : ℝ) * 2 ^ e
  | _ => 0

/-- R108 step 2 for a magnitude `y` with sign `n`: `g` is the neighbour that the mode chooses. -/
def chosenBy (rm : Rnd) (f : Fmt) (n : Bool) (y : ℝ) (g : Nat) : Prop :=
  match rm with
  | .rtz => magVal f g ≤ y ∧ y < magVal f (g + 1)
  | .rup => if n then magVal f g ≤ y ∧ y < magVal f (g + 1) else y ≤ magVal f g ∧ ∀ h < g, magVal f h < y
  | .rdn => if n then y ≤ magVal f g ∧ ∀ h < g, magVal f h < y else magVal f g ≤ y ∧ y < magVal f (g + 1)
  | .rne => ∀ h, h = g ∨ |y - magVal f g| < |y - magVal f h| ∨
      (|y - magVal f g| = |y - magVal f h| ∧ g % 2 = 0)

/-- R108 step 3: the pattern that stands in for a magnitude beyond the largest finite one. -/
def beyond (rm : Rnd) (f : Fmt) (n : Bool) : Nat :=
  let s := if n then 2 ^ (wd f - 1) else 0
  if !f.infs then s + f.top
  else match rm with
    | .rne => s + (f.top + 1)
    | .rtz => s + f.top
    | .rup => if n then s + f.top else f.top + 1
    | .rdn => if n then s + (f.top + 1) else f.top

/-- `p` is round(x, rm, F) of R108 for a real x whose sign is `n` (the sign of a zero too). -/
def roundsTo (rm : Rnd) (f : Fmt) (n : Bool) (x : ℝ) (p : Nat) : Prop :=
  ∃ g, chosenBy rm f n |x| g ∧ p = if f.top < g then beyond rm f n else (if n then 2 ^ (wd f - 1) else 0) + g

/-- The five formats of R104. -/
def formats : List Fmt := [f32, f16, bf16, e5m2, e4m3]

/-- The order of FMIN and FMAX on patterns that are no NaN: −0 just below +0 (R169). -/
def rank (f : Fmt) (p : Nat) : Int := if neg f p then -(mag f p : Int) - 1 else (mag f p : Int)

/-- R169's table for two patterns: the lesser or the greater number, the other operand where one is a NaN. -/
def fpick (least : Bool) (f : Fmt) (p q : Nat) : Nat :=
  if lastNumber f < mag f p then (if lastNumber f < mag f q then f.canon else q)
  else if lastNumber f < mag f q then p
  else if least then (if rank f p ≤ rank f q then p else q)
  else (if rank f q ≤ rank f p then p else q)

/-- The order of FCMP on patterns that are no NaN: zeros equal (R171). -/
def level (f : Fmt) (p : Nat) : Int := if neg f p then -(mag f p : Int) else (mag f p : Int)

/-- round12 of R113 for a positive y: r is the nearest number of 12 significant bits, ties to even. -/
def twelve (y r : ℝ) : Prop :=
  ∃ (g : ℕ) (k : ℤ), 2 ^ 11 * (2 : ℝ) ^ k ≤ y ∧ y < 2 ^ 12 * (2 : ℝ) ^ k ∧ r = g * (2 : ℝ) ^ k ∧
    |y - r| ≤ (2 : ℝ) ^ k / 2 ∧ (|y - r| = (2 : ℝ) ^ k / 2 → g % 2 = 0)

/-- The nearest integer, ties to even. -/
def nearestInt (y : ℝ) (k : ℤ) : Prop := |y - k| ≤ 1 / 2 ∧ (|y - k| = 1 / 2 → k % 2 = 0)

/-- R174: an integer magnitude `k` that the mode chooses for the magnitude `y` with sign `n`. -/
def chosenInt (rm : Rnd) (n : Bool) (y : ℝ) (k : ℤ) : Prop :=
  match rm with
  | .rne => nearestInt y k
  | .rtz => k = ⌊y⌋
  | .rup => if n then k = ⌊y⌋ else k = ⌈y⌉
  | .rdn => if n then k = ⌈y⌉ else k = ⌊y⌋

/-- A pattern of a number: no NaN and no infinity. -/
def finite (f : Fmt) (p : Nat) : Prop := mag f p ≤ f.top

/-- A pattern of an infinity. -/
def infinite (f : Fmt) (p : Nat) : Prop := f.infs = true ∧ mag f p = f.top + 1

/-- The exact value of element `k` of an operand. -/
def exact (t : Ty) (v : Val) (k : Nat) : Fp := Fp.ofBits (fmtOf t) (elem t v k)

/-- ±y. -/
noncomputable def signedReal (n : Bool) (y : ℝ) : ℝ := if n then -y else y

/-! ## Memory -/

/-- The first condition of the list that holds decides the outcome; with none the access is `a`. -/
def firstOf (r : Except (Nat × FaultCode) Acc) (a : Acc) : List (Prop × Nat × FaultCode) → Prop
  | [] => r = .ok a
  | (p, k, c) :: l => (p → r = .error (k, c)) ∧ (¬ p → firstOf r a l)

/-- The core's TLB translates `va` in the context by entry `e`. -/
def tlbHit (s : State) (c ctx va : Nat) (e : TlbEntry) : Prop :=
  (Machine.core s c).tlb.find? (fun e => e.hits ctx va) = some e

/-- Bytes `off` to `off + n - 1` of a line, little-endian (R4). -/
def lineBytes (l : Line) (off n : Nat) : Nat := (l.extractLsb' (8 * off) (8 * n)).toNat

/-- Every check of the lanes `ls` of a memory word passes, with these accesses. -/
def allPass (s : State) (x : Site) (ctx : Nat) (w : MemW) (a : Token) (size : Nat) (u : Use) (ls : List Nat)
    (accs : List Acc) (t : State) : Prop :=
  accs.length = ls.length ∧
    checkLanes s (fun s l => laneCheck s x ctx w a size u l) ls = (List.zipWith (fun l c => (l, .ok c)) ls accs, t)

/-- Token `t` has reached target `g` of block `b`. -/
def reached (b : Blk) (g : Target) (t : Token) : Prop := ∀ k, Target.slot? g = some k → find b.slots k = some t

end Claim

end Sys2Proof
end

