-- ==== Sys2Proof/Certificates/Slice0/Obligations.lean ====
section
/-! DEFINITION. The statements about the machine, chapter by chapter of the spec. A statement is about every state and every
operand unless it says otherwise; `x` is the place of the instruction whose turn it is, `x.opnd k` its operand k as
delivered, and `x.last w k kind` its last operand, which an immediate may replace. -/

open Sys2Proof Sys2Proof.Machine Sys2Proof.Claim

/-! ## The machine -/

/-- The values R30, R36, R195, R199, R216, R324, R345, R346, R373, R381 and R261 give for reset.
Log entry 7 names what in it is the model's reading or choice. -/
def Obligations.ResetValues : Prop :=
  (∀ q, State.reset.queues[q]?.any (fun x => !x.enable && x.prio == 0 && x.slice == 100 && x.ctx == 0 && x.next == 0) =
    decide (q < 64)) ∧
  State.reset.barrierLimit = 10_000_000 ∧ State.reset.lockLimit = 1_000_000 ∧ State.reset.holdLimit = 20_000 ∧
  State.reset.xshflLimit = 100_000 ∧ State.reset.watchdogLimit = 10_000_000_000 ∧
  State.reset.damper.budget = 0xFFFF_FFFF_FFFF_FFFF ∧ State.reset.damper.reserved = 0 ∧
  State.reset.energy = [] ∧ State.reset.events = [] ∧ State.reset.strands = [] ∧ State.reset.rings = [] ∧
  (∀ d < 4, (die State.reset d).mode = .run ∧ (die State.reset d).cells = [] ∧ (die State.reset d).holds = 0) ∧
  (∀ c, (core State.reset c).field.owner = none ∧ (core State.reset c).field.badCell = 0x1FF ∧
    (core State.reset c).field.overCell = 0x1FF ∧ (core State.reset c).field.overInput = 7 ∧
    (core State.reset c).xbar.owner = none ∧ (core State.reset c).deque.entries = [] ∧
    (∀ n < 16, ((core State.reset c).xbar.counters.getD n ⟨9, 9, 9, true, true⟩).thr = 1 ∧
      ((core State.reset c).xbar.terms.getD n ⟨9, 9, 9, 9, 9⟩).arm = 0) ∧
    ∀ n < 36, ((core State.reset c).res.getD n ⟨9, none, none, true⟩).st = 0)

/-- Memory at reset is in its canonical form. -/
def Obligations.ResetMemoryCanonical : Prop := Memory.wf State.reset.mem = true

/-- Every step keeps memory in its canonical form: addresses strictly rising, no byte listed that an unlisted address reads
as. -/
def Obligations.StepKeepsMemoryCanonical : Prop :=
  ∀ s t, Memory.wf s.mem = true → step s = .next t → Memory.wf t.mem = true

/-- The step that fires an instruction of a block in flight runs the instruction its word decodes to, at that instruction's
place, and then counts it (R132, R371). An instruction whose operands are not all there, or that has fired, does not fire
again (R131): such a turn is the pick that one which fired before its pick owes (R53).
Log entry 11 names what in it is the model's reading or choice. -/
def Obligations.StepRunsDecoded : Prop :=
  (∀ s c e u n w i t, s.pick = some (.insn c e u n) → readyWord s c e u n = some w → decodeWord w = .ok i →
    exec i (focusOn { s with pick := none } c e u n) = .next t → step s = .next (leaveFocus t c e u n)) ∧
  (∀ s c e u n, s.pick = some (.insn c e u n) → readyWord s c e u n = none →
    step s = .next (modBlk { s with pick := none } (strandKey c e) u fun b => { b with owed := b.owed &&& ~~~Mask.one n })) ∧
  ∀ s c e u n st b w, find s.strands (strandKey c e) = some st → st.blocks.find? (fun b => b.uid == u) = some b →
    (readyWord s c e u n = some w ↔ b.words[n]? = some w ∧ b.fired.has n = false ∧ delivered b n = true)

/-- The step of an event runs it, and an input that has to wait stays with the machine, management requests in their order
(R404); a step with nothing chosen chooses, and changes nothing but the choice, the selection counter, the inputs that wait and
the counts of R53, or lets time pass: a nanosecond or none, and new clocks of dies whose arithmetic clock runs (R370, R371). An
instruction without a token operand, and an exit whose operand has come, fires before anything else but what a clock itself
brings, with no time passing (R131, R134). A pick of a partition takes, of the strands ready for its pipe, one that has been
passed over 64 times, else one of the highest level, and among those the one whose block fired first; every ready strand of the
partition that it passes over counts one (R53).
Log entries 1, 2, 10, 11 and 52 name what in it is the model's reading or choice. -/
def Obligations.StepRunsEvent : Prop :=
  (∀ s i t, s.pick = some (.event i) → exec i { s with pick := none } = .next t →
    step s = .next (if s.asked = true ∧ t.asked = false then { t with inbox := putBack i t.inbox } else t)) ∧
  (∀ i l, (putBack i l).Perm (i :: l) ∧ (putBack i l).filter isRequest = (i :: l).filter isRequest) ∧
  (∀ s, s.pick = none → ∃ t, step s = .next t ∧
    ((t = { s with
        pick := t.pick, turn := s.turn + 1, inbox := t.inbox, asked := t.asked, strands := t.strands, cores := t.cores } ∧
      (∃ f : Nat × Strand → Nat, t.strands = s.strands.map fun e => (e.1, { e.2 with passed := f e })) ∧
      (t.cores = s.cores ∨ ∃ c, t.cores = (bump s c 7 1).cores) ∧
      ((t.inbox = s.inbox ∧ t.asked = false) ∨ ∃ i, s.inbox = i :: t.inbox ∧ t.pick = some (.event i) ∧ t.asked = true)) ∨
    (t = { s with turn := s.turn + 1, asked := false, time := t.time, dies := t.dies, cores := t.cores } ∧
      (t.time = s.time ∨ t.time = s.time + 1) ∧ ∃ (starts : Nat → Bool) (k : Nat → Nat),
        (∀ d, starts d = true → (die s d).runs = true) ∧
        t.dies = (s.dies.zipIdx.map fun e => if starts e.2 then e.1.newClock t.time (k e.2) else e.1) ∧
        t.cores = s.cores.map fun e => if starts (dieOf e.1) then (e.1, e.2.newClock) else e))) ∧
  (∀ s, s.pick = none → (∃ a ∈ dueActs s, changes s a = true) → ∃ a ∈ dueActs s, changes s a = true ∧
    step s = .next { s with turn := s.turn + 1, asked := false, pick := some a } ∧
    ((∃ e, a = .event e) ∨ ∃ c e u i, a = .insn c e u i ∧ ∃ st b, (strandKey c e, st) ∈ s.strands ∧ b ∈ st.blocks ∧ b.uid = u ∧
      b.fired.has i = false ∧ delivered b i = true ∧
        (arityAt b i = some 0 ∨ ∃ j, b.instr i = some j ∧ resolvesAtOnce j = true))) ∧
  ∀ s c n q k t, issue s c n q k = some t → ∃ r i, t.pick = some (.insn c (r.key % 256) r.blk i) ∧ i ∈ r.turns ∧
    r.key ∈ partitionOf s c n ∧ readyOf s (· == q) r.key = some r ∧
    (∀ key ∈ partitionOf s c n, ∀ o, readyOf s (· == q) key = some o →
      (64 ≤ o.passed → 64 ≤ r.passed) ∧ ((64 ≤ o.passed ↔ 64 ≤ r.passed) → o.level ≤ r.level ∧
        (o.level = r.level → r.blk ≤ o.blk))) ∧
    t.cores = (if 64 ≤ r.passed then bump s c 7 1 else s).cores ∧
    let past : Nat → Prop := fun key => key ∈ partitionOf s c n ∧ (readyOf s (fun _ => true) key).isSome = true
    t.strands = s.strands.map fun e =>
      (e.1, { e.2 with passed := open Classical in
        if e.1 = r.key then (if 64 ≤ r.passed then 0 else e.2.passed) else if past e.1 then e.2.passed + 1 else e.2.passed })

/-- Words written out field by field from the encoding tables of R71 to R79 decode to the instructions they stand for:
ADD with an immediate, MOV, LD, EXIT, FCMP, BAR, TRAP. -/
def Obligations.DecodeWords : Prop :=
  decodeWord (0b0010000000#10 ++ 0b0010#4 ++ 0b0000#4 ++ 0b00101000#8 ++ 0b11111111#8 ++ 0b01#2 ++ 0x5#28) =
    .ok (.add ⟨.i32, some 5, .opnd 10 .a, .nul⟩) ∧
  decodeWord (0b0000000001#10 ++ 0b0111#4 ++ 0b0000#4 ++ 0b00000101#8 ++ 0b00001111#8 ++ 0b11111111#8 ++ 0b00010110#8 ++
    0#14) = .ok (.mov ⟨.n64, .opnd 1 .b, .out 3, .nul, .opnd 5 .c⟩) ∧
  decodeWord (0b1000000000#10 ++ 0b1010#4 ++ 0b0000#4 ++ 0b00001000#8 ++ 0b11111111#8 ++ 0b01#2 ++ 0b0011#4 ++ 0b01#2 ++
    0b01#2 ++ 0x00040#20) = .ok (.ld ⟨.f32, 1, 3, 1, 1, 0x40, .opnd 2 .a, .nul⟩) ∧
  decodeWord (0b0000001000#10 ++ 0b0000#4 ++ 0b001#3 ++ 0b0#1 ++ 0x0000_0006#32 ++ 0#14) =
    .ok (.exit ⟨1, false, 6⟩) ∧
  decodeWord (0b0100001000#10 ++ 0b1010#4 ++ 0b0010#4 ++ 0b00010100#8 ++ 0b11111111#8 ++ 0b10#2 ++ 0#28) =
    .ok (.fcmp .lt ⟨.f32, none, .opnd 5 .a, .nul⟩) ∧
  decodeWord (0b0111000111#10 ++ 0b0000#4 ++ 0b0011#4 ++ 0b11111111#8 ++ 0b11111111#8 ++ 0b01#2 ++ 0#28) =
    .ok (.bar 3 ⟨.i8, none, .nul, .nul⟩) ∧
  decodeWord (0b1111000101#10 ++ 0b0000#4 ++ 0b0000#4 ++ 0b11111111#8 ++ 0b11111111#8 ++ 0b00#2 ++ 0x0000107#28) =
    .ok (.trap ⟨.i8, some 0x107, .nul, .nul⟩)

/-- Decoding the word of a well-formed instruction gives the instruction back, and every well-formed instruction has a
word (R60, R70 to R79). -/
def Obligations.DecodeOfEncode : Prop :=
  ∀ i p, i.parts = some p → i.wf = true → ∃ w, encode i = some w ∧ decodeWord w = .ok i

/-- A word that decodes is the word of the instruction it decodes to, and that instruction is well formed: no two words
mean one instruction, and no bit is ignored (R71 to R79). -/
def Obligations.EncodeOfDecode : Prop :=
  ∀ w i, decodeWord w = .ok i → i.wf = true ∧ encode i = some w

/-- R70, R73, R133 and R134: a firing puts its token into the operand slot or the write entry each target names, drops it at
the discard target, and resolves; no other slot, block or strand changes. Key 4 × INDEX + SLOT is the slot of a target byte.
What an immediate stands for, by its kind and the instruction's type; it stands for every lane. -/
def Obligations.OperandsAndTokens : Prop :=
  (∀ s x ga gb t, site? s = some x → Target.ok ga = true → Target.ok gb = true → ∃ b,
    site? (x.yield s ga gb t) =
      some ⟨x.key, { x.st with blocks := x.st.blocks.map (fun k =>
        if k.uid = x.b.uid then Blk.finish k x.i ga gb t t else k) }, b, x.i⟩ ∧
    (∀ k, find b.slots k =
      (if k ≠ 0xFF ∧ (k = (Target.byte ga).toNat ∨ k = (Target.byte gb).toNat) then some t else find x.b.slots k)) ∧
    b = { x.b with
      slots := b.slots
      fired := x.b.fired ||| Mask.one x.i
      resolved := x.b.resolved ||| Mask.one x.i
      waits := del x.b.waits x.i } ∧
    (∃ strands, x.yield s ga gb t = { s with strands := strands } ∧
      ∀ k, k ≠ x.key → find strands k = find s.strands k)) ∧
  (∀ (x : Site) (w : Plain) (k : Nat) (n : BitVec 28), w.imm = some n →
    (∀ kind, (x.last w k kind).mask = ~~~(0 : Mask) ∧ (x.last w k kind).uni = true) ∧
    (∀ l, w.ty.signed = true → -(2 ^ (w.ty.width - 1) : Int) ≤ n.toInt → n.toInt < (2 ^ (w.ty.width - 1) : Int) →
      val w.ty ((x.last w k .t).at_ l) = n.toInt) ∧
    (∀ l, w.ty.unsigned = true → n.toNat < 2 ^ w.ty.width → val w.ty ((x.last w k .t).at_ l) = n.toNat) ∧
    (∀ l, w.ty = .f32 → (x.last w k .t).at_ l = (n ++ (0 : BitVec 4)).setWidth 128) ∧
    (∀ l, w.ty = .f16 ∨ w.ty = .bf16 → n.extractLsb' 16 12 = 0 → at_ w.ty ((x.last w k .t).at_ l) =
      (n.extractLsb' 0 16).setWidth w.ty.width) ∧
    (∀ l, (x.last w k .z).at_ l = n.setWidth 128) ∧
    ∀ l, (x.last w k .s).at_ l = (n.signExtend 64).setWidth 128)

/-! ## Block plumbing (07_ref_block) -/

/-- R22, R23, R74, R126, R136 to R138, R147 and R148: CONST yields X × 2^(4 × modifier) over the strand's mask, uniform;
CONSTH replaces bits [63:36]; NOP does nothing but resolve; MOV delivers a's value at the type's width, mask and uniform flag
to four targets, and a b128 token stays a window token. IDX gives each lane its WID, whose field k, at the sum of the widths
below it, is the lane, the group and the workgroup's coordinates, which number the workgroup lowest dimension first. SPR's
value for each register is sampled at fire; %lane is per lane, every other uniform. -/
def Obligations.ConstantsMovesAndContext : Prop :=
  (∀ s x, site? s = some x →
    (∀ shift w n, w.imm = some n →
      ∃ t, exec (.const shift w) s = .next (x.yield s w.ta w.tb t) ∧
        Lanewise t w.ty.tokenWidth true x.b.mask fun _ v => v = wrapped w.ty
          ((if w.ty.signed then n.toInt else (n.toNat : Int)) * 2 ^ (4 * shift.toNat))) ∧
    ∀ w n, w.imm = some n → Gives (.consth w) s x w 64 [x.opnd 0] fun l =>
      (n ++ ((x.opnd 0).at_ l).extractLsb' 0 36 : BitVec 64).setWidth 128) ∧
  (∀ s x, site? s = some x →
    (∀ w, w.ta = .nul → w.tb = .nul → exec (.nop w) s = .next (x.mod s fun b => b.resolve x.i)) ∧
    ∀ w, ∃ t, exec (.mov w) s = .next (x.mod s fun b =>
        ((b.deliver w.tc t).deliver w.td t).finish x.i w.ta w.tb t t) ∧
      Lanewise { t with win := false } w.ty.tokenWidth (x.opnd 0).uni (x.opnd 0).mask
        (fun l v => v = carried w.ty (at_ w.ty ((x.opnd 0).at_ l))) ∧
      t.win = ((x.opnd 0).win && decide (w.ty = .b128))) ∧
  ((∀ s x w p, site? s = some x → x.place s = some p → ∃ t, exec (.idx w) s = .next (x.yield s w.ta w.tb t) ∧
    Lanewise t 64 false x.b.mask fun l v => p.l.widths.sum ≤ 64 →
      p.l.widths.length ≤ 2 + p.l.extents.length → v.toNat < 2 ^ p.l.widths.sum ∧
      ∀ k < p.l.widths.length, v.toNat / 2 ^ (p.l.widths.take k).sum % 2 ^ (p.l.widths.getD k 0) =
        (l :: p.g.num :: coords p.l.extents p.w.num).getD k 0 % 2 ^ (p.l.widths.getD k 0)) ∧
  ∀ es n, (∀ e ∈ es, 0 < e) → n < es.prod →
    (coords es n).length = es.length ∧ (∀ k < es.length, (coords es n).getD k 0 < es.getD k 0) ∧
    ((coords es n).zip es).foldr (fun q r => q.1 + q.2 * r) 0 = n) ∧
  (∀ s x w n p, site? s = some x → x.place s = some p → w.imm = some n → n.toNat ≤ 13 →
    ∃ t, exec (.spr w) s = .next (x.yield s w.ta w.tb t) ∧
      Lanewise t w.ty.tokenWidth (decide (n ≠ 0)) x.b.mask fun l v => v = wrapped w.ty
        (([l, p.g.num, p.w.num, x.key / 256 % 48, x.key / 256 % 48 / 4, 8 + x.key / 256 / 48, x.key / 256 % 48 / 16,
          p.g.slot, x.key % 256, x.b.mask.toNat, p.g.cbase.toNat, p.g.tbase.toNat, x.b.time, x.b.prio].getD n.toNat 0 :
            Nat) : Int))

/-- R139 to R142: STEER delivers a's value to target A for the lanes whose condition is not zero and to target B for the
others, each with a's uniform flag; NULLIFY keeps the lanes outside b's mask; MERGE takes a where a is present and b
elsewhere, uniform in R140's three cases; SELECT chooses by c. Window marks as MOV keeps them. -/
def Obligations.SteerMergeSelectNullify : Prop :=
  (∀ s x, site? s = some x → ∀ w : Plain,
    let a := x.opnd 0
    let b := x.opnd 1
    let same : Nat → Val → Prop := fun l v => v = carried w.ty (at_ w.ty (a.at_ l))
    let win := a.win && decide (w.ty = .b128)
    (∃ ta tb mt mf, exec (.steer w) s = .next (x.mod s fun k => k.finish x.i w.ta w.tb ta tb) ∧
      ta.win = win ∧ tb.win = win ∧
      Lanewise { ta with win := false } w.ty.tokenWidth a.uni mt same ∧
      Lanewise { tb with win := false } w.ty.tokenWidth a.uni mf same ∧
      (∀ l, mt.has l = (a.mask.has l && b.mask.has l && decide (b.at_ l ≠ 0))) ∧
      ∀ l, mf.has l = (a.mask.has l && b.mask.has l && decide (b.at_ l = 0))) ∧
    ∃ t, exec (.nullify w) s = .next (x.yield s w.ta w.tb t) ∧ t.win = win ∧
      Lanewise { t with win := false } w.ty.tokenWidth a.uni (a.mask &&& ~~~b.mask) same) ∧
  (∀ s x, site? s = some x → ∀ w : Plain,
    let a := x.opnd 0
    let b := x.opnd 1
    let c := x.opnd 2
    let at1 : Token → Nat → Val := fun t l => carried w.ty (at_ w.ty (t.at_ l))
    (∃ t, exec (.merge w) s = .next (x.yield s w.ta w.tb t) ∧
      Lanewise { t with win := false } w.ty.tokenWidth
        (a.uni && b.uni && (Mask.within b.mask a.mask || a.mask == 0 || decide (at_ w.ty a.val = at_ w.ty b.val)))
        (a.mask ||| b.mask) fun l v => v = if a.mask.has l then at1 a l else at1 b l) ∧
    ∃ t, exec (.select w) s = .next (x.yield s w.ta w.tb t) ∧ t.win = (a.win && decide (w.ty = .b128)) ∧
      Lanewise { t with win := false } w.ty.tokenWidth (uniOf [a, b, c]) (maskOf [a, b, c])
        fun l v => v = if c.at_ l ≠ 0 then at1 a l else at1 b l)

/-- R135, R143 and R145: where every lane's address is a multiple of 16 and no lane chooses twice, EXIT, CALL and RET give
each lane of a its successor and resolve, CALL keeping its link for the commit (R144); a misaligned address faults
MISALIGNED and a second choice EXIT_CONFLICT with the lanes that made it. R146: QUIT's lanes choose to end. Outside trap
mode. That MISALIGNED is the fault where an address is misaligned and a lane has chosen already is the model's choice (log entry
48). -/
def Obligations.ExitChoices : Prop :=
  ∀ s x, site? s = some x → x.st.trap = false →
    let a := x.opnd 0
    let succ : ExitW → Nat → Word := fun w l =>
      if w.indirect then (a.at_ l).setWidth 64 else BitVec.ofNat 64 x.b.addr + (w.off.signExtend 64) * 16
    let chose : Nat → Prop := fun l => ∃ c, find x.b.choices l = some c
    let done : Instr → Option Effect → (Nat → Choice) → Prop := fun i e f => ∃ b,
      exec i s = .next (x.mod s fun _ => b) ∧
      (∀ l, find b.choices l = if (a.mask &&& ~~~x.b.removed).has l then some (f l) else find x.b.choices l) ∧
      b = { x.b with
        choices := b.choices
        fired := x.b.fired ||| Mask.one x.i
        resolved := x.b.resolved ||| Mask.one x.i
        waits := del x.b.waits x.i
        effects := x.b.effects ++ (e.map fun e => (x.i, e)).toList }
    ((∀ l, a.mask.has l = true → x.b.removed.has l = false → ¬ chose l) →
      (∀ w, (∀ l, a.mask.has l = true → (succ w l).toNat % 16 = 0) →
        done (.exit w) none (fun l => .goto (succ w l)) ∧ done (.ret w) none (fun l => .goto (succ w l)) ∧
        done (.call w) (some (.link a.mask)) fun l => .goto (succ w l)) ∧
      ∀ w, done (.quit w) none fun _ => .quit) ∧
    (∀ w, (∃ l, a.mask.has l = true ∧ (succ w l).toNat % 16 ≠ 0) → ∀ i ∈ [Instr.exit w, .call w, .ret w],
      ∃ l, a.mask.has l = true ∧ (succ w l).toNat % 16 ≠ 0 ∧
        exec i s = .next (x.fault s .misaligned a.mask (succ w l).toNat)) ∧
    ∀ w, (∃ l, a.mask.has l = true ∧ x.b.removed.has l = false ∧ chose l) →
      (∀ l, a.mask.has l = true → (succ w l).toNat % 16 = 0) → ∀ i ∈ [Instr.exit w, .call w, .ret w],
      ∃ m, exec i s = .next (x.fault s .exitConflict m x.b.addr) ∧
        ∀ l, m.has l = true ↔ a.mask.has l = true ∧ x.b.removed.has l = false ∧ chose l

/-! ## Integers, bits and addresses (08_ref_integer) -/

/-- R152 and R154: sums, differences and products, wrapped, saturated, or their upper half. -/
def Obligations.ArithmeticResult : Prop :=
  ∀ s x, site? s = some x → ∀ w : Plain,
    let a := fun l => (x.opnd 0).at_ l
    let b := fun l => (x.last w 1 .t).at_ l
    let b' := fun l => (x.opnd 1).at_ l
    let c := fun l => (x.last w 2 .t).at_ l
    let v := val w.ty
    let ab := [x.opnd 0, x.last w 1 .t]
    Gives (.add w) s x w w.ty.tokenWidth ab (fun l => carried w.ty (at_ w.ty (a l) + at_ w.ty (b l))) ∧
    Gives (.sub w) s x w w.ty.tokenWidth ab (fun l => carried w.ty (at_ w.ty (a l) - at_ w.ty (b l))) ∧
    Gives (.adds w) s x w w.ty.tokenWidth ab (fun l => wrapped w.ty (Claim.sat w.ty (v (a l) + v (b l)))) ∧
    Gives (.subs w) s x w w.ty.tokenWidth ab (fun l => wrapped w.ty (Claim.sat w.ty (v (a l) - v (b l)))) ∧
    Gives (.mul w) s x w w.ty.tokenWidth ab (fun l => wrapped w.ty (v (a l) * v (b l))) ∧
    Gives (.mulh w) s x w w.ty.tokenWidth ab (fun l => wrapped w.ty (v (a l) * v (b l) / 2 ^ w.ty.width)) ∧
    Gives (.mad w) s x w w.ty.tokenWidth [x.opnd 0, x.opnd 1, x.last w 2 .t]
      (fun l => wrapped w.ty (v (a l) * v (b' l) + v (c l)))

/-- R153: ADDC and SUBB deliver the wrapped sum or difference to target A and the carry or borrow out to target B. -/
def Obligations.CarryResult : Prop :=
  ∀ s x, site? s = some x → ∀ w : Plain,
    let ops := [x.opnd 0, x.opnd 1, x.opnd 2]
    let n : Nat → Nat → Int := fun k l => ((at_ w.ty ((x.opnd k).at_ l)).toNat : Int)
    let cin : Nat → Int := fun l => if ((x.opnd 2).at_ l).getLsbD 0 then 1 else 0
    let two : Instr → (Nat → Int) → (Int → Prop) → Prop := fun i f out => ∃ r o,
      exec i s = .next (x.mod s fun k => k.finish x.i w.ta w.tb r o) ∧
      Lanewise r w.ty.tokenWidth (uniOf ops) (maskOf ops) (fun l v => v = wrapped w.ty (f l)) ∧
      Lanewise o w.ty.tokenWidth (uniOf ops) (maskOf ops) fun l v => (out (f l) → v = 1) ∧ (¬ out (f l) → v = 0)
    two (.addc w) (fun l => n 0 l + n 1 l + cin l) (fun t => 2 ^ w.ty.width ≤ t) ∧
    two (.subb w) (fun l => n 0 l - n 1 l - cin l) fun t => t < 0

/-- R155 and R156: minimum, maximum, absolute value, negation, and the operations on each bit alone. -/
def Obligations.MinMaxAndBitwiseResult : Prop :=
  ∀ s x, site? s = some x → ∀ w : Plain,
    let a := fun l => at_ w.ty ((x.opnd 0).at_ l)
    let b := fun l => at_ w.ty ((x.last w 1 .t).at_ l)
    let va := fun l => val w.ty ((x.opnd 0).at_ l)
    let vb := fun l => val w.ty ((x.last w 1 .t).at_ l)
    let ab := [x.opnd 0, x.last w 1 .t]
    let W := w.ty.tokenWidth
    Gives (.min w) s x w W ab (fun l => carried w.ty (if va l ≤ vb l then a l else b l)) ∧
    Gives (.max w) s x w W ab (fun l => carried w.ty (if vb l ≤ va l then a l else b l)) ∧
    Gives (.abs w) s x w W [x.opnd 0] (fun l => wrapped w.ty |va l|) ∧
    Gives (.neg w) s x w W [x.opnd 0] (fun l => carried w.ty (-a l)) ∧
    Gives (.and w) s x w W ab (fun l => carried w.ty (a l &&& b l)) ∧
    Gives (.or w) s x w W ab (fun l => carried w.ty (a l ||| b l)) ∧
    Gives (.xor w) s x w W ab (fun l => carried w.ty (a l ^^^ b l)) ∧
    Gives (.andn w) s x w W ab (fun l => carried w.ty (a l &&& ~~~b l)) ∧
    Gives (.not w) s x w W [x.opnd 0] (fun l => carried w.ty (~~~a l))

/-- R157 and R158: shifts, rotation, bit-field extraction and insertion. The shift count is the low 32 bits of b. -/
def Obligations.ShiftAndFieldResult : Prop :=
  ∀ s x, site? s = some x → ∀ w : Plain,
    let a := fun l => at_ w.ty ((x.opnd 0).at_ l)
    let n := fun l => (((x.last w 1 .z).at_ l).extractLsb' 0 32).toNat
    let ab := [x.opnd 0, x.last w 1 .z]
    let pos : Val → Nat := fun ctl => (ctl.extractLsb' 0 7).toNat
    let len : Val → Nat := fun ctl => min (ctl.extractLsb' 8 7).toNat w.ty.width
    let ones : Nat → BitVec w.ty.width := fun k => BitVec.ofNat w.ty.width (2 ^ k - 1)
    let W := w.ty.tokenWidth
    Gives (.shl w) s x w W ab (fun l => carried w.ty (a l <<< n l)) ∧
    Gives (.shr w) s x w W ab (fun l => carried w.ty (a l >>> n l)) ∧
    Gives (.sar w) s x w W ab (fun l => carried w.ty ((a l).sshiftRight (min (n l) (w.ty.width - 1)))) ∧
    Gives (.rot w) s x w W ab (fun l => carried w.ty ((a l).rotateLeft (n l))) ∧
    Gives (.bfx w) s x w W ab (fun l =>
      let ctl := (x.last w 1 .z).at_ l
      let f := (a l >>> pos ctl) &&& ones (len ctl)
      carried w.ty (if w.ty.signed = true ∧ 0 < len ctl then (f.setWidth (len ctl)).signExtend w.ty.width else f)) ∧
    Gives (.bfi w) s x w W [x.opnd 0, x.opnd 1, x.last w 2 .z] (fun l =>
      let ctl := (x.last w 2 .z).at_ l
      let m := ones (len ctl) <<< pos ctl
      carried w.ty ((a l &&& ~~~m) ||| ((at_ w.ty ((x.opnd 1).at_ l) <<< pos ctl) &&& m)))

/-- R159: bits set, leading and trailing zeros, reversal of bits and of bytes. -/
def Obligations.CountAndReverseResult : Prop :=
  ∀ s x, site? s = some x → ∀ w : Plain,
    let a := fun l => at_ w.ty ((x.opnd 0).at_ l)
    let W := w.ty.width
    let holds : Instr → (Nat → BitVec w.ty.width → Prop) → Prop := fun i P =>
      Yields i s x w.ta w.tb w.ty.tokenWidth [x.opnd 0] fun l v => ∃ r, v = carried w.ty r ∧ P l r
    holds (.popc w) (fun l r => r = BitVec.ofNat W ((List.range W).countP fun i => (a l).getLsbD i)) ∧
    holds (.clz w) (fun l r => ∃ n ≤ W, r = BitVec.ofNat W n ∧ (∀ i < W, W - n ≤ i → (a l).getLsbD i = false) ∧
      (n < W → (a l).getLsbD (W - 1 - n) = true)) ∧
    holds (.ctz w) (fun l r => ∃ n ≤ W, r = BitVec.ofNat W n ∧ (∀ i < n, (a l).getLsbD i = false) ∧
      (n < W → (a l).getLsbD n = true)) ∧
    holds (.brev w) (fun l r => ∀ i < W, r.getLsbD i = (a l).getLsbD (W - 1 - i)) ∧
    holds (.bswap w) (fun l r => ∀ i < W / 8, r.extractLsb' (8 * i) 8 = (a l).extractLsb' (W - 8 - 8 * i) 8)

/-- R160 and R161: CMP's seven conditions as 1 or 0 in 32 bits, and the two halves of the carry-less product. -/
def Obligations.CompareAndCarryLessResult : Prop :=
  ∀ s x, site? s = some x → ∀ w : Plain,
    let va := fun l => val w.ty ((x.opnd 0).at_ l)
    let vb := fun l => val w.ty ((x.last w 1 .t).at_ l)
    let ab := [x.opnd 0, x.last w 1 .t]
    let cond : ICond → (Nat → Prop) → Prop := fun c P =>
      Yields (.cmp c w) s x w.ta w.tb 32 ab fun l v => (P l → v = 1) ∧ (¬ P l → v = 0)
    let p : Nat → BitVec 128 := fun l => (List.range 64).foldl (fun p i =>
      if ((x.last w 1 .t).at_ l).getLsbD i then p ^^^ ((((x.opnd 0).at_ l).extractLsb' 0 64).setWidth 128 <<< i) else p) 0
    cond .eq (fun l => va l = vb l) ∧ cond .ne (fun l => va l ≠ vb l) ∧ cond .lt (fun l => va l < vb l) ∧
    cond .le (fun l => va l ≤ vb l) ∧ cond .gt (fun l => vb l < va l) ∧ cond .ge (fun l => vb l ≤ va l) ∧
    cond .tst (fun l => at_ w.ty ((x.opnd 0).at_ l) &&& at_ w.ty ((x.last w 1 .t).at_ l) ≠ 0) ∧
    Gives (.clmul w) s x w 64 ab (fun l => ((p l).extractLsb' 0 64).setWidth 128) ∧
    Gives (.clmulh w) s x w 64 ab (fun l => ((p l).extractLsb' 64 64).setWidth 128)

/-- R162 and R163: LEA's address, with a signed or an unsigned 32-bit index, and WIDF's field of a work identifier under
the widths of the launch. -/
def Obligations.AddressResult : Prop :=
  ∀ s x, site? s = some x →
    (∀ scale (w : Plain),
      Gives (.lea scale w) s x w 64 [x.opnd 0, x.opnd 1, x.last w 2 .s] fun l =>
        let i : BitVec 32 := ((x.opnd 1).at_ l).extractLsb' 0 32
        (((x.opnd 0).at_ l).setWidth 64 + (if w.ty.signed then i.signExtend 64 else i.setWidth 64) <<< scale.toNat +
          ((x.last w 2 .s).at_ l).setWidth 64 : BitVec 64).setWidth 128) ∧
    ∀ k (w : Plain) p, x.place s = some p →
      Gives (.widf k w) s x w w.ty.tokenWidth [x.opnd 0] fun l =>
        wrapped w.ty (((((x.opnd 0).at_ l).setWidth 64 : BitVec 64).toNat / 2 ^ (p.l.widths.take k.toNat).sum %
          2 ^ (if k.toNat < p.l.widths.length then p.l.widths.getD k.toNat 0 else 0) : Nat) : Int)

/-! ## Floating point (05_numbers, 09_ref_float) -/

/-- R104: what the patterns of the five formats stand for. R109: the exact sum and product, and the signs of zeros. -/
def Obligations.FloatExact : Prop :=
  (∀ f ∈ formats, ∀ p, p < 2 ^ wd f →
    (isNan f p ↔ Fp.ofBits f p = .nan) ∧ (infinite f p ↔ Fp.ofBits f p = .inf (neg f p)) ∧
    (finite f p → ∃ m e, Fp.ofBits f p = .fin (neg f p) m e ∧ fpReal (.fin (neg f p) m e) = realOf f p)) ∧
  (∀ rm n m e n' m' e', ∃ n1 m1 e1, Fp.add rm (.fin n m e) (.fin n' m' e') = .fin n1 m1 e1 ∧
    fpReal (.fin n1 m1 e1) = fpReal (.fin n m e) + fpReal (.fin n' m' e') ∧
    (0 < fpReal (.fin n1 m1 e1) → n1 = false) ∧ (fpReal (.fin n1 m1 e1) < 0 → n1 = true) ∧
    (fpReal (.fin n1 m1 e1) = 0 → n1 = if n = n' then n else decide (rm = .rdn))) ∧
  (∀ n m e n' m' e', ∃ m1 e1, Fp.mul (.fin n m e) (.fin n' m' e') = .fin (xor n n') m1 e1 ∧
    fpReal (.fin (xor n n') m1 e1) = fpReal (.fin n m e) * fpReal (.fin n' m' e')) ∧
  ∀ rm a, Fp.add rm .nan a = .nan ∧ Fp.add rm a .nan = .nan ∧ Fp.mul .nan a = .nan ∧ Fp.mul a .nan = .nan ∧
    ∀ n n' m e, Fp.add rm (.inf n) (.inf n') = (if n = n' then .inf n else .nan) ∧
      Fp.add rm (.inf n) (.fin n' m e) = .inf n ∧ Fp.add rm (.fin n' m e) (.inf n) = .inf n ∧
      Fp.mul (.inf n) (.inf n') = .inf (xor n n') ∧
      Fp.mul (.inf n) (.fin n' m e) = (if m = 0 then .nan else .inf (xor n n')) ∧
      Fp.mul (.fin n' m e) (.inf n) = (if m = 0 then .nan else .inf (xor n n'))

/-- R106 to R108: round(x, rm, F) in the five formats and four modes: the neighbour the mode chooses, subnormals kept, the
value beyond the largest finite one that step 3 gives, the sign of a zero kept, and the canonical NaN. -/
def Obligations.RoundingIsCorrect : Prop :=
  ∀ f ∈ formats, ∀ rm,
    (∀ n m e, roundsTo rm f n (fpReal (.fin n m e)) (Machine.round rm f (.fin n m e))) ∧
    (∀ n, Machine.round rm f (.inf n) = (if n then 2 ^ (wd f - 1) else 0) + lastNumber f) ∧
    Machine.round rm f .nan = f.canon

/-- R167, R168, R176, R177 and R180: sums, products, the fused forms, scaling, the two-element dot product and PACK, each
exact before its one rounding, element by element in a packed type. -/
def Obligations.FloatArithmeticResult : Prop :=
  ∀ s x, site? s = some x → ∀ rm (w : Plain),
    let F := fmtOf w.ty
    let a := fun l => exact w.ty ((x.opnd 0).at_ l)
    let b := fun l => exact w.ty ((x.last w 1 .t).at_ l)
    let b' := fun l => exact w.ty ((x.opnd 1).at_ l)
    let c := fun l => exact w.ty ((x.last w 2 .t).at_ l)
    let ab := [x.opnd 0, x.last w 1 .t]
    let abc := [x.opnd 0, x.opnd 1, x.last w 2 .t]
    let whole : Val → Fp := fun v => Fp.ofBits f32 (v.extractLsb' 0 32).toNat
    Gives (.fadd rm w) s x w 32 ab (fun l => packed w.ty fun k => Machine.round rm F (Fp.add rm (a l k) (b l k))) ∧
    Gives (.fsub rm w) s x w 32 ab (fun l => packed w.ty fun k => Machine.round rm F (Fp.add rm (a l k) (b l k).neg)) ∧
    Gives (.fmul rm w) s x w 32 ab (fun l => packed w.ty fun k => Machine.round rm F (Fp.mul (a l k) (b l k))) ∧
    Gives (.ffma rm w) s x w 32 abc
      (fun l => packed w.ty fun k => Machine.round rm F (Fp.add rm (Fp.mul (a l k) (b' l k)) (c l k))) ∧
    (w.ty = .f16 ∨ w.ty = .bf16 ∨ w.ty = .f32 → Yields (.fscl rm w) s x w.ta w.tb 32 [x.opnd 0, x.last w 1 .s] fun l v =>
      let q := elem w.ty ((x.opnd 0).at_ l) 0
      let n : Int := (((x.last w 1 .s).at_ l).extractLsb' 0 32 : BitVec 32).toInt
      ∃ p, v = BitVec.ofNat 128 p ∧ (isNan F q → p = F.canon) ∧ (infinite F q → p = q) ∧ (mag F q = 0 → p = q) ∧
        (finite F q → roundsTo rm F (neg F q) (realOf F q * 2 ^ n) p)) ∧
    (w.ty = .f16x2 ∨ w.ty = .bf16x2 → Gives (.fdot2 rm w) s x w 32 abc fun l =>
      BitVec.ofNat 128 (Machine.round rm f32 (Fp.add rm (Fp.add rm (Fp.mul (a l 0) (b' l 0)) (Fp.mul (a l 1) (b' l 1)))
        (whole ((x.last w 2 .t).at_ l))))) ∧
    (w.ty = .f16x2 ∨ w.ty = .bf16x2 → Gives (.pack rm w) s x w 32 ab fun l => packed w.ty fun k =>
      Machine.round rm F (whole (if k = 0 then (x.opnd 0).at_ l else (x.last w 1 .t).at_ l)))

/-- R169, R170, R171 and R175: minimum and maximum with −0 below +0, sign changes, the eight conditions and the class of a
pattern. -/
def Obligations.FloatOrderResult : Prop :=
  ∀ s x, site? s = some x → ∀ w : Plain, w.ty ∈ [Ty.f16, .bf16, .f32, .f16x2, .bf16x2] →
    let F := fmtOf w.ty
    let a := fun l => elem w.ty ((x.opnd 0).at_ l)
    let b := fun l => elem w.ty ((x.last w 1 .t).at_ l)
    let ab := [x.opnd 0, x.last w 1 .t]
    let each : Instr → List Token → (Nat → Nat → Nat → Prop) → Prop := fun i ops P =>
      Yields i s x w.ta w.tb 32 ops fun l v => ∃ g, v = packed w.ty g ∧ ∀ k < 2, P l k (g k)
    let pick : (Int → Int → Prop) → Nat → Nat → Nat → Prop := fun better p q r =>
      (isNan F p → isNan F q → r = F.canon) ∧ (isNan F p → ¬ isNan F q → r = q) ∧ (¬ isNan F p → isNan F q → r = p) ∧
      (¬ isNan F p → ¬ isNan F q → better (rank F p) (rank F q) → r = p) ∧
      (¬ isNan F p → ¬ isNan F q → ¬ better (rank F p) (rank F q) → r = q)
    let when : FCond → (Nat → Nat → Prop) → Prop := fun c P =>
      Yields (.fcmp c w) s x w.ta w.tb 32 ab fun l v =>
        let un := isNan F (a l 0) ∨ isNan F (b l 0)
        ∃ t : Prop, (t ↔ if c = .un ∨ c = .ne then un ∨ P (a l 0) (b l 0) else ¬ un ∧ P (a l 0) (b l 0)) ∧
          (t → v = 1) ∧ (¬ t → v = 0)
    each (.fmin w) ab (fun l k => pick (fun m n => m ≤ n) (a l k) (b l k)) ∧
    each (.fmax w) ab (fun l k => pick (fun m n => n ≤ m) (a l k) (b l k)) ∧
    each (.fabs w) [x.opnd 0] (fun l k r => r = if lastNumber F < mag F (a l k) then F.canon else mag F (a l k)) ∧
    each (.fneg w) [x.opnd 0] (fun l k r =>
      r = if lastNumber F < mag F (a l k) then F.canon else a l k ^^^ 2 ^ (wd F - 1)) ∧
    (w.ty ∈ [Ty.f16, .bf16, .f32] →
      when .eq (fun p q => level F p = level F q) ∧ when .ne (fun p q => level F p ≠ level F q) ∧
      when .lt (fun p q => level F p < level F q) ∧ when .le (fun p q => level F p ≤ level F q) ∧
      when .gt (fun p q => level F q < level F p) ∧ when .ge (fun p q => level F q ≤ level F p) ∧
      when .un (fun _ _ => False) ∧ when .ord (fun _ _ => True) ∧
      Gives (.fcls w) s x w 32 [x.opnd 0] fun l =>
        let m := mag F (a l 0)
        let n := neg F (a l 0)
        let bit : Nat :=
          if lastNumber F < m then 8
          else if m = F.top + 1 then (if n then 0 else 7)
          else if 2 ^ F.fbits ≤ m then (if n then 1 else 6)
          else if 0 < m then (if n then 2 else 5)
          else (if n then 3 else 4)
        BitVec.ofNat 128 (2 ^ bit))

/-- R113 and R114 for FRCP, FRSQ and FEXP2: the special inputs, and the table value rounded to 12 bits and scaled. -/
def Obligations.TableFunctionResult : Prop :=
  ∀ s x, site? s = some x → ∀ w : Plain, w.ty = .f32 →
    let fn : Instr → (Nat → Nat → Prop) → Prop := fun i P =>
      Yields i s x w.ta w.tb 32 [x.opnd 0] fun l v =>
        ∃ p, v = BitVec.ofNat 128 p ∧ P (((x.opnd 0).at_ l).extractLsb' 0 32).toNat p
    let nan := 0x7FC0_0000
    let inf := 0x7F80_0000
    let minus := 0x8000_0000
    fn (.frcp w) (fun a p =>
      (isNan f32 a → p = nan) ∧ (a = 0 → p = inf) ∧ (a = minus → p = minus + inf) ∧ (a = inf → p = 0) ∧
      (a = minus + inf → p = minus) ∧
      (finite f32 a → mag f32 a ≠ 0 → ∃ (m : ℝ) (e : ℤ) (r : ℝ), |realOf f32 a| = m * 2 ^ e ∧ 1 ≤ m ∧ m < 2 ∧
        twelve (1 / (⌊m * 2 ^ 8⌋ / 2 ^ 8 + 2 ^ (-9 : ℤ))) r ∧
        roundsTo .rne f32 (neg f32 a) (signedReal (neg f32 a) (r * 2 ^ (-e))) p)) ∧
    fn (.frsq w) (fun a p =>
      (isNan f32 a → p = nan) ∧ (a = 0 → p = inf) ∧ (a = minus → p = minus + inf) ∧ (a = inf → p = 0) ∧
      (minus < a → p = nan) ∧
      (finite f32 a → neg f32 a = false → a ≠ 0 → ∃ (m : ℝ) (e : ℤ) (r : ℝ), realOf f32 a = m * 2 ^ e ∧ 1 ≤ m ∧ m < 2 ∧
        twelve (1 / Real.sqrt ((if e % 2 = 0 then 1 else 2) * (⌊m * 2 ^ 7⌋ / 2 ^ 7 + 2 ^ (-8 : ℤ)))) r ∧
        roundsTo .rne f32 false (r * 2 ^ (-(e / 2))) p)) ∧
    fn (.fexp2 w) fun a p =>
      (isNan f32 a → p = nan) ∧ (mag f32 a = 0 → p = 0x3F80_0000) ∧ (a = inf → p = inf) ∧ (a = minus + inf → p = 0) ∧
      (finite f32 a → 128 ≤ realOf f32 a → p = inf) ∧ (finite f32 a → realOf f32 a < -150 → p = 0) ∧
      (finite f32 a → mag f32 a ≠ 0 → -150 ≤ realOf f32 a → realOf f32 a < 128 → ∃ (k : ℤ) (r : ℝ),
        nearestInt ((realOf f32 a - ⌊realOf f32 a⌋) * 256) k ∧ twelve ((2 : ℝ) ^ ((k : ℝ) / 256)) r ∧
        roundsTo .rne f32 false (r * 2 ^ ⌊realOf f32 a⌋) p)

/-- R113 and R114 for FLOG2, FSINP and FCOSP: the special inputs, the table value rounded to 12 bits with its one final rounding,
and the exact values at a power of two and at a multiple of one half. -/
def Obligations.LogAndSineResult : Prop :=
  ∀ s x, site? s = some x → ∀ w : Plain, w.ty = .f32 →
    let fn : Instr → (Nat → Nat → Prop) → Prop := fun i P =>
      Yields i s x w.ta w.tb 32 [x.opnd 0] fun l v =>
        ∃ p, v = BitVec.ofNat 128 p ∧ P (((x.opnd 0).at_ l).extractLsb' 0 32).toNat p
    let nan := 0x7FC0_0000
    let inf := 0x7F80_0000
    let minus := 0x8000_0000
    let wave : Instr → Nat → ℤ → (ℝ → ℝ) → Prop := fun i z phase f => fn i fun a p =>
      (¬ finite f32 a → p = nan) ∧ (mag f32 a = 0 → p = z) ∧
      (finite f32 a → mag f32 a ≠ 0 → ∃ n k : ℤ, -1 ≤ realOf f32 a - 2 * n ∧ realOf f32 a - 2 * n < 1 ∧
        nearestInt ((realOf f32 a - 2 * n) * 256) k ∧
        (f (Real.pi * k / 256) = 0 → p = 0) ∧
        (f (Real.pi * k / 256) ≠ 0 → ∃ r, twelve |f (Real.pi * k / 256)| r ∧
          roundsTo .rne f32 (decide (f (Real.pi * k / 256) < 0)) r p)) ∧
      (∀ n : ℤ, finite f32 a → realOf f32 a = n / 2 →
        realOf f32 p = (if (n + phase) % 2 = 0 then 0 else if (n + phase) % 4 = 1 then 1 else -1) ∧ p ≠ minus)
    fn (.flog2 w) (fun a p =>
      (isNan f32 a → p = nan) ∧ (mag f32 a = 0 → p = minus + inf) ∧ (a = inf → p = inf) ∧ (minus < a → p = nan) ∧
      (∀ e : ℤ, finite f32 a → realOf f32 a = 2 ^ e → realOf f32 p = e ∧ p ≠ minus) ∧
      (finite f32 a → neg f32 a = false → a ≠ 0 → ∃ (m : ℝ) (e k : ℤ) (r : ℝ), realOf f32 a = m * 2 ^ e ∧ 1 ≤ m ∧ m < 2 ∧
        nearestInt (m * 256) k ∧ (k = 256 → r = 0) ∧ (k = 512 → r = 1) ∧
        (256 < k → k < 512 → twelve (Real.logb 2 (k / 256)) r) ∧
        roundsTo .rne f32 (decide (e + r < 0)) (e + r) p)) ∧
    wave (.fsinp w) 0 0 Real.sin ∧ wave (.fcosp w) 0x3F80_0000 1 Real.cos

/-- R173, R174, R178 and R181: the square root, rounding to an integral value, conversion between every two types, and
UNPK. -/
def Obligations.ConversionResult : Prop :=
  ∀ s x, site? s = some x → ∀ w : Plain,
    let F := fmtOf w.ty
    let a := fun l => (x.opnd 0).at_ l
    let conv : Instr → (Nat → Nat → Prop) → Prop := fun i P =>
      Yields i s x w.ta w.tb w.ty.tokenWidth [x.opnd 0] fun l v => ∃ p, v = BitVec.ofNat 128 p ∧ p < 2 ^ w.ty.width ∧ P l p
    let rounded : Fmt → Nat → Nat → Prop := fun f q p =>
      (isNan f q → p = F.canon) ∧
      (infinite f q → p = (if neg f q then 2 ^ (wd F - 1) else 0) + lastNumber F) ∧
      (finite f q → roundsTo .rne F (neg f q) (realOf f q) p)
    (∀ rm, w.ty ∈ [Ty.f16, .bf16, .f32] →
      conv (.fsqrt rm w) (fun l p =>
        let q := elem w.ty (a l) 0
        (isNan F q → p = F.canon) ∧ (mag F q = 0 → p = q) ∧ (infinite F q → neg F q = false → p = q) ∧
        (neg F q = true → mag F q ≠ 0 → p = F.canon) ∧
        (finite F q → neg F q = false → mag F q ≠ 0 → roundsTo rm F false (Real.sqrt (realOf F q)) p))) ∧
    (∀ rm, w.ty ∈ [Ty.f16, .bf16, .f32, .f16x2, .bf16x2] →
      Yields (.frnd rm w) s x w.ta w.tb 32 [x.opnd 0] fun l v => ∃ g, v = packed w.ty g ∧ ∀ k < 2,
        let q := elem w.ty (a l) k
        (isNan F q → g k = F.canon) ∧ (infinite F q → g k = q) ∧
        (finite F q → finite F (g k) ∧ neg F (g k) = neg F q ∧
          ∃ n : ℤ, chosenInt rm (neg F q) |realOf F q| n ∧ |realOf F (g k)| = n)) ∧
    (∀ src : Ty, src.signed = true ∨ src.unsigned = true →
      (w.ty.signed = true ∨ w.ty.unsigned = true → Gives (.cvt (.ty src) w) s x w w.ty.tokenWidth [x.opnd 0] fun l =>
        wrapped w.ty (Claim.sat w.ty (val src (a l)))) ∧
      (w.ty ∈ [Ty.f16, .bf16, .f32, .e4m3, .e5m2] → conv (.cvt (.ty src) w) fun l p =>
        roundsTo .rne F (decide (val src (a l) < 0)) (val src (a l)) p)) ∧
    (∀ src : Ty, src ∈ [Ty.f16, .bf16, .f32, .e4m3, .e5m2] →
      (w.ty.signed = true ∨ w.ty.unsigned = true →
        Yields (.cvt (.ty src) w) s x w.ta w.tb w.ty.tokenWidth [x.opnd 0] fun l v =>
          let f := fmtOf src
          let q := elem src (a l) 0
          (isNan f q → v = 0) ∧
          (infinite f q → v = wrapped w.ty (Claim.sat w.ty (if neg f q then -(2 ^ 64) else 2 ^ 64))) ∧
          (finite f q → ∃ n : ℤ, n = (if realOf f q < 0 then ⌈realOf f q⌉ else ⌊realOf f q⌋) ∧
            v = wrapped w.ty (Claim.sat w.ty n))) ∧
      (w.ty ∈ [Ty.f16, .bf16, .f32, .e4m3, .e5m2] → conv (.cvt (.ty src) w) fun l p =>
        rounded (fmtOf src) (elem src (a l) 0) p)) ∧
    (w.ty ∈ [Ty.f16, .bf16, .f32, .e4m3, .e5m2] → conv (.cvt .e8m0 w) fun l p =>
      let k := ((a l).extractLsb' 0 8).toNat
      (k = 255 → p = F.canon) ∧ (k ≠ 255 → roundsTo .rne F false ((2 : ℝ) ^ ((k : ℤ) - 127)) p)) ∧
    (∀ src : Ty, src ∈ [Ty.f16x2, .bf16x2] → w.ty ∈ [Ty.f16x2, .bf16x2] →
      Yields (.cvt (.ty src) w) s x w.ta w.tb 32 [x.opnd 0] fun l v => ∃ g, v = packed w.ty g ∧
        ∀ k < 2, rounded (fmtOf src) (elem src (a l) k) (g k)) ∧
    (w.ty ∈ [Ty.f16x2, .bf16x2] → ∃ t0 t1,
      exec (.unpk w) s = .next (x.mod s fun b => b.finish x.i w.ta w.tb t0 t1) ∧
      ∀ k < 2, Lanewise (if k = 0 then t0 else t1) 32 (x.opnd 0).uni (x.opnd 0).mask fun l v =>
        ∃ p, v = BitVec.ofNat 128 p ∧
          (isNan F (elem w.ty (a l) k) → p = 0x7FC0_0000) ∧
          (infinite F (elem w.ty (a l) k) → p = (if neg F (elem w.ty (a l) k) then 0xFF80_0000 else 0x7F80_0000)) ∧
          (finite F (elem w.ty (a l) k) → finite f32 p ∧ neg f32 p = neg F (elem w.ty (a l) k) ∧
            realOf f32 p = realOf F (elem w.ty (a l) k)))

/-- R110 to R112, R182 and R183: LQD decodes a code under a scale, SCLX scales each element, both saturating to the
largest finite value; an instruction one of whose lanes saturated keeps one count for its block's commit (R115). -/
def Obligations.ScaledWeightResult : Prop :=
  ∀ s x, site? s = some x → ∀ w : Plain,
    let a := fun l => (x.opnd 0).at_ l
    let k := fun l => (((x.opnd 1).at_ l).extractLsb' 0 8).toNat
    let ops := [x.opnd 0, x.opnd 1]
    let counting : Instr → Nat → (Nat → Val → Prop) → (Nat → Prop) → Prop := fun i width P sat => ∃ t,
      Lanewise t width (uniOf ops) (maskOf ops) P ∧
      ((∃ l, (maskOf ops).has l = true ∧ sat l) → exec i s = .next (x.commitWith s w.ta w.tb t .satCount)) ∧
      ((¬ ∃ l, (maskOf ops).has l = true ∧ sat l) → exec i s = .next (x.yield s w.ta w.tb t))
    let half : Nat → Nat → Int := fun l i =>
      if (a l).getLsbD (7 + i) then (if (a l).getLsbD 15 then 5 else 3) else 1
    let weight : Nat → Nat → ℝ := fun l i => (half l i : ℝ) / 2 * 2 ^ ((k l : ℤ) - 127)
    let part : Ty → Nat → Nat → Nat := fun t l i => if t = .f32 then ((a l).extractLsb' 0 32).toNat else
      ((a l).extractLsb' (16 * i) 16).toNat
    let F : Ty → Fmt := fun t => if t = .f32 then f32 else bf16
    let big : Ty → Nat → Nat → Prop := fun t l i => k l ≠ 255 ∧ finite (F t) (part t l i) ∧
      magVal (F t) (F t).top < |realOf (F t) (part t l i)| * 2 ^ ((k l : ℤ) - 127)
    counting (.lqd w) 128
      (fun l v => ∃ minus : Nat → Bool, (∀ i < 7, minus i = (a l).getLsbD i) ∧
        ((List.range 8).map fun i => if minus i then -half l i else half l i).sum % 4 = 0 ∧
        ∀ i < 8,
          let p := (v.extractLsb' (16 * i) 16).toNat
          (k l = 255 → p = 0x7FC0) ∧
          (k l ≠ 255 → magVal bf16 bf16.top < weight l i → p = (if minus i then 0xFF7F else 0x7F7F)) ∧
          (k l ≠ 255 → weight l i ≤ magVal bf16 bf16.top → neg bf16 p = minus i ∧ magVal bf16 (mag bf16 p) = weight l i))
      (fun l => k l ≠ 255 ∧ ∃ i < 8, magVal bf16 bf16.top < weight l i) ∧
    (w.ty ∈ [Ty.bf16, .f32, .bf16x2, .b128] →
      counting (.sclx w) w.ty.tokenWidth
        (fun l v => v.toNat < 2 ^ w.ty.width ∧ ∀ i < (if w.ty = .f32 then 1 else w.ty.width / 16),
          let f := F w.ty
          let q := part w.ty l i
          let p := if w.ty = .f32 then (v.extractLsb' 0 32).toNat else (v.extractLsb' (16 * i) 16).toNat
          (k l = 255 ∨ isNan f q → p = f.canon) ∧
          (k l ≠ 255 → mag f q = 0 ∨ infinite f q → p = q) ∧
          (big w.ty l i → p = (if neg f q then 2 ^ (wd f - 1) else 0) + f.top) ∧
          (k l ≠ 255 → finite f q → mag f q ≠ 0 → ¬ big w.ty l i →
            roundsTo .rne f (neg f q) (realOf f q * 2 ^ ((k l : ℤ) - 127)) p))
        fun l => ∃ i < (if w.ty = .f32 then 1 else w.ty.width / 16), big w.ty l i)

/-! ## Lanes (10_ref_lanes) -/

/-- R187 and R188: what a collective does when it fires. With no lane it completes at once with an empty token; a wrong
member mask faults; otherwise its lanes arrive, at a new instance or at the one that waits, whose member mask must be the
same. `p` is the place of the strand; no result is kept for a re-run and no earlier block has the same collective open.
Log entry 19 names what in it is the model's reading or choice. -/
def Obligations.CollectiveArrival : Prop :=
  ∀ s x p, site? s = some x → x.place s = some p → x.sameOpen = false →
    (∀ r ∈ p.g.replay, ¬ (r.blk = some x.b.uid ∧ r.index = x.i)) →
    ∀ (w : Plain) i n j, (i, n, j) ∈
      ((([ShflMode.idx, .up, .down, .xor].map fun m => (Instr.shfl m w, 3, 2)) ++
        ([VoteMode.all, .any, .ballot, .uni].map fun m => (Instr.vote m w, 2, 1)) ++
        ([RedMode.add, .min, .max, .and, .or, .xor].map fun m => (Instr.redux m w, 2, 1)) ++
        [(Instr.elect false w, 1, 0), (Instr.elect true w, 1, 0), (Instr.xshfl w, 3, 2)] : List (Instr × Nat × Nat))) →
    let m := maskOf ((List.range n).map x.opnd)
    let k : Mask := (x.opnd j).scalar64
    let me := (x.key, x.b.uid, m, x.opnd 0, x.opnd 1)
    let hold : Blk → Blk := fun b => { b.fire x.i with waits := put b.waits x.i .collective }
    let waiting := s.colls.find? fun c => c.group == p.gk && c.addr == x.b.addr && c.index == x.i && !c.full
    let wrong := (∃ l, m.has l = true ∧ k.has l = false) ∨ (∃ l, x.b.mask.has l = true ∧ k.has l = true ∧ m.has l = false) ∨
      ∃ l, k.has l = true ∧ (p.g.width ≤ l ∨ ∃ q, x.st.task = some q ∧ (laneSet p.g q).has l = false)
    let gone := ∃ l, k.has l = true ∧ l < p.g.width ∧ p.g.live.has l = false
    let parked := ∃ l, k.has l = true ∧ ∃ q ∈ p.g.parked, q.succ = none ∧ q.mask.has l = true
    (m = 0 → ∃ t, exec i s = .next (x.yield s w.ta w.tb t) ∧ t.mask = 0) ∧
    (m ≠ 0 → wrong → exec i s = .next (x.fault s .illegalConvergence m x.b.addr)) ∧
    (m ≠ 0 → ¬ wrong → gone → exec i s = .next (x.fault s .memberExited m x.b.addr)) ∧
    (m ≠ 0 → ¬ wrong → ¬ gone → parked → exec i s = .next (x.fault s .illegalConvergence m x.b.addr)) ∧
    (m ≠ 0 → ¬ wrong → ¬ gone → ¬ parked → waiting = none → exec i s = .next (x.mod
      { s with uid := s.uid + 1, colls := s.colls ++ [⟨s.uid, p.gk, x.b.addr, x.i, k, s.time.toNat, [me], false⟩] }
      hold)) ∧
    ∀ c, m ≠ 0 → ¬ wrong → ¬ gone → ¬ parked → waiting = some c →
      (c.member ≠ k → exec i s = .next (x.fault s .illegalConvergence m x.b.addr)) ∧
      (c.member = k → exec i s = .next (x.mod { s with colls := s.colls.map fun d =>
        if d.uid = c.uid then { d with arrivals := d.arrivals ++ [me] } else d } hold))

/-- R190 to R194: when every named lane has arrived, every participant gets its token, lane by lane, and the instance is
gone. `c.valA l` is the value lane l delivered to its own strand's instance, `c.valB l` the low 32 bits of its operand b;
REDUX combines in the tree of R117, where a missing one of a pair passes the other up, and a NaN is the canonical one, also
of a single lane (R106). An XSHFL gives each of its two groups tokens of the type of its own instruction.
Log entries 17 and 19 name what in it is the model's reading or choice: the widths of operands, the type of each side's
XSHFL token and the exchange's identifier. -/
def Obligations.CollectiveResult : Prop :=
  ∀ s c ctx co g, s.colls.find? (fun d => d.uid == c.uid) = some c → c.full = true → c.offered = false →
    groupFacts s c.group = some (ctx, co, g) →
    let is : Instr → (Mask → Token → Prop) → Prop := fun i P => collInstr s c = some i →
      ∃ f, exec (.collectiveComplete c.uid) s = .next (completeColl s c f) ∧ ∀ m, P m (f m)
    let lane : Ty → Nat → BitVec 128 := fun t l => carried t (at_ t (c.valA l))
    let shfl : ShflMode → (Nat → Nat → Int) → Prop := fun mode src => ∀ w : Plain, is (.shfl mode w) fun m t =>
      Lanewise t w.ty.tokenWidth false m fun l v => v = lane w.ty
        (if 0 ≤ src l (c.valB l) ∧ src l (c.valB l) < g ∧ c.member.has (src l (c.valB l)).toNat = true
          then (src l (c.valB l)).toNat else l)
    let vote : VoteMode → ((Nat → Prop) → (Nat → Nat → Prop) → Val → Prop) → Prop := fun mode P =>
      ∀ w : Plain, is (.vote mode w) fun m t => Lanewise t w.ty.tokenWidth true m fun _ v =>
        P (fun l => at_ w.ty (c.valA l) ≠ 0) (fun l l' => at_ w.ty (c.valA l) = at_ w.ty (c.valA l')) v
    let leaf : Ty → Nat → BitVec 128 := fun t l =>
      if (t = .f16 ∨ t = .bf16 ∨ t = .f32) ∧ lastNumber (fmtOf t) < mag (fmtOf t) (elem t (c.valA l) 0)
        then BitVec.ofNat 128 (fmtOf t).canon else lane t l
    let tree : Ty → (Val → Val → Val) → Nat → Nat → Option Val := fun t op n =>
      Nat.rec (fun l => if c.member.has l then some (leaf t l) else none)
        (fun k below l => match below l, below (l + 2 ^ k) with
          | some p, some q => some (op p q)
          | some p, none => some p
          | none, q => q) n
    let redux : RedMode → (Ty → Prop) → (Ty → Val → Val → Val) → Prop := fun mode ok op => ∀ w : Plain, ok w.ty →
      is (.redux mode w) fun m t => Lanewise t w.ty.tokenWidth true m fun _ v =>
        some v = if c.member = 0 then some 0 else tree w.ty (op w.ty) 6 0
    let int : Ty → Prop := fun t => t.signed = true ∨ t.unsigned = true
    let flt : Ty → Prop := fun t => t = .f16 ∨ t = .bf16 ∨ t = .f32
    shfl .idx (fun _ b => b) ∧ shfl .up (fun l b => (l : Int) - b) ∧ shfl .down (fun l b => (l : Int) + b) ∧
    shfl .xor (fun l b => ((l ^^^ b : Nat) : Int)) ∧
    vote .all (fun nz _ v => ((∀ l, c.member.has l = true → nz l) → v = 1) ∧
      ((∃ l, c.member.has l = true ∧ ¬ nz l) → v = 0)) ∧
    vote .any (fun nz _ v => ((∃ l, c.member.has l = true ∧ nz l) → v = 1) ∧
      ((∀ l, c.member.has l = true → ¬ nz l) → v = 0)) ∧
    vote .ballot (fun nz _ v => v.toNat < 2 ^ 64 ∧
      ∀ l < 64, v.getLsbD l = true ↔ c.member.has l = true ∧ nz l) ∧
    vote .uni (fun _ same v =>
      ((∀ l l', c.member.has l = true → c.member.has l' = true → same l l') → v = 1) ∧
      ((∃ l l', c.member.has l = true ∧ c.member.has l' = true ∧ ¬ same l l') → v = 0)) ∧
    redux .add int (fun t p q => wrapped t (val t p + val t q)) ∧
    redux .min int (fun t p q => if val t p ≤ val t q then p else q) ∧
    redux .max int (fun t p q => if val t q ≤ val t p then p else q) ∧
    redux .and int (fun t p q => carried t (at_ t p &&& at_ t q)) ∧
    redux .or int (fun t p q => carried t (at_ t p ||| at_ t q)) ∧
    redux .xor int (fun t p q => carried t (at_ t p ^^^ at_ t q)) ∧
    redux .add flt (fun t p q => BitVec.ofNat 128 (Machine.round .rne (fmtOf t)
      (Fp.add .rne (Fp.ofBits (fmtOf t) (elem t p 0)) (Fp.ofBits (fmtOf t) (elem t q 0))))) ∧
    redux .min flt (fun t p q => BitVec.ofNat 128 (fpick true (fmtOf t) (elem t p 0) (elem t q 0))) ∧
    redux .max flt (fun t p q => BitVec.ofNat 128 (fpick false (fmtOf t) (elem t p 0) (elem t q 0))) ∧
    (∀ hi (w : Plain), is (.elect hi w) fun m t => Lanewise t 32 false m fun l v =>
      c.member.has l = true → (v = 1 ∨ v = 0) ∧
        (v = 1 ↔ ∀ l', c.member.has l' = true → if hi then l' ≤ l else l ≤ l')) ∧
    ∀ w : Plain, collInstr s c = some (.xshfl w) →
      let key : Offer → Bool := fun o => o.ctx == ctx && o.xid == exchangeId c && o.cluster != co / 4
      ((∀ o ∈ (die s (dieOf co)).offers, key o = false) →
        exec (.collectiveComplete c.uid) s = .next
          (modDie { s with
            uid := s.uid + 1
            colls := s.colls.map fun e => if e.uid = c.uid then { e with offered := true } else e } (dieOf co)
            fun d => { d with offers := d.offers ++ [⟨s.uid, ctx, exchangeId c, co / 4, c.uid, s.time.toNat⟩] })) ∧
      ∀ o e (we : Plain), (die s (dieOf co)).offers.find? key = some o → s.colls.find? (fun e => e.uid == o.inst) = some e →
        collInstr s e = some (.xshfl we) → ∃ f f', exec (.collectiveComplete c.uid) s = .next (completeColl (completeColl
            (modDie s (dieOf co) fun d => { d with offers := d.offers.filter fun q => q.uid != o.uid }) c f) e f') ∧
          (∀ m, Lanewise (f m) w.ty.tokenWidth false m fun l v =>
            v = carried w.ty (at_ w.ty (if e.arrived.has l then e.valA l else c.valA l))) ∧
          ∀ m, Lanewise (f' m) we.ty.tokenWidth false m fun l v =>
            v = carried we.ty (at_ we.ty (if c.arrived.has l then c.valA l else e.valA l))

/-- R196, R197 and R200: MASK drops the removed lanes' choices and yields the new mask, REGANG's lanes choose to arrive at
the label, BAR and ARRV keep their arrivals for the commit. Member masks that name a lane the group lacks or that leave a
lane of a out fault ILLEGAL_CONVERGENCE, one that names a lane that has quit MEMBER_EXITED. Outside trap mode.
Log entry 19 names what in it is the model's reading or choice. -/
def Obligations.MaskRegangBarrier : Prop :=
  ∀ s x p, site? s = some x → x.place s = some p → x.st.trap = false →
    let a := x.opnd 0
    let k : Mask := a.scalar64
    let label : ExitW → Word := fun w => BitVec.ofNat 64 x.b.addr + (w.off.signExtend 64) * 16
    let named := ∃ l, k.has l = true ∧ (p.g.width ≤ l ∨ ∃ q, x.st.task = some q ∧ (laneSet p.g q).has l = false)
    let within := ∀ l, a.mask.has l = true → k.has l = true
    let gone := ∃ l, k.has l = true ∧ l < p.g.width ∧ p.g.live.has l = false
    let other : Nat → Prop := fun n => (∃ q, (p.g.bar n).member = some q ∧ q ≠ k ∧ a.mask &&& ~~~(p.g.bar n).arrived ≠ 0) ∨
      ∃ q, (p.g.bar n).memberNext = some q ∧ q ≠ k ∧ a.mask &&& (p.g.bar n).arrived ≠ 0
    (∀ w : Plain, a.mask ≠ 0 → (∃ l, k.has l = true ∧ p.g.width ≤ l) →
      exec (.mask false w) s = .next (x.fault s .illegalConvergence a.mask x.b.addr)) ∧
    (∀ keep (w : Plain), (keep = false → a.mask ≠ 0 → ∀ l, k.has l = true → l < p.g.width) → ∃ (r : Mask) (t : Token),
      (∀ l, r.has l = if keep then a.mask.has l && decide (at_ .n64 (a.at_ l) = 0)
        else decide (a.mask ≠ 0) && x.b.mask.has l && !k.has l) ∧
      Lanewise t 64 true a.mask (fun _ v => v = (x.b.mask &&& ~~~r).setWidth 128) ∧
      exec (.mask keep w) s = .next (x.mod s fun b =>
        let b := b.finish x.i w.ta w.tb t t
        { b with removed := b.removed ||| r, choices := b.choices.filter fun e => !r.has e.1 })) ∧
    (∀ w : ExitW, w.indirect = false →
      (a.mask = 0 → exec (.regang w) s = .next (x.mod s fun b => b.resolve x.i)) ∧
      (a.mask ≠ 0 → named ∨ ¬ within → exec (.regang w) s = .next (x.fault s .illegalConvergence a.mask x.b.addr)) ∧
      (a.mask ≠ 0 → ¬ named → within → gone → exec (.regang w) s = .next (x.fault s .memberExited a.mask x.b.addr)) ∧
      (a.mask ≠ 0 → ¬ named → within → ¬ gone →
        (∀ l, a.mask.has l = true → x.b.removed.has l = false → find x.b.choices l = none) → ∃ b,
        exec (.regang w) s = .next (x.mod s fun _ => b) ∧
        (∀ l, find b.choices l = if (a.mask &&& ~~~x.b.removed).has l then some (.regang (label w) k)
          else find x.b.choices l) ∧
        b = { x.b with
          choices := b.choices
          fired := x.b.fired ||| Mask.one x.i
          resolved := x.b.resolved ||| Mask.one x.i
          waits := del x.b.waits x.i })) ∧
    ∀ n (w : Plain), ∀ i ∈ [(Instr.bar n w, true), (.arrv n w, false)],
      (a.mask = 0 → exec i.1 s = .next (x.mod s fun b => b.resolve x.i)) ∧
      (a.mask ≠ 0 → named ∨ ¬ within ∨ other n.toNat →
        exec i.1 s = .next (x.fault s .illegalConvergence a.mask x.b.addr)) ∧
      (a.mask ≠ 0 → ¬ named → within → ¬ other n.toNat → gone →
        exec i.1 s = .next (x.fault s .memberExited a.mask x.b.addr)) ∧
      (a.mask ≠ 0 → ¬ named → within → ¬ other n.toNat → ¬ gone → exec i.1 s = .next (x.mod s fun b =>
        { b.resolve x.i with effects := b.effects ++ [(x.i, .barArrive n.toNat a.mask k i.2)] }))

/-! ## Memory (11_memories, 12_ordering, 13_ref_memory) -/

/-- R241, with R203, R209, R214, R215 and R218: the checks of an access on a page that the core's TLB holds, in their
order, and of one through a window (R212); over the lanes, the first check that any lane fails decides, at its lowest
lane.
Log entry 14 names what in it is the model's reading or choice. -/
def Obligations.AccessChecksInOrder : Prop :=
  (∀ s c ctx va size u e, tlbHit s c ctx va e →
    let pa := pteFrame e.pte + (va - e.va)
    let p := pa % 2 ^ 51
    let home := homeOf s p (pteHome e.pte)
    let writes := u = Use.store ∨ u = Use.atomicI ∨ u = Use.atomicF
    firstOf (vaCheck s c ctx va size u).1
      ⟨pa, home, pteW e.pte, pteAtom e.pte, pteCache e.pte, ptePoison e.pte, pteMig e.pte⟩
      [(2 ^ 52 ≤ va, 1, .pageFault),
       (va % size ≠ 0, 2, .misaligned),
       (populated pa = false ∨ (kindAt p = .view ∧ viewWin s p = none) ∨ (writes ∧ pteW e.pte = false), 3,
        .accessViolation),
       (dieUp s home = false, 4, .dieOffline),
       (writes ∧ (kindAt p = .view ∨ (isRaw pa = false ∧ inStorage s p = true)), 5, .formatReadOnly),
       ((u = Use.atomicI ∨ u = Use.atomicF ∨ u = Use.lock) ∧
          (pteAtom e.pte = 2 ∨ (u = Use.atomicF ∧ pteAtom e.pte = 1) ∨ kindAt p = .window ∨
            (kindAt p = .host ∧ (pteCache e.pte = 2 ∨ pteAtom e.pte = 1))), 6, .atomicUnsupported),
       (ptePoison e.pte = true ∧ u ≠ Use.line, 7, .poisonConsumed)]) ∧
  (∀ s c ctx w (e : Word) size u,
    (e.toNat < winLimit w.bits → (winVbase w.bits + e.toNat) % size ≠ 0 →
      winCheck s c ctx w e size u = (.error (2, .misaligned), s)) ∧
    (winLimit w.bits ≤ e.toNat → winCheck s c ctx w e size u =
      vaCheck s c ctx ((BitVec.ofNat 64 (winVbase w.bits) + e).toNat) size u) ∧
    ∀ a, winCheck s c ctx w e size u = (.ok a, s) → e.toNat < winLimit w.bits →
      a.pa = winFrame w.bits + winVbase w.bits % 4096 + e.toNat ∧ a.w = w.rights.w ∧ a.atom = w.rights.atom ∧
        a.cache = w.rights.cache) ∧
  ∀ rs : List (Nat × Except (Nat × FaultCode) Acc), (rs.map Prod.fst).Pairwise (· < ·) →
    (firstFailure rs = none ↔ ∀ r ∈ rs, ∃ a, r.2 = .ok a) ∧
    ∀ k l c, firstFailure rs = some (k, l, c) ↔ (l, .error (k, c)) ∈ rs ∧
      ∀ l' k' c', (l', .error (k', c')) ∈ rs → k < k' ∨ (k = k' ∧ l ≤ l')

/-- R208 to R211: a walk goes from the context's root by VA [51:39], [38:30], [29:21] and [20:12] to a leaf, whose page
is 1 GiB, 2 MiB, 4 KiB or, of sixteen equal entries, 64 KiB, and PAGE_WALK fills the two TLBs with it; an invalid entry on the way is a PAGE_FAULT, a leaf at
level 0 an ACCESS_VIOLATION, and neither fills a TLB.
Log entry 14 names what in it is the model's reading or choice. -/
def Obligations.PageWalks : Prop :=
  (∀ s p, p % 8 = 0 → kindAt p = .hbm → dieUp s (bitsOf p 37 2) = true → homePoisoned s p = false →
    (∀ h ∈ s.held, h.line ≠ lineOf p) → readPte s p = .ok (BitVec.ofNat 64 (readLE s.mem p 8))) ∧
  (∀ s c ctx va root e3 e2 e1 e0, find s.roots ctx = some root → va < 2 ^ 52 →
    (core s c).tlb.find? (fun e => e.hits ctx va) = none → s.ptlb.find? (fun e => e.hits ctx va) = none →
    let next : Word → Prop := fun e => pteV e = true ∧ pteL e = false ∧ populated (pteFrame e) = true
    let leaf : Word → Nat → Prop := fun e n => pteV e = true ∧ pteL e = true ∧ leafOk e n = true
    let ends : Nat → Word → Prop := fun n e =>
      let t : TlbEntry := ⟨ctx, va / n * n, n, e⟩
      walk s ctx va = .page t ∧ exec (.pageWalk c ctx va) s = .next
        (modCore { s with ptlb := (t :: s.ptlb).take 16384 } c fun k => { k with tlb := (t :: k.tlb).take 1024 })
    let fails : FaultCode → Prop := fun f => walk s ctx va = .fault f ∧ exec (.pageWalk c ctx va) s = .next s
    readPte s (root + 8 * (va / 2 ^ 39 % 8192)) = .ok e3 →
    (pteV e3 = false → fails .pageFault) ∧ (pteV e3 = true → pteL e3 = true → fails .accessViolation) ∧
    (next e3 → readPte s (pteFrame e3 + 8 * (va / 2 ^ 30 % 512)) = .ok e2 →
      (pteV e2 = false → fails .pageFault) ∧ (leaf e2 (2 ^ 30) → ends (2 ^ 30) e2) ∧
      (next e2 → readPte s (pteFrame e2 + 8 * (va / 2 ^ 21 % 512)) = .ok e1 →
        (pteV e1 = false → fails .pageFault) ∧ (leaf e1 (2 ^ 21) → ends (2 ^ 21) e1) ∧
        (next e1 → readPte s (pteFrame e1 + 8 * (va / 2 ^ 12 % 512)) = .ok e0 →
          (pteV e0 = false → fails .pageFault) ∧ (leaf e0 (2 ^ 12) → pteS64 e0 = false → ends (2 ^ 12) e0) ∧
          (pteS64 e0 = true → leaf e0 (2 ^ 16) →
            (∀ k < 16, readPte s ((pteFrame e1 + 8 * (va / 2 ^ 12 % 512)) / 128 * 128 + 8 * k) = .ok e0) →
            ends (2 ^ 16) e0) ∧
          (pteV e0 = true → pteL e0 = false → fails .accessViolation))))) ∧
  ∀ s c ctx va, find s.roots ctx = none → (core s c).tlb.find? (fun e => e.hits ctx va) = none →
    s.ptlb.find? (fun e => e.hits ctx va) = none → walk s ctx va = .fault .pageFault ∧
      exec (.pageWalk c ctx va) s = .next s

/-- R240 to R243: LD and LDC perform once their checks pass and no earlier store or barrier of the strand holds them, LDC
relative to %cbase; when the last lane's line is at hand the token goes out with each lane's bytes, little-endian and
extended. LDS reads the scratchpad at once, and its acquire form takes effect with it. With an empty mask nothing is checked.
Log entry 13 names what in it is the model's reading or choice. -/
def Obligations.LoadsPerform : Prop :=
  (∀ s x p (w : MemW), site? s = some x → x.place s = some p →
    let off : Token → Word → Token := fun a base =>
      { a with val := (base + a.val.setWidth 64).setWidth 128,
               lanes := mapVals a.lanes fun v => (base + v.setWidth 64).setWidth 128 }
    let performs : Instr → Token → Prop := fun i a =>
      (a.mask = 0 → ∃ t, exec i s = .next (x.yield s w.ta w.tb t) ∧ t.mask = 0) ∧
      ∀ accs t, a.mask ≠ 0 → x.mayLoad = true →
        allPass s x p.w.ctx w a w.ty.bytes .load (accLanes a.uni a.mask) accs t →
        (∀ c ∈ accs, x.meetsBuffered false (c.pa % 2 ^ 51) w.ty.bytes = false) →
        exec i s = .next (x.performLoad t p w a.uni a.mask ((accLanes a.uni a.mask).zip accs) [] (laneAddr x.b w a))
    performs (.ld w) (off (x.opnd 0) 0) ∧
    performs (.ldc w) (off (if w.count = 0 then uniTok 64 x.b.mask 0 else x.opnd 0) p.g.cbase)) ∧
  (∀ s key uid i lane (l : Line) q b ty uni m lanes acq y, findBlk s uid = some (key, b) →
    find b.waits i = some (.load ty uni m lanes acq) → y ∈ lanes → y.lane = lane →
    (lanes.map LaneLoad.lane).Nodup → (∀ z ∈ lanes, z.lane ≠ lane → z.got.isSome = true) → (∀ z ∈ lanes, z.bad = none) →
    (∀ l, m.has l = true → uni = true ∨ ∃ z ∈ lanes, z.lane = l) → (uni = true → lanes = [y]) →
    q.getLsbD (y.pa % 128 / 64) = false → y.pa < 2 ^ 51 → ∃ t b', Lanewise t ty.tokenWidth uni m
        (fun n v => ∃ z ∈ lanes, (uni = true ∨ z.lane = n) ∧ v = carried ty (BitVec.ofNat ty.width
          (if z.lane = lane then lineBytes l (y.pa % 128) ty.bytes else (z.got.getD 0).toNat))) ∧
      findBlk (giveLane s key uid i lane (l, q)) uid = some (key, b') ∧ b'.resolved = b.resolved ||| Mask.one i ∧
      reached b' (targetsOf b i).1 t ∧ reached b' (targetsOf b i).2 t) ∧
  ∀ s x p (w : MemW), site? s = some x → x.place s = some p →
    let a := x.opnd 0
    let e : Nat → Nat := fun l => ((a.at_ l).setWidth 64 + w.off.signExtend 64 : Word).toNat
    (a.mask = 0 → ∃ t, exec (.lds w) s = .next (x.yield s w.ta w.tb t) ∧ t.mask = 0) ∧
    ∀ k : Nat → Nat, a.mask ≠ 0 → x.mayLoad = true →
      (∀ l ∈ accLanes a.uni a.mask, scratchCheck p x.core w.ty.bytes (e l) = .ok (k l) ∧
        scratchPoisoned p.w (k l) w.ty.bytes = false ∧ x.meetsBuffered true (k l) w.ty.bytes = false) →
      ∃ t, exec (.lds w) s = .next (if w.order.toNat % 2 = 1 ∧ beyondCore p w.scope.toNat = true
          then noteAcquire (x.yield s w.ta w.tb t) x.key x.b.uid else x.yield s w.ta w.tb t) ∧ Lanewise t w.ty.tokenWidth a.uni a.mask fun l v =>
        ∃ l' ∈ accLanes a.uni a.mask, (a.uni = true ∨ l' = l) ∧
          v = carried w.ty (BitVec.ofNat w.ty.width (readLE p.w.scratch (k l') w.ty.bytes))

/-- R242 and R244: ST and STS buffer each lane's bytes for the commit at the address their checks give, a uniform store
once, and deliver a uniform 0 of the type's width; they store nothing yet. -/
def Obligations.StoresBuffered : Prop :=
  ∀ s x p (w : MemW), site? s = some x → x.place s = some p →
    let a := x.opnd 0
    let d := x.opnd 1
    let m := a.mask &&& d.mask
    let uni := a.uni && d.uni
    let n := w.ty.bytes
    let rel : Option Nat := if w.order = 2 ∨ w.order = 3 then some w.scope.toNat else none
    let low : Nat → Val := fun l => BitVec.ofNat 128 ((d.at_ l).toNat % 2 ^ (8 * n))
    let zero := uniTok w.ty.tokenWidth m 0
    (m = 0 → ∀ i ∈ [Instr.st w, .sts w], exec i s = .next (x.yield s w.ta w.tb zero)) ∧
    (∀ accs t, m ≠ 0 → allPass s x p.w.ctx w a n .store (accLanes uni m) accs t →
      exec (.st w) s = .next (x.mod (usePages t x ((accLanes uni m).map (laneAddr x.b w a))) fun b =>
        { b.finish x.i w.ta w.tb zero zero with stores := b.stores ++ [⟨x.i, false, rel,
          List.zipWith (fun l (c : Acc) => ⟨c.pa, laneAddr x.b w a l, n, low l, c.home, c.cache⟩) (accLanes uni m) accs⟩] })) ∧
    ∀ k : Nat → Nat, m ≠ 0 →
      (∀ l ∈ accLanes uni m, scratchCheck p x.core n (((a.at_ l).setWidth 64 + w.off.signExtend 64 : Word).toNat) =
        .ok (k l)) →
      exec (.sts w) s = .next (x.mod s fun b =>
        { b.finish x.i w.ta w.tb zero zero with stores := b.stores ++ [⟨x.i, true, rel,
          (accLanes uni m).map fun l => ⟨k l, 0, n, low l, 0, 0⟩⟩] })

/-- R220, R222 and R230: HOME_STORE_APPLY writes exactly the bytes of a posted store at its home, leaves every other byte of
memory as it was, and cleans a sector it wholly covers (R218); it waits behind earlier stores and while an uncommitted
block's atomics hold the line; a store from another die first enters its die's copy slice, memory unchanged.
Log entries 13 and 16 name what in it is the model's reading or choice. -/
def Obligations.StoreReachesHome : Prop :=
  ∀ s p, Memory.wf s.mem = true → s.posted.find? (fun q => q.uid == p.uid) = some p →
    let ahead := s.posted.takeWhile fun q => q.uid != p.uid
    let held := s.held.any fun h => h.line == p.line
    let written := ∃ t, exec (.homeStoreApply p.uid) s = .next t ∧
      (∀ k < 128, readByte t.mem (p.line + k) =
        if p.bytes.getLsbD k then p.data.extractLsb' (8 * k) 8 else readByte s.mem (p.line + k)) ∧
      (∀ a, a < p.line ∨ p.line + 128 ≤ a → readByte t.mem a = readByte s.mem a) ∧
      (∀ k < 2, p.line % 128 = 0 → poisoned t (p.line + 64 * k) =
        (poisoned s (p.line + 64 * k) && !(List.range 64).all fun j => p.bytes.getLsbD (64 * k + j))) ∧
      ∀ d < 4, d ≠ p.die → (∀ r ∈ s.reqs, r.die = d → r.line = p.line → r.reply = none) →
        find (die t d).copies p.line = none
    (p.stage = 0 → (∃ q ∈ ahead, q.core = p.core ∧ q.line = p.line ∧ q.stage = 0) ∨
        (∃ q ∈ s.posted, q.uid ∈ p.deps ∧ q.stage = 0) ∨ (p.home = p.die ∧ held = true) →
      exec (.homeStoreApply p.uid) s = .next s) ∧
    (p.stage = 1 → (∃ q ∈ ahead, q.die = p.die ∧ q.line = p.line ∧ q.stage ≠ 0) ∨ held = true →
      exec (.homeStoreApply p.uid) s = .next s) ∧
    (dieUp s p.home = true → held = false →
      (p.stage = 0 → p.home = p.die → (∀ q ∈ ahead, ¬ (q.core = p.core ∧ q.line = p.line ∧ q.stage = 0)) →
        (∀ q ∈ s.posted, q.uid ∈ p.deps → q.stage ≠ 0) → written) ∧
      (p.stage = 1 → (∀ q ∈ ahead, ¬ (q.die = p.die ∧ q.line = p.line ∧ q.stage ≠ 0)) → written)) ∧
    (p.stage = 0 → p.home ≠ p.die → (∀ q ∈ ahead, ¬ (q.core = p.core ∧ q.line = p.line ∧ q.stage = 0)) →
      (∀ q ∈ s.posted, q.uid ∈ p.deps → q.stage ≠ 0) → ∃ t, exec (.homeStoreApply p.uid) s = .next t ∧ t.mem = s.mem ∧
        t.posted = (s.posted.filter fun q => q.uid != p.uid) ++ [{ p with stage := 1 }])

/-- R230 and R246: an atomic sends one request a lane to its home; ATOMIC_HOME_PERFORM replaces the word by the new value
of its operation, leaves every other byte, holds the line for the block, and gives the lane the old value; it waits behind
an atomic of its block on the same word and on a line held for a block that fired earlier.
Log entry 13 names what in it is the model's reading or choice. -/
def Obligations.AtomicsPerform : Prop :=
  (∀ s x p (w : MemW), site? s = some x → x.place s = some p → x.storesOpen = false →
    (∀ k < x.i, x.b.fired.has k = false → ∀ j, x.b.instr k = some j → isAtomic j = false) →
    ∀ e ∈ [(Instr.aadd w, AtomOp.add, Use.atomicI), (.afadd w, .fadd, .atomicF), (.amin w, .min, .atomicI),
      (.amax w, .max, .atomicI), (.aand w, .and, .atomicI), (.aor w, .or, .atomicI), (.axor w, .xor, .atomicI),
      (.axchg w, .xchg, .atomicI), (.acas w, .cas, .atomicI)],
    let a := x.opnd 0
    let b := x.opnd 1
    let c := if e.2.1 = .cas then x.opnd 2 else immTok 0
    let m := a.mask &&& b.mask &&& c.mask
    let uni := a.uni && b.uni && c.uni
    let ls := accLanes uni m
    (m = 0 → ∃ t, exec e.1 s = .next (x.yield s w.ta w.tb t) ∧ t.mask = 0) ∧
    ∀ accs t, m ≠ 0 → allPass s x p.w.ctx w a w.ty.bytes e.2.2 ls accs t →
      (∀ c ∈ accs, x.meetsBuffered false (c.pa % 2 ^ 51) w.ty.bytes = false) → ∃ t', exec e.1 s = .next t' ∧
        t'.uid = t.uid + ls.length ∧ t'.mem = s.mem ∧
        t'.atoms = t.atoms ++ ((ls.zip accs).zipIdx.map fun q => ⟨t.uid + q.2, x.core / 48, x.key, x.b.uid, x.i, q.1.1,
          e.2.1, w.ty, q.1.2.pa % 2 ^ 51, q.1.2.home, lowBits w.ty.width (b.at_ q.1.1), lowBits w.ty.width (c.at_ q.1.1),
          x.b.time, decide (w.scope = 3), isRaw q.1.2.pa⟩)) ∧
  ∀ s a, Memory.wf s.mem = true → s.atoms.find? (fun q => q.uid == a.uid) = some a → dieUp s a.home = true →
    let line := a.pa / 128 * 128
    let t := a.ty
    let n := t.bytes
    let old : Val := BitVec.ofNat 128 (readLE s.mem a.pa n)
    let new : BitVec t.width := match a.op with
      | .add => at_ t old + at_ t a.b
      | .fadd => BitVec.ofNat t.width (Machine.round .rne f32
          (Fp.add .rne (Fp.ofBits f32 (old.extractLsb' 0 32).toNat) (Fp.ofBits f32 (a.b.extractLsb' 0 32).toNat)))
      | .min => if val t old ≤ val t a.b then at_ t old else at_ t a.b
      | .max => if val t a.b ≤ val t old then at_ t old else at_ t a.b
      | .and => at_ t old &&& at_ t a.b
      | .or => at_ t old ||| at_ t a.b
      | .xor => at_ t old ^^^ at_ t a.b
      | .xchg => at_ t a.b
      | .cas => if at_ t old = at_ t a.b then at_ t a.c else at_ t old
    let ahead := s.atoms.takeWhile fun q => q.uid != a.uid
    ((∃ q ∈ ahead, q.blk = a.blk ∧ q.pa = a.pa) → exec (.atomicHomePerform a.uid) s = .next s) ∧
    ((∀ q ∈ ahead, ¬ (q.blk = a.blk ∧ q.pa = a.pa)) → (∀ p ∈ s.posted, ¬ (p.line = line ∧ p.die = a.die)) →
      (∀ r ∈ s.reqs, r.line = line → r.reply = none) → poisoned s a.pa = false → get s.pkgCache line 0 = 0 →
      (∀ h, s.held.find? (fun h => h.line == line && h.blk != a.blk) = some h → firedLater s a h = true →
        exec (.atomicHomePerform a.uid) s = .next s) ∧
      ((∀ h ∈ s.held, h.line = line → h.blk = a.blk) →
        (t.width = 32 ∨ t.width = 64) → (a.op = .fadd → t = .f32) → ∃ u, exec (.atomicHomePerform a.uid) s = .next u ∧
        readLE u.mem a.pa n = new.toNat ∧
        (∀ k, k < a.pa ∨ a.pa + n ≤ k → readByte u.mem k = readByte s.mem k) ∧
        (∃ h ∈ u.held, h.line = line ∧ h.blk = a.blk) ∧ (∀ q ∈ u.atoms, q.uid ≠ a.uid) ∧
        ∀ key b ty uni m lanes acq y, findBlk s a.blk = some (key, b) →
          find b.waits a.index = some (.atomic ty uni m lanes acq) → y ∈ lanes → y.lane = a.lane →
          (lanes.map LaneLoad.lane).Nodup → (∃ z ∈ lanes, z.lane ≠ a.lane ∧ z.got = none ∧ z.bad = none) → ∃ b' lanes',
          findBlk u a.blk = some (key, b') ∧ find b'.waits a.index = some (.atomic ty uni m lanes' acq) ∧
          { y with got := some old } ∈ lanes' ∧ ∀ z ∈ lanes, z.lane ≠ a.lane → z ∈ lanes'))

/-- R227, R245, R247, R248 and R250 to R252: FENCE resolves once its strand's earlier blocks, its earlier loads and the
stores at its scope are done, and waits until then; FLSIG keeps its drain for the commit once its signal address passes;
WIN yields a window of its page; INVL drops the lines it names from L1, and with .all every line but locked ones; WBL resolves once nothing of its lines is on the way;
PREF asks for each lane's line. The token value of INVL and WBL is open.
Log entries 6 and 18 name what in it is the model's reading or choice. -/
def Obligations.FencesAndCacheOperations : Prop :=
  ∀ s x p, site? s = some x → x.place s = some p →
    (∀ sc (w : Plain),
      let ready := x.earlier = [] ∧ openBelow x.b x.i reads = false ∧ storesVisible s p x.b.mask sc.toNat = true
      (¬ ready → exec (.fence sc w) s = .next s) ∧
      (ready → ∃ t, exec (.fence sc w) s = .next (if 3 ≤ sc.toNat ∨ (sc.toNat = 2 ∧ p.l.coop = true)
          then noteAcquire (x.yield s w.ta w.tb t) x.key x.b.uid else x.yield s w.ta w.tb t) ∧
        Lanewise t 32 true x.b.mask fun _ v => v = 0)) ∧
    (∀ add (w : MemW),
      let a := x.opnd 0
      let b := x.opnd 1
      let m := a.mask &&& b.mask
      let va := (a.scalar64 + w.off.signExtend 64).toNat
      let sys := decide (w.scope = 3)
      (w.count = 0 → exec (.flsig add w) s =
        .next (x.commitWith s w.ta w.tb (uniTok w.ty.tokenWidth x.b.mask 0) (.flsig none false sys))) ∧
      (w.count ≠ 0 → m = 0 → exec (.flsig add w) s = .next (x.yield s w.ta w.tb (uniTok w.ty.tokenWidth m 0))) ∧
      ∀ c t, w.count ≠ 0 → m ≠ 0 →
        vaCheck s x.core p.w.ctx va 8 (if add then .atomicI else .store) = (.ok c, t) →
        exec (.flsig add w) s = .next (x.commitWith (usePages t x [va]) w.ta w.tb (uniTok w.ty.tokenWidth m 0)
          (.flsig (some ⟨c.pa, va, 8, b.scalar64.setWidth 128, c.home, c.cache⟩) add sys))) ∧
    (∀ (w : Plain) e,
      let a := x.opnd 0
      let b := x.last w 1 .z
      let m := a.mask &&& b.mask
      let vb := (a.scalar64 + b.scalar64).toNat
      let pa := pteFrame e.pte + (vb - e.va)
      (m = 0 → ∃ t, exec (.win w) s = .next (x.yield s w.ta w.tb t) ∧ t.mask = 0) ∧
      (m ≠ 0 → 2 ^ 52 ≤ vb → exec (.win w) s = .next (x.fault s .pageFault m vb)) ∧
      (m ≠ 0 → vb < 2 ^ 52 → tlbHit s x.core p.w.ctx vb e → ∃ t,
        exec (.win w) s = .next (x.yield (usePages s x [vb]) w.ta w.tb t) ∧ t.win = true ∧ t.uni = true ∧ t.mask = m ∧
        winValid t.val = true ∧ winVbase t.val = vb ∧ winFrame t.val = pa / 4096 % 2 ^ 32 * 4096 ∧
        (e.va ≤ vb → winLimit t.val = if 2 ^ 44 ≤ pa ∨ ptePoison e.pte = true then 0
          else min (2 ^ 32 - 1) (e.va + e.size - vb)))) ∧
    (∀ all (w : MemW) accs t,
      let a := x.opnd 0
      a.mask ≠ 0 → (all = false → allPass s x p.w.ctx w a 1 .line (accLanes a.uni a.mask) accs t) → ∃ tok keep,
        exec (.invl all w) s = .next (x.yield (modCore (if all then s else t) x.core fun c =>
          { c with l1 := c.l1.filter keep }) w.ta w.tb tok) ∧ tok.mask = a.mask ∧ tok.uni = true ∧
        ∀ e : Nat × L1Line, keep e = true ↔
          if all then e.2.locked ≠ none else ¬ ∃ c ∈ accs, lineOf (c.pa % 2 ^ 51) = e.1) ∧
    (∀ (w : MemW) accs t,
      let a := x.opnd 0
      a.mask ≠ 0 → allPass s x p.w.ctx w a 1 .line (accLanes a.uni a.mask) accs t →
        let clear := ∀ q ∈ s.posted, (∃ c ∈ accs, lineOf (c.pa % 2 ^ 51) = q.line) →
          ¬ (q.group = p.gk ∧ q.lanes &&& x.b.mask ≠ 0) ∧ ¬ (q.die = x.core / 48 ∧ q.stage ≠ 0)
        (x.earlier = [] → clear → ∃ tok, exec (.wbl w) s = .next (x.yield t w.ta w.tb tok) ∧ tok.mask = a.mask) ∧
        (x.earlier ≠ [] ∨ ¬ clear → exec (.wbl w) s = .next s)) ∧
    ∀ l2 (w : MemW) accs t,
      let a := x.opnd 0
      allPass (x.yield s w.ta w.tb noTok) x p.w.ctx w a 1 .line (accLanes a.uni a.mask) accs t → ∃ u,
        exec (.pref l2 w) s = .next u ∧ u.mem = s.mem ∧
        u.reqs.map LineReq.line = t.reqs.map LineReq.line ++ accs.map fun c => lineOf (c.pa % 2 ^ 51)

/-- R253 to R255, R259 and R260: LLOCK and LTRY give a matching entry's status, LIMIT where the group holds sixteen locks, and else
send a request and wait; LUNLK releases a held line at its commit, or gives NOTHELD.
Log entry 20 names what in it is the model's reading or choice. -/
def Obligations.LockInstructions : Prop :=
  ∀ s x p (w : MemW) l0 c t, site? s = some x → x.place s = some p → (x.opnd 0).mask.lowest = some l0 →
    laneCheck s x p.w.ctx w (x.opnd 0) 1 .lock l0 = (.ok c, t) →
    let m := (x.opnd 0).mask
    let va := laneAddr x.b w (x.opnd 0) l0
    let line := lineOf (c.pa % 2 ^ 51)
    let t := usePages t x [va]
    let mine : HeldLock → Prop := fun h => h.line = line ∧ h.lanes &&& x.b.mask ≠ 0
    let status : Nat → Token := fun n => uniTok 32 m (BitVec.ofNat 128 n)
    (∀ e ∈ [(Instr.llock w, false), (.ltry w, true)],
      (∀ h, p.g.locks.find? (fun h => h.line == line && h.lanes &&& x.b.mask != 0) = some h → h.status < 6 →
        exec e.1 s = .next (x.commitWith t w.ta w.tb (status h.status) (.lockSeen line))) ∧
      ((∀ h ∈ p.g.locks, ¬ mine h) → 16 ≤ p.g.locks.length →
        exec e.1 s = .next (x.yield t w.ta w.tb (status 3))) ∧
      ((∀ h ∈ p.g.locks, ¬ mine h) → p.g.locks.length < 16 → ∃ u, exec e.1 s = .next u ∧
        u.lockMsgs = t.lockMsgs ++ [.request ⟨t.uid, p.w.ctx, x.core / 48, x.core, p.g.slot, p.gk, x.key, x.b.mask, x.b.uid,
          x.b.addr, x.i, false, 0, 0⟩ line c.home e.2 false] ∧ u.uid = t.uid + 1 ∧ u.mem = t.mem ∧
        u.strands = (x.mod t fun b => { b.fire x.i with waits := put b.waits x.i (.lock m va) }).strands)) ∧
    ∀ t', laneCheck s x p.w.ctx w (x.opnd 0) 1 .unlock l0 = (.ok c, t') →
      let t' := usePages t' x [va]
      ((∃ h ∈ p.g.locks, mine h) →
        exec (.lunlk w) s = .next (x.commitWith t' w.ta w.tb (status 0) (.lockRelease line))) ∧
      ((∀ h ∈ p.g.locks, ¬ mine h) → exec (.lunlk w) s = .next (x.yield t' w.ta w.tb (status 5)))

/-- R216, R255 to R260: at the home slice a free lock is granted, with POISONED where its last holder was killed; a held
one queues an LLOCK at the tail and turns an LTRY back BUSY; a request that finds the table full is turned back and sent
again; a release passes the lock to the first waiter, or frees it; a held grant whose window has passed goes to the waiter
behind; a waiter past the lock timeout leaves the queue. A grant to a waiter whose group has come to hold sixteen locks since it
asked delivers LIMIT and goes to the next one, and a request whose group has come to hold the line takes the entry's status.
Log entries 20 and 50 name what in it is the model's reading or choice. -/
def Obligations.LockService : Prop :=
  (∀ s id w line home only, s.lockMsgs.find? (fun m => m.num == id) = some (.request w line home only false) →
    let rest := s.lockMsgs.filter fun m => m.num != id
    let asked : Waiter := { w with since := s.time.toNat, seq := s.uid }
    let at0 : State := { s with lockMsgs := rest, uid := s.uid + 1 }
    (dieUp s home = false → exec (.lockRequestArrival id) s = .next (lockFault { s with lockMsgs := rest } w .dieOffline none)) ∧
    let room := w.away = true ∨ setFull s w.group = false
    (∀ h, dieUp s home = true → ownEntry s w line = some h →
      exec (.lockRequestArrival id) s = .next (lockStatus { s with lockMsgs := rest } w line h.status)) ∧
    (dieUp s home = true → ownEntry s w line = none → lockOf s line = none → lockTableFull s home line = false →
      (room → exec (.lockRequestArrival id) s =
        .next (grantTo ⟨line, home, none, [], false, none, false⟩ 0 [asked] at0)) ∧
      (¬ room → exec (.lockRequestArrival id) s = .next (lockStatus at0 asked line 3))) ∧
    (∀ l, dieUp s home = true → ownEntry s w line = none → lockOf s line = some l → l.owner = none →
      (room → exec (.lockRequestArrival id) s = .next (grantTo l (if l.poisoned then 2 else 0) [asked] at0)) ∧
      (¬ room → exec (.lockRequestArrival id) s = .next (lockStatus at0 asked line 3))) ∧
    (∀ l o, dieUp s home = true → ownEntry s w line = none → lockOf s line = some l → l.owner = some o → l.awaySince = none →
      (∀ v ∈ l.waiters, sameWaiter w v = false) →
      (only = true → exec (.lockRequestArrival id) s = .next (lockStatus at0 asked line 4)) ∧
      (only = false → waiterTableFull s home line = false →
        exec (.lockRequestArrival id) s = .next (setLock at0 { l with waiters := l.waiters ++ [asked] })) ∧
      (only = false → waiterTableFull s home line = true → exec (.lockRequestArrival id) s = .next
        { s with lockMsgs := s.lockMsgs.map fun m => if m.num = id then .request w line home false true else m }))) ∧
  (∀ s id w line home only, s.lockMsgs.find? (fun m => m.num == id) = some (.request w line home only true) →
    exec (.lockResend id) s = .next
      { s with lockMsgs := (s.lockMsgs.filter fun m => m.num != id) ++ [.request w line home only false] }) ∧
  (∀ s id u line home g lanes behind l o,
    s.lockMsgs.find? (fun m => m.num == id) = some (.release u line home g lanes behind) →
    let s0 : State := { s with lockMsgs := s.lockMsgs.filter fun m => m.num != id }
    ((∃ q ∈ s.posted, q.uid ∈ behind ∧ q.stage < 2) → exec (.lockReleaseArrival id) s = .next s) ∧
    ((∀ q ∈ s.posted, q.uid ∈ behind → 2 ≤ q.stage) → lockOf s line = some l → dieUp s l.home = true →
      l.owner = some o → o.group = g → o.lanes &&& lanes ≠ 0 → l.awaySince = none →
      (l.waiters = [] → ∃ t, exec (.lockReleaseArrival id) s = .next t ∧
        t = { s0 with locks := s.locks.filter fun k => k.line != l.line }) ∧
      ∀ v vs, l.waiters = v :: vs →
        exec (.lockReleaseArrival id) s = .next (grantTo l 0 (v :: vs) s0))) ∧
  (∀ s line l v vs since, lockOf s line = some l → l.awaySince = some since →
    ((s.time.toNat < since + s.holdLimit ∨ l.waiters = []) → exec (.holdWindowExpiry line) s = .next s) ∧
    (since + s.holdLimit ≤ s.time.toNat → dieUp s l.home = true → l.waiters = v :: vs → exec (.holdWindowExpiry line) s =
      .next (grantTo l (if l.awayPois then 2 else 0) (v :: vs) s))) ∧
  (∀ s l v, v.away = false → (∃ k ∈ s.locks, v ∈ k.waiters) →
    s.locks.findSome? (fun k => (k.waiters.find? fun w => w.uid == v.uid).map fun w => (k, w)) = some (l, v) →
    (s.time.toNat < v.since + s.lockLimit → exec (.lockTimeout v.uid) s = .next s) ∧
    (v.since + s.lockLimit ≤ s.time.toNat →
      let s0 := setLock s { l with waiters := l.waiters.filter fun k => k.uid != v.uid }
      let start := (l.owner.map fun o => (o.group, ([] : List (Nat × Nat)))).toList
      (probe s0 v.group 8 start = none → exec (.lockTimeout v.uid) s =
        .next (lockStatus (reportAll s0 l.home [timeoutRecord s0 v l.line]) v l.line 1)) ∧
      ∀ path, probe s0 v.group 8 start = some path → exec (.lockTimeout v.uid) s =
        .next (lockFault (reportAll s0 l.home (cycleRecords s0 ((v.group, l.line) :: path))) v .lockDeadlock
          (some l.line)))) ∧
  ∀ s l status,
    grantTo l status [] s = { s with locks := s.locks.filter (fun k => k.line != l.line) ++
      if status = 2 then [{ l with owner := none, waiters := [], poisoned := true, awaySince := none, awayPois := false }]
      else [] } ∧
    ∀ w ws,
      (w.away = true → grantTo l status (w :: ws) s = { s with locks := s.locks.filter (fun k => k.line != l.line) ++ [{ l with
        owner := some w, waiters := ws, poisoned := false, awaySince := some s.time.toNat, awayPois := decide (status = 2) }] }) ∧
      ∀ g, w.away = false → find s.groups w.group = some g →
        (16 ≤ g.locks.length → grantTo l status (w :: ws) s = grantTo l status ws (lockStatus s w l.line 3)) ∧
        (g.locks.length < 16 →
          (∃ k, lockOf (grantTo l status (w :: ws) s) l.line = some k ∧ k.owner = some w ∧ k.waiters = ws ∧ k.poisoned = false) ∧
          ∃ g', find (grantTo l status (w :: ws) s).groups w.group = some g' ∧
            g'.locks = g.locks ++ [⟨l.line, w.lanes, status⟩])

/-- R205, R228, R236 and R249: a home slice answers a line's requests one at a time in their order of arrival, but for those of a
block whose own atomics hold the line (R243), through the package cache where the line crosses the hearth die; a probe at a die with a miss outstanding acts only after its reply is installed; FLSIG's signals are made once every home die has returned
its token, and a dead home makes the drain fail.
Log entry 13 names what in it is the model's reading or choice. -/
def Obligations.CoherenceEvents : Prop :=
  (∀ s r, s.reqs.find? (fun q => q.uid == r.uid) = some r →
    let ahead := s.reqs.takeWhile fun q => q.uid != r.uid
    ((∃ q ∈ ahead, q.line = r.line ∧ q.reply = none) → ofHolder s r = false →
      exec (.homeLineRequest r.uid) s = .next s) ∧
    (r.reply = none → r.mig = false → dieUp s r.home = true → (∀ h ∈ s.held, h.line ≠ r.line) →
      (∀ q ∈ ahead, q.line = r.line → q.reply ≠ none) → (∀ p ∈ s.posted, p.line ≠ r.line) → kindAt r.line ≠ .view → ∃ t,
      exec (.homeLineRequest r.uid) s = .next t ∧ t.mem = s.mem ∧
      t.reqs = s.reqs.map fun q => if q.uid = r.uid then
        { q with reply := some (readLine s.mem r.line, linePoison s r.line |||
          (if copyAble r.line r.cache && crossesHearth s r.die r.line r.home then get s.pkgCache r.line 0 else 0)) } else q)) ∧
  (∀ s d line, (∀ r ∈ s.reqs, r.die = d → r.line = line → r.reply = none) → ∃ t,
    exec (.probeAct d line) s = .next t ∧ t.mem = s.mem ∧
    (∀ h ∈ t.probes, ¬ (h.die = d ∧ h.line = line)) ∧
    ((∃ h ∈ s.probes, h.die = d ∧ h.line = line ∧ h.store = none) → find (die t d).copies line = none)) ∧
  (∀ s x d, s.drains.find? (fun q => q.uid == x.uid) = some x →
    let waiting := s.drains.map fun y => if y.uid = x.uid then { x with dies := removeNat x.dies d } else y
    ((∃ p ∈ s.posted, p.uid ∈ x.stores ∧ p.home = d) → x.dies ≠ [] → ∃ t, exec (.flsigToken x.uid d) s = .next t ∧
      t.mem = s.mem) ∧
    ((∀ p ∈ s.posted, ¬ (p.uid ∈ x.stores ∧ p.home = d)) → removeNat x.dies d ≠ [] →
      exec (.flsigToken x.uid d) s = .next { s with drains := waiting }) ∧
    ((∀ p ∈ s.posted, ¬ (p.uid ∈ x.stores ∧ p.home = d)) → removeNat x.dies d = [] → s.held = [] → x.failed = none →
      ∀ g add, Memory.wf s.mem = true → x.sigs = [(g, add)] → dieUp s g.home = true → g.pa < 2 ^ 51 → g.pa % 8 = 0 → ∃ t,
      exec (.flsigToken x.uid d) s = .next t ∧
      readLE t.mem g.pa 8 = (if add then readLE s.mem g.pa 8 + g.data.toNat else g.data.toNat) % 2 ^ 64 ∧
      (∀ k, k < g.pa ∨ g.pa + 8 ≤ k → readByte t.mem k = readByte s.mem k) ∧
      (∀ q ∈ t.drains, q.uid ≠ x.uid) ∧ ∀ k st, find t.strands k = some st → x.uid ∉ st.asyncs))

/-! ## The matrix engine (14_ref_matrix) -/

/-- R263 to R269 and R271 to R274 at fire. OCLAIM reserves the resource, or the lowest FREE slot or tile, and yields its
number, and a claim of any slot within the quota waits while none is FREE; ORLSE, OFILL, MMA, ACCZ and ACCFL keep their release or command for the commit; ACCRD yields each lane's tile
element, MSTAT the status word. A resource that is not claimed, a bad control word and a full quota fault SLOT_STATE.
Log entry 21 names what in it is the model's reading or choice. -/
def Obligations.MatrixInstructions : Prop :=
  ∀ s x p, site? s = some x → x.place s = some p →
    let c := core s x.core
    let me := some (p.w.ctx, p.wk)
    let mine : Nat → Prop := fun n =>
      n < 36 ∧ (resOf c n).st = 1 ∧ (resOf c n).owner = me ∧ (resOf c n).releasing = false
    let free : Nat → Prop := fun n => (resOf c n).st = 0 ∧ (resOf c n).resv = none
    let used := ((c.res.take 32).filter fun r => r.owner == me && !r.releasing).length
    let served : Nat → Prop := fun n => ownTaskSlot s x n = true
    let bits : Nat → Nat → Nat → Nat := fun v lo n => v / 2 ^ lo % 2 ^ n
    let slotState : Instr → Mask → Prop := fun i m => exec i s = .next (x.fault s .slotState m x.b.addr)
    (∀ (w : Plain) v m, x.sel w = (v, m) → m ≠ 0 →
      (∀ n, (v = n ∨ (v = 0x3F ∧ n < 32 ∧ ∀ k < n, ¬ free k) ∨ (v = 0x3E ∧ 32 ≤ n ∧ ∀ k < n, 32 ≤ k → ¬ free k)) →
        n < 36 → free n → (n < 32 → used < p.l.oslots) →
        exec (.oclaim w) s = .next (x.commitWith (modCore s x.core fun c =>
          { c with res := c.res.modify n fun r => { r with resv := some x.b.uid, owner := me } })
          w.ta w.tb (numTok 32 m n) (.oclaim n))) ∧
      (v = 0x3F → used < p.l.oslots → (∀ k < 32, ¬ free k) → exec (.oclaim w) s = .next s) ∧
      (v = 0x3E → (∀ k < 36, 32 ≤ k → ¬ free k) →
        exec (.oclaim w) s = .next (x.yield s w.ta w.tb (numTok 32 m 0xFFFF_FFFF))) ∧
      (((v < 32 ∨ v = 0x3F) ∧ p.l.oslots ≤ used) ∨ (35 < v ∧ v ≠ 0x3E ∧ v ≠ 0x3F) ∨ (v < 36 ∧ ¬ free v) →
        slotState (.oclaim w) m) ∧
      (mine v → exec (.orlse w) s = .next (x.commitWith s w.ta w.tb (numTok 32 m 0) (.orlse v))) ∧
      (¬ mine v → slotState (.orlse w) m) ∧
      (v < 4 → mine (32 + v) →
        exec (.accz w) s = .next (x.commitWith s w.ta w.tb (numTok 32 m 0) (.mcmd (.accz v)))) ∧
      (4 ≤ v ∨ ¬ mine (32 + v) → slotState (.accz w) m) ∧
      (v < 36 → exec (.mstat w) s = .next (x.yield s w.ta w.tb (numTok 32 m
        ((if (resOf c v).st = 2 then 3 else if (resOf c v).owner = none then 0 else if (resOf c v).owner = me then 1
            else if (resOf c v).st = 0 then 0 else 2) +
          (if resPoison c v then 4 else 0) + (if (resOf c v).releasing then 8 else 0) +
          256 * min 255 (c.mq.filter fun q => q.op.names v).length)))) ∧
      (36 ≤ v → slotState (.mstat w) m)) ∧
    (∀ (w : MemW) l,
      let a := x.opnd 0
      let m := a.mask &&& (x.opnd 1).mask
      let v := (x.opnd 1).scalar64.toNat
      let va := laneAddr x.b w a l
      m ≠ 0 → a.mask.lowest = some l →
      (∀ k t, k = (if bits v 12 20 = 0 then 1 else bits v 12 20) → bits v 5 7 = 0 → v < 2 ^ 32 → mine (v % 32) →
        va % 128 = 0 → va + 128 * k * 127 + 128 ≤ 2 ^ 52 →
        regionCheck s x p.w.ctx w a l .load ((List.range 128).map fun r => 128 * k * r) = (none, t) →
        exec (.ofill w) s = .next (x.commitWith (usePages t x [va]) w.ta w.tb (numTok 32 m 0)
          (.mcmd (.ofill va (v % 32) k)))) ∧
      (bits v 5 7 ≠ 0 ∨ 2 ^ 32 ≤ v ∨ ¬ mine (v % 32) → slotState (.ofill w) m) ∧
      ∀ add,
        (∀ k t, k = (if bits v 12 20 = 0 then 4 else bits v 12 20) → 4 ≤ k → bits v 3 9 = 0 → v < 2 ^ 32 →
          mine (32 + v % 4) → va % 128 = 0 → va + 128 * k * 127 + 512 ≤ 2 ^ 52 →
          regionCheck s x p.w.ctx w a l (if add then if w.ty = .f32 then .atomicF else .atomicI else .store)
            (((List.range 512).map fun n => 128 * k * (n / 4) + 128 * (n % 4)).flatMap fun o => [o, o + 64]) = (none, t) →
          exec (.accfl add w) s = .next (x.commitWith (usePages t x [va]) w.ta w.tb (numTok 32 m 0)
            (.mcmd (.accfl w.ty add va (v % 4) (decide (bits v 2 1 = 1)) k)))) ∧
        (bits v 3 9 ≠ 0 ∨ 2 ^ 32 ≤ v ∨ ¬ mine (32 + v % 4) → slotState (.accfl add w) m)) ∧
    (∀ mix (w : Plain),
      let a := (x.opnd 0).scalar64.toNat
      let b := (x.opnd 1).scalar64.toNat
      let v := (x.last w 2 .z).scalar64.toNat
      let m := maskOf [x.opnd 0, x.opnd 1, x.last w 2 .z]
      let k := bits v 8 7 + 1
      let good := bits v 2 6 = 0 ∧ v < 2 ^ 15 ∧ (w.ty.bytes = 2 → k ≤ 64) ∧ (a < 32 ∧ (mine a ∨ served a)) ∧
        (b < 32 ∧ (mine b ∨ served b)) ∧ mine (32 + v % 4)
      m ≠ 0 →
      (x.b.mask ≠ ~~~(0 : Mask) → exec (.mma mix w) s = .next (x.fault s .illegalConvergence m x.b.addr)) ∧
      (x.b.mask = ~~~(0 : Mask) → good → exec (.mma mix w) s =
        .next (x.commitWith s w.ta w.tb (numTok 32 m 0) (.mcmd (.mma w.ty mix a b (v % 4) k)))) ∧
      (x.b.mask = ~~~(0 : Mask) → ¬ good → slotState (.mma mix w) m)) ∧
    ∀ w : Plain,
      let t := (x.opnd 0).scalar64.toNat
      let m := maskOf [x.opnd 0, x.opnd 1]
      let row : Nat → Nat := fun l => ((x.opnd 1).at_ l).toNat % 2 ^ 7
      let col : Nat → Nat := fun l => ((x.opnd 1).at_ l).toNat / 2 ^ 7 % 2 ^ 7
      m ≠ 0 →
      (t < 4 → mine (32 + t) → (w.ty = .n64 → ∀ l, m.has l = true → col l % 2 = 0) → resPoison c (32 + t) = false →
        (w.ty = .n32 → Gives (.accrd w) s x w 32 [x.opnd 0, x.opnd 1] fun l =>
          (tileWord c t (128 * row l + col l)).setWidth 128) ∧
        (w.ty = .n64 → Gives (.accrd w) s x w 64 [x.opnd 0, x.opnd 1] fun l =>
          (tileWord c t (128 * row l + col l + 1) ++ tileWord c t (128 * row l + col l)).setWidth 128)) ∧
      (4 ≤ t ∨ ¬ mine (32 + t) → slotState (.accrd w) m) ∧
      (t < 4 → mine (32 + t) → (w.ty = .n64 → ∀ l, m.has l = true → col l % 2 = 0) → resPoison c (32 + t) = true →
        exec (.accrd w) s = .next (x.fault s .poisonConsumed m x.b.addr))

/-- R264 to R267 and R270 to R272: what commits of claims and releases do, when a command may start, and what its completion
leaves: a slot's 128 lines, every tile element's sum by the tree of R116, a zero tile, or a flush's 512 writes. A release of a
resource that its workgroup no longer holds does nothing, and a fill waits for lines that atomics hold (R230).
Log entries 6 and 21 name what in it is the model's reading or choice. -/
def Obligations.MatrixCommands : Prop :=
  let element : Core → Ty → Bool → Nat → Nat → Nat → Nat → Nat → BitVec 32 → BitVec 32 :=
    fun h ty mix a b depth i j acc =>
      let n := ty.bytes
      let other := if mix then (if ty = .e4m3 then .e5m2 else .e4m3) else ty
      let product : Nat → Fp := fun k => if k < depth then
        Fp.mul (Fp.ofBits (fmtOf ty) (slotElem h a (128 * i + n * k) n))
          (Fp.ofBits (fmtOf other) (slotElem h b (128 * j + n * k) n)) else pzero
      let tree : Nat → Nat → Nat → Nat := fun from_ level => Nat.rec
        (fun q => Machine.round .rne f32 (Fp.add .rne (product (from_ + 2 * q)) (product (from_ + 2 * q + 1))))
        (fun _ below q => faddBits .rne f32 (below (2 * q)) (below (2 * q + 1))) level
      if ty = .i8 then acc + ((List.range depth).map fun k =>
        ((BitVec.ofNat 8 (slotElem h a (128 * i + k) 1)).signExtend 32 *
          (BitVec.ofNat 8 (slotElem h b (128 * j + k) 1)).signExtend 32)).sum
      else
        let first := faddBits .rne f32 acc.toNat (tree 0 5 0)
        BitVec.ofNat 32 (if n = 1 then faddBits .rne f32 first (tree 64 5 0) else first)
  (∀ key p m gate s n,
    let c := coreOf key
    (n < 32 → (applyEffect key p m gate s (.oclaim n)) = ([], modCore s c fun k => { k with
      res := k.res.modify n fun r => { r with st := 1, resv := none }
      slots := del k.slots n
      slotPoison := del k.slotPoison n })) ∧
    (n < 4 → (applyEffect key p m gate s (.oclaim (32 + n))) = ([], modCore s c fun k => { k with
      res := k.res.modify (32 + n) fun r => { r with st := 1, resv := none }
      tiles := del k.tiles n
      tilePoison := k.tilePoison &&& ~~~((1 : BitVec 4) <<< n) })) ∧
    (claimed (core s c) p n = false → applyEffect key p m gate s (.orlse n) = ([], s)) ∧
    (claimed (core s c) p n = true → ∃ f : Core → Core, applyEffect key p m gate s (.orlse n) = ([], modCore s c f) ∧
      ∀ k, f k = { k with res := (f k).res } ∧ (f k).res.length = k.res.length ∧
        ∀ i < k.res.length, resOf (f k) i =
          if ((resOf k i).releasing = true ∨ i = n) ∧ ∀ q ∈ k.mq, q.op.names i = false then ⟨0, none, none, false⟩
          else { resOf k i with releasing := (resOf k i).releasing || decide (i = n) }) ∧
    ∀ op, applyEffect key p m gate s (.mcmd op) = ([s.uid], modCore { s with uid := s.uid + 1 } c fun k =>
      { k with mq := k.mq ++ [⟨s.uid, op, p.w.ctx, p.wk, p.lk, p.g.slot, p.l.tag, gate, false, none⟩] })) ∧
  ∀ s c q, (core s c).mq.find? (fun m => m.uid == q.uid) = some q →
    let k := core s c
    let ahead := k.mq.takeWhile fun m => m.uid != q.uid
    let mark := modCore s c fun k => { k with mq := k.mq.map fun m => if m.uid = q.uid then
      { m with started := true, engine := if q.isFill then some (freeEngine k) else none } else m }
    ((q.isFill = true ∧ olderReady s k q.uid = true) ∨ (q.isMma = true ∧ taskCopying s c = true) →
      exec (.matrixCommandStart c q.uid) s = .next s) ∧
    (q.started = false → (∀ g ∈ s.posted, g.uid ∈ q.gate → g.stage ≠ 0) → (∀ m ∈ ahead, keepsBack m q = false) →
      edgePending k q.uid q.foot.1 q.foot.2 = false →
      (q.isFill = true → enginesBusy k < 2 ∧ recordsDue k < 4 ∧ olderReady s k q.uid = false) →
      (q.isMma = true → taskCopying s c = false) →
      (q.isFill = false → ∀ m ∈ k.mq, m.started = true → m.isFill = true ∨ m.isFlush = true) →
      (q.isFlush = false → exec (.matrixCommandStart c q.uid) s = .next mark) ∧
      ∀ ty add va t zero pitch, q.op = .accfl ty add va t zero pitch → ∃ u,
        exec (.matrixCommandStart c q.uid) s = .next u ∧ u.mem = s.mem ∧
        ((∀ n < 512, ∃ a e, tlbHit mark c q.ctx (va + 128 * pitch * (n / 4) + 128 * (n % 4)) e ∧
            engineAcc mark c q.ctx (va + 128 * pitch * (n / 4) + 128 * (n % 4))
              (if add then if ty = .f32 then .atomicF else .atomicI else .store) = .ok a) →
          (u.merges.drop s.merges.length).length = 512 ∧
          ∀ n < 512, ∀ g, u.merges[s.merges.length + n]? = some g → g.ty = ty ∧ g.op = (if add then 0 else 3) ∧
            g.owners = [⟨q.uid, c, false, 128 * n, 128⟩] ∧ g.poison = (if k.tilePoison.getLsbD t then 3 else 0) ∧
            g.words = (List.range 32).map fun i => (i, tileWord k t (128 * (n / 4) + 32 * (n % 4) + i))) ∧
        (risingFrom 0 k.tiles = true → ∀ i, tileWord (core u c) t i = if zero then 0 else tileWord k t i)) ∧
    (q.started = true →
      (∀ t, q.op = .accz t → exec (.matrixCommandComplete c q.uid) s = .next (endCmd (modCore s c fun k => zeroRes k (32 + t))
        c q.uid)) ∧
      (∀ ty mix a b t n, q.op = .mma ty mix a b t n → ∃ f : Core → Core,
        exec (.matrixCommandComplete c q.uid) s = .next (bump (endCmd (modCore s c f) c q.uid) c 5 1) ∧
        ∀ h : Core, (risingFrom 0 h.tiles = true → ∀ i < 128, ∀ j < 128, tileWord (f h) t (128 * i + j) =
            element h ty mix a b n i j (tileWord h t (128 * i + j))) ∧
          (f h).tilePoison = (if resPoison h a ∨ resPoison h b then h.tilePoison ||| (1 : BitVec 4) <<< t
            else h.tilePoison) ∧
          f h = { h with tiles := (f h).tiles, tilePoison := (f h).tilePoison }) ∧
      (∀ va n pitch, q.op = .ofill va n pitch → (∃ r < 128, readsHeld s c q.ctx (va + 128 * pitch * r) 128 = true) →
        exec (.matrixCommandComplete c q.uid) s = .next s) ∧
      (∀ va n pitch, q.op = .ofill va n pitch → s.held = [] → ∃ u, exec (.matrixCommandComplete c q.uid) s = .next (endCmd u c q.uid) ∧
        u.mem = s.mem ∧ (risingFrom 0 k.slots = true → risingFrom 0 k.slotPoison = true →
          risingFrom 0 (get k.slots n []) = true → (∀ r < 128, ∃ e, tlbHit s c q.ctx (va + 128 * pitch * r) e) →
          ∀ r < 128, ∀ a, engineAcc s c q.ctx (va + 128 * pitch * r) .load = .ok a → a.home = dieOf c →
            kindAt (lineOf (a.pa % 2 ^ 51)) ≠ .view →
            (∀ o < 128, (slotByte (core u c) n (128 * r + o)).1 = lineGet (engineLine s (dieOf c) a).1 o 1) ∧
            ∀ o < 128, (slotByte (core u c) n (128 * r + o)).2 = (engineLine s (dieOf c) a).2.getLsbD (o / 64))) ∧
      ∀ ty add va t zero pitch, q.op = .accfl ty add va t zero pitch →
        (mergesDone s q.uid = true → exec (.matrixCommandComplete c q.uid) s = .next (endCmd s c q.uid)) ∧
        (mergesDone s q.uid = false → exec (.matrixCommandComplete c q.uid) s = .next s))

/-! ## Engines, jobs and merges (05_numbers, 12_ordering, 15_queues) -/

/-- R119, R232, R284 to R286 and R295. The oldest job with no edge to an earlier one starts on a free engine, unless an older
OFILL can; a copy or gather within one granule moves the bytes that come to the engine, leaves every other byte, and ends with
its completion record; a reduction sends its words to be merged; a merge combines each word at its home; a link port holds and
joins contributions to a line, word by word, until FANIN of them have come or WAIT is over; a buffered record enters its queue
when it has room. `cardSee` and `engineSee` say what the engine's reads leave behind: translations and cached lines.
Log entries 14, 21 and 49 name what in it is the model's reading or choice. -/
def Obligations.EngineJobs : Prop :=
  (∀ s c j before behind,
    let k := core s c
    let meet : List Region → List Region → Prop := fun a b => ∃ x ∈ a, ∃ y ∈ b, x.space = y.space ∧
      ∃ o, x.lo ≤ o ∧ o < x.hi ∧ y.lo ≤ o ∧ o < y.hi
    let edge : List Region × List Region → Job → Prop := fun e j =>
      meet e.2 j.reads ∨ meet e.1 j.writes ∨ meet e.2 j.writes
    let ready : Job → Prop := fun j => j.engine = none ∧ (∀ g ∈ s.posted, g.uid ∈ j.gate → g.stage ≠ 0) ∧
      (∀ e ∈ k.jobs, e.uid < j.uid → ¬ edge (e.reads, e.writes) j) ∧ (∀ q ∈ k.mq, q.uid < j.uid → ¬ edge q.foot j) ∧
      enginesBusy k < 2 ∧ recordsDue k < 4 ∧
      (j.isField = true → ∀ e ∈ k.jobs, e.isField = true → j.uid ≤ e.uid) ∧ ¬ (k.xbar.gateEn = true ∧ j.card? ≠ none)
    k.jobs = before ++ j :: behind → (∀ e ∈ before, ¬ ready e) →
    (ready j → (∃ q ∈ k.mq, q.uid < j.uid ∧ q.isFill = true ∧ cmdReady s k q = true) → exec (.copyJobStart c) s = .next s) ∧
    (ready j → (∀ e ∈ behind, e.uid < j.uid → ¬ ready e) →
      (∀ q ∈ k.mq, q.uid < j.uid → q.isFill = true → cmdReady s k q = false) → exec (.copyJobStart c) s = .next (modCore s c fun h => { h with jobs := h.jobs.map fun e =>
      if e.uid = j.uid then { e with engine := some (freeEngine h) } else e })) ∧
    (¬ ready j → behind = [] → exec (.copyJobStart c) s = .next s)) ∧
  (∀ s c j d, (core s c).jobs.find? (fun e => e.uid == j.uid && e.engine.isSome) = some j → j.kind = .card d →
    let n := d.bytes
    let here := cardSee c j d s 0 (min n (64 - d.dst % 64))
    let onlyCached : State → Prop := fun u =>
      ∀ k, core u k = { core s k with tlb := (core u k).tlb, l1 := (core u k).l1 }
    let moved : Nat → Nat → Prop := fun st first =>
      ∀ a (b : Nat → Nat) (q : Nat → Bool), Memory.wf s.mem = true → engineAcc here c j.ctx d.dst .store = .ok a →
        a.pa % 128 = d.dst % 128 → (∀ o < n, cardByte here c j d o = .ok (b o, q o) ∧ b o < 256) →
        ((∃ o < n, q o = true) ↔ st = 1) → ∃ u,
        exec (.copyJobComplete c j.uid) s = .next (finishCard u c j d st first n 0) ∧ onlyCached u ∧
        (∀ o < n, readByte u.mem (a.pa % 2 ^ 51 + o) = BitVec.ofNat 8 (b o)) ∧
        (∀ k, k < a.pa % 2 ^ 51 ∨ a.pa % 2 ^ 51 + n ≤ k → readByte u.mem k = readByte s.mem k) ∧
        (st = 1 → poisoned u (a.pa % 2 ^ 51) = true)
    ((d.op = 1 ∨ d.op = 2 ∨ (d.op = 3 ∧ j.ending = none)) → cardHeld s c j d = true →
      exec (.copyJobComplete c j.uid) s = .next s) ∧
    ((d.op = 1 ∨ d.op = 2) → d.flags.testBit 3 = false →
      (writesBlocked s c j.ctx d.dst (d.dst + n) = true → exec (.copyJobComplete c j.uid) s = .next s) ∧
      (cardHeld s c j d = false → writesBlocked s c j.ctx d.dst (d.dst + n) = false →
        (0 < n → d.dst % 64 + n ≤ 64 → moved 0 0xFFFF_FFFF ∧ moved 1 0) ∧
        (n = 0 → exec (.copyJobComplete c j.uid) s = .next (finishCard s c j d 0 0xFFFF_FFFF 0 0)) ∧
        (0 < n → ∀ f a, cardByte here c j d 0 = .error (f, a) → exec (.copyJobComplete c j.uid) s =
          .next (finishCard here c j d (if outOfRange here c j d 0 then 5 else statusOf f) 0 0 a)))) ∧
    ((d.op = 1 ∨ d.op = 2) → cardHeld s c j d = false → d.flags.testBit 3 = true → 0 < n → d.dst % 64 + n ≤ 64 →
      ∀ (w : Wg) l k (b : Nat → Nat), find s.wgs j.wg = some w → find s.launches w.launch = some l →
        scratchKeyIn l w c d.dst n = some k → risingFrom 0 w.scratch = true →
        (∀ o < n, cardByte here c j d o = .ok (b o, false) ∧ b o < 256) → ∃ u w',
        exec (.copyJobComplete c j.uid) s = .next (finishCard u c j d 0 0xFFFF_FFFF n 0) ∧ u.mem = s.mem ∧
        onlyCached u ∧ find u.wgs j.wg = some w' ∧
        ∀ a, readByte w'.scratch a = if k ≤ a ∧ a < k + n then BitVec.ofNat 8 (b (a - k)) else readByte w.scratch a) ∧
    (d.op = 3 → j.ending = none → cardHeld s c j d = false → 0 < n → d.dst % 4 = 0 → d.dst % 64 + n ≤ 64 → ∀ a (b : Nat → Nat) (q : Nat → Bool),
      let come := engineSee (engineSee s c j.ctx d.src n false) c j.ctx d.dst n true
      let at0 := a.pa % 2 ^ 51 % 128
      (∀ o < n, engineByte come c j.ctx (d.src + o) = .ok (b o, q o)) →
      engineAcc come c j.ctx d.dst (if d.redTy = .f32 then .atomicF else .atomicI) = .ok a → ∃ u,
      exec (.copyJobComplete c j.uid) s = .next u ∧ u.mem = s.mem ∧
      u.merges = s.merges ++ [⟨come.uid, [⟨j.uid, c, true, 0, n⟩], j.ctx, lineOf (a.pa % 2 ^ 51), a.home, d.redTy,
        d.elem / 16, (List.range (n / 4)).map (fun i => (at0 / 4 + i, BitVec.ofNat 32
          (b (4 * i) + 2 ^ 8 * b (4 * i + 1) + 2 ^ 16 * b (4 * i + 2) + 2 ^ 24 * b (4 * i + 3)))),
        (if (List.range n).any q then (if at0 < 64 then 1 else 2) else 0), isRaw a.pa, a.home != c / 48 && decide (a.home < 4), c / 48,
        d.stream, d.fanin, d.wait⟩]) ∧
    (d.op = 3 → ∀ st first count a, j.ending = some (st, first, count, a) →
      (mergesDone s j.uid = true →
        exec (.copyJobComplete c j.uid) s = .next (finishCard s c j d st first count (a.getD (d.dst + first)))) ∧
      (mergesDone s j.uid = false → exec (.copyJobComplete c j.uid) s = .next s))) ∧
  (∀ s c (j : Job) d st first count addr, risingFrom 0 s.cores = true → ∃ v : Val,
    let u := finishCard s c j d st first count addr
    (st < 16 → (v.extractLsb' 112 16).toNat = d.tag % 2 ^ 16 ∧ (v.extractLsb' 108 4).toNat = st) ∧
    (v.extractLsb' 104 4).toNat = d.op % 16 ∧ (v.extractLsb' 64 32).toNat = first % 2 ^ 32 ∧
    (v.extractLsb' 0 64).toNat = count % 2 ^ 64 ∧
    (∀ e ∈ (core u c).jobs, e.uid ≠ j.uid) ∧ (∀ k t, find u.strands k = some t → j.uid ∉ t.asyncs) ∧
    (d.flags.testBit 0 = true → (get (core s c).compq d.cq []).length < 64 → (∀ r ∈ (core s c).recbuf, r.1 ≠ d.cq) →
      get (core u c).compq d.cq [] = get (core s c).compq d.cq [] ++ [⟨v, none⟩]) ∧
    (d.flags.testBit 1 = true → (core s c).xbar.owner ≠ none → (core u c).xbar.clocks =
      put (core s c).xbar.clocks (clkOf s c) (get (core s c).xbar.clocks (clkOf s c) 0 ||| 1)) ∧
    (d.flags.testBit 0 = true → 64 ≤ (get (core s c).compq d.cq []).length →
      (core u c).recbuf = (core s c).recbuf ++ [(d.cq, v)])) ∧
  (∀ s c before r behind, (core s c).recbuf = before ++ r :: behind →
    (∀ e ∈ before, 64 ≤ (get (core s c).compq e.1 []).length) → (get (core s c).compq r.1 []).length < 64 →
    exec (.engineRecordDrain c) s = .next (modCore s c fun h => { h with
      recbuf := before ++ behind
      compq := put h.compq r.1 (get h.compq r.1 [] ++ [⟨r.2, none⟩]) })) ∧
  (∀ s m, s.merges.find? (fun e => e.uid == m.uid && !e.viaPort) = some m →
    let busy := (∃ h ∈ s.held, h.line = m.line) ∨ ∃ q ∈ s.posted, q.line = m.line ∧ q.die = m.srcDie ∧ q.uid < m.uid
    let word : BitVec 32 → BitVec 32 → BitVec 32 := fun old v =>
      if m.op = 3 then v
      else if m.ty = .f32 then
        if m.op = 0 then BitVec.ofNat 32 (Machine.round .rne f32 (Fp.add .rne (Fp.ofBits f32 old.toNat) (Fp.ofBits f32 v.toNat)))
        else BitVec.ofNat 32 (fpick (m.op = 1) f32 old.toNat v.toNat)
      else if m.op = 0 then old + v
      else if m.op = 1 then (if val m.ty (old.setWidth 128) ≤ val m.ty (v.setWidth 128) then old else v)
      else if val m.ty (v.setWidth 128) ≤ val m.ty (old.setWidth 128) then old else v
    (dieUp s m.home = true → busy → exec (.nearCacheMerge m.uid) s = .next s) ∧
    (dieUp s m.home = true → ¬ busy → Memory.wf s.mem = true → m.ty.width = 32 → risingFrom 0 m.words = true →
      (∀ e ∈ m.words, e.1 < 32) → ∃ t, exec (.nearCacheMerge m.uid) s = .next t ∧
      (∀ e ∈ m.words, readLE t.mem (m.line + 4 * e.1) 4 =
        (word (BitVec.ofNat 32 (readLE s.mem (m.line + 4 * e.1) 4)) e.2).toNat) ∧
      (∀ k, (∀ e ∈ m.words, k < m.line + 4 * e.1 ∨ m.line + 4 * e.1 + 4 ≤ k) → readByte t.mem k = readByte s.mem k) ∧
      t.merges = s.merges.filter fun e => e.uid != m.uid)) ∧
  (∀ s m, s.merges.find? (fun e => e.uid == m.uid && e.viaPort) = some m → dieUp s m.home = true →
    let rest : State := { s with merges := s.merges.filter fun e => e.uid != m.uid }
    let port := entryPort s m.srcDie m.home
    let same : PortLine → Bool := fun l =>
      l.die == m.home && l.port == port && l.ctx == m.ctx && l.stream == m.stream && l.line == m.line
    let alone := { s with merges := s.merges.map fun e => if e.uid = m.uid then { e with viaPort := false } else e }
    let used := (s.portLines.filter fun l => l.die == m.home && l.port == port).length
    (∀ l, s.portLines.find? same = some l → l.ty = m.ty → l.op = m.op →
      let both : PortLine := { l with
        words := joinWords m.ty m.op l.words m.words
        owners := l.owners ++ m.owners
        count := l.count + 1
        poison := l.poison ||| m.poison
        raw := l.raw || m.raw }
      (l.fanin ≤ l.count + 1 → exec (.linkPortCombine m.uid) s = .next { rest with
        uid := s.uid + 1
        portLines := s.portLines.filter fun q => q.uid != l.uid
        merges := rest.merges ++ [⟨s.uid, both.owners, l.ctx, l.line, l.die, l.ty, l.op, both.words, both.poison, both.raw, false, l.die,
          l.stream, l.fanin, l.wait⟩] }) ∧
      (l.count + 1 < l.fanin → exec (.linkPortCombine m.uid) s = .next { rest with
        portLines := s.portLines.map fun q => if q.uid = l.uid then both else q })) ∧
    (∀ l, s.portLines.find? same = some l → l.ty ≠ m.ty ∨ l.op ≠ m.op → exec (.linkPortCombine m.uid) s = .next alone) ∧
    (s.portLines.find? same = none → used < 64 → 1 < m.fanin →
      exec (.linkPortCombine m.uid) s = .next { rest with portLines := s.portLines ++
        [⟨m.uid, m.home, port, m.ctx, m.stream, m.line, m.ty, m.op, m.words, m.poison, m.raw, m.owners, 1, m.fanin,
          s.time.toNat, m.wait⟩] }) ∧
    (s.portLines.find? same = none → 64 ≤ used ∨ m.fanin ≤ 1 → exec (.linkPortCombine m.uid) s = .next alone)) ∧
  (∀ ty op (held new : KMap (BitVec 32)), risingFrom 0 new = true → ∀ i, find (joinWords ty op held new) i =
    match find held i, find new i with
    | some v, some w => some (mergeWord ty op v w)
    | some v, none => some v
    | none, w => w) ∧
  ∀ s l, s.portLines.find? (fun q => q.uid == l.uid) = some l →
    (s.time.toNat < l.since + 100 * l.wait → exec (.linkPortWaitExpiry l.uid) s = .next s) ∧
    (l.since + 100 * l.wait ≤ s.time.toNat → exec (.linkPortWaitExpiry l.uid) s = .next { s with
      uid := s.uid + 1
      portLines := s.portLines.filter fun q => q.uid != l.uid
      merges := s.merges ++ [⟨s.uid, l.owners, l.ctx, l.line, l.die, l.ty, l.op, l.words, l.poison, l.raw, false, l.die, l.stream,
        l.fanin, l.wait⟩] })

/-! ## Queues, cards, messages, the deque, launches and signals (15_queues, 16_ref_queues) -/

/-- R276, R277, R292 and R293: QCFG.bind keeps a binding whose fields are in range, with its spill area; at the commit the
register takes it, and a receive queue its owner. .deq takes a deque that no other workgroup owns, .undeq gives up one's
own. QLEN samples what the register's binding counts.
Log entry 12 names what in it is the model's reading or choice. -/
def Obligations.QueueBindings : Prop :=
  (∀ s x p, site? s = some x → x.place s = some p →
    let c := core s x.core
    let me := some (p.w.ctx, p.wk)
    let a := (x.opnd 0).scalar64.toNat
    let b := (x.opnd 1).scalar64.toNat
    let m := (x.opnd 0).mask &&& (x.opnd 1).mask
    let kind := b / 2 ^ 28
    let idx := b / 2 ^ 23 % 2 ^ 5
    let slog := a / 2 ^ 5 % 2 ^ 5
    let sbase := a / 2 ^ 10 * 2 ^ 10
    let good := b < 2 ^ 32 ∧ a < 2 ^ 52 ∧ b % 2 ^ 23 = 0 ∧ kind ≤ 6 ∧ idx ≤ [0, 0, 3, 7, 2, 15, 0].getD kind 0 ∧
      (slog = 0 ∨ (6 ≤ slog ∧ slog ≤ 20)) ∧ (kind ≠ 5 → slog = 0 ∧ sbase = 0) ∧
      (kind = 5 → (recvOf c idx).owner = none ∨ (recvOf c idx).owner = me) ∧ (kind = 3 → c.field.owner = me)
    let aligned := kind = 5 → slog ≠ 0 → sbase % (2 ^ slog * 16) = 0
    (∀ w : Plain, m ≠ 0 →
      (good → aligned → exec (.qcfgBind w) s = .next (x.commitWith s w.ta w.tb (numTok 32 m 0)
        (.bind (a % 32) (BitVec.ofNat 32 b) slog sbase))) ∧
      (good → ¬ aligned → exec (.qcfgBind w) s = .next (x.fault s .misaligned m sbase)) ∧
      (¬ good → exec (.qcfgBind w) s = .next (x.fault s .queueUnbound m x.b.addr)) ∧
      (c.deque.owner = none ∨ c.deque.owner = me →
        exec (.qcfgDeq w) s = .next (x.commitWith s w.ta w.tb (numTok 32 m 0) .deq)) ∧
      (c.deque.owner ≠ none → c.deque.owner ≠ me →
        exec (.qcfgDeq w) s = .next (x.fault s .queueUnbound m x.b.addr)) ∧
      exec (.qcfgUndeq w) s = .next (x.commitWith s w.ta w.tb (numTok 32 m 0) .undeq)) ∧
    ∀ (w : Plain) n m, x.sel w = (n, m) → m ≠ 0 →
      let q := get p.g.qregs n 0
      let kind := q.toNat / 2 ^ 28
      let idx := q.toNat / 2 ^ 23 % 2 ^ 5
      let free : List Item → Nat := fun l => (l.filter fun i => i.resv == none).length
      let is : Nat → Prop := fun v => exec (.qlen w) s = .next (x.yield s w.ta w.tb (numTok 32 m v))
      (31 < n → exec (.qlen w) s = .next (x.fault s .queueUnbound m x.b.addr)) ∧
      (n ≤ 31 →
        (kind = 0 → is 0xFFFF_FFFF) ∧
        (kind = 1 → is (32 - (c.jobs.filter fun j => j.card? != none && j.engine == none).length)) ∧
        (kind = 2 → is (free (get c.compq idx []))) ∧
        (kind = 3 → is (free (c.field.ports.getD idx Port.reset).queue)) ∧
        (kind = 4 → is (free (ring s (3 * (x.core / 48) + idx)).queue)) ∧
        (kind = 5 → is (free (recvOf c idx).items + ((recvOf c idx).tail - (recvOf c idx).head))) ∧
        (kind = 6 → is (4096 - s.events.length)))) ∧
  ∀ key p m gate s,
    let c := coreOf key
    let me := some (p.w.ctx, p.wk)
    (∀ q (k : BitVec 32) slog sbase, ∃ t : State, applyEffect key p m gate s (.bind q k slog sbase) = ([], t) ∧
      (∀ g, find s.groups p.gk = some g → ∃ g', find t.groups p.gk = some g' ∧ g' = { g with qregs := g'.qregs } ∧
        (risingFrom 0 g.qregs = true → ∀ n, get g'.qregs n 0 = if n = q then k else get g.qregs n 0)) ∧
      (k.toNat / 2 ^ 28 ≠ 5 → t.cores = s.cores) ∧
      (k.toNat / 2 ^ 28 = 5 → t.cores = (modCore s c fun x => x.modRecv (k.toNat / 2 ^ 23 % 2 ^ 5) fun r =>
        { r with owner := me, slog := slog, sbase := sbase, head := 0, tail := 0 }).cores)) ∧
    ((core s c).deque.owner = none → applyEffect key p m gate s .deq = ([], modCore s c fun x =>
      { x with deque := { x.deque with owner := me } })) ∧
    ((core s c).deque.owner = me → applyEffect key p m gate s .undeq = ([], modCore s c fun x =>
      { x with deque := ⟨none, [], none⟩ }))

/-- R282, R291, R294, R296 and R299 to R300 at perform and at commit: CPYC, GTHC and COLC read a card that passes its checks
and queue its job; SEND, LNCH and SIGNL check what they name and keep what they send. An LNCH's record goes into the
slot after the last one posted with MARK 0xA5, the next one into the first slot behind it that holds none, or QUEUE back into its source, later where a block's atomics hold the source's
line; a SIGNL adds to its word, and is counted as dropped where its home has left.
Log entry 24 names what in it is the model's reading or choice. -/
def Obligations.CardsAndMessages : Prop :=
  (∀ bs ds : List Nat, bs.length = 64 → ds.length = 16 → (∀ b ∈ bs ++ ds, b < 256) →
    let field : List Nat → Nat → Nat → Nat := fun l o n => ((l.drop o).take n).foldr (fun b r => b + 256 * r) 0
    let f := field bs
    (cardOf bs ds = ⟨f 0 1, f 1 1, f 2 1, f 3 1, f 4 4, f 8 8, f 0x10 8, f 0x18 8, f 0x20 8, f 0x28 4, f 0x2C 2,
      field ds 0 2, field ds 2 1, field ds 4 2⟩) ∧
    (streamOk ds = true ↔ 1 ≤ field ds 2 1 ∧ field ds 2 1 ≤ 16 ∧ field ds 3 1 = 0 ∧ 1 ≤ field ds 4 2 ∧ field ds 4 2 ≤ 1000 ∧
      field ds 6 10 = 0) ∧
    (cardOk bs = true ↔ f 1 1 < 16 ∧ f 2 1 < 4 ∧ f 0x2E 18 = 0 ∧
      ((f 0 1 = 1 ∧ f 3 1 = 0 ∧ f 0x18 8 = 0 ∧ f 0x20 8 = 0 ∧ f 0x28 4 = 0) ∨
       (f 0 1 = 2 ∧ f 3 1 < 4 ∧ f 8 8 = 0 ∧ f 0x18 8 % 4 = 0 ∧ f 0x28 4 ≠ 0) ∨
       (f 0 1 = 3 ∧ f 3 1 % 16 ∈ [2, 6, 10] ∧ f 3 1 / 16 < 3 ∧ f 0x18 8 % 16 = 0 ∧ f 0x20 8 = 0 ∧ f 0x28 4 = 0 ∧
        f 1 1 / 4 % 4 = 0)))) ∧
  (∀ s x p, site? s = some x → x.place s = some p →
    (∀ (w : Plain),
      let m := (x.opnd 0).mask
      let va := (x.opnd 0).scalar64.toNat
      m ≠ 0 → ∀ e ∈ [(Instr.cpyc w, 1), (.gthc w, 2), (.colc w, 3)],
        (2 ^ 52 < va + 64 → exec e.1 s = .next (x.fault s .pageFault m (max va (2 ^ 52)))) ∧
        (va + 64 ≤ 2 ^ 52 → va % 64 ≠ 0 → exec e.1 s = .next (x.fault s .misaligned m va)) ∧
        (va + 64 ≤ 2 ^ 52 → va % 64 = 0 → x.mustWait s p va 64 = true → exec e.1 s = .next s) ∧
        (∀ bs t, va + 64 ≤ 2 ^ 52 → va % 64 = 0 → x.mustWait s p va 64 = false → x.b.bytes x.core p s va 64 = (.ok bs, t) →
          let t := usePages t x [va, va + 63]
          (leAt bs 0 1 ≠ e.2 ∨ cardOk bs = false → exec e.1 s = .next (x.fault t .blockFormat m va)) ∧
          (leAt bs 0 1 = e.2 → cardOk bs = true → e.2 ≠ 3 →
            exec e.1 s = .next (x.commitWith t w.ta w.tb (numTok 32 m 0) (.job (cardOf bs [])))) ∧
          (leAt bs 0 1 = e.2 → cardOk bs = true → e.2 = 3 → ∀ ds u, x.mustWait t p (leAt bs 0x18 8) 16 = false →
            x.b.bytes x.core p t (leAt bs 0x18 8) 16 = (.ok ds, u) → streamOk ds = true →
            exec e.1 s = .next (x.commitWith (usePages u x [leAt bs 0x18 8, leAt bs 0x18 8 + 15]) w.ta w.tb (numTok 32 m 0)
              (.job (cardOf bs ds))))) ∧
        ∀ f a t, va + 64 ≤ 2 ^ 52 → va % 64 = 0 → x.mustWait s p va 64 = false →
          x.b.bytes x.core p s va 64 = (.error (f, a), t) →
          exec e.1 s = .next (x.fault t f m a)) ∧
    ∀ w : Plain,
      let a := (x.opnd 0).scalar64.toNat
      let b := (x.opnd 1).scalar64
      let m := (x.opnd 0).mask &&& (x.opnd 1).mask
      m ≠ 0 →
      (a / 2 ^ 12 ≠ 0 ∨ 191 < a % 256 → exec (.send w) s = .next (x.fault s .accessViolation m a)) ∧
      (a / 2 ^ 12 = 0 → a % 256 ≤ 191 →
        (dieUp s (a % 256 / 48) = false → exec (.send w) s = .next (x.fault s .dieOffline m a)) ∧
        (dieUp s (a % 256 / 48) = true → exec (.send w) s = .next (x.commitWith s w.ta w.tb (numTok 32 m 0)
          (.send (a % 256) (a / 256) b)))) ∧
      (2 ^ 52 < a + 256 → exec (.lnch w) s = .next (x.fault s .pageFault m (max a (2 ^ 52)))) ∧
      (a + 256 ≤ 2 ^ 52 → a % 64 ≠ 0 → exec (.lnch w) s = .next (x.fault s .misaligned m a)) ∧
      (a + 256 ≤ 2 ^ 52 → a % 64 = 0 → 63 < b.toNat ∨ (queueOf s b.toNat).ctx ≠ p.w.ctx →
        exec (.lnch w) s = .next (x.fault s .accessViolation m b.toNat)) ∧
      (∀ bs t acc u, a + 256 ≤ 2 ^ 52 → a % 64 = 0 → b.toNat ≤ 63 → (queueOf s b.toNat).ctx = p.w.ctx →
        x.mustWait s p a 256 = false → x.b.bytes x.core p s a 256 = (.ok bs, t) → vaCheck (usePages t x [a, a + 255]) x.core p.w.ctx (a + 0xFF) 1 .load = (.ok acc, u) →
        exec (.lnch w) s = .next (x.commitWith (usePages t x [a, a + 255]) w.ta w.tb (numTok 32 m 0)
          (.lnch b.toNat acc.pa (bs.map (BitVec.ofNat 8))))) ∧
      (∀ acc t, vaCheck s x.core p.w.ctx a 8 .atomicI = (.ok acc, t) →
        (homePoisoned t (acc.pa % 2 ^ 51) = true → exec (.signl w) s = .next (x.fault t .poisonConsumed m a)) ∧
        (homePoisoned t (acc.pa % 2 ^ 51) = false → exec (.signl w) s =
          .next (x.commitWith (usePages t x [a]) w.ta w.tb (numTok 32 m 0) (.signal acc.pa acc.home b)))) ∧
      ∀ e t, vaCheck s x.core p.w.ctx a 8 .atomicI = (.error e, t) →
        exec (.signl w) s = .next (x.fault t e.2 m a)) ∧
  ∀ key p m gate s,
    let c := coreOf key
    (∀ d : Card,
      let src : Space := if d.flags / 4 % 2 = 1 then .scratch p.wk else .virt p.w.ctx
      let dst : Region := ⟨if d.flags / 8 % 2 = 1 then .scratch p.wk else .virt p.w.ctx, d.dst,
        d.dst + if d.op = 2 then d.len * 2 ^ (d.elem % 4) else d.len⟩
      let reads : List Region := if d.op = 2 then
          [⟨.virt p.w.ctx, d.idx, d.idx + 4 * d.len⟩, ⟨src, d.rbase, d.rbase + d.rlen⟩] else [⟨src, d.src, d.src + d.len⟩]
      applyEffect key p m gate s (.job d) = ([s.uid], modCore { s with uid := s.uid + 1 } c fun h => { h with jobs :=
        h.jobs ++ [⟨s.uid, .card d, p.w.ctx, p.wk, p.l.tag, p.g.slot, reads, [dst], gate, none, none⟩] })) ∧
    (∀ dst q v, applyEffect key p m gate s (.send dst q v) = ([], { s with
      uid := s.uid + 1
      recvMsgs := s.recvMsgs ++ [⟨s.uid, dst, q, BitVec.ofNat 128 (v.toNat + c % 256 * 2 ^ 64 + p.g.slot % 64 * 2 ^ 72),
        p.w.ctx, c / 48, p.g.slot, p.l.tag, c⟩] })) ∧
    (∀ q src (rec : List Byte), Memory.wf s.mem = true → rec.length = 256 → q < 64 → (queueOf s q).post < 64 → ∃ t,
      applyEffect key p m gate s (.lnch q src rec) = ([], t) ∧
      let k := (queueOf s q).post
      ((queueOf s q).enable = true → s.queues.length = 64 →
        (∃ n < 64, (queueOf t q).post = (k + 1 + n) % 64 ∧
          (∀ i < n, readByte t.mem (slotAddr q ((k + 1 + i) % 64) 0xFF) = 0xA5) ∧
          (readByte t.mem (slotAddr q ((k + 1 + n) % 64) 0xFF) = 0xA5 →
            n = 0 ∧ ∀ i < 64, readByte t.mem (slotAddr q i 0xFF) = 0xA5)) ∧
        readByte t.mem (slotAddr q k 0xFF) = 0xA5 ∧ (∀ o < 255, readByte t.mem (slotAddr q k o) = rec.getD o 0) ∧
        (∀ a, a < slotAddr q k 0 ∨ slotAddr q k 256 ≤ a → readByte t.mem a = readByte s.mem a)) ∧
      ((queueOf s q).enable = false → (∃ h ∈ s.held, h.line = lineOf (src % 2 ^ 51)) →
        t = modQueue s q fun d => { d with owed := d.owed ++ [src] }) ∧
      ((queueOf s q).enable = false → (∀ h ∈ s.held, h.line ≠ lineOf src) → src < 2 ^ 51 → readByte t.mem src = 0xE6 ∧
        ∀ a, a ≠ src → readByte t.mem a = readByte s.mem a)) ∧
    (∀ pa home v, dieUp s home = false → applyEffect key p m gate s (.signal pa home v) =
      ([], modDie s (c / 48) (Die.count · 3 1))) ∧
    ∀ pa home v, Memory.wf s.mem = true → pa < 2 ^ 51 → pa % 8 = 0 → dieUp s home = true → ∃ t,
      applyEffect key p m gate s (.signal pa home v) = ([], t) ∧
      readLE t.mem pa 8 = (readLE s.mem pa 8 + v.toNat) % 2 ^ 64 ∧
      ∀ a, a < pa ∨ pa + 8 ≤ a → readByte t.mem a = readByte s.mem a

/-- R231, R279 and R280: an item enters its queue in the order in which its group sent it; a queue of 64 items, or one that
spills, spills it, once no block's atomics hold the entry's line and no store of the die is on its way to it; no room, no owner or another context's loses it. R289, R297 and R298: the owner pushes and pops at the
bottom of its core's deque, any group of its context on its die steals at the top; a taken entry is reserved.
Log entries 22 and 23 name what in it is the model's reading or choice. -/
def Obligations.ReceiveAndDeque : Prop :=
  (∀ s (q : RecvMsg), s.recvMsgs.find? (fun e => e.uid == q.uid) = some q →
    let ahead := s.recvMsgs.takeWhile fun e => e.uid != q.uid
    let r := recvOf (core s q.dst) q.queue
    let rest : State := { s with recvMsgs := s.recvMsgs.filter fun e => e.uid != q.uid }
    let lost := exec (.receiveArrival q.uid) s = .next (loseItem rest q.dst q.queue q.ctx q.slot q.tag q.src)
    ((∃ e ∈ ahead, e.src = q.src ∧ e.slot = q.slot ∧ e.dst = q.dst ∧ e.queue = q.queue) →
      exec (.receiveArrival q.uid) s = .next s) ∧
    ((∀ e ∈ ahead, ¬ (e.src = q.src ∧ e.slot = q.slot ∧ e.dst = q.dst ∧ e.queue = q.queue)) →
      (r.owner = none → lost) ∧
      ∀ ctx wk, r.owner = some (ctx, wk) →
        let free := ∀ a, engineAcc s q.dst ctx (r.sbase + 16 * (r.tail % 2 ^ r.slog)) .line = .ok a →
          (∀ h ∈ s.held, h.line ≠ lineOf (a.pa % 2 ^ 51)) ∧
            ∀ e ∈ s.posted, e.line = lineOf (a.pa % 2 ^ 51) → e.die ≠ q.dst / 48
        (ctx ≠ q.ctx ∨ dieUp s (q.dst / 48) = false → lost) ∧
        (ctx = q.ctx → dieUp s (q.dst / 48) = true →
          (r.items.length < 64 → r.head = r.tail → r.away = false →
            exec (.receiveArrival q.uid) s = .next (modCore rest q.dst fun h => h.modRecv q.queue fun r =>
              { r with items := r.items ++ [⟨q.item, none⟩] })) ∧
          (64 ≤ r.items.length ∨ r.head ≠ r.tail ∨ r.away = true →
            (r.slog = 0 ∨ 2 ^ r.slog ≤ r.tail - r.head → lost) ∧
            (r.slog ≠ 0 → r.tail - r.head < 2 ^ r.slog → ¬ free → exec (.receiveArrival q.uid) s = .next s) ∧
            (∀ a, r.slog ≠ 0 → r.tail - r.head < 2 ^ r.slog → free → Memory.wf s.mem = true →
              engineAcc rest q.dst ctx (r.sbase + 16 * (r.tail % 2 ^ r.slog)) .store = .ok a → a.pa % 16 = 0 → ∃ t,
              exec (.receiveArrival q.uid) s = .next t ∧ readLE t.mem (a.pa % 2 ^ 51) 16 = q.item.toNat ∧
              (∀ k, k < a.pa % 2 ^ 51 ∨ a.pa % 2 ^ 51 + 16 ≤ k → readByte t.mem k = readByte s.mem k)) ∧
            ∀ f, r.slog ≠ 0 → r.tail - r.head < 2 ^ r.slog → free →
              engineAcc rest q.dst ctx (r.sbase + 16 * (r.tail % 2 ^ r.slog)) .store = .error f → lost)))) ∧
  (∀ s x p, site? s = some x → x.place s = some p →
    let c := core s x.core
    let me := some (p.w.ctx, p.wk)
    (∀ w : Plain, (x.opnd 0).mask ≠ 0 →
      let m := (x.opnd 0).mask
      (c.deque.owner ≠ me → exec (.dqpush w) s = .next (x.fault s .queueUnbound m x.b.addr)) ∧
      (c.deque.owner = me → 256 ≤ c.deque.entries.length + dqHeld s x.core →
        exec (.dqpush w) s = .next (x.yield s w.ta w.tb (numTok 32 m 2))) ∧
      (c.deque.owner = me → c.deque.entries.length + dqHeld s x.core < 256 →
        exec (.dqpush w) s =
          .next (x.commitWith s w.ta w.tb (numTok 32 m 0) (.dqpush (x.opnd 0).scalar64)))) ∧
    let took : Instr → Plain → Mask → Nat → Option Nat → List Item → Item → List Item → Prop :=
      fun i w m core_ stolen before e behind =>
      exec i s = .next (x.mod (modCore s core_ fun h => { h with deque := { h.deque with
          entries := before ++ { e with resv := some x.b.uid } :: behind, stolen := stolen } })
        fun b => b.finish x.i w.ta w.tb (uniTok 64 m e.val) (numTok 32 m 0))
    let empty : Instr → Plain → Mask → Prop := fun i w m =>
      exec i s = .next (x.mod s fun b => b.finish x.i w.ta w.tb (numTok 64 m 0) (numTok 32 m 1))
    (∀ w : Plain,
      (c.deque.owner ≠ me → exec (.dqpop w) s = .next (x.fault s .queueUnbound x.b.mask x.b.addr)) ∧
      (c.deque.owner = me → c.deque.stolen = some (die s (x.core / 48)).clk → exec (.dqpop w) s = .next s) ∧
      (c.deque.owner = me → c.deque.stolen ≠ some (die s (x.core / 48)).clk →
        (∀ before e behind, c.deque.entries = before ++ e :: behind → (∀ i ∈ before, i.resv ≠ none) → e.resv = none →
          took (.dqpop w) w x.b.mask x.core c.deque.stolen before e behind) ∧
        ((∀ i ∈ c.deque.entries, i.resv ≠ none) → empty (.dqpop w) w x.b.mask))) ∧
    ∀ (w : Plain) v m, x.sel w = (v, m) → m ≠ 0 →
      let d := (core s (48 * (x.core / 48) + v)).deque
      (47 < v → exec (.dqsteal w) s = .next (x.fault s .accessViolation m v)) ∧
      (v ≤ 47 →
        ((∀ wk, d.owner ≠ some (p.w.ctx, wk)) ∨ (∀ i ∈ d.entries, i.resv ≠ none) → empty (.dqsteal w) w m) ∧
        ∀ wk before e behind, d.owner = some (p.w.ctx, wk) → d.entries = before ++ e :: behind →
          (∀ i ∈ behind, i.resv ≠ none) → e.resv = none →
          took (.dqsteal w) w m (48 * (x.core / 48) + v) (some (die s (x.core / 48)).clk) before e behind)) ∧
  ∀ key p m gate s v, applyEffect key p m gate s (.dqpush v) = ([], modCore s (coreOf key) fun x =>
    { x with deque := { x.deque with entries := ⟨v.setWidth 128, none⟩ :: x.deque.entries } })

/-! ## The crossing rings (17_rings) -/

/-- R317 to R323 at perform: which ring states, owners and operands each instruction takes, what it keeps for the commit or
yields, and the fault where it takes none. `owned l`: the strand's workgroup owns its ring, in one of the states `l` (0
IDLE, 1 OPEN, 2 ARMED, 3 RUN, 4 HALTED, 5 DONE, 6 FAILED, 7 CLEARING).
Log entry 25 names what in it is the model's reading or choice. -/
def Obligations.RingInstructions : Prop :=
  (∀ bs : List Nat, bs.length = 32 → (∀ b ∈ bs, b < 256) →
    let f : Nat → Nat → Nat := fun o n => ((bs.drop o).take n).foldr (fun b r => b + 256 * r) 0
    let pairs := (Finset.Ico (f 24 1) (f 25 1) ×ˢ Finset.Ico (f 26 1) (f 27 1)).filter fun q =>
      (f 29 1 = 1 → q.1 < q.2) ∧ (f 29 1 = 2 → q.1 ≤ q.2)
    ruleOf bs = ⟨BitVec.ofNat 64 (f 0 8), BitVec.ofNat 32 (f 8 4), BitVec.ofNat 32 (f 12 4), BitVec.ofNat 64 (f 16 8), f 24 1,
      f 25 1, f 26 1, f 27 1, f 28 1, f 29 1⟩ ∧
    (ruleOk bs = true ↔ f 16 8 % 16 = 0 ∧ f 24 1 < f 25 1 ∧ f 25 1 ≤ 64 ∧ f 26 1 < f 27 1 ∧ f 27 1 ≤ 64 ∧ 1 ≤ f 28 1 ∧
      f 29 1 < 3 ∧ f 30 2 = 0 ∧ 1 ≤ pairs.card ∧ pairs.card ≤ 1024)) ∧
  ∀ s x p, site? s = some x → x.place s = some p →
    let rk := ringOf x.core
    let r := ring s rk
    let me := some (p.w.ctx, p.wk)
    let owned : List Nat → Prop := fun l => r.owner = me ∧ r.st ∈ l
    let seen := ∃ k, r.owner = some (p.w.ctx, k)
    let mate := r.member (x.core % 16)
    let does : Instr → Plain → Mask → Effect → Prop := fun i w m e =>
      exec i s = .next (x.commitWith s w.ta w.tb (numTok 32 m 0) e)
    let faults : Instr → FaultCode → Mask → Nat → Prop := fun i c m a => exec i s = .next (x.fault s c m a)
    let here := x.b.addr
    (∀ w : Plain,
      let a := (x.opnd 0).scalar64.toNat
      let b := (x.opnd 1).scalar64
      let m := (x.opnd 0).mask &&& (x.opnd 1).mask
      let opens := p.l.cores = true ∧ r.st = 0 ∧
        (∀ q < 16, ∀ k < 12, (resOf (core s (memberCore rk q)) (20 + k)).st = 0 ∧
          (resOf (core s (memberCore rk q)) (20 + k)).resv = none) ∧
        ∀ q < 16, quotaOn s (memberCore rk q) ≤ 20
      let joins := (r.st = 1 ∨ r.st = 2)
      let joinable := mate.group = none ∧ joinHeld s x.core x.b.uid = false ∧
        ∃ k o, r.owner = some k ∧ find s.wgs k.2 = some o ∧ o.launch = p.w.launch
      m ≠ 0 →
      (opens → a < 2 ^ 32 → (a % 2 ^ 16 = 0 ∨ 80 ≤ a % 2 ^ 16) →
        does (.xmatchOpen w) w m (.ringOpen (if a % 2 ^ 16 = 0 then 96 else a % 2 ^ 16) (a / 2 ^ 16))) ∧
      (opens → 2 ^ 32 ≤ a ∨ (a % 2 ^ 16 ≠ 0 ∧ a % 2 ^ 16 < 80) → faults (.xmatchOpen w) .blockFormat m here) ∧
      (¬ opens → faults (.xmatchOpen w) .slotState m here) ∧
      (owned [1, 2] → b.toNat ≤ 63 → a % 32 = 0 → a + 32 ≤ 2 ^ 52 → x.mustWait s p a 32 = false → ∀ bs t,
        x.b.bytes x.core p s a 32 = (.ok bs, t) →
        (ruleOk bs = true → exec (.xmatchRule w) s = .next (x.commitWith (usePages t x [a, a + 31]) w.ta w.tb (numTok 32 m 0)
          (.ringRule b.toNat (ruleOf bs)))) ∧
        (ruleOk bs = false → exec (.xmatchRule w) s = .next (x.fault (usePages t x [a, a + 31]) .blockFormat m a))) ∧
      (¬ owned [1, 2] ∨ 63 < b.toNat → faults (.xmatchRule w) .slotState m here) ∧
      (owned [1, 2] → b.toNat ≤ 63 → 2 ^ 52 < a + 32 → faults (.xmatchRule w) .pageFault m (max a (2 ^ 52))) ∧
      (owned [1, 2] → b.toNat ≤ 63 → a + 32 ≤ 2 ^ 52 → a % 32 ≠ 0 → faults (.xmatchRule w) .misaligned m a) ∧
      (joins → (∀ l, x.b.mask.has l = true ↔ l < p.g.width ∧ l < 64) → a < 4 → 8 * 2 ^ a ≤ p.g.width → joinable →
        b.toNat % 16 = 0 → does (.xmatchJoin w) w m (.ringJoin a b)) ∧
      (¬ joins → faults (.xmatchJoin w) .slotState m here) ∧
      (joins → ¬ (∀ l, x.b.mask.has l = true ↔ l < p.g.width ∧ l < 64) →
        faults (.xmatchJoin w) .illegalConvergence m here) ∧
      (joins → (∀ l, x.b.mask.has l = true ↔ l < p.g.width ∧ l < 64) → a < 4 → 8 * 2 ^ a ≤ p.g.width → ¬ joinable →
        faults (.xmatchJoin w) .slotState m here) ∧
      (owned [1] → does (.xmatchStart w) w m .ringStart) ∧
      (¬ owned [1] → faults (.xmatchStart w) .slotState m here)) ∧
    (∀ w : Plain,
      let a := (x.opnd 0).scalar64.toNat
      let v := (x.opnd 1).scalar64.toNat
      let m := (x.opnd 0).mask &&& (x.opnd 1).mask
      let pos := v % 2 ^ 4
      let fam := v / 2 ^ 4 % 2
      let slot := v / 2 ^ 5 % 2 ^ 2
      let idx := v / 2 ^ 7
      let twice := ∃ q k, q < r.members.length ∧ k < 4 ∧ find (r.member q).tags (4 * fam + k) = some (idx % 2 ^ 6) ∧
        ¬ (q = pos ∧ k = slot)
      m ≠ 0 →
      (¬ owned [1, 2] → faults (.xinj w) .slotState m here) ∧
      (owned [1, 2] → 2 ^ 13 ≤ v → faults (.xinj w) .blockFormat m here) ∧
      (owned [1, 2] → v < 2 ^ 13 → 2 ^ 52 < a + 16384 → faults (.xinj w) .pageFault m (max a (2 ^ 52))) ∧
      (owned [1, 2] → v < 2 ^ 13 → a + 16384 ≤ 2 ^ 52 → a % 128 ≠ 0 → faults (.xinj w) .misaligned m a) ∧
      (owned [1, 2] → v < 2 ^ 13 → a + 16384 ≤ 2 ^ 52 → a % 128 = 0 → twice → faults (.xinj w) .slotState m here) ∧
      (owned [1, 2] → v < 2 ^ 13 → a + 16384 ≤ 2 ^ 52 → a % 128 = 0 → ¬ twice → ∀ t, spanCheck s x.core p.w.ctx a 16384 .load = (none, t) →
        exec (.xinj w) s = .next (x.commitWith (usePages t x ((spanOffs a 16384).map (a + ·))) w.ta w.tb (numTok 32 m 0)
          (.ringInject a pos fam slot idx))) ∧
      let kind := v % 2 ^ 2
      let at4 := v / 2 ^ 2 % 2 ^ 2
      let sp := v / 2 ^ 4 % 2 = 1
      let source := (kind < 2 ∧ owned [0, 1, 2, 5, 6, 7] ∧ find mate.tags (4 * kind + at4) ≠ none) ∨
        (kind = 2 ∧ ownTaskSlot s x (28 + at4) = true)
      (kind = 3 ∨ 2 ^ 5 ≤ v → faults (.xeject w) .blockFormat m here) ∧
      (kind ≠ 3 → v < 2 ^ 5 → ¬ source → faults (.xeject w) .slotState m here) ∧
      (kind ≠ 3 → v < 2 ^ 5 → source → ¬ sp → 2 ^ 52 < a + 16384 → faults (.xeject w) .pageFault m (max a (2 ^ 52))) ∧
      (kind ≠ 3 → v < 2 ^ 5 → source → sp ∨ a + 16384 ≤ 2 ^ 52 → a % 128 ≠ 0 → faults (.xeject w) .misaligned m a) ∧
      (kind ≠ 3 → v < 2 ^ 5 → source → a % 128 = 0 → sp →
        (scratchKey p x.core a 16384 ≠ none → does (.xeject w) w m (.ringEject a kind at4 true)) ∧
        (scratchKey p x.core a 16384 = none → faults (.xeject w) .accessViolation m a)) ∧
      (kind ≠ 3 → v < 2 ^ 5 → source → a % 128 = 0 → ¬ sp → a + 16384 ≤ 2 ^ 52 → ∀ t, spanCheck s x.core p.w.ctx a 16384 .store = (none, t) →
        exec (.xeject w) s = .next (x.commitWith (usePages t x ((spanOffs a 16384).map (a + ·))) w.ta w.tb (numTok 32 m 0)
          (.ringEject a kind at4 false)))) ∧
    ∀ (w : Plain) n m, x.sel w = (n, m) → m ≠ 0 →
      let is : Instr → Nat → Prop := fun i v => exec i s = .next (x.yield s w.ta w.tb (numTok 32 m v))
      let bit : Prop → Nat → Nat := fun q v => open Classical in if q then v else 0
      (owned [1, 2] → n < 64 → does (.xclr w) w m (.ringClear n)) ∧
      (owned [1, 2, 3, 4, 5, 6, 7] → n = 0x40 → does (.xclr w) w m (.ringClear n)) ∧
      (¬ (owned [1, 2] ∧ n < 64) → ¬ (owned [1, 2, 3, 4, 5, 6, 7] ∧ n = 0x40) → faults (.xclr w) .slotState m here) ∧
      (seen → (n < 64 → (∀ u, find r.rules n = some u → is (.xcnt w) u.done) ∧ (find r.rules n = none → is (.xcnt w) 0)) ∧
        (n = 0x40 → is (.xcnt w) r.tick)) ∧
      (¬ seen ∨ 0x40 < n → faults (.xcnt w) .slotState m here) ∧
      (owned [3] → n < 64 → find r.rules n ≠ none → does (.xsweep w) w m (.ringSweep n)) ∧
      (¬ (owned [3] ∧ n < 64 ∧ find r.rules n ≠ none) → faults (.xsweep w) .slotState m here) ∧
      (r.st = 0 ∨ seen →
        (n < 64 → find r.rules n = none → is (.xstat w) 0) ∧
        (∀ u, n < 64 → find r.rules n = some u → is (.xstat w)
          (1 + bit (u.sweeping = true) 2 + bit (u.done = u.d.pairs.length) 4 + 2 ^ 3 * u.d.pairs.length +
            2 ^ 14 * u.met.length)) ∧
        (n = 0x40 → is (.xstat w) (r.st + bit (r.owner = me) 8 + 2 ^ 4 * (r.members.filter fun k => k.group != none).length +
          bit (∃ k ∈ r.members, k.fills ≠ []) 512))) ∧
      ((r.st ≠ 0 ∧ ¬ seen) ∨ 0x40 < n → faults (.xstat w) .slotState m here)

/-- R302, R308, R313 and R317 to R323 at commit: an open ring with its members' twelve slots, a rule with a clear bitmap, a
task group, an armed ring, a rule or the ring cleared with the copies in progress abandoned, a tile's fill and a slot's copy as jobs, a
sweep: what an instruction has checked at perform takes effect, whatever state the ring has come to since (R316).
Log entry 25 names what in it is the model's reading or choice. -/
def Obligations.RingCommits : Prop :=
  ∀ key p m gate s,
    let c := coreOf key
    let rk := ringOf c
    let r := ring s rk
    let me := some (p.w.ctx, p.wk)
    let owned : List Nat → Prop := fun l => r.owner = me ∧ r.st ∈ l
    let mate := ∃ k o, r.owner = some k ∧ find s.wgs k.2 = some o ∧ o.launch = p.w.launch
    let group (code : Nat) (ret : Word) := modGroup s p.gk fun g =>
      { g with joined := some (code, ret), banks := [[0, 0, 0, 0], [0, 0, 0, 0]] }
    (∀ period tag, r.st = 0 → ringSlotsFree s rk = true → ∃ t : State,
      applyEffect key p m gate s (.ringOpen period tag) = ([], t) ∧ t.mem = s.mem ∧
      ring t rk = { Ring.reset with st := 1, owner := me, tag := tag, period := period, records := r.records, queue := r.queue } ∧
      (risingFrom 0 s.cores = true → ∀ q < 16, (core s (memberCore rk q)).res.length = 36 → ∀ n < 36,
        resOf (core t (memberCore rk q)) n =
          if 20 ≤ n ∧ n < 32 then ⟨2, none, none, false⟩ else resOf (core s (memberCore rk q)) n)) ∧
    (∀ n d, r.owner = me → applyEffect key p m gate s (.ringRule n d) =
      ([], modRing s rk fun r => { r with rules := put r.rules n ⟨d, [], 0, false⟩ })) ∧
    (∀ code ret, r.st ≠ 0 → mate → (r.member (c % 16)).group = none →
      applyEffect key p m gate s (.ringJoin code ret) = ([], modRing (group code ret) rk
        fun r => { r with members := r.members.modify (c % 16) fun k => { k with group := some p.gk } })) ∧
    (∀ code ret, r.st = 0 ∨ ¬ mate ∨ (r.member (c % 16)).group ≠ none →
      applyEffect key p m gate s (.ringJoin code ret) = ([], group code ret)) ∧
    (owned [1] → applyEffect key p m gate s .ringStart = ([], modRing s rk fun r => { r with st := 2 })) ∧
    (∀ n, n < 64 → r.owner = me → applyEffect key p m gate s (.ringClear n) =
      ([], modRing s rk fun r => { r with rules := del r.rules n })) ∧
    (r.owner = me → r.st ≠ 0 → r.st ≠ 7 → ∃ f : Ring → Ring,
      applyEffect key p m gate s (.ringClear 0x40) = ([], modRing s rk f) ∧
      (f r).st = 7 ∧ (f r).halting = false ∧ (∀ e ∈ (f r).rules, e.2.sweeping = false) ∧
      (∀ k ∈ (f r).members, k.fills = [] ∧ ∀ q ∈ k.pairs, q.st ≠ 1) ∧
      (∀ k ∈ r.members, ∀ q ∈ k.pairs, q.st = 1 → ∀ u b, find (f r).rules q.rule = some u → u.d.bit q.i q.j = some b →
        b ∉ u.met) ∧
      f r = { r with st := 7, scan := false, halting := false, rules := (f r).rules, members := (f r).members }) ∧
    (∀ va pos fam slot idx, r.owner = me →
      let n := 20 + 4 * fam + slot
      let lo := (32 * pos + n) * 16384
      applyEffect key p m gate s (.ringInject va pos fam slot idx) = ([s.uid],
        modRing (modCore { s with uid := s.uid + 1 } c fun h => { h with jobs := h.jobs ++ [⟨s.uid, .xinj va pos fam slot idx,
          p.w.ctx, p.wk, p.l.tag, p.g.slot, [⟨.virt p.w.ctx, va, va + 16384⟩], [⟨.slot, lo, lo + 16384⟩], gate, none, none⟩] })
          rk fun r => { r with
            tiles := put r.tiles (64 * fam + idx) va
            members := r.members.modify pos fun k =>
              { k with tags := put k.tags (4 * fam + slot) idx, fills := insertNat k.fills s.uid } })) ∧
    (∀ va kind slot sp,
      let n := if kind = 2 then 28 + slot else 20 + 4 * kind + slot
      let lo := (32 * (c % 16) + n) * 16384
      applyEffect key p m gate s (.ringEject va kind slot sp) = ([s.uid], modCore { s with uid := s.uid + 1 } c fun h =>
        { h with jobs := h.jobs ++ [⟨s.uid, .xeject va n sp, p.w.ctx, p.wk, p.l.tag, p.g.slot, [⟨.slot, lo, lo + 16384⟩],
          [⟨if sp then .scratch p.wk else .virt p.w.ctx, va, va + 16384⟩], gate, none, none⟩] })) ∧
    ∀ n, owned [3, 4] → applyEffect key p m gate s (.ringSweep n) =
      ([], sweepStep (modRing s rk fun r => { r with rules := edit r.rules n fun u => { u with sweeping := true } }) rk)

/-- R303 to R314 and R319 to R322: the ring's own events. A start and a tick's end begin the next tick; a family moves one
member on; a served pair of tiles starts its task with its bank of four registers, one copy after another; an ended task
frees its pair; a lap limit starts a sweep; a fetch starts its task or fails the ring, and the sweep goes on; a record's pulse
does not wait for the queue that the record waits for; task groups and slots return.
Log entries 2 and 25 name what in it is the model's reading or choice. -/
def Obligations.RingEvents : Prop :=
  ∀ s d rg,
    let rk := 3 * d + rg
    let r := ring s rk
    (r.st = 2 → (∀ k ∈ r.members, k.group ≠ none ∧ k.fills = []) → r.rules ≠ [] → ∃ t,
      exec (.ringStart d rg) s = .next t ∧ t.mem = s.mem ∧ (ring t rk).st = 3 ∧ (ring t rk).tick = 0 ∧
      (ring t rk).tickStart = (die s d).clk ∧ (ring t rk).halting = ringAway s r) ∧
    (r.st = 3 → r.scan = false → r.tickStart + r.period ≤ (die s d).clk → ∃ t,
      exec (.ringTickEnd d rg) s = .next t ∧ t.mem = s.mem ∧ (ring t rk).tick = (r.tick + 1) % 2 ^ 32 ∧
      (ring t rk).tickStart = r.tickStart + r.period ∧ (ring t rk).st = (if r.halting then 4 else 3) ∧
      (r.members.length = 16 → (∀ k ∈ r.members, risingFrom 0 k.tags = true) → risingFrom 0 s.cores = true →
        (∀ q < 16, risingFrom 0 (core s (memberCore rk q)).slots = true ∧
          risingFrom 0 (core s (memberCore rk q)).slotPoison = true) → ∀ q < 16, ∀ k < 8,
        let back := if k / 4 = r.tick % 2 then (if k < 4 then (q + 15) % 16 else (q + 1) % 16) else q
        find ((ring t rk).member q).tags k = find (r.member back).tags k ∧
        get (core t (memberCore rk q)).slots (20 + k) [] = get (core s (memberCore rk back)).slots (20 + k) [] ∧
        get (core t (memberCore rk q)).slotPoison (20 + k) 0 = get (core s (memberCore rk back)).slotPoison (20 + k) 0)) ∧
    (r.st ≠ 3 ∨ (die s d).clk < r.tickStart + r.period → exec (.ringTickEnd d rg) s = .next s) ∧
    (∀ q a b i j n bit k, find (r.member q).tags a = some i → find (r.member q).tags (4 + b) = some j →
      candidate r i j = some (n, bit) → idlePair s rk q = some k →
      scanPair rk q s (a, b) = modRing { s with uid := s.uid + 1 } rk fun r => { r with
        members := r.members.modify q fun e => { e with pairs := e.pairs.modify k fun _ => ⟨1, s.uid, n, i, j, false, false⟩ }
        rules := edit r.rules n fun u => { u with met := insertNat u.met bit } }) ∧
    (∀ i j n bit, candidate r i j = some (n, bit) → ∃ before u behind, r.rules = before ++ (n, u) :: behind ∧
      u.d.bit i j = some bit ∧ bit ∉ u.met ∧ (u.d.ilo ≤ i ∧ i < u.d.ihi ∧ u.d.jlo ≤ j ∧ j < u.d.jhi ∧
        (u.d.tri = 1 → i < j) ∧ (2 ≤ u.d.tri → i ≤ j)) ∧
      ∀ e ∈ before, ∀ k, e.2.d.bit i j = some k → k ∈ e.2.met) ∧
    (∀ q k, let t := (r.member q).pair k
      (∃ e ∈ (r.member q).pairs, e.st = 1 ∧ e.swept = false ∧ e.num < t.num) ∨
        (∃ e ∈ (core s (memberCore rk q)).mq, e.started = true ∧ e.isMma = true) ∨ spawnable s (r.member q) = false →
      exec (.taskSpawn d rg q k) s = .next s) ∧
    (∀ q k gk g ru e w a b, rg < 3 →
      let t := (r.member q).pair k
      t.st = 1 → t.swept = false → (r.member q).group = some gk → find s.groups gk = some g → find r.rules t.rule = some ru →
      find s.wgs g.wg = some w → w.st = .resident →
      (∀ e ∈ (r.member q).pairs, e.st = 1 → e.swept = false → t.num ≤ e.num) →
      (∀ e ∈ (core s (memberCore rk q)).mq, e.started = true → e.isMma = false) →
      takeEntry s (memberCore rk q) = some e → g.core = memberCore rk q → k < g.banks.length →
      a < 4 → find (r.member q).tags a = some t.i → (∀ n < a, find (r.member q).tags n ≠ some t.i) →
      b < 4 → find (r.member q).tags (4 + b) = some t.j → (∀ n < b, find (r.member q).tags (4 + n) ≠ some t.j) → ∃ u g',
      exec (.taskSpawn d rg q k) s = .next u ∧ u.mem = s.mem ∧
      find u.strands (strandKey g.core e) =
        some { Strand.start gk (laneSet g k) ru.d.task with
          task := some k, first := true, due := if w.stopped then some (.watchdog, none) else none } ∧
      find u.groups gk = some g' ∧ g'.banks.getD k [] = [BitVec.ofNat 64 t.i, BitVec.ofNat 64 t.j,
        ru.d.base + BitVec.ofNat 64 t.i * ru.d.stridei.signExtend 64 + BitVec.ofNat 64 t.j * ru.d.stridej.signExtend 64,
        BitVec.ofNat 64 (28 + 2 * k + (29 + 2 * k) * 2 ^ 8 + t.rule * 2 ^ 16)] ∧
      (k < 2 → q < 16 → risingFrom 0 s.cores = true → risingFrom 0 (core s (memberCore rk q)).slots = true →
        get (core u (memberCore rk q)).slots (28 + 2 * k) [] = get (core s (memberCore rk q)).slots (20 + a) [] ∧
        get (core u (memberCore rk q)).slots (29 + 2 * k) [] = get (core s (memberCore rk q)).slots (24 + b) [])) ∧
    (∀ q k, let t := (r.member q).pair k
      (t.st = 2 → t.ended = true → pairRead (core s (memberCore rk q)) k = false →
        exec (.taskPairFree d rg q k) s = .next (sweepStep (modRing s rk fun r => { r with
          members := r.members.modify q fun e => { e with pairs := e.pairs.modify k fun _ => TaskPair.reset } }) rk)) ∧
      (t.st ≠ 2 ∨ t.ended = false → exec (.taskPairFree d rg q k) s = .next s)) ∧
    (∀ n u, find r.rules n = some u →
      (r.st = 3 → r.tick = 16 * u.d.laps → u.sweeping = false → u.clear.isSome = true → exec (.ringLapLimit d rg n) s =
        .next (beginTick (modRing s rk fun r => { r with rules := edit r.rules n fun u => { u with sweeping := true } }) rk)) ∧
      (r.st ≠ 3 ∨ r.tick ≠ 16 * u.d.laps ∨ u.sweeping = true → exec (.ringLapLimit d rg n) s = .next s)) ∧
    (∀ k j n a b cwa ccwa before behind, (core s (memberCore rk 0)).jobs = before ++ j :: behind →
      j.kind = .sweep d rg k n a b cwa ccwa → j.engine ≠ none →
      (∀ e ∈ before, ∀ n a b u v, e.kind ≠ .sweep d rg k n a b u v) →
      let c := memberCore rk 0
      let q := (r.member 0).pair k
      (q.st ≠ 1 ∨ q.swept = false ∨ q.num ≠ j.uid → exec (.sweepFetchComplete d rg k) s = .next (endJob s c j.uid)) ∧
      (q.st = 1 → q.swept = true → q.num = j.uid →
      (readsHeld s c j.ctx cwa 16384 = true ∨ readsHeld s c j.ctx ccwa 16384 = true →
        exec (.sweepFetchComplete d rg k) s = .next s) ∧
      (readsHeld s c j.ctx cwa 16384 = false → readsHeld s c j.ctx ccwa 16384 = false →
      let v := engineSee (engineSee s c j.ctx cwa 16384 false) c j.ctx ccwa 16384 false
      (∀ y z, readTile v c j.ctx cwa = .ok y → readTile v c j.ctx ccwa = .ok z →
        (takeEntry s c = none ∨ spawnable s (r.member 0) = false → exec (.sweepFetchComplete d rg k) s = .next s) ∧
        (takeEntry s c ≠ none → spawnable s (r.member 0) = true → exec (.sweepFetchComplete d rg k) s = .next (sweepStep
          (spawnTask (fillTile (fillTile (endJob v c j.uid) c (28 + 2 * k) y) c (29 + 2 * k) z) rk 0 k) rk))) ∧
      ((∃ e, readTile v c j.ctx cwa = .error e ∨ readTile v c j.ctx ccwa = .error e) →
        exec (.sweepFetchComplete d rg k) s = .next (finishRing (endJob v c j.uid) rk 1 n a b))))) ∧
    (let due : RingRec → Bool := fun e => e.pulse && decide (∀ g ∈ s.posted, g.uid ∈ e.gate → g.stage ≠ 0)
      let s0 := modRing ((r.records.filter due).foldl (fun t _ => pulse t (memberCore rk 0) 3) s) rk fun r =>
        { r with records := r.records.map fun e => if due e then { e with pulse := false } else e }
      (r.records = [] → exec (.ringCompletionRecord d rg) s = .next s0) ∧
      ∀ e rest, r.records = e :: rest →
        ((∃ g ∈ s.posted, g.uid ∈ e.gate ∧ g.stage = 0) ∨ 16 ≤ r.queue.length →
          exec (.ringCompletionRecord d rg) s = .next s0) ∧
        ((∀ g ∈ s.posted, g.uid ∈ e.gate → g.stage ≠ 0) → r.queue.length < 16 →
          exec (.ringCompletionRecord d rg) s = .next (modRing s0 rk fun r =>
            { r with records := r.records.drop 1, queue := r.queue ++ [⟨e.val, none⟩] }))) ∧
    (∀ q gk g w e, (r.member q).group = some gk → find s.groups gk = some g → find s.wgs g.wg = some w → w.st = .resident →
      w.leaving = false → g.joined ≠ none → g.core = memberCore rk q → risingFrom 0 s.groups = true →
      (∀ o ∈ s.groups, o.1 ≠ gk → o.2.core = memberCore rk q → o.2.joined = none) →
      5 ≤ r.st → (∀ t ∈ (r.member q).pairs, t.st = 0 ∨ t.ended = true) → strandsOf s gk = [] →
      takeEntry s (memberCore rk q) = some e → g.width ≤ 64 → ∃ t,
      exec (.taskGroupReturn d rg q) s = .next t ∧ t.mem = s.mem ∧
      find t.strands (strandKey g.core e) = some { Strand.start gk (Mask.below g.width) ((g.joined.map Prod.snd).getD 0) with
        due := if w.stopped then some (.watchdog, none) else none } ∧
      find t.groups gk = some { g with joined := none, banks := [], live := Mask.below g.width }) ∧
    (r.st < 5 → exec (.ringIdle d rg) s = .next s) ∧
    (5 ≤ r.st → r.members.length = 16 → (∀ k ∈ r.members, k.freed = true) →
      exec (.ringIdle d rg) s = .next (modRing s rk fun r => { r with
        st := 0, owner := none, scan := false, halting := false
        members := r.members.map fun k => { Member.reset with tags := k.tags } }))

/-! ## The integrator field (18_integrators) -/

/-- R332 and R334 to R344 at perform and at commit: which field states and operands each of the nine instructions takes, the
fault where it takes none, what IGET reads, and what IPATCH, IRUN, IHALT, ISTEP, ISET, IOUT, ISAVE and IREST do when their
block commits. Domain states are 0 HALTED, 1 RUNNING, 2 FAULT.
Log entry 26 names what in it is the model's reading or choice. -/
def Obligations.IntegratorInstructions : Prop :=
  (∀ s x p, site? s = some x → x.place s = some p →
    let k := core s x.core
    let f := k.field
    let mine := f.owner = some (p.w.ctx, p.wk)
    let dom : Nat → Domain := fun d => f.doms.getD d Domain.reset
    let entry : Nat → Nat := fun c => (get f.live c 0).toNat
    let cellDom : Nat → Nat := fun c => entry c / 2 ^ 55 % 4
    let rest := ∃ j ∈ k.jobs, ∃ va, j.kind = .irest va
    let patching := ∃ j ∈ k.jobs, ∃ va n m b, j.kind = .ipatch va n m b
    let bit : Prop → Nat → Nat := fun q v => open Classical in if q then v else 0
    let does : Instr → Plain → Mask → Effect → Prop := fun i w m e =>
      exec i s = .next (x.commitWith s w.ta w.tb (numTok 32 m 0) e)
    let faults : Instr → FaultCode → Mask → Nat → Prop := fun i c m a => exec i s = .next (x.fault s c m a)
    let here := x.b.addr
    (∀ w : Plain,
      let a := (x.opnd 0).scalar64.toNat
      let v := (x.opnd 1).scalar64.toNat
      let m := (x.opnd 0).mask &&& (x.opnd 1).mask
      m ≠ 0 →
      (let first := v % 2 ^ 9
       let count := v / 2 ^ 9 % 2 ^ 10
       let start := v.testBit 19
       let fits := v < 2 ^ 20 ∧ 1 ≤ count ∧ first + count ≤ 384
       let job : Effect := .ipatch a first count start
       (¬ fits → faults (.ipatch w) .blockFormat m here) ∧
       (fits → a % 8 ≠ 0 → faults (.ipatch w) .misaligned m a) ∧
       (fits → a % 8 = 0 → mine → does (.ipatch w) w m job) ∧
       (fits → a % 8 = 0 → ¬ mine → start = false ∨ f.owner ≠ none → faults (.ipatch w) .slotState m here) ∧
       (fits → a % 8 = 0 → start = true → f.owner = none → (∀ u ∈ f.resv, wgOfBlk s u = some p.wk) →
         exec (.ipatch w) s = .next (x.commitWith
           (modCore s x.core fun h => { h with field := { h.field with resv := insertNat h.field.resv x.b.uid } }) w.ta w.tb
           (numTok 32 m 0) job)) ∧
       (fits → a % 8 = 0 → start = true → f.owner = none → (∃ u ∈ f.resv, wgOfBlk s u ≠ some p.wk) →
         faults (.ipatch w) .slotState m here)) ∧
      (let cls := a / 2 ^ 12
       let i := a % 2 ^ 9
       let named := (cls < 3 ∧ i < 384) ∨ (cls = 8 ∧ i < 4)
       let halted := (dom (if cls = 8 then i else cellDom i)).st ≠ 1
       let top := if (get f.live i 0).getLsbD 63 then 2 ^ (entry i / 2 ^ 57 % 2 ^ 5) else 2 ^ 31
       let low := [v % 2 ^ 32, v % 2 ^ 31, v % 2 ^ 22].getD cls (v % 2 ^ 17 + v / 2 ^ 20 % 2 ^ 4 * 2 ^ 20)
       let inRange := cls = 0 ∨ (cls = 1 ∧ low < top) ∨
         (cls = 2 ∧ (∀ n < 5, low / 2 ^ (4 * n) % 2 ^ 4 ≠ 8) ∧ low / 2 ^ 20 ≠ 2) ∨ cls = 8
       (¬ mine → faults (.iset w) .slotState m here) ∧
       (mine → a / 2 ^ 9 % 2 ^ 3 ≠ 0 ∨ 2 ^ 16 ≤ a → faults (.iset w) .blockFormat m here) ∧
       (mine → a / 2 ^ 9 % 2 ^ 3 = 0 → a < 2 ^ 16 →
         (¬ named ∨ ¬ halted ∨ rest → faults (.iset w) .slotState m here) ∧
         (named → halted → ¬ rest →
           (inRange → does (.iset w) w m (.iset cls i (BitVec.ofNat 64 low))) ∧
           (¬ inRange → faults (.iset w) .blockFormat m here)))) ∧
      (let q := f.ports.getD a Port.reset
       let cell := v % 2 ^ 9
       let fits := a < 8 ∧ v < 2 ^ 10 ∧ cell < 384
       let still := (q.en = true → (dom (cellDom q.cell)).st = 0) ∧ (dom (cellDom cell)).st = 0 ∧ ¬ rest
       (¬ mine → faults (.iout w) .slotState m here) ∧
       (mine → ¬ fits → faults (.iout w) .blockFormat m here) ∧
       (mine → fits → ¬ still → faults (.iout w) .slotState m here) ∧
       (mine → fits → still → does (.iout w) w m (.iout a cell (v.testBit 9))))) ∧
    (∀ w : Plain,
      let va := (x.opnd 0).scalar64.toNat
      let m := (x.opnd 0).mask
      let calm := (∀ d ∈ f.doms, d.st ≠ 1) ∧ ¬ rest
      m ≠ 0 →
      (¬ mine → faults (.isave w) .slotState m here ∧ faults (.irest w) .slotState m here) ∧
      (mine → va % 128 ≠ 0 → faults (.isave w) .misaligned m va) ∧
      (mine → va % 128 = 0 → does (.isave w) w m (.isave va)) ∧
      (mine → ¬ calm → faults (.irest w) .slotState m here) ∧
      (mine → calm → va % 128 ≠ 0 → faults (.irest w) .misaligned m va) ∧
      (mine → calm → va % 128 = 0 → does (.irest w) w m (.irest va))) ∧
    ∀ (w : Plain) v m, x.sel w = (v, m) → m ≠ 0 →
      (let masked : Nat → Prop := fun d => d < 4 ∧ v.testBit d = true
       let act := v.testBit 4 = true
       let waiting := ∃ d, masked d ∧ (dom d).st = 0 ∧ (dom d).pend ≠ 0
       let whole := ¬ patching ∧ f.loaded.length = 384 ∧ f.dirty = false
       let kept := f.shadowResv = none ∨ f.shadowResv = some x.b.uid
       let running := ∃ d ∈ f.doms, d.st = 1
       (¬ mine → faults (.irun w) .slotState m here ∧ faults (.ihalt w) .slotState m here ∧
         faults (.istep w) .slotState m here) ∧
       (mine → 2 ^ 5 ≤ v → faults (.irun w) .blockFormat m here ∧ faults (.ihalt w) .blockFormat m here) ∧
       (mine → v < 2 ^ 5 →
         (act → running ∨ ¬ kept → faults (.irun w) .slotState m here) ∧
         (act → ¬ running → kept → ¬ whole → faults (.irun w) .patchInvalid m here) ∧
         (act → ¬ running → kept → whole → waiting ∨ rest → faults (.irun w) .slotState m here) ∧
         (act → ¬ running → kept → whole → ¬ waiting → ¬ rest → exec (.irun w) s = .next (x.commitWith
           (modCore s x.core fun h => { h with field := { h.field with shadowResv := some x.b.uid } }) w.ta w.tb
           (numTok 32 m 0) (.irun (v % 16) true))) ∧
         (¬ act → f.restFail = true → faults (.irun w) .patchInvalid m here) ∧
         (¬ act → f.restFail = false → (∃ d, masked d ∧ (dom d).st = 2) → faults (.irun w) .incrementOverrun m here) ∧
         (¬ act → f.restFail = false → (∀ d, masked d → (dom d).st ≠ 2) →
           (waiting ∨ rest → faults (.irun w) .slotState m here) ∧
           (¬ waiting → ¬ rest → does (.irun w) w m (.irun v false))) ∧
         (rest → faults (.ihalt w) .slotState m here) ∧
         (¬ rest → does (.ihalt w) w m (.ihalt (v % 16) (v.testBit 4)))) ∧
       (mine →
         let d := v % 4
         let n := v / 2 ^ 8
         (v / 2 ^ 2 % 2 ^ 6 ≠ 0 ∨ 2 ^ 40 ≤ v → faults (.istep w) .blockFormat m here) ∧
         (v / 2 ^ 2 % 2 ^ 6 = 0 → v < 2 ^ 40 →
           ((dom d).st = 1 → faults (.istep w) .slotState m here) ∧
           ((dom d).st = 2 → faults (.istep w) .incrementOverrun m here) ∧
           ((dom d).st = 0 → rest ∨ 2 ^ 32 ≤ (dom d).pend + n → faults (.istep w) .slotState m here) ∧
           ((dom d).st = 0 → ¬ rest → (dom d).pend + n < 2 ^ 32 → does (.istep w) w m (.istep d n))))) ∧
      (let cls := v / 2 ^ 12
       let i := v % 2 ^ 9
       let is : Nat → Prop := fun n => exec (.iget w) s = .next (x.yield s w.ta w.tb (numTok 64 m n))
       let q := f.ports.getD i Port.reset
       let inc : Int → Nat := fun z => if z = 0 then 0 else if 0 < z then 1 else 3
       let known := (cls < 5 ∧ i < 384) ∨ (cls ∈ [8, 9, 10, 12] ∧ i < 4) ∨ (cls = 11 ∧ i < 8) ∨ (cls = 15 ∧ i = 0)
       (v / 2 ^ 9 % 2 ^ 3 ≠ 0 ∨ 2 ^ 16 ≤ v → faults (.iget w) .blockFormat m here) ∧
       (v / 2 ^ 9 % 2 ^ 3 = 0 → v < 2 ^ 16 →
         (¬ known ∨ (cls ≠ 15 ∧ ¬ mine) → faults (.iget w) .slotState m here) ∧
         (mine → i < 384 →
           (cls = 0 → is ((get f.y i 0).toInt % 2 ^ 64).toNat) ∧
           (cls = 1 → is (get f.res i 0)) ∧
           (cls = 2 →
             is ((∑ n ∈ Finset.range 5, (get f.cnt (8 * i + n) 0 % 16).toNat * 16 ^ n) + inc (get f.dzl i 0) * 2 ^ 20)) ∧
           (cls = 3 → is (entry i)) ∧
           (cls = 4 → is (if i ∈ f.loaded then (get f.shadow i 0).toNat else 0))) ∧
         (mine → i < 4 →
           (cls = 8 → is ((dom i).div + bit ((dom i).src = true) (2 ^ 16) + (dom i).evt * 2 ^ 20)) ∧
           (cls = 9 → is (dom i).steps.toNat) ∧
           (cls = 10 → is ((dom i).st + (dom i).missed * 2 ^ 32)) ∧
           (cls = 12 → is (dom i).pend)) ∧
         (mine → i < 8 → cls = 11 →
           is (q.cell + bit (q.en = true) (2 ^ 15) + q.count * 2 ^ 16 + q.queue.length * 2 ^ 24 + q.word.toNat * 2 ^ 32)) ∧
         (cls = 15 → i = 0 → is ((if f.owner = none then 0 else bit mine 1 + bit (¬ mine) 2) +
           bit (f.loaded.length = 384) 4 + bit (f.dirty = true) 8 + bit (f.restFail = true) 16 +
           bit (f.shadowResv ≠ none) 32 + bit (∃ j ∈ k.jobs, j.isField = true) 64 + f.badCell * 2 ^ 16 +
           f.overCell * 2 ^ 32 + f.overInput * 2 ^ 41))))) ∧
  ∀ key p m gate s,
    let c := coreOf key
    let f := (core s c).field
    let me := some (p.w.ctx, p.wk)
    let job : JobKind → List Region → List Region → State → State := fun kd rd wr t =>
      modCore { t with uid := t.uid + 1 } c fun h =>
        { h with jobs := h.jobs ++ [⟨t.uid, kd, p.w.ctx, p.wk, p.l.tag, p.g.slot, rd, wr, gate, none, none⟩] }
    (∀ va first count start,
      let claims := f.owner = none ∧ start = true ∧ ∀ u ∈ f.resv, wgOfBlk s u = some p.wk
      (¬ claims → f.owner ≠ me → applyEffect key p m gate s (.ipatch va first count start) = ([], s)) ∧
      (claims ∨ f.owner = me → applyEffect key p m gate s (.ipatch va first count start) = ([s.uid], job (.ipatch va first count start)
        [⟨.virt p.w.ctx, va, va + 8 * count⟩] [] (modCore s c fun h =>
          { h with field := { h.field with
            owner := me, resv := [], upTo := if f.owner = none then (die s (c / 48)).clk else f.upTo } })))) ∧
    (f.owner = me →
      (∀ va, (∀ j ∈ (core s c).jobs, j.uid ≠ s.uid) → applyEffect key p m gate s (.isave va) =
        ([s.uid], modCore { s with uid := s.uid + 1 } c fun h => { h with jobs := h.jobs ++ [⟨s.uid, .isave va f.image, p.w.ctx,
          p.wk, (fieldOwner s c f).2.2, (fieldOwner s c f).2.1, [], [⟨.virt p.w.ctx, va, va + 8448⟩], gate, none, none⟩] })) ∧
      (∀ va, applyEffect key p m gate s (.irest va) =
        ([s.uid], job (.irest va) [⟨.virt p.w.ctx, va, va + 8448⟩] [] s)) ∧
      (∀ n cell en, applyEffect key p m gate s (.iout n cell en) = ([], modCore s c fun h => { h with field :=
        { h.field with ports := h.field.ports.modify n fun q =>
            { q with cell := cell, en := en, word := 0, count := 0 } } })) ∧
      (∀ d n, 1 ≤ n → (f.doms.getD d Domain.reset).st = 2 → (f.doms.getD d Domain.reset).pend + n < 2 ^ 32 →
        applyEffect key p m gate s (.istep d n) = ([], modCore s c fun h => { h with field := { h.field with
          doms := h.field.doms.modify d fun z => { z with pend := z.pend + n } } })) ∧
      (∀ d n, 1 ≤ n → (f.doms.getD d Domain.reset).st ≠ 2 → (f.doms.getD d Domain.reset).pend + n < 2 ^ 32 →
        applyEffect key p m gate s (.istep d n) = ([s.uid], modCore { s with uid := s.uid + 1 } c fun h => { h with field :=
          { h.field with
            doms := h.field.doms.modify d fun z => { z with pend := z.pend + n }
            waiters := h.field.waiters ++ [(s.uid, d)] } })) ∧
      (∀ d, applyEffect key p m gate s (.istep d 0) = ([], s)) ∧
      (∀ cls i v, ∃ t : State, applyEffect key p m gate s (.iset cls i v) = ([], t) ∧
        (let g := (core t c).field
         (cls = 0 → risingFrom 0 f.y = true → (∀ n, get g.y n 0 = if n = i then v.setWidth 32 else get f.y n 0) ∧
           g = { f with y := g.y }) ∧
         (cls = 1 → risingFrom 0 f.res = true → (∀ n, get g.res n 0 = if n = i then v.toNat % 2 ^ 31 else get f.res n 0) ∧
           g = { f with res := g.res }) ∧
         (cls = 2 → risingFrom 0 f.cnt = true → risingFrom 0 f.dzl = true →
           (∀ n, get g.dzl n 0 = if n = i then ([0, 1, 0, -1].getD (v.toNat / 2 ^ 20 % 4) 0 : Int) else get f.dzl n 0) ∧
           (∀ n, ∀ q < 8, get g.cnt (8 * n + q) 0 =
             if n = i ∧ q < 5 then (v.extractLsb' (4 * q) 4).toInt else get f.cnt (8 * n + q) 0) ∧
           g = { f with cnt := g.cnt, dzl := g.dzl }) ∧
         (cls = 8 → g = { f with doms := f.doms.modify i fun d =>
           { d with div := v.toNat % 2 ^ 16, src := v.getLsbD 16, evt := v.toNat / 2 ^ 20 % 2 ^ 4 } }))) ∧
      (∀ mask act, ∃ t : State, applyEffect key p m gate s (.irun mask act) = ([], t) ∧ t.mem = s.mem ∧
        (risingFrom 0 f.res = true → let g := (core t c).field
         g.shadow = f.shadow ∧ g.y = f.y ∧ g.loaded = f.loaded ∧
         (act = false → g = { f with doms := g.doms, waiters := g.waiters }) ∧
         (act = true → g.live = f.shadow ∧ g.cnt = [] ∧ g.dzl = [] ∧ g.overCell = 0x1FF ∧ g.overInput = 7 ∧
           g.restFail = false ∧ g.shadowResv = none ∧
           g.ports = f.ports.map (fun q => { q with word := 0, count := 0 }) ∧
           ∀ n, get g.res n 0 = get f.res n 0 % 2 ^ ((get f.shadow n 0).toNat / 2 ^ 57 % 2 ^ 5)) ∧
         ∀ d < f.doms.length,
           let o := f.doms.getD d Domain.reset
           let o := if act then { o with st := if o.st = 2 then 0 else o.st, steps := 0, pend := 0 } else o
           g.doms.getD d Domain.reset =
             if mask.testBit d ∧ o.st = 0 then { o with st := 1, phase := 0, due := 0, coming := false } else o)) ∧
      (∀ mask, ∃ t : State, applyEffect key p m gate s (.ihalt mask false) = ([], t) ∧ t.mem = s.mem ∧
        (let g := (core t c).field
         g = { f with doms := g.doms, waiters := g.waiters } ∧
         ∀ d < f.doms.length, g.doms.getD d Domain.reset =
           let o := f.doms.getD d Domain.reset
           if mask.testBit d then { o with st := 0, pend := 0, due := 0, coming := false } else o)) ∧
      (∀ mask, risingFrom 0 s.cores = true → ∃ t : State, applyEffect key p m gate s (.ihalt mask true) = ([], t) ∧
        t.mem = s.mem ∧ (core t c).field = Field.reset ∧ ∀ j ∈ (core t c).jobs, j.isField = false))

/-- R326 to R331, R337, R343 and R344: a clock of steps computes each cell's y, residue and increment exactly, moves the
counters between domains and fills the ports, or leaves a failing domain in FAULT with its record; a patch job loads the
valid entries or stops dirty; a save writes the image of the field; a restore applies an image that passes its checks or
sets RESTFAIL. A field takes every clock of its die once, and an output that was true in a clock makes its domains step in the next.
Log entries 2, 26 and 38 name what in it is the model's reading or choice. -/
def Obligations.IntegratorEvents : Prop :=
  (∀ s c (on : BitVec 4),
    let f := (core s c).field
    let e : Nat → Nat := fun i => (get f.live i 0).toNat
    let en : Nat → Prop := fun i => (e i).testBit 63 = true
    let dom : Nat → Nat := fun i => e i / 2 ^ 55 % 4
    let top : Nat → Int := fun i => 2 ^ (e i / 2 ^ 57 % 2 ^ 5)
    let src : Nat → Nat → Nat := fun i k => e i / 2 ^ (40 - 10 * k) % 2 ^ 9
    let sgn : Int → Int := fun z => if 0 < z then 1 else if z < 0 then -1 else 0
    let cnt : Nat → Nat → Int := fun i k => get f.cnt (8 * i + k) 0
    let apart : Nat → Nat → Prop := fun i k => src i k < 384 ∧ en (src i k) ∧ dom (src i k) ≠ dom i
    let steps : Nat → Prop := fun i => i < 384 ∧ en i ∧ on.getLsbD (dom i) = true
    open Classical in
    let input : Nat → Nat → Int := fun i k =>
      let v : Int := if src i k = 511 then 1 else if src i k < 384 ∧ en (src i k) then
        (if dom (src i k) = dom i then get f.dzl (src i k) 0 else sgn (cnt i k)) else 0
      if (e i).testBit (49 - 10 * k) then -v else v
    let dy : Nat → Int := fun i => input i 1 + input i 2 + input i 3 + input i 4
    let t : Nat → Int := fun i => if (e i).testBit 62 then input i 0 + dy i else dy i
    let y2 : Nat → Int := fun i => (get f.y i 0).toInt + t i
    let r : Nat → Int := fun i => (get f.res i 0 : Nat) + (if (e i).testBit 62 then t i else input i 0 * y2 i)
    let dz : Nat → Int := fun i => if top i ≤ r i then 1 else if r i < 0 then -1 else 0
    let r2 : Nat → Int := fun i => r i - dz i * top i
    let sent : Nat → Int := fun i => if steps i then dz i else 0
    let came : Nat → Nat → Int := fun i k => if en i ∧ apart i k then sent (src i k) else 0
    let took : Nat → Nat → Int := fun i k => if steps i ∧ apart i k then sgn (cnt i k) else 0
    let after : Nat → Nat → Int := fun i k => cnt i k - took i k + came i k
    let tooFar : Nat → Nat → Prop := fun i k => ¬ (-7 ≤ after i k ∧ after i k ≤ 7)
    let fails : Nat → Nat → Prop := fun i k => i < 384 ∧
      ((k < 5 ∧ came i k ≠ 0 ∧ tooFar i k) ∨ (k = 5 ∧ steps i ∧ ¬ (-2 ^ 31 ≤ y2 i ∧ y2 i < 2 ^ 31)) ∨
       (k = 6 ∧ steps i ∧ ¬ (0 ≤ r2 i ∧ r2 i < top i)))
    let d : Nat → Domain := fun n => f.doms.getD n Domain.reset
    let turn : Nat → Prop := fun n => ((d n).st = 0 ∧ (d n).pend ≠ 0) ∨ ((d n).st = 1 ∧ (d n).src = true ∧ (d n).due ≠ 0) ∨
      ((d n).st = 1 ∧ (d n).src = false ∧ (d n).div ≤ (d n).phase)
    let full : Nat → Prop := fun n => ∃ q ∈ f.ports, q.en = true ∧ q.count = 15 ∧ en q.cell ∧ dom q.cell = n ∧
      64 ≤ q.queue.length
    let due : Nat → Prop := fun n => turn n ∧ ¬ full n
    let code : Int → Nat := fun z => if z = 0 then 0 else if 0 < z then 1 else 3
    let ended : Domain → Domain := fun z => if z.coming then (if z.due = 0 then { z with due := 1, coming := false }
      else { z with missed := min (z.missed + 1) 0xFFFF, coming := false }) else z
    let ticks : Nat → Domain := fun n =>
      ended (if (d n).st = 1 ∧ (d n).src = false ∧ ¬ turn n then { d n with phase := (d n).phase + 1 } else d n)
    (f.owner = none ∨ (die s (c / 48)).clk ≤ f.upTo → exec (.integratorStep c on) s = .next s) ∧
    (f.owner ≠ none → f.upTo < (die s (c / 48)).clk →
    ((∃ n < 4, on.getLsbD n = true ∧ ¬ due n) ∨ (∃ n < 4, on.getLsbD n = false ∧ due n) →
      exec (.integratorStep c on) s = .next s) ∧
    ((∀ n < 4, on.getLsbD n = true ↔ due n) → risingFrom 0 f.y = true → risingFrom 0 f.res = true →
      risingFrom 0 f.cnt = true → risingFrom 0 f.dzl = true → f.doms.length = 4 →
      ((∀ i k, ¬ fails i k) → ∃ u : State, exec (.integratorStep c on) s = .next u ∧ u.mem = s.mem ∧ u.events = s.events ∧
        let g := (core u c).field
        (∀ i < 384, (steps i → get g.y i 0 = BitVec.ofInt 32 (y2 i) ∧ ((get g.res i 0 : Nat) : Int) = r2 i ∧ get g.dzl i 0 = dz i) ∧
          (¬ steps i → get g.y i 0 = get f.y i 0 ∧ get g.res i 0 = get f.res i 0 ∧ get g.dzl i 0 = get f.dzl i 0) ∧
          ∀ k < 5, get g.cnt (8 * i + k) 0 = after i k) ∧
        g.upTo = f.upTo + 1 ∧
        (∀ n < 4, g.doms.getD n Domain.reset = if on.getLsbD n then
          ended { d n with
            steps := (d n).steps + 1
            pend := (if (d n).st = 0 then (d n).pend - 1 else (d n).pend)
            phase := 0
            due := (d n).due - 1 } else ticks n) ∧
        (∀ n < f.ports.length,
          let q := f.ports.getD n Port.reset
          let w := q.word ||| BitVec.ofNat 32 (code (sent q.cell) * 4 ^ q.count)
          g.ports.getD n Port.reset = if q.en = true ∧ en q.cell ∧ on.getLsbD (dom q.cell) = true then
            (if q.count = 15 then { q with word := 0, count := 0, queue := q.queue ++ [⟨w.setWidth 128, none⟩] }
             else { q with word := w, count := q.count + 1 }) else q) ∧
        (∀ w ∈ f.waiters, (g.doms.getD w.2 Domain.reset).pend = 0 → ∀ k st, find u.strands k = some st → w.1 ∉ st.asyncs) ∧
        let old := (core s c).xbar.clocks
        (core u c).xbar.clocks = if (core s c).xbar.owner ≠ none ∧ on ≠ 0 then
          put old f.upTo (get old f.upTo 0 ||| on.setWidth 48 <<< 4) else old) ∧
      (∀ n i k, n < 4 → on = BitVec.twoPow 4 n → fails i k → (∀ j h, j < i → ¬ fails j h) → (∀ h, h < k → ¬ fails i h) →
        s.events.length < 4096 → (die s (c / 48)).holding = [] → ∃ (u : State) (rec : Record), exec (.integratorStep c on) s = .next u ∧ u.mem = s.mem ∧
        let g := (core u c).field
        g.y = f.y ∧ g.res = f.res ∧ g.dzl = f.dzl ∧ g.ports = f.ports ∧ g.live = f.live ∧
        (∀ j < 384, ∀ h < 5, get g.cnt (8 * j + h) 0 = cnt j h) ∧
        (∀ h < 4, g.doms.getD h Domain.reset = if h = n then { ended (d n) with st := 2 } else ticks h) ∧
        g.upTo = f.upTo + 1 ∧ g.overCell = i ∧ g.overInput = k ∧
        u.events = s.events ++ [rec] ∧ rec.type = 1 ∧ rec.code = 0x12 ∧ rec.core = c ∧
        rec.addr = BitVec.ofNat 64 (i + k * 2 ^ 9))))) ∧
  (∀ s c (j : Job), (core s c).jobs.find? (fun e => e.uid == j.uid && e.engine.isSome) = some j →
    let f := (core s c).field
    let reads : State → Nat → Nat → (Nat → Nat) → Prop := fun v va n b =>
      ∀ o < n, engineByte v c j.ctx (va + o) = .ok (b o, false) ∧ b o < 256
    let field : (Nat → Nat) → Nat → Nat → Nat := fun b o n => ∑ k ∈ Finset.range n, b (o + k) * 256 ^ k
    let valid : Nat → Prop := fun e => (e.testBit 63 = false ∧ e = 0) ∨ (e.testBit 63 = true ∧ 1 ≤ e / 2 ^ 57 % 2 ^ 5 ∧
      e / 2 ^ 50 % 2 ^ 5 = 0 ∧ ∀ k < 5, e / 2 ^ (40 - 10 * k) % 2 ^ 9 < 384 ∨ 510 ≤ e / 2 ^ (40 - 10 * k) % 2 ^ 9)
    let reported : State → Nat → Nat → Prop := fun u code a => s.events.length < 4096 → (die s (c / 48)).holding = [] →
      ∃ rec : Record,
      u.events = s.events ++ [rec] ∧ rec.type = 1 ∧ rec.code = code ∧ rec.core = c ∧
      rec.addr = BitVec.ofNat 64 (a % 2 ^ 52)
    let gone : State → Prop := fun u => (∀ e ∈ (core u c).jobs, e.uid ≠ j.uid) ∧
      ∀ k st, find u.strands k = some st → j.uid ∉ st.asyncs
    (∀ va n, ((∃ first start, j.kind = .ipatch va first (n / 8) start ∧ n % 8 = 0) ∨ (j.kind = .irest va ∧ n = 8448)) →
      readsHeld s c j.ctx va n = true → exec (.patchJob c j.uid) s = .next s ∧ exec (.irestJob c j.uid) s = .next s) ∧
    (∀ va first count start (b : Nat → Nat), j.kind = .ipatch va first count start → f.owner ≠ none →
      risingFrom 0 f.shadow = true → readsHeld s c j.ctx va (8 * count) = false →
      let f0 := if start then { f with shadow := [], loaded := [], dirty := false, badCell := 0x1FF } else f
      let v := engineSee s c j.ctx va (8 * count) false
      let good : Nat → Prop := fun n => ∀ i < n, reads v (va + 8 * i) 8 (fun o => b (8 * i + o)) ∧ valid (field b (8 * i) 8)
      let upTo : Nat → Field → Prop := fun n g => (∀ k, k ∈ g.loaded ↔ k ∈ f0.loaded ∨ (first ≤ k ∧ k < first + n)) ∧
        (∀ k, get g.shadow k 0 = if first ≤ k ∧ k < first + n then BitVec.ofNat 64 (field b (8 * (k - first)) 8)
          else get f0.shadow k 0)
      (good count → ∃ u : State, exec (.patchJob c j.uid) s = .next u ∧ u.mem = s.mem ∧ u.events = s.events ∧ gone u ∧
        upTo count (core u c).field ∧
        (core u c).field = { f0 with shadow := (core u c).field.shadow, loaded := (core u c).field.loaded }) ∧
      (∀ n < count, good n → ∀ o < 8, reads v (va + 8 * n) o (fun i => b (8 * n + i)) →
        ((∃ e, engineByte v c j.ctx (va + 8 * n + o) = .error e) ∨
          (∃ z, engineByte v c j.ctx (va + 8 * n + o) = .ok (z, true)) ∨
          (o = 0 ∧ reads v (va + 8 * n) 8 (fun i => b (8 * n + i)) ∧ ¬ valid (field b (8 * n) 8))) → ∃ u : State,
        exec (.patchJob c j.uid) s = .next u ∧ u.mem = s.mem ∧ gone u ∧ upTo n (core u c).field ∧
        (core u c).field = { f0 with
          shadow := (core u c).field.shadow
          loaded := (core u c).field.loaded
          dirty := true
          badCell := first + n } ∧ reported u 0x13 (va + 8 * n + o))) ∧
    (∀ va img, j.kind = .isave va img →
      (writesBlocked s c j.ctx va (va + 8448) = true → exec (.isaveJob c j.uid) s = .next s) ∧
      (writesBlocked s c j.ctx va (va + 8448) = false →
        (∀ e, engineAcc s c j.ctx va .store = .error e → ∃ u : State, exec (.isaveJob c j.uid) s = .next u ∧ u.mem = s.mem ∧
          gone u ∧ reported u e.code va) ∧
        (∀ q, Memory.wf s.mem = true → va % 128 = 0 → q % 128 = 0 → (∀ o < 8448, ∃ a e, engineAcc s c j.ctx (va + o) .store = .ok a ∧
            a.pa % 2 ^ 51 = q + o ∧ tlbHit s c j.ctx (va + o) e) → ∃ u : State,
          exec (.isaveJob c j.uid) s = .next u ∧ gone u ∧ u.events = s.events ∧
          (∀ o < 8448, readByte u.mem (q + o) = img.getD o 0) ∧
          ∀ k, k < q ∨ q + 8448 ≤ k → readByte u.mem k = readByte s.mem k))) ∧
    (∀ va (b : Nat → Nat), j.kind = .irest va → f.owner ≠ none →
      let top : Nat → Nat := fun i => 2 ^ ((get f.live i 0).toNat / 2 ^ 57 % 2 ^ 5)
      let signed : Nat → Int := fun n => if n < 8 then n else (n : Int) - 16
      let legal := field b 0 4 = (crc32 ((List.range 3072).map fun o =>
            BitVec.ofNat 8 ((get f.live (o / 8) 0).toNat / 256 ^ (o % 8)))).toNat ∧
        field b 4 4 = 0 ∧
        (∀ d < 4, b (8 + 32 * d) < 3 ∧ b (9 + 32 * d) / 2 % 8 = 0 ∧ field b (28 + 32 * d) 12 = 0) ∧
        (∀ n < 8, field b (0x88 + 8 * n) 2 / 2 ^ 9 % 2 ^ 6 = 0 ∧ b (0x8A + 8 * n) ≤ 15 ∧ b (0x8B + 8 * n) ≤ 64 ∧
          ∀ o < 256, 4 * b (0x8B + 8 * n) ≤ o → b (0x1900 + 256 * n + o) = 0) ∧
        field b 0xC8 8 < 2 ^ 12 ∧ field b 0xD0 48 = 0 ∧
        (∀ i < 384, field b (0x104 + 16 * i) 4 < top i ∧ field b (0x108 + 16 * i) 4 < 2 ^ 22 ∧
          (∀ k < 5, field b (0x108 + 16 * i) 4 / 16 ^ k % 16 ≠ 8) ∧ field b (0x108 + 16 * i) 4 / 2 ^ 20 ≠ 2 ∧
          field b (0x10C + 16 * i) 4 = 0)
      readsHeld s c j.ctx va 8448 = false → reads (engineSee s c j.ctx va 8448 false) va 8448 b →
      (legal → ∃ u : State, exec (.irestJob c j.uid) s = .next u ∧ u.mem = s.mem ∧ u.events = s.events ∧ gone u ∧
        let g := (core u c).field
        g.live = f.live ∧ g.shadow = f.shadow ∧ g.loaded = f.loaded ∧ g.owner = f.owner ∧ g.restFail = false ∧
        g.overCell = field b 0xC8 8 % 2 ^ 9 ∧ g.overInput = field b 0xC8 8 / 2 ^ 9 ∧
        (∀ i < 384, get g.y i 0 = BitVec.ofNat 32 (field b (0x100 + 16 * i) 4) ∧
          get g.res i 0 = field b (0x104 + 16 * i) 4 ∧
          get g.dzl i 0 = ([0, 1, 0, -1].getD (field b (0x108 + 16 * i) 4 / 2 ^ 20) 0 : Int) ∧
          ∀ k < 5, get g.cnt (8 * i + k) 0 = signed (field b (0x108 + 16 * i) 4 / 16 ^ k % 16)) ∧
        (∀ d < 4, g.doms.getD d Domain.reset = ⟨(b (9 + 32 * d)).testBit 0, b (9 + 32 * d) / 16, field b (10 + 32 * d) 2,
          b (8 + 32 * d), BitVec.ofNat 64 (field b (16 + 32 * d) 8), field b (12 + 32 * d) 4, field b (26 + 32 * d) 2,
          field b (24 + 32 * d) 2, 0, false⟩) ∧
        ∀ n < 8, g.ports.getD n Port.reset = ⟨field b (0x88 + 8 * n) 2 % 2 ^ 9, (field b (0x88 + 8 * n) 2).testBit 15,
          BitVec.ofNat 32 (field b (0x8C + 8 * n) 4), b (0x8A + 8 * n),
          (List.range (b (0x8B + 8 * n))).map fun k => ⟨BitVec.ofNat 128 (field b (0x1900 + 256 * n + 4 * k) 4), none⟩⟩) ∧
      (¬ legal → ∃ u : State, exec (.irestJob c j.uid) s = .next u ∧ u.mem = s.mem ∧ gone u ∧ reported u 0x13 va ∧
        (core u c).field = { f with restFail := true })) ∧
    ∀ va, j.kind = .irest va → f.owner ≠ none → readsHeld s c j.ctx va 8448 = false →
      let v := engineSee s c j.ctx va 8448 false
      ∀ o e, o < 8448 → (∀ n < o, ∃ z, engineByte v c j.ctx (va + n) = .ok (z, false)) →
      (engineByte v c j.ctx (va + o) = .error e ∨ ∃ z, engineByte v c j.ctx (va + o) = .ok (z, true)) → ∃ u : State,
      exec (.irestJob c j.uid) s = .next u ∧ u.mem = s.mem ∧ gone u ∧ reported u 0x13 (va + o) ∧
      (core u c).field = { f with restFail := true }) ∧
  ∀ (f : Field) i, i < 384 → f.doms.length = 4 → f.ports.length = 8 → (∀ q ∈ f.ports, q.queue.length ≤ 64) →
    let b : Nat → Nat := fun o => (f.image.getD o 0).toNat
    let field : Nat → Nat → Nat := fun o n => ∑ k ∈ Finset.range n, b (o + k) * 256 ^ k
    f.image.length = 8448 ∧ field (0x100 + 16 * i) 4 = (get f.y i 0).toNat ∧
    field (0x104 + 16 * i) 4 = get f.res i 0 % 2 ^ 32 ∧ field (0x10C + 16 * i) 4 = 0 ∧
    (∀ d < 4, let o := f.doms.getD d Domain.reset
      field (8 + 32 * d) 1 = o.st % 256 ∧ field (10 + 32 * d) 2 = o.div % 2 ^ 16 ∧
      field (12 + 32 * d) 4 = o.pend % 2 ^ 32 ∧ field (16 + 32 * d) 8 = o.steps.toNat ∧
      field (24 + 32 * d) 2 = o.missed % 2 ^ 16 ∧ field (26 + 32 * d) 2 = o.phase % 2 ^ 16) ∧
    ∀ n < 8, let q := f.ports.getD n Port.reset
      field (0x8B + 8 * n) 1 = q.queue.length ∧ field (0x8C + 8 * n) 4 = q.word.toNat ∧
      ∀ k < q.queue.length, field (0x1900 + 256 * n + 4 * k) 4 = (q.queue.getD k ⟨0, none⟩).val.toNat % 2 ^ 32

/-! ## Router stages and the event crossbar (19_fabric) -/

/-- R353, R354 and R361 to R368 at perform and at commit: what RTCFG reads, the checks of RTSWAP, RTSEND, QSC, EVCFG, EVARM
and EVFIRE with their faults, the tokens that RTSEND and QSC inject, holds and swaps, and the crossbar items written.
Log entries 27 and 28 name what in it is the model's reading or choice. -/
def Obligations.FabricInstructions : Prop :=
  (∀ s x p, site? s = some x → x.place s = some p →
    let d := x.core / 48
    let y := die s d
    let k := core s x.core
    let ctx := p.w.ctx
    let mine := k.xbar.owner = some (ctx, p.wk)
    let a := (x.opnd 0).scalar64.toNat
    let b := (x.opnd 1).scalar64.toNat
    let m := (x.opnd 0).mask &&& (x.opnd 1).mask
    let m0 := (x.opnd 0).mask
    let does : Instr → Plain → Mask → Effect → Prop := fun i w m e =>
      exec i s = .next (x.commitWith s w.ta w.tb (numTok 32 m 0) e)
    let faults : Instr → FaultCode → Mask → Nat → Prop := fun i c m a => exec i s = .next (x.fault s c m a)
    let here := x.b.addr
    let cellAt : Nat → Nat := fun n => (get y.cells n Cell.reset).cfg.toNat
    let sink : Nat → Prop := fun e => e / 2 ^ 14 % 2 = 1
    let edge : Nat → Prop := fun e => e < 2 ^ 16 ∧ e / 2 ^ 15 = 1 ∧ (sink e → e / 2 ^ 4 % 2 ^ 10 = 0) ∧ (¬ sink e → e % 4 = 0)
    let takes : Nat → Prop := fun e =>
      (sink e → ∃ q, find y.sinks (e % 16) = some q ∧ q.ctx = ctx) ∧
      (¬ sink e → let v := cellAt (e / 2 ^ 4 % 2 ^ 10)
        v / 2 ^ 127 = 1 ∧ v / 2 ^ 109 % 2 ^ 12 = ctx ∧ e / 2 ^ 2 % 4 ≤ v / 2 ^ 121 % 4)
    let swap : Nat → Nat → Prop := fun c0 c1 => ∃ w ∈ y.swaps, w.c0 ≤ c1 ∧ c0 ≤ w.c1
    let within : Nat → Nat → Nat → Prop := fun c0 c1 n => c0 ≤ n / 64 ∧ n / 64 ≤ c1
    (∀ w : Plain, m0 ≠ 0 →
      let busy : Die → Nat → Nat → List (Nat × Nat) → Prop := fun z c0 c1 sinks =>
        (∃ n, within c0 c1 n ∧ (((get z.cells n Cell.reset).cfg.toNat / 2 ^ 127 = 1 ∧
            (get z.cells n Cell.reset).cfg.toNat / 2 ^ 109 % 2 ^ 12 ≠ ctx) ∨
          ∃ h, find z.shadows n = some h ∧ h.ctx ≠ ctx)) ∨
        (∃ q ∈ sinks, (∃ h, find z.sinks q.1 = some h ∧ h.ctx ≠ ctx) ∨
          ∃ h, find z.sinkShadows q.1 = some h ∧ h.sink.ctx ≠ ctx) ∨ ∃ w ∈ z.swaps, w.c0 ≤ c1 ∧ c0 ≤ w.c1
      (2 ^ 52 < a + 16 → faults (.rtcfg w) .pageFault m0 (max a (2 ^ 52))) ∧
      (a + 16 ≤ 2 ^ 52 → a % 16 ≠ 0 → faults (.rtcfg w) .misaligned m0 a) ∧
      (a + 16 ≤ 2 ^ 52 → a % 16 = 0 → ∀ bs t es u, x.mustWait s p a 16 = false → x.b.bytes x.core p s a 16 = (.ok bs, t) →
        let t := usePages t x [a, a + 15]
        let c0 := leAt bs 0 1
        let c1 := leAt bs 1 1
        let n := leAt bs 2 1
        let good := c0 ≤ c1 ∧ c1 ≤ 15 ∧ n ≤ 16 ∧ ∀ v ∈ bs.drop 3, v = 0
        (¬ good → exec (.rtcfg w) s = .next (x.fault t .blockFormat m0 a)) ∧
        (good → x.mustWait t p (a + 16) (16 * n) = false → x.b.bytes x.core p t (a + 16) (16 * n) = (.ok es, u) →
          let u := if n = 0 then t else usePages u x [a + 16, a + 15 + 16 * n]
          let sinks := (List.range n).map fun i => (leAt es (16 * i + 8) 1, leAt es (16 * i) 8)
          let fine := ∀ i < n, leAt es (16 * i) 8 % 8 = 0 ∧ leAt es (16 * i) 8 < 2 ^ 52 ∧ leAt es (16 * i + 8) 1 < 16 ∧
            leAt es (16 * i + 9) 7 = 0
          (¬ fine → exec (.rtcfg w) s = .next (x.fault u .blockFormat m0 a)) ∧
          (fine →
            (busy (die u d) c0 c1 sinks → exec (.rtcfg w) s = .next (x.fault u .slotState m0 here)) ∧
            (¬ busy (die u d) c0 c1 sinks →
              exec (.rtcfg w) s = .next (x.commitWith u w.ta w.tb (numTok 32 m0 0) (.rtcfg a c0 c1 sinks))))))) ∧
    (∀ (w : Plain) v m, x.sel w = (v, m) → m ≠ 0 →
      let c0 := v % 16
      let c1 := v / 2 ^ 4 % 16
      let loading := ∃ e ∈ s.cores, e.1 / 48 = d ∧ ∃ j ∈ e.2.jobs, ∃ va a0 a1 l, j.kind = .rtcfg va a0 a1 l ∧ a0 ≤ c1 ∧ c0 ≤ a1
      let whole := (∀ n, within c0 c1 n → ∃ h, find y.shadows n = some h ∧ h.ctx = ctx) ∧ ¬ loading
      let drop := v.testBit 8
      (2 ^ 9 ≤ v ∨ c1 < c0 → faults (.rtswap w) .blockFormat m here) ∧
      (v < 2 ^ 9 → c0 ≤ c1 → swap c0 c1 ∨ ¬ whole → faults (.rtswap w) .slotState m here) ∧
      (v < 2 ^ 9 → c0 ≤ c1 → ¬ swap c0 c1 → whole →
        (drop = true ∨ (∀ n, c0 ≤ n → n ≤ c1 → find y.shadowBad n = none) → does (.rtswap w) w m (.rtswap c0 c1 drop)) ∧
        (drop = false → ∀ n f, c0 ≤ n → n ≤ c1 → find y.shadowBad n = some f →
          (∀ i, c0 ≤ i → i < n → find y.shadowBad i = none) → exec (.rtswap w) s = .next (x.mod (x.fault s f m here) fun k =>
            { k with effects := k.effects ++ [(x.i, .rtswap c0 c1 true)] }))) ∧
      let arm := v / 2 ^ 4
      (2 ^ 6 ≤ v ∨ arm % 4 = 3 → faults (.evarmArm w) .blockFormat m here) ∧
      (v < 2 ^ 6 → arm ≠ 3 → (mine → does (.evarmArm w) w m (.evarm (v % 16) arm)) ∧
        (¬ mine → faults (.evarmArm w) .slotState m here)) ∧
      (2 ^ 4 ≤ v → faults (.evarmWait w) .blockFormat m here) ∧
      (v < 2 ^ 4 → (mine → exec (.evarmWait w) s = .next (x.mod s fun b =>
          { b with fired := b.fired ||| Mask.one x.i, waits := put b.waits x.i (.evarm v s.time.toNat m) })) ∧
        (¬ mine → faults (.evarmWait w) .slotState m here)) ∧
      (4 ≤ v → faults (.evfire w) .blockFormat m here) ∧
      (v < 4 → (mine → does (.evfire w) w m (.evfire v)) ∧ (¬ mine → faults (.evfire w) .slotState m here))) ∧
    ∀ w : Plain, m ≠ 0 →
      (let e := a % 2 ^ 16
       let first := a / 2 ^ 28
       let toks : List (Nat × BitVec 32) := if (x.opnd 1).uni then [(first, (x.opnd 1).val.setWidth 32)]
         else m.lanes.map fun l => ((first + l) % 256, ((x.opnd 1).at_ l).setWidth 32)
       (2 ^ 36 ≤ a ∨ ¬ edge e → faults (.rtsend w) .blockFormat m here) ∧
       (a < 2 ^ 36 → edge e → (takes e → does (.rtsend w) w m (.rtsend e (a / 2 ^ 16 % 2 ^ 12) toks)) ∧
         (¬ takes e → faults (.rtsend w) .tokenContext m here))) ∧
      (¬ edge a ∨ 2 ^ 32 ≤ b → faults (.qsc w) .blockFormat m here) ∧
      (edge a → b < 2 ^ 32 → (¬ sink a ∧ takes a → does (.qsc w) w m (.qsc a (BitVec.ofNat 32 b))) ∧
        (sink a ∨ ¬ takes a → faults (.qsc w) .tokenContext m here)) ∧
      let cls := a / 2 ^ 12
      let i := a % 16
      let fits := a < 2 ^ 16 ∧ a / 2 ^ 4 % 2 ^ 8 = 0 ∧
        ((cls = 0 ∧ b % 2 ^ 6 < 48 ∧ b / 2 ^ 7 % 2 ^ 9 = 0 ∧ 1 ≤ b / 2 ^ 16 ∧ b < 2 ^ 32) ∨
         ((cls = 1 ∨ cls = 2) ∧ b < 2 ^ 48) ∨ (cls = 3 ∧ b < 2 ^ 16) ∨ (cls = 4 ∧ i < 4 ∧ b < 2 ^ 16) ∨
         (cls = 5 ∧ i = 0 ∧ b < 2 ^ 5) ∨ (cls = 15 ∧ i = 0))
      let item : Effect := .evcfg cls i (x.opnd 1).scalar64
      (¬ fits → faults (.evcfg w) .blockFormat m here) ∧
      (fits → mine → does (.evcfg w) w m item) ∧
      (fits → ¬ mine → k.xbar.owner ≠ none → faults (.evcfg w) .slotState m here) ∧
      (fits → k.xbar.owner = none →
        ((∀ u ∈ k.xbar.resv, wgOfBlk s u = some p.wk) →
          (cls ≠ 15 → exec (.evcfg w) s = .next (x.commitWith (modCore s x.core fun h =>
            { h with xbar := { h.xbar with resv := insertNat h.xbar.resv x.b.uid } }) w.ta w.tb (numTok 32 m 0) item)) ∧
          (cls = 15 → does (.evcfg w) w m item)) ∧
        ((∃ u ∈ k.xbar.resv, wgOfBlk s u ≠ some p.wk) → faults (.evcfg w) .slotState m here))) ∧
  ∀ key p m gate s,
    let c := coreOf key
    let d := c / 48
    let o := (core s c).xbar
    let me := some (p.w.ctx, p.wk)
    let held : Nat → Bool := fun e => !e.testBit 14 && (die s d).holds.getLsbD (e / 2 ^ 10 % 16)
    let sent : Nat → Payload → Nat → RedTok := fun e q n => ⟨s.uid + n, d, e, q, 0, held e⟩
    let item : (Xbar → Xbar) → List Nat × State := fun g => ([], modCore s c fun h => { h with xbar :=
      { g h.xbar with owner := me, resv := [], upTo := if o.owner = none then (die s d).clk else o.upTo } })
    (∀ e th toks, applyEffect key p m gate s (.rtsend e th toks) = ([], { s with
      uid := s.uid + toks.length
      toks := s.toks ++ toks.zipIdx.map fun q => sent e (.data p.w.ctx th q.1.1 false q.1.2) q.2 })) ∧
    (∀ e v, applyEffect key p m gate s (.qsc e v) = ([], { s with
      uid := s.uid + 1
      toks := s.toks ++ [sent e (.const p.w.ctx v) 0] })) ∧
    (∀ va c0 c1 sinks, applyEffect key p m gate s (.rtcfg va c0 c1 sinks) = ([s.uid],
      let job : Job := ⟨s.uid, .rtcfg va c0 c1 sinks, p.w.ctx, p.wk, p.l.tag, p.g.slot,
        [⟨.virt p.w.ctx, va, va + 16 + 16 * sinks.length + 1024 * (c1 + 1 - c0)⟩], [], gate, none, none⟩
      modCore { s with uid := s.uid + 1 } c fun h => { h with jobs := h.jobs ++ [job] })) ∧
    (∀ c0 c1, c0 ≤ c1 → d < s.dies.length →
      (∃ t : State, applyEffect key p m gate s (.rtswap c0 c1 true) = ([], t) ∧
        (∀ k, find (die t d).shadows k = if c0 ≤ k / 64 ∧ k / 64 ≤ c1 then none else find (die s d).shadows k) ∧
        (∀ k, find (die t d).shadowBad k = if c0 ≤ k ∧ k ≤ c1 then none else find (die s d).shadowBad k) ∧
        (die t d).cells = (die s d).cells ∧ (die t d).sinks = (die s d).sinks) ∧
      (c1 ≤ 15 → (¬ ∃ w ∈ (die s d).swaps, w.c0 ≤ c1 ∧ c0 ≤ w.c1) → shadowReady s d p.w.ctx c0 c1 = true → ∃ t : State,
        applyEffect key p m gate s (.rtswap c0 c1 false) = ([s.uid], t) ∧
        (die t d).swaps = (die s d).swaps ++ [⟨s.uid, c0, c1, p.w.ctx⟩] ∧ (die t d).cells = (die s d).cells ∧
        ∀ k < 16, (die t d).holds.getLsbD k = ((die s d).holds.getLsbD k || decide (c0 ≤ k ∧ k ≤ c1)))) ∧
    (o.owner = me ∨ (o.owner = none ∧ ∀ u ∈ o.resv, wgOfBlk s u = some p.wk) →
      (∀ i v, applyEffect key p m gate s (.evcfg 0 i v) = item fun b =>
        { b with counters := b.counters.set i ⟨0, v.toNat / 2 ^ 16 % 2 ^ 16, v.toNat % 2 ^ 6, v.getLsbD 6, false⟩ }) ∧
      (∀ i v, applyEffect key p m gate s (.evcfg 1 i v) = item fun b =>
        { b with terms := b.terms.modify i fun t => { t with p0 := v.setWidth 48 } }) ∧
      (∀ i v, applyEffect key p m gate s (.evcfg 2 i v) = item fun b =>
        { b with terms := b.terms.modify i fun t => { t with p1 := v.setWidth 48 } }) ∧
      (∀ i v, applyEffect key p m gate s (.evcfg 3 i v) = item fun b =>
        { b with terms := b.terms.modify i fun t => { t with clear := v.setWidth 16 } }) ∧
      (∀ i v, applyEffect key p m gate s (.evcfg 4 i v) = item fun b =>
        { b with timers := b.timers.set i (v.toNat % 2 ^ 16, s.time.toNat) }) ∧
      (∀ v, applyEffect key p m gate s (.evcfg 5 0 v) = item fun b =>
        { b with gateOut := v.toNat % 16, gateEn := v.getLsbD 4 }) ∧
      ∀ v, applyEffect key p m gate s (.evcfg 15 0 v) =
        ([], if o.owner = none then s else modCore s c fun h => { h with xbar := Xbar.reset })) ∧
    (o.owner = me →
      (∀ t arm, applyEffect key p m gate s (.evarm t arm) = ([], modCore s c fun h => { h with xbar :=
        { h.xbar with terms := h.xbar.terms.modify t fun x => { x with arm := arm } } })) ∧
      let busy : Nat → Prop := fun k => ∃ i < 4, (get o.clocks k 0).getLsbD (28 + i) = true
      ∀ n i, n < 4 → i < 64 → (∀ j < i, busy ((die s d).clk + j)) → ¬ busy ((die s d).clk + i) →
        let k := (die s d).clk + i
        applyEffect key p m gate s (.evfire n) = ([], modCore s c fun h => { h with xbar := { h.xbar with
          clocks := put h.xbar.clocks k (get h.xbar.clocks k 0 ||| BitVec.twoPow 48 (28 + n)) } }))

/-- R118, R348 to R355, R358 to R360 and R367: arrivals are checked, queued or dropped; a complete key is combined in input
order, an incomplete one when its time is over; sinks are written; configuration tokens set constants; an image becomes a
shadow, or marks it invalid; the drain passes, a loop of cells too once nothing moves in the region, and the region swaps when no
result of its old configuration is on its way to a sink that changes; counters, terms, timers and waits of the crossbar, which takes
every clock of its die once.
Log entries 2, 27 and 28 name what in it is the model's reading or choice. -/
def Obligations.FabricEvents : Prop :=
  let en : Cell → Prop := fun c => c.cfg.toNat / 2 ^ 127 = 1
  let op : Cell → Nat := fun c => c.cfg.toNat / 2 ^ 123 % 2 ^ 4
  let fanin : Cell → Nat := fun c => c.cfg.toNat / 2 ^ 121 % 4
  let own : Cell → Nat := fun c => c.cfg.toNat / 2 ^ 109 % 2 ^ 12
  let tmo : Cell → Nat := fun c => c.cfg.toNat / 2 ^ 101 % 2 ^ 8
  let out : Cell → Nat → Nat := fun c k => c.cfg.toNat / 2 ^ (48 - 16 * k) % 2 ^ 16
  let outs : Cell → List Nat := fun c => if op c = 7 then [out c 0, out c 1, out c 2, out c 3].filter (· ≠ 0) else [out c 0]
  let at4 : Cell → Nat → List Arrived := fun c i => c.inputs.getD i []
  let room : State → Nat → Nat → Prop := fun s d e => e / 2 ^ 14 % 2 = 1 ∨
    (at4 (get (die s d).cells (e / 2 ^ 4 % 2 ^ 10) Cell.reset) (e / 4 % 4)).length < 8
  let value : Cell → List (BitVec 32) → BitVec 32 := fun c l =>
    let each : (BitVec 32 → BitVec 32 → BitVec 32) → BitVec 32 := fun f => l.tail.foldl f (l.headD 0)
    let real : BitVec 32 → Fp := fun v => Fp.ofBits f32 v.toNat
    if op c = 1 then each fun a b => BitVec.ofNat 32 (Machine.round .rne f32 (Fp.add .rne (real a) (real b)))
    else if op c = 2 then each fun a b => BitVec.ofNat 32 (fpick false f32 a.toNat b.toNat)
    else if op c = 3 then each fun a b => a + b
    else if op c = 4 then each fun a b => a &&& b
    else if op c = 5 then each fun a b => a ||| b
    else if op c = 8 then BitVec.ofNat 32 (Machine.round .rne f32
      (Fp.mul (real (l.headD 0)) (Fp.ofBits f32 (c.cfg.toNat / 2 ^ 64 % 2 ^ 32))))
    else l.headD 0
  let keyed : Nat × Nat → Arrived → Bool := fun k a => a.pay.key? == some k
  let taken : Cell → Nat × Nat → Nat → Option Arrived := fun c k i =>
    (if fanin c = 0 then (at4 c i).takeWhile fun a => a.pay.key? != none else at4 c i).find? (keyed k)
  let heads : Cell → Nat × Nat → List Arrived := fun c k => c.inputs.filterMap fun q => q.find? (keyed k)
  let opened : Cell → Nat × Nat → Arrived → Prop := fun c k a => a ∈ heads c k ∧ ∀ b ∈ heads c k, b ≠ a → a.num < b.num
  let full : Cell → Nat × Nat → Prop := fun c k => ∀ i ≤ fanin c, taken c k i ≠ none
  let first : Cell → (Nat × Nat → Prop) → Nat × Nat → Prop := fun c P k => P k ∧ ∃ a, opened c k a ∧
    ∀ j, P j → j ≠ k → ∀ b ∈ heads c j, a.num < b.num
  let left : Cell → Nat × Nat → List (List Arrived) := fun c k => c.inputs.map fun q => q.filter fun a =>
    ((List.range (fanin c + 1)).filterMap (taken c k)).all fun b => b.num != a.num
  let sends : State → State → Nat → List Nat → Payload → Nat → Prop := fun s t d l p missing =>
    t.toks = s.toks ++ l.zipIdx.map fun e => ⟨s.uid + e.2, d, e.1, p, missing, false⟩
  let recorded : State → State → Nat → Nat → Nat → Nat → Prop := fun s t d ctx code addr => s.events.length < 4096 →
    (die s d).holding = [] → ∃ r : Record, t.events = s.events ++ [r] ∧ r.type = 1 ∧ r.code = code ∧ r.die = 8 + d ∧ r.ctx = ctx ∧
      r.addr = BitVec.ofNat 64 (addr % 2 ^ 52)
  let drops : State → State → Nat → Prop := fun s t d => d < s.dies.length → 0 < (die s d).counters.length →
    (die t d).counters.getD 0 0 = satAdd32 ((die s d).counters.getD 0 0) 1
  let rest : State → Nat → State := fun s id => { s with toks := s.toks.filter fun u => u.uid != id }
  let oldest : State → RedTok → Prop := fun s t =>
    ∃ before behind, s.toks = before ++ t :: behind ∧ ∀ u ∈ before, u.uid ≠ t.uid ∧
      ¬ (u.die = t.die ∧ u.edge = t.edge ∧ u.behind = false)
  (∀ s t,
    let d := t.die
    let k := t.edge / 2 ^ 4 % 2 ^ 10
    let i := t.edge / 4 % 4
    let c := get (die s d).cells k Cell.reset
    let ok := en c ∧ own c = t.pay.ctx ∧ i ≤ fanin c
    let go := exec (.redTokenArrival t.uid) s
    let set : (Cell → Cell) → State := fun f => modDie { rest s t.uid with uid := s.uid + 1 } d fun x =>
      { x with cells := store x.cells k (f (get x.cells k Cell.reset)) Cell.reset }
    oldest s t → t.edge / 2 ^ 14 % 2 = 0 →
    (t.behind = true → go = .next s) ∧
    (t.behind = false → dieUp s d = false → ∃ u, go = .next u ∧ u.toks = (rest s t.uid).toks ∧ drops s u d ∧ u.events = s.events) ∧
    (t.behind = false → dieUp s d = true → ¬ ok → ∃ u, go = .next u ∧ u.toks = (rest s t.uid).toks ∧ drops s u d ∧
      recorded s u d t.pay.ctx 0x18 t.edge) ∧
    (t.behind = false → dieUp s d = true → ok →
      (∀ key, t.pay.key? = some key → key ∈ c.late → ∃ u, go = .next u ∧ u.toks = (rest s t.uid).toks ∧ drops s u d ∧
        u.events = s.events ∧ (d < s.dies.length → get (die u d).cells k Cell.reset = { c with late := c.late.erase key })) ∧
      ((∀ key, t.pay.key? = some key → key ∉ c.late) →
        (8 ≤ (at4 c i).length → go = .next s) ∧
        ((at4 c i).length < 8 → go = .next (set fun c =>
          { c with inputs := c.inputs.modify i (· ++ [⟨t.pay, s.time.toNat, s.uid⟩]) }))))) ∧
  (∀ s d k key,
    let c := get (die s d).cells k Cell.reset
    let ts := (List.range (fanin c + 1)).filterMap (taken c key)
    let p : Bool → Payload := fun b => .data (own c) key.1 key.2 (b || ts.any fun a => a.pay.p) (value c (ts.map fun a => a.pay.val))
    let filtered := op c = 6 ∧ key.1 ≠ c.cfg.toNat / 2 ^ 64 % 2 ^ 12
    d < s.dies.length → en c →
    (dieUp s d = false → exec (.cellServeKey d k) s = .next s ∧ exec (.cellTimeout d k) s = .next s) ∧
    (dieUp s d = true → first c (full c) key →
      (¬ (∀ e ∈ outs c, room s d e) → exec (.cellServeKey d k) s = .next s) ∧
      ((∀ e ∈ outs c, room s d e) → ∃ t, exec (.cellServeKey d k) s = .next t ∧ t.mem = s.mem ∧
        get (die t d).cells k Cell.reset = { c with inputs := left c key } ∧
        (¬ filtered → sends s t d (outs c) (p false) 0) ∧ (filtered → t.toks = s.toks ∧ drops s t d))) ∧
    let expired : Nat × Nat → Prop := fun j => ¬ full c j ∧ ∃ a, opened c j a ∧ a.since + 1000 * tmo c ≤ s.time.toNat
    let missing := ∑ i ∈ (Finset.range (fanin c + 1)).filter (fun i => taken c key i = none), 2 ^ i
    (dieUp s d = true → first c expired key → (∀ j, ∀ a ∈ heads c j, ∀ b ∈ heads c j, a.num = b.num → a = b) → (∀ e ∈ outs c, room s d e) → ts ≠ [] → ¬ filtered →
      ∃ t, exec (.cellTimeout d k) s = .next t ∧ t.mem = s.mem ∧ sends s t d (outs c) (p true) missing ∧
      get (die t d).cells k Cell.reset = { c with
        inputs := left c key
        late := (if 16 ≤ c.late.length then c.late.drop 1 else c.late) ++ [key] } ∧
      recorded s t d (own c) 0x19 (2 ^ 15 + 16 * k + key.1 * 2 ^ 16 + key.2 * 2 ^ 28 + missing * 2 ^ 36)) ∧
    ∀ i v, ∀ l a n, at4 c i = ⟨.const a v, n, l⟩ :: (at4 c i).tail → ∃ t, exec (.configTokenApply d k i) s = .next t ∧
      t.toks = s.toks ∧ let g := get (die t d).cells k Cell.reset
      g.cfg.toNat / 2 ^ 64 % 2 ^ 32 = v.toNat ∧ g.cfg.toNat % 2 ^ 64 = c.cfg.toNat % 2 ^ 64 ∧
      g.cfg.toNat / 2 ^ 96 = c.cfg.toNat / 2 ^ 96 ∧ g.inputs = c.inputs.modify i List.tail ∧ g.late = c.late) ∧
  (∀ s t,
    let d := t.die
    let sq := match t.pay with | .data _ _ q _ _ => q | .const _ _ => 0
    let word := 2 ^ 63 + (if t.pay.p then 2 ^ 36 else 0) + t.missing % 16 * 2 ^ 32 + t.pay.val.toNat
    let go := exec (.sinkWrite t.uid) s
    let dropped : Nat → Nat → Prop := fun code addr => ∃ u, go = .next u ∧ u.toks = (rest s t.uid).toks ∧ u.mem = s.mem ∧
      drops s u d ∧ recorded s u d t.pay.ctx code addr
    oldest s t → t.edge / 2 ^ 14 % 2 = 1 → t.behind = false →
    (dieUp s d = false → ∃ u, go = .next u ∧ u.toks = (rest s t.uid).toks ∧ u.mem = s.mem ∧ drops s u d ∧
      u.events = s.events) ∧
    (dieUp s d = true → find (die s d).sinks (t.edge % 16) = none → dropped 0x18 t.edge) ∧
    ∀ q, dieUp s d = true → find (die s d).sinks (t.edge % 16) = some q →
      (q.ctx ≠ t.pay.ctx → dropped 0x18 t.edge) ∧
      (q.ctx = t.pay.ctx →
        (∀ f, sinkAcc s q.ctx (q.base + 8 * sq) = .error f → dropped f.code (q.base + 8 * sq)) ∧
        ∀ a, sinkAcc s q.ctx (q.base + 8 * sq) = .ok a → Memory.wf s.mem = true → a.pa % 8 = 0 →
          let pa := a.pa % 2 ^ 51
          ((∃ h ∈ s.held, h.line = pa / 128 * 128) → go = .next s) ∧
          ((∀ h ∈ s.held, h.line ≠ pa / 128 * 128) → ∃ u, go = .next u ∧ u.toks = (rest s t.uid).toks ∧
            readLE u.mem pa 8 = word ∧ ∀ n, n < pa ∨ pa + 8 ≤ n → readByte u.mem n = readByte s.mem n))) ∧
  (∀ s c j va c0 c1 sinks (b : Nat → Nat), (core s c).jobs.find? (fun e => e.uid == j.uid && e.engine.isSome) = some j →
    j.kind = .rtcfg va c0 c1 sinks → c / 48 < s.dies.length → c0 ≤ c1 →
    let d := c / 48
    let from_ := va + 16 + 16 * sinks.length
    let word : Nat → Nat := fun i => ∑ k ∈ Finset.range 16, b (16 * i + k) * 256 ^ k
    let count := 64 * (c1 + 1 - c0)
    let edge : Nat → Prop := fun e => e / 2 ^ 15 = 1 ∧ (e / 2 ^ 14 % 2 = 1 → e / 2 ^ 4 % 2 ^ 10 = 0) ∧
      (e / 2 ^ 14 % 2 = 0 → e % 4 = 0)
    let fits : Nat → Prop := fun v => (v / 2 ^ 127 = 0 ∧ v = 0) ∨ (v / 2 ^ 127 = 1 ∧
      let o := v / 2 ^ 123 % 16
      let g : Nat → Nat := fun k => v / 2 ^ (48 - 16 * k) % 2 ^ 16
      o ≤ 8 ∧ v / 2 ^ 96 % 2 ^ 5 = 0 ∧ v / 2 ^ 101 % 2 ^ 8 ≠ 0 ∧ edge (g 0) ∧ (o ∈ [0, 6, 7, 8] → v / 2 ^ 121 % 4 = 0) ∧
      (∀ k ∈ [1, 2, 3], g k = 0 ∨ (o = 7 ∧ edge (g k))) ∧ v / 2 ^ 109 % 2 ^ 12 = j.ctx)
    let v := engineSee s c j.ctx va (16 + 16 * sinks.length + 1024 * (c1 + 1 - c0)) false
    let reads : Nat → Prop := fun i => ∀ k < 16, engineByte v c j.ctx (from_ + 16 * i + k) = .ok (b (16 * i + k), false) ∧
      b (16 * i + k) < 256
    let free := ∀ q ∈ sinks, (∀ h, find (die s d).sinks q.1 = some h → h.ctx = j.ctx) ∧
      ∀ h, find (die s d).sinkShadows q.1 = some h → h.sink.ctx = j.ctx
    let stops : State → FaultCode → Nat → Prop := fun t f a =>
      (∀ n, c0 ≤ n → n ≤ c1 → find (die t d).shadowBad n = some f) ∧ (die t d).cells = (die s d).cells ∧
      (die t d).sinks = (die s d).sinks ∧ recorded s t d j.ctx f.code a ∧ ∀ e ∈ (core t c).jobs, e.uid ≠ j.uid
    let held := readsHeld s c j.ctx va (16 + 16 * sinks.length + 1024 * (c1 + 1 - c0))
    (held = true → exec (.rtcfgJob c j.uid) s = .next s) ∧
    (held = false → risingFrom 0 s.cores = true → free →
    ((∀ i < count, reads i ∧ fits (word i)) → ∃ t, exec (.rtcfgJob c j.uid) s = .next t ∧
      (∀ i < count, find (die t d).shadows (64 * c0 + i) = some ⟨BitVec.ofNat 128 (word i), j.ctx⟩) ∧
      (∀ n, c0 ≤ n → n ≤ c1 → find (die t d).shadowBad n = none) ∧ (die t d).cells = (die s d).cells ∧
      (die t d).sinks = (die s d).sinks ∧ t.events = s.events ∧ (∀ e ∈ (core t c).jobs, e.uid ≠ j.uid) ∧
      ∀ q ∈ sinks, (∀ r ∈ sinks, r.1 = q.1 → r = q) →
        find (die t d).sinkShadows q.1 = some ⟨⟨j.ctx, q.2⟩, c0, c1⟩) ∧
    ∀ i < count, (∀ n < i, reads n ∧ fits (word n)) →
      (reads i → ¬ fits (word i) → ∃ t, exec (.rtcfgJob c j.uid) s = .next t ∧ stops t .blockFormat (from_ + 16 * i)) ∧
      ∀ k < 16, (∀ n < k, ∃ z, engineByte v c j.ctx (from_ + 16 * i + n) = .ok (z, false)) →
        (∀ f, engineByte v c j.ctx (from_ + 16 * i + k) = .error f → ∃ t, exec (.rtcfgJob c j.uid) s = .next t ∧
          stops t f (from_ + 16 * i + k)) ∧
        ∀ z, engineByte v c j.ctx (from_ + 16 * i + k) = .ok (z, true) → ∃ t, exec (.rtcfgJob c j.uid) s = .next t ∧
          stops t .cfgPoison (from_ + 16 * i + k))) ∧
  (∀ s d w, d < s.dies.length → (die s d).swaps.find? (fun v => v.uid == w.uid) = some w →
    let cell : State → Nat → Cell := fun s k => get (die s d).cells k Cell.reset
    let inside : Nat → Prop := fun k => w.c0 ≤ k / 64 ∧ k / 64 ≤ w.c1
    let ready := (∀ k, inside k → en (cell s k) → (cell s k).drained = some w.uid ∧ ∀ q ∈ (cell s k).inputs, q = []) ∧
      ∀ t ∈ s.toks, t.die = d → t.edge / 2 ^ 14 % 2 = 1 → ∀ h, find (die s d).sinkShadows (t.edge % 16) = some h →
        w.c1 < h.c0 ∨ h.c1 < w.c0
    let silent := (∀ k, inside k → ∀ q ∈ (cell s k).inputs, q = []) ∧ ∀ t ∈ s.toks, t.die = d → t.edge / 2 ^ 14 % 2 = 0 →
      inside (t.edge / 2 ^ 4 % 2 ^ 10) → t.behind = true
    (∀ k, inside k → en (cell s k) → (cell s k).drained ≠ some w.uid → (∀ q ∈ (cell s k).inputs, q = []) →
      (∀ v ∈ (die s d).swaps, v.c0 ≤ k / 64 → k / 64 ≤ v.c1 → v = w) →
      (∀ i ≤ fanin (cell s k), (∀ t ∈ s.toks, t.die = d → t.edge = 2 ^ 15 + 16 * k + 4 * i → t.behind = true) ∧
        (silent ∨ ∀ f ∈ (die s d).cells, inside f.1 → en f.2 → 2 ^ 15 + 16 * k + 4 * i ∈ outs f.2 → f.1 = k ∨
          (cell s f.1).drained = some w.uid)) →
      let after : Cell := { cell s k with drained := some w.uid }
      exec (.drainTokenPass d k) s = .next (modDie s d fun x => { x with cells := store x.cells k after Cell.reset })) ∧
    (¬ ready → exec (.regionSwap d w.uid) s = .next s) ∧
    (ready → risingFrom 0 (die s d).cells = true → risingFrom 0 (die s d).sinkShadows = true → ∃ t : State, exec (.regionSwap d w.uid) s = .next t ∧ t.mem = s.mem ∧
      (∀ k, cell t k = if inside k then { Cell.reset with
        cfg := ((find (die s d).shadows k).map Shadow.cfg).getD 0
        late := (cell s k).late } else cell s k) ∧
      (∀ k, inside k → find (die t d).shadows k = none) ∧
      (∀ n, (∀ h, find (die s d).sinkShadows n = some h → h.c0 ≤ w.c1 → w.c0 ≤ h.c1 →
          find (die t d).sinks n = some h.sink ∧ find (die t d).sinkShadows n = none) ∧
        ((∀ h, find (die s d).sinkShadows n = some h → w.c1 < h.c0 ∨ h.c1 < w.c0) →
          find (die t d).sinks n = find (die s d).sinks n)) ∧
      (∀ n < 16, (die t d).holds.getLsbD n = ((die s d).holds.getLsbD n && !decide (w.c0 ≤ n ∧ n ≤ w.c1))) ∧
      (∀ v ∈ (die t d).swaps, v.uid ≠ w.uid) ∧ (∀ k st, find t.strands k = some st → w.uid ∉ st.asyncs) ∧
      t.toks = s.toks.map fun u => if u.die = d ∧ u.edge / 2 ^ 14 % 2 = 0 ∧ inside (u.edge / 2 ^ 4 % 2 ^ 10) then
        { u with behind := false } else u)) ∧
  ∀ s c,
    let b := (core s c).xbar
    let now := (die s (c / 48)).clk
    let g := get b.clocks b.upTo 0 ||| queueLevels (core s c)
    let past := b.upTo < now ∧ ((core s c).field.owner ≠ none → now ≤ (core s c).field.upTo)
    let all : Nat → Prop := fun n => (n < 48 ∧ g.getLsbD n = true) ∨
      (32 ≤ n ∧ n < 48 ∧ ∃ k, b.counters[n - 32]? = some k ∧ k.atv = true)
    (∀ n, (queueLevels (core s c)).getLsbD n = true ↔ 8 ≤ n ∧ n < 24 ∧ (recvOf (core s c) (n - 8)).items ≠ []) ∧
    (b.owner = none ∨ b.now ≠ none ∨ ¬ past → exec (.crossbarThreshold c) s = .next s) ∧
    (b.owner ≠ none → b.now = none → past → b.counters.length ≤ 16 → ∃ (t : State) (h : BitVec 48), exec (.crossbarThreshold c) s = .next t ∧
      (∀ n, h.getLsbD n = true ↔ all n) ∧ (core t c).xbar = { b with
        clocks := del b.clocks b.upTo
        now := some h
        upTo := b.upTo + 1
        counters := (core t c).xbar.counters } ∧
      (core t c).xbar.counters.length = b.counters.length ∧
      ∀ (n : Nat) (k : XCounter), b.counters[n]? = some k →
        let v := if h.getLsbD k.sel then min (k.value + 1) 0xFFFF else k.value
        (core t c).xbar.counters[n]? = some (if v < k.thr then { k with value := v, atv := k.atv && !k.mode }
          else { k with value := if k.mode then 0 else v, atv := true })) ∧
    (∀ (h : BitVec 48), b.owner ≠ none → b.now = some h → b.counters.length ≤ 16 →
      let holds : BitVec 48 → Prop := fun p => p ≠ 0 ∧ p &&& h = p
      let fires : XTerm → Prop := fun t => t.arm ≠ 0 ∧ (holds t.p0 ∨ holds t.p1)
      ∃ t : State, exec (.termFire c) s = .next t ∧ (core t c).xbar.now = none ∧
      (∀ (n : Nat) (k : XTerm), b.terms[n]? = some k → (fires k → (core t c).xbar.terms[n]? = some { k with
          fires := (k.fires + 1) % 2 ^ 16
          arm := (if k.arm = 1 then 0 else k.arm) }) ∧ (¬ fires k → (core t c).xbar.terms[n]? = some k)) ∧
      (∀ (n : Nat) (k : XCounter), b.counters[n]? = some k →
        ((∃ q ∈ b.terms, fires q ∧ q.clear.getLsbD n = true) →
          (core t c).xbar.counters[n]? = some { k with value := 0, atv := false }) ∧
        ((∀ q ∈ b.terms, fires q → q.clear.getLsbD n = false) → (core t c).xbar.counters[n]? = some k)) ∧
      (∀ (n : Nat) (q : XTerm), b.terms[n]? = some q → (∀ (m : Nat) (r : XTerm), b.terms[m]? = some r → (fires r ↔ m = n)) →
        (∀ v < 4, v < (core s c).field.doms.length →
          let f := (core s c).field.doms.getD v Domain.reset
          (f.st = 1 → f.src = true → f.evt = n →
            (core t c).field.doms.getD v Domain.reset = { f with coming := true }) ∧
          (f.st ≠ 1 ∨ f.src = false ∨ f.evt ≠ n → (core t c).field.doms.getD v Domain.reset = f)) ∧
        ∀ key st, find s.strands key = some st → key / 256 = c → ∃ st' : Strand, find t.strands key = some st' ∧
          ∀ (u : Nat) (blk : Blk) (i since : Nat) (m : Mask), st.blocks[u]? = some blk → blk.waits = [(i, .evarm n since m)] →
            st'.blocks[u]? = some (blk.finish i (targetsOf blk i).1 (targetsOf blk i).2
              (numTok 32 m ((q.fires + 1) % 2 ^ 16)) (numTok 32 m ((q.fires + 1) % 2 ^ 16))))) ∧
    (∀ n period base, n < b.timers.length → b.timers.getD n (0, 0) = (period, base) → b.owner ≠ none →
      (period = 0 ∨ s.time.toNat < base + 1000 * period → exec (.crossbarTimerExpiry c n) s = .next s) ∧
      (period ≠ 0 → base + 1000 * period ≤ s.time.toNat → exec (.crossbarTimerExpiry c n) s =
        .next (modCore s c fun x => { x with xbar := { x.xbar with
          timers := x.xbar.timers.set n (period, base + 1000 * period)
          clocks := put x.xbar.clocks now (get x.xbar.clocks now 0 ||| (1 : BitVec 48) <<< (24 + n)) } }))) ∧
    ∀ e i n0 st k since m, find s.strands (strandKey c e) = some st → st.blocks = [k] → find k.waits i = some (.evarm n0 since m) →
      (s.time.toNat < since + s.barrierLimit → exec (.evarmWaitTimeout c e i) s = .next s) ∧
      (since + s.barrierLimit ≤ s.time.toNat → exec (.evarmWaitTimeout c e i) s =
        .next (modBlk s (strandKey c e) k.uid fun b => { b.raise now ⟨.barTimeout, i, m, b.addr, 0⟩ with
          waits := del b.waits i }))

/-! ## Counters, energy, traps and calls (20_counters, 21_faults) -/

/-- R369 to R376 and R383 to R388: CNTRD and TIME read the counters, CNTSET sets at the commit those it may, ENRD reads the
damper and ENRSV claims energy; TRAP, BRK, HCALL and TRET resolve with what they leave for the commit, or fault; rail
samples, windows, budgets and heat windows; firmware's answer to a call, in its turn among the commits of the clock (R123).
R370 has each die sample its copy of the time base once per clock, by steps of 2 or 3 in EMBER, and the copies agree to within 8 ns;
that a copy is never ahead of the package's and at most 8 ns behind it, that CNTRD reads the sample of the present clock and TIME
that of the clock in which its block fired, and that every count enters its counter with the next clock, are the model's readings
and choices: log entries 2 and 52.
Log entries 2, 3, 5, 29 and 52 name what in it is the model's reading or choice. -/
def Obligations.CountersAndCalls : Prop :=
  (∀ s x, site? s = some x →
    (∀ w : Plain, exec (.time w) s = .next (x.mod s fun b => b.finish x.i w.ta w.tb
      (numTok 64 b.mask b.time) (numTok 64 b.mask b.clk.toNat))) ∧
    (∀ w : Plain, exec (.brk w) s = .next (x.commitWith s w.ta w.tb (numTok 32 x.b.mask 0) .brk)) ∧
    (∀ (w : Plain) n m, x.sel w = (n, m) → m ≠ 0 →
      let is : Instr → Effect → Prop := fun i e => exec i s = .next (x.commitWith s w.ta w.tb (numTok 32 m 0) e)
      (x.st.trap = true → exec (.trap w) s = .next (x.fault s .illegalConvergence m x.b.addr) ∧
        exec (.hcall w) s = .next (x.fault s .illegalConvergence m x.b.addr)) ∧
      (x.st.trap = false → 0xFFFF < n → exec (.trap w) s = .next (x.fault s .blockFormat m x.b.addr) ∧
        exec (.hcall w) s = .next (x.fault s .blockFormat m x.b.addr)) ∧
      (x.st.trap = false → n ≤ 0xFFFF → is (.trap w) (.trap n) ∧ is (.hcall w) (.hcall n))) ∧
    ∀ w : Plain, (x.b.choices = [] → x.b.removed = 0 → ∃ b, exec (.tret w) s = .next (x.mod s fun _ => b) ∧
        b.effects = x.b.effects ++ [(x.i, .tret)] ∧ b.resolved = x.b.resolved ||| Mask.one x.i ∧
        (∀ l, x.b.mask.has l = true → find b.choices l = some .tret) ∧
        reached b w.tb (numTok 32 x.b.mask 0) ∧ (w.ta ≠ w.tb → reached b w.ta (numTok 32 x.b.mask 0)))) ∧
  (∀ s x p, site? s = some x → x.place s = some p →
    let c := core s x.core
    let d := die s (x.core / 48)
    let bit : Bool → Nat → Nat := fun b v => if b then v else 0
    let mine := c.xbar.owner = some (p.w.ctx, p.wk)
    let energy : Nat → Nat → Word := fun k r => get s.energy (16 * k + r) 0
    let named : Nat → Prop := fun v => let cls := v / 2 ^ 8
      let i := v % 2 ^ 8
      v < 2 ^ 12 ∧ ((cls = 0 ∧ i = 0) ∨ (cls = 1 ∧ i < 8) ∨ (cls = 2 ∧ (i < 2 ∨ (16 ≤ i ∧ i < 32))) ∨ (cls = 3 ∧ i < 5) ∨
        (cls = 4 ∧ i / 16 < 5 ∧ (i % 16 < 4 ∨ i % 16 = 15)) ∨ (cls = 5 ∧ i < 128) ∨ (cls = 6 ∧ i < 32))
    (∀ (w : Plain) v m, x.sel w = (v, m) → m ≠ 0 →
      let is : Nat → Prop := fun n => exec (.cntrd w) s = .next (x.yield s w.ta w.tb (numTok 64 m n))
      let cls := v / 2 ^ 8
      let i := v % 2 ^ 8
      (¬ named v → exec (.cntrd w) s = .next (x.fault s .blockFormat m x.b.addr)) ∧
      (named v →
        (cls = 0 → is d.sample.toNat) ∧
        (cls = 1 → is (if i = 0 then (coreClk s x.core).toNat else (c.perf.getD i 0).toNat)) ∧
        (cls = 2 → is (if i = 0 then c.sat.toNat else if i = 1 then c.corr.toNat else (get c.lost (i - 16) 0).toNat)) ∧
        (cls = 3 → is (d.counters.getD i 0).toNat) ∧
        (cls = 4 → is (if i % 16 = 15 then
          (energy (i / 16) 0 + energy (i / 16) 1 + energy (i / 16) 2 + energy (i / 16) 3).toNat
          else (energy (i / 16) (i % 16)).toNat)) ∧
        (cls = 5 → (∀ h, find d.heat (i / 2) = some h → is (if i % 2 = 0 then h.delivered.toNat else h.starve.toNat)) ∧
          (find d.heat (i / 2) = none → is 0)) ∧
        (cls = 6 → (¬ mine → is 0) ∧
          (mine → ∀ k, i < 16 → c.xbar.counters[i]? = some k → k.value < 2 ^ 16 → k.thr < 2 ^ 16 → k.sel < 2 ^ 6 →
            is (k.value + bit k.atv (2 ^ 16) + k.thr * 2 ^ 32 + k.sel * 2 ^ 48 + bit k.mode (2 ^ 54))) ∧
          (mine → ∀ k, 16 ≤ i → c.xbar.terms[i - 16]? = some k → k.fires < 2 ^ 16 → k.arm < 4 →
            is (k.fires + k.arm * 2 ^ 16)))) ∧
      let en : Nat → Prop := fun n => exec (.enrd w) s = .next (x.yield s w.ta w.tb (numTok 64 m n))
      (6 < v → exec (.enrd w) s = .next (x.fault s .blockFormat m x.b.addr)) ∧
      (v = 0 → en s.damper.budget.toNat) ∧ (v = 1 → en s.damper.admitted) ∧ (v = 2 → en s.damper.measured) ∧
      (v = 3 → en s.damper.reserved) ∧ (v = 4 → en s.damper.seq.toNat) ∧ (v = 5 → en s.damper.carry) ∧
      (v = 6 → ∃ n : Nat, en n ∧ p.l.energy * p.l.corr ≤ 256 * n ∧ 256 * n < p.l.energy * p.l.corr + 256)) ∧
    (∀ w : Plain,
      let a := (x.opnd 0).scalar64.toNat
      let b := (x.opnd 1).scalar64
      let m := (x.opnd 0).mask &&& (x.opnd 1).mask
      let cls := a / 2 ^ 8
      let may := cls = 1 ∨ cls = 2 ∨ ((cls = 3 ∨ cls = 5) ∧ b = 0)
      m ≠ 0 →
      (¬ named a → exec (.cntset w) s = .next (x.fault s .blockFormat m x.b.addr)) ∧
      (named a → ¬ may → exec (.cntset w) s = .next (x.fault s .accessViolation m x.b.addr)) ∧
      (named a → may → exec (.cntset w) s =
        .next (x.commitWith s w.ta w.tb (numTok 64 m 0) (.cntset cls (a % 2 ^ 8) b)))) ∧
    ∀ w : Plain, let n := (x.opnd 0).scalar64.toNat
      let m := (x.opnd 0).mask
      m ≠ 0 →
      (s.damper.budget.toNat < n → exec (.enrsv w) s = .next (x.fault s .energyDenied m x.b.addr)) ∧
      (n ≤ s.damper.budget.toNat → exec (.enrsv w) s = .next (x.commitWith s w.ta w.tb (numTok 64 m 0) (.enrsv n)))) ∧
  (∀ key p m gate s, let c := coreOf key
    (∀ i v, ∃ t : State, applyEffect key p m gate s (.cntset 1 i v) = ([], t) ∧ (risingFrom 0 s.cores = true →
      (i = 0 → (core s c).perf ≠ [] → coreClk t c = v) ∧
      (0 < i → i < (core s c).perf.length → (core t c).perf.getD i 0 = v) ∧
      ∀ n, n ≠ i → (core t c).perf.getD n 0 = (core s c).perf.getD n 0)) ∧
    (∀ i v, ∃ t : State, applyEffect key p m gate s (.cntset 2 i v) = ([], t) ∧ (risingFrom 0 s.cores = true →
      (i = 0 → core t c = { core s c with sat := v.setWidth 32 }) ∧
      (i = 1 → core t c = { core s c with corr := v.setWidth 32 }) ∧
      (16 ≤ i → risingFrom 0 (core s c).lost = true → get (core t c).lost (i - 16) 0 = v.setWidth 32))) ∧
    (∀ i, applyEffect key p m gate s (.cntset 3 i 0) =
      ([], modDie s (c / 48) fun d => { d with counters := d.counters.set i 0 })) ∧
    (∀ i, applyEffect key p m gate s (.cntset 5 i 0) = ([], modDie s (c / 48) fun d => { d with
      heat := edit d.heat (i / 2) fun h => if i % 2 = 0 then { h with delivered := 0 } else { h with starve := 0 } })) ∧
    ∀ n, let d := s.damper
      applyEffect key p m gate s (.enrsv n) =
        if n = 0 then ([], s)
        else if d.admitted + d.reserved + d.carry + n ≤ d.budget.toNat then
          ([], { s with damper := { d with reserved := d.reserved + n } })
        else ([s.uid], { s with uid := s.uid + 1, damper := { d with claims := d.claims ++ [⟨none, s.uid, n⟩] } })) ∧
  (∀ s k d, d < s.dies.length →
    let t := passTime s k
    let x := die s d
    let y := die t d
    (t.time = s.time ∨ t.time = s.time + 1) ∧
    (¬ ((x.mode = .run ∨ x.mode = .ember) ∧ x.inReset = false) → y = x) ∧
    ((x.mode = .run ∨ x.mode = .ember) ∧ x.inReset = false → (s.time - x.sample).toNat ≤ 8 →
      (t.time - y.sample).toNat ≤ 8 ∧ (y = x ∨ (y.clk = x.clk + 1 ∧ y.counted = [] ∧
        (x.mode = .ember → y.sample = x.sample + 2 ∨ y.sample = x.sample + 3) ∧
        (risingFrom 0 x.counted = true → ∀ n < x.counters.length, n < 16 →
          y.counters.getD n 0 = satAdd32 (x.counters.getD n 0) (get x.counted n 0)))) ∧
      ∀ c, c / 48 = d → (y.clk = x.clk → core t c = core s c) ∧
        (y.clk ≠ x.clk → (core t c).counted = [] ∧ (risingFrom 0 (core s c).counted = true → ∀ n < (core s c).perf.length, n < 8 →
          (core t c).perf.getD n 0 = (core s c).perf.getD n 0 + BitVec.ofNat 64 (get (core s c).counted n 0))))) ∧
  (∀ s, let d := s.damper
    (s.time.toNat < 10_000 * (d.samples + 1) → exec .energySample s = .next s) ∧
    (10_000 * (d.samples + 1) ≤ s.time.toNat → risingFrom 0 s.energy = true → ∃ t, exec .energySample s = .next t ∧
      (∀ k r, k < 5 → r < 4 → get t.energy (16 * k + r) 0 = get s.energy (16 * k + r) 0 +
        (if k = 0 ∧ r = 2 then 0 else BitVec.ofNat 64 (Config.railEnergy (16 * k + r) d.samples))) ∧
      t.damper = { d with
        samples := d.samples + 1
        measured := d.measured + 1000 * ∑ k ∈ Finset.range 5, ∑ r ∈ Finset.range 4,
          (if k = 0 ∧ r = 2 then 0 else Config.railEnergy (16 * k + r) d.samples) } ∧
      t = { s with energy := t.energy, damper := t.damper }) ∧
    (s.time.toNat < 10_000_000 * (d.seq.toNat + 1) → exec .damperWindowStart s = .next s) ∧
    (10_000_000 * (d.seq.toNat + 1) ≤ s.time.toNat →
      let e : Damper := { d with
        budget := d.nextBudget.getD d.budget
        nextBudget := none
        seq := d.seq + 1
        admitted := 0
        reserved := 0
        measured := 0
        carry := d.measured - d.budget.toNat
        claims := [] }
      let told := s.out ++ s.dies.zipIdx.flatMap fun y => (y.1.heat.filter fun h => h.2.size != 0).map fun h =>
        .heat y.2 h.1 h.2.delivered.toNat h.2.starve.toNat
      (d.claims = [] → exec .damperWindowStart s = .next { s with damper := e, out := told }) ∧
      ∀ q : Claim, d.claims = [q] →
        (e.carry + q.amount ≤ e.budget.toNat →
          (q.launch = none → ∃ t, exec .damperWindowStart s = .next t ∧ t.damper = { e with reserved := q.amount } ∧
            t.out = told ∧ ∀ k st, find t.strands k = some st → q.async ∉ st.asyncs) ∧
          (∀ l, q.launch = some l → 0 < e.budget.toNat →
            ∃ t, exec .damperWindowStart s = .next t ∧ t.damper = { e with admitted := q.amount } ∧ t.out = told ∧
            ∀ v, find s.launches l = some v → find t.launches l = some { v with granted := some (d.seq + 1) })) ∧
        (e.budget.toNat < e.carry + q.amount ∨ (q.launch ≠ none ∧ e.budget.toNat = 0) →
          exec .damperWindowStart s = .next { s with damper := { e with claims := [q] }, out := told })) ∧
    (s.boot.powered = true → s.boot.running = true →
      (∀ b, exec (.setBudget b) s = .next { s with
        damper := { s.damper with nextBudget := some b }
        out := s.out ++ [.reply 3 0] }) ∧
      ∀ k n base size, let fits := n < 64 ∧ k < 4 ∧ (size = 0 ∨ ((∃ e, 16 ≤ e ∧ e ≤ 30 ∧ size = 2 ^ e) ∧ base % size = 0))
        (¬ fits → exec (.heatWindow k n base size) s = .next { s with out := s.out ++ [.reply 8 2] }) ∧
        (fits → exec (.heatWindow k n base size) s = .next { (modDie s k fun y =>
            let h : Heat := { get y.heat n ⟨0, 0, 0, 0⟩ with base := base, size := size }
            { y with heat := put y.heat n h }) with
          out := s.out ++ [.reply 8 0] }))) ∧
  ∀ s n (c : Call) stop, s.mailbox[n]? = some c →
    let now := (die s (c.core / 48)).clk
    let behind := ∃ g k, find s.groups c.group = some g ∧ g.committed = some (now, k) ∧ callLane s c < k
    (behind → exec (.hcallService n stop) s = .next s) ∧
    (¬ behind → ∃ t, exec (.hcallService n stop) s = .next t ∧ t.mem = s.mem ∧
    t.mailbox = s.mailbox.eraseIdx n ∧
    (∀ k st, find s.strands k = some st →
      find t.strands k = some (if st.st = .call c.uid then { st with st := .ready } else st)) ∧
    ∀ g, find s.groups c.group = some g → callTask s c = none → risingFrom 0 g.sregs = true → ∃ g',
      find t.groups c.group = some g' ∧ g' = { g with sregs := g'.sregs, committed := some (now, callLane s c) } ∧
      (∀ r, 2 ≤ r → get g'.sregs r 0 = get g.sregs r 0) ∧
      (stop = true → get g'.sregs 0 0 = 0xFFFF_FFFF_FFFF_FFFE ∧ get g'.sregs 1 0 = get g.sregs 1 0) ∧
      (stop = false → Config.serves s.boot.image.version c.n = false →
        get g'.sregs 0 0 = 0xFFFF_FFFF_FFFF_FFFF ∧ get g'.sregs 1 0 = get g.sregs 1 0) ∧
      (stop = false → Config.serves s.boot.image.version c.n = true →
        get g'.sregs 0 0 = Config.service c.uid 0 ∧ get g'.sregs 1 0 = Config.service c.uid 1))

/-! ## Fire, commit and faults (02_work, 06_registers, 07_ref_block, 21_faults) -/

/-- R41, R42, R60 to R69, R81, R82, R121 to R124, R134, R135, R222, R230, R363 and R377 to R382. A fault discards the strand's
uncommitted blocks and enters the handler with the trap bank, or parks the strand with a record; a block's checks run in R82's order,
and the first that fails gives the fault with its index and address; a block fires with the tokens of its header reads, or its checks'
fault is taken; a fault that is due is taken at the next block; a complete block commits in its turn among the commits of the
clock, once its effects have room, its register writes, stores, pushes and effects in order, and the strand goes on at the successor its
lanes chose; a block that has drained short of its commit is starved. That LOCK and NSTORE are checked after the fetch of the
instruction words is log entry 48's choice.
Log entries 2, 12, 15, 30, 48 and 52 name what in it is the model's reading or choice. -/
def Obligations.FireCommitAndFault : Prop :=
  (∀ s key st p (r : Raised) resume, placeOf s key = some (st, p) →
    let u := takeFault s key r resume
    let handler := r.code ≠ .pageFault ∧ r.code ≠ .brk ∧ r.code ≠ .watchdog ∧ p.g.tbase ≠ 0 ∧ st.trap = false
    (handler → r.index < 2 ^ 8 → r.tnum < 2 ^ 16 → find u.strands key = some { st with
        blocks := []
        pc := p.g.tbase
        trap := true
        st := .ready
        due := st.due.filter fun e => e.1 = .watchdog
        bank := [BitVec.ofNat 64 (r.code.code + r.index * 2 ^ 8 + r.tnum * 2 ^ 16), BitVec.ofNat 64 (r.addr % 2 ^ 52), r.mask,
          resume] } ∧ u.events = s.events) ∧
    (¬ handler → ∃ rec : Option Untaken,
      find u.strands key = some { st with
        blocks := []
        pc := resume
        st := .parked r.code
        record := rec
        due := st.due.filter fun e => e.1 = .watchdog } ∧
      (s.events.length < 4096 → (die s (key / 256 / 48)).holding = [] → rec = none ∧ ∃ e : Record, u.events = s.events ++ [e] ∧ e.type = 1 ∧ e.code = r.code.code ∧
        e.die = 8 + key / 256 / 48 ∧ e.slot = p.g.slot ∧ e.ctx = p.w.ctx ∧ e.core = key / 256 ∧ e.strand = key % 256 ∧
        e.tag = p.l.tag ∧ e.mask = r.mask ∧ e.addr = BitVec.ofNat 64 (r.addr % 2 ^ 52 + r.index * 2 ^ 56) ∧
        e.seq = r.tnum % 2 ^ 8 ∧ e.ncyc = r.tnum / 2 ^ 8)) ∧
    ((∀ h ∈ s.held, ∀ b ∈ st.blocks, h.blk ≠ b.uid) → u.mem = s.mem ∧ u.poison = s.poison ∧ u.held = s.held) ∧
    (∀ k g, find s.groups k = some g → ∃ g', find u.groups k = some g' ∧ g' = { g with replay := g'.replay }) ∧
    (∀ k, k ≠ key → find u.strands k = find s.strands k) ∧ u.posted = s.posted ∧ u.wgs = s.wgs) ∧
  (∀ s key (st : Strand) (p : Place) pc,
    let c := key / 256
    let at_ := blockAt s key st p pc
    (∀ f a t, fetchWords c p.w.ctx 2 pc s = (.error (f, a), t) → at_ = (.error (f, 0xFF, a), t)) ∧
    ∀ ws t, fetchWords c p.w.ctx 2 pc s = (.ok ws, t) →
      let f : Nat → Nat → Nat := fun lo n => (ws.getD 0 0).toNat / 2 ^ lo % 2 ^ n
      let good := f 60 4 = 0xB ∧ f 48 6 ≤ 32 ∧ f 42 6 ≤ 32 ∧ f 34 3 ≤ 4 ∧ f 31 3 ≠ 7 ∧ f 0 20 = 0
      let readAt := 2 + f 29 1
      let writeAt := readAt + (f 48 6 + 1) / 2
      let insnAt := writeAt + (f 42 6 + 3) / 4
      let n := f 54 6 + 1
      (¬ good → at_ = (.error (.blockFormat, 0xFF, pc), t)) ∧
      (good → ∀ g a u, fetchWords c p.w.ctx (insnAt + n - 2) (pc + 16) t = (.error (g, a), u) →
        at_ = (.error (g, 0xFF, a), u)) ∧
      (good → ∀ rest u, fetchWords c p.w.ctx (insnAt + n - 2) (pc + 16) t = (.ok rest, u) →
        let word : Nat → Nat := fun i => ((ws ++ rest).getD i 0).toNat
        let insn : Nat → Word := fun i => (ws ++ rest).getD (insnAt + i) 0
        let op : Nat → Nat := fun i => word (insnAt + i) / 2 ^ 54
        let store : Nat → Prop := fun o => o ∈ [0x201, 0x203, 0x210] ∨ (0x206 ≤ o ∧ o ≤ 0x20E)
        let effect : Nat → Prop := fun o => o ∈ [0x183, 0x184, 0x200, 0x202, 0x204, 0x20F] ∨ (8 ≤ o ∧ o ≤ 0xB) ∨
          (0x1C0 ≤ o ∧ o ≤ 0x1C8) ∨ (0x211 ≤ o ∧ o ≤ 0x216) ∨ (0x280 ≤ o ∧ o ≤ 0x287) ∨ (0x2C0 ≤ o ∧ o ≤ 0x2CA) ∨
          (0x300 ≤ o ∧ o ≤ 0x306) ∨ (0x340 ≤ o ∧ o ≤ 0x348) ∨ (0x380 ≤ o ∧ o ≤ 0x386) ∨ (0x3C0 ≤ o ∧ o ≤ 0x3C8)
        let many : (Nat → Prop) → Nat := fun q => by classical exact ((List.range n).filter fun i => decide (q (op i))).length
        let masked := (f 30 1 = 1 ↔ ∃ i < n, op i = 0x214) ∧ f 24 5 = many store ∧ word 1 < 2 ^ n ∧
          ∀ i < n, store (op i) ∨ effect (op i) → (word 1).testBit i = true
        let k := codeOf pc (ws ++ rest) (itemBits p.g) p.l.vregs (sregsOf st p.l)
        let has : Nat → Nat → Nat → Prop := fun kind reg span => (kind = 0 → reg % span = 0 ∧ reg + span ≤ p.l.vregs) ∧
          (kind = 1 → reg < sregsOf st p.l) ∧ (kind = 2 → reg < 32) ∧ (kind = 3 → reg < 16)
        let entries := (∀ e ∈ k.reads, e.low = 0 ∧ has e.kind e.reg (if e.kind = 0 then k.readWidth e / 32 else 1)) ∧
          (f 48 6 % 2 = 1 → word (writeAt - 1) < 2 ^ 32) ∧
          (f 42 6 % 4 ≠ 0 → word (insnAt - 1) < 2 ^ (16 * (f 42 6 % 4))) ∧
          (∀ i < f 42 6, word (writeAt + i / 4) / 2 ^ (16 * (i % 4)) % 2 ^ 3 = 0) ∧
          (∀ v ∈ k.writes, has v.kind v.reg v.span) ∧
          ∀ (i j : Nat) (v z : WEntry), k.writes[i]? = some v → k.writes[j]? = some z → i ≠ j → v.kind = z.kind →
            v.reg + v.span ≤ z.reg ∨ z.reg + z.span ≤ v.reg
        let sends : Nat → List Nat := fun i => ((k.part i).map fun q => (sendsOf q).map Prod.fst).getD []
        let arity : Nat → Nat := fun i => ((k.part i).map arityOf).getD 0
        let made : Nat → Nat := fun v => ((k.reads.flatMap fun e => [e.ta, e.tb].filter (· ≠ 0xFF)).count v) +
          ∑ i ∈ Finset.range n, (sends i).count v
        let exits : Nat → Prop := fun o => o ∈ [8, 9, 0xA, 0x1C6]
        let graph := (∀ i < n, ∀ j < arity i, made (4 * i + j) = 1) ∧ (∀ i < f 42 6, made (4 * i + 3) = 1) ∧
          (∀ v, made v ≠ 0 → (v % 4 = 3 → v / 4 < f 42 6) ∧ (v % 4 ≠ 3 → v / 4 < n ∧ v % 4 < arity (v / 4))) ∧
          (∀ i < n, ∀ v ∈ sends i, v % 4 ≠ 3 → i < v / 4) ∧
          (∀ i < n, exits (op i) → word (insnAt + i) / 2 ^ 47 % 2 ^ 3 ≤ f 39 3) ∧
          (∀ v ≤ f 39 3, ∃! i, i < n ∧ exits (op i) ∧ word (insnAt + i) / 2 ^ 47 % 2 ^ 3 = v) ∧
          many store ≤ 31 ∧ many (· = 0x214) ≤ 1
        let reads : Nat → Prop := fun i => ∃ x, decodeWord (insn i) = .ok x
        let allowed := ∀ i < n, (op i = 9 → 2 ≤ p.l.vregs) ∧ (op i = 0x3C7 → 4 ≤ p.l.sregs) ∧ (op i = 0x283 → 64 ≤ p.g.width) ∧
          (op i = 0x3C8 → st.trap = true)
        (k.reads = (List.range (f 48 6)).map fun i =>
          let e := word (readAt + i / 2) / 2 ^ (32 * (i % 2))
          ⟨e / 2 ^ 30 % 2 ^ 2, e / 2 ^ 19 % 2 ^ 11, e / 2 ^ 11 % 2 ^ 8, e / 2 ^ 3 % 2 ^ 8, e % 2 ^ 3⟩) ∧
        (∀ i < f 42 6, ∃ v : WEntry, k.writes[i]? = some v ∧
          v.kind = word (writeAt + i / 4) / 2 ^ (16 * (i % 4) + 14) % 2 ^ 2 ∧
          v.reg = word (writeAt + i / 4) / 2 ^ (16 * (i % 4) + 3) % 2 ^ 11) ∧
        (¬ masked ∨ ¬ entries → at_ = (.error (.blockFormat, 0xFF, pc), u)) ∧
        (masked → entries →
          (∀ i < n, (∀ j < i, reads j) → ∀ e, decodeWord (insn i) = .error e →
            at_ = (.error (if e = .opcodeUndef then .opcodeUndef else .blockFormat, i, pc), u)) ∧
          ((∀ i < n, reads i) →
            (¬ graph → at_ = (.error (.blockFormat, 0xFF, pc), u)) ∧
            (k.graphOk = false → at_ = (.error (.blockFormat, 0xFF, pc), u)) ∧
            (k.graphOk = true → allowed → at_ = (.ok k, u)) ∧
            (k.graphOk = true → ¬ allowed → ∃ i < n, at_ = (.error (.blockFormat, i, pc), u)))))) ∧
  (∀ s c e st p, let key := 256 * c + e
    placeOf s key = some (st, p) → mayFire s key st p = true → st.blocks = [] →
    (turnWaits s key st p.wk = true → exec (.blockFire c e) s = .next s) ∧
    (turnWaits s key st p.wk = false → ∀ f r, st.due = some (f, r) →
      (f = .watchdog → exec (.blockFire c e) s = .next (modStrand s key fun v =>
        { v with st := .parked .watchdog, record := r, due := none })) ∧
      (f ≠ .watchdog → exec (.blockFire c e) s = .next (takeFault (modStrand s key fun v => { v with due := none }) key
        ⟨f, 0xFF, st.mask, st.pc.toNat, 0⟩ st.pc))) ∧
    (turnWaits s key st p.wk = false → st.due = none → fetchHeld s c p.w.ctx st.pc.toNat = true →
      exec (.blockFire c e) s = .next s) ∧
    (turnWaits s key st p.wk = false → st.due = none → fetchHeld s c p.w.ctx st.pc.toNat = false →
    let s1 := modStrand s key fun v => { v with turn := 0 }
    (∀ f i a t, blockAt s1 key st p st.pc.toNat = (.error (f, i, a), t) →
      exec (.blockFire c e) s = .next (takeFault t key ⟨f, i, st.mask, a, 0⟩ st.pc)) ∧
    ∀ k t, blockAt s1 key st p st.pc.toNat = (.ok k, t) →
      let waits := (k.h.hold = true ∧ st.asyncs ≠ []) ∨ ∃ n ∈ barsOf st k.h, ∃ q ∈ (p.g.bar n).targets, st.mask.has q.1 = true ∧
        2 ^ 14 ≤ (get p.w.barGen n 0 - q.2).toNat
      (waits → exec (.blockFire c e) s = .next t) ∧
      (¬ waits → k.h.hold = true → ∀ d, st.drainFailed = some d → exec (.blockFire c e) s = .next (takeFault
        (modStrand t key fun v => { v with drainFailed := none }) key ⟨.dieOffline, 0xFF, st.mask, 8 + d, 0⟩ st.pc)) ∧
      (¬ waits → (k.h.hold = true → st.drainFailed = none) →
        let taskRule := k.h.task = (st.first && !st.trap)
        (unbound p.g k = true → exec (.blockFire c e) s = .next (takeFault t key ⟨.queueUnbound, 0xFF, st.mask, st.pc.toNat, 0⟩ st.pc)) ∧
        (unbound p.g k = false → ¬ taskRule →
          exec (.blockFire c e) s = .next (takeFault t key ⟨.blockFormat, 0xFF, st.mask, st.pc.toNat, 0⟩ st.pc)) ∧
        (unbound p.g k = false → taskRule → popsOf k = [] → winsUsed k = [] → t.strands = s1.strands →
          ∃ u b n, exec (.blockFire c e) s = .next u ∧
          find u.strands key = some { st with blocks := [b], barWait := [], l1min := n, turn := 0 } ∧ u.mem = t.mem ∧
          (e < 256 → b.time = (die t (c / 48)).sample.toNat ∧ b.clk = coreClk t c) ∧
          b.uid = t.uid ∧ b.addr = k.addr ∧ b.h = k.h ∧ b.h1 = k.h1 ∧ b.words = k.insns ∧ b.writes = k.writes ∧ b.mask = st.mask ∧
          b.fired = 0 ∧ b.resolved = 0 ∧ b.waits = [] ∧ b.choices = [] ∧ b.removed = 0 ∧ b.raised = none ∧ b.effects = [] ∧
          b.stores = [] ∧ b.results = [] ∧
          (∀ (n : Nat) (q : REntry), k.reads[n]? = some q → (∀ (m : Nat) (v : REntry), k.reads[m]? = some v → m ≠ n → v.ta ≠ q.ta ∧ v.tb ≠ q.ta) → q.tb ≠ q.ta →
            q.ta ≠ 0xFF → ∃ tok, find b.slots q.ta = some tok ∧
            (q.kind = 0 → Lanewise tok (k.readWidth q) false st.mask fun l v => v = BitVec.ofNat 128
              (∑ j ∈ Finset.range (k.readWidth q / 32), (get p.g.vregs (64 * (q.reg + j) + l) 0).toNat * 2 ^ (32 * j))) ∧
            (q.kind = 1 → st.trap = false → st.task = none →
              Lanewise tok 64 true st.mask fun _ v => v = (get p.g.sregs q.reg 0).setWidth 128) ∧
            (q.kind = 1 → st.trap = true → q.reg < 4 →
              Lanewise tok 64 true st.mask fun _ v => v = (st.bank.getD q.reg 0).setWidth 128)) ∧
          (risingFrom 0 t.cores = true → risingFrom 0 (core t c).counted = true → e < 256 →
            get (core u c).counted 1 0 = get (core t c).counted 1 0 + 1))))) ∧
  (∀ key gk s (w : WEntry) (t : Token) st g, find s.strands key = some st → find s.groups gk = some g → t.mask ≠ 0 →
    let u := writeReg key gk s w t
    let v := t.scalar64
    (w.kind = 0 → ∃ g', find u.groups gk = some g' ∧ g' = { g with vregs := g'.vregs } ∧ u.strands = s.strands ∧
      (risingFrom 0 g.vregs = true → ∀ q, ∀ l < 64, get g'.vregs (64 * q + l) 0 =
        if t.mask.has l = true ∧ w.reg ≤ q ∧ q < w.reg + w.span then (t.at_ l).extractLsb' (32 * (q - w.reg)) 32
        else get g.vregs (64 * q + l) 0)) ∧
    (w.kind = 1 → st.trap = true → w.reg < 4 → u = modStrand s key fun z => { z with bank := z.bank.set w.reg v }) ∧
    (w.kind = 1 → (st.trap = false ∨ 4 ≤ w.reg) →
      (st.task = none ∨ 4 ≤ w.reg → ∃ g', find u.groups gk = some g' ∧ g' = { g with sregs := g'.sregs } ∧
        u.strands = s.strands ∧
        (risingFrom 0 g.sregs = true → ∀ q, get g'.sregs q 0 = if q = w.reg then v else get g.sregs q 0)) ∧
      (∀ n, st.task = some n → w.reg < 4 →
        u = modGroup s gk fun z => { z with banks := z.banks.modify n (·.set w.reg v) })) ∧
    (w.kind = 2 → u = s) ∧
    (w.kind = 3 → u = modGroup s gk (fun z =>
      { z with wins := put z.wins w.reg (winOfVal (t.at_ (t.mask.lowest.getD 0))) }))) ∧
  (∀ s c e st p (b : Blk) rest, let key := 256 * c + e
    placeOf s key = some (st, p) → st.blocks = b :: rest → e < 256 →
    let complete := b.raised = none ∧ (∀ i < 64, b.h1.getLsbD i = true → b.resolved.has i = true) ∧
      (∀ n < b.writes.length, find b.slots (4 * n + 3) ≠ none) ∧
      (∀ i < b.words.length, arityAt b i = some 0 → b.fired.has i = true) ∧
      ∀ l < 64, b.mask.has l = true → b.removed.has l = false → ∃ h, (l, h) ∈ b.choices
    let turn := ∀ k, p.g.committed = some ((die s (c / 48)).clk, k) → k ≤ st.mask.lowest.getD 0
    let go := exec (.blockCommit c e) s
    let pushes : Prop := ∃ n : Nat, ∃ w : WEntry, b.writes[n]? = some w ∧ w.kind = 2
    let plain := (∀ i n, (i, .trap n) ∉ b.effects ∧ (i, .hcall n) ∉ b.effects) ∧ ∀ i, (i, .brk) ∉ b.effects ∧ (i, .tret) ∉ b.effects
    (p.w.st ≠ .resident ∨ ¬ complete ∨ ¬ turn → go = .next s) ∧
    (p.w.st = .resident → complete → turn → (∀ q ∈ b.choices, ∀ a k, q.2 ≠ .regang a k) →
      (∀ i n l k v, (i, .barArrive n l k v) ∉ b.effects) →
      (commitReady s key st p b = false → go = .next s) ∧
      (b.effects = [] → ¬ pushes → b.h.rel = 0 → b.releases p = [] → (b.stores = [] ∨ ∀ i sc w, b.instr i ≠ some (.fence sc w)) →
        (∀ q ∈ (core s c).recv, ∀ i ∈ q.2.items, i.resv ≠ some b.uid) → commitReady s key st p b = true) ∧
      (commitReady s key st p b = true → ∃ t, go = .next t ∧
        ∀ o u ops, o = writeRegs (consumePops (releaseHeld (pushEvents s key p b) c b.uid) c b) key p b →
        applyEffects o key p b = (ops, u) → plain → b.removed = 0 → b.mask ≠ 0 → p.g.joined = none →
        (∀ g, find u.groups p.gk = some g → g.joined = none) → find u.strands key = some st →
        ∀ a, (∀ q ∈ b.choices, b.mask.has q.1 = true ∧ q.2 = .goto a) →
        t.mem = u.mem ∧ t.posted = u.posted ∧ t.events = u.events ∧
        find t.strands key = some { st with
          blocks := rest, pc := a, mask := b.mask, st := .ready, first := st.first && st.trap, asyncs := st.asyncs ++ ops } ∧
        (∀ g, find u.groups p.gk = some g → ∃ g', find t.groups p.gk = some g' ∧ g'.vregs = g.vregs ∧ g'.sregs = g.sregs ∧
          g'.wins = g.wins ∧ g'.live = g.live ∧ g'.committed = some ((die u (c / 48)).clk, st.mask.lowest.getD 0)) ∧
        (risingFrom 0 u.cores = true → risingFrom 0 (core u c).counted = true →
          get (core t c).counted 2 0 = get (core u c).counted 2 0 + 1) ∧
        (b.effects = [] → b.stores = [] → ¬ pushes → u = o ∧ ops = []) ∧
        (b.effects = [] → ¬ pushes → (∀ h ∈ s.held, h.blk ≠ b.uid) →
          (∀ n, ∀ w : WEntry, b.writes[n]? = some w → (∀ k v, b.writes[k]? = some v → k = n) →
            o.groups = (writeReg key p.gk s w (get b.slots (4 * n + 3) noTok)).groups) ∧ (b.writes = [] → o.groups = s.groups))))) ∧
  (∀ s key p b i e j f, b.stores = [] → b.writes = [] → i < j → (b.effects = [(i, e), (j, f)] ∨ b.effects = [(j, f), (i, e)]) →
    (∀ x y z, e ≠ .flsig x y z ∧ f ≠ .flsig x y z) → ∃ gate,
    (∀ n, n ∈ gate ↔ ∃ q ∈ s.posted, q.uid = n ∧ q.group = p.gk ∧ q.lanes &&& b.mask ≠ 0 ∧ q.stage = 0) ∧
    applyEffects s key p b = (let x := applyEffect key p b.mask gate s e
      let y := applyEffect key p b.mask gate x.2 f
      (x.1 ++ y.1, y.2))) ∧
  (∀ s c e st b rest, let key := 256 * c + e
    find s.strands key = some st → st.blocks = b :: rest →
    (b.raised = none → exec (.faultTake c e) s = .next s) ∧
    (∀ r, b.raised = some r → (∀ c0 c1, (r.index, .rtswap c0 c1 true) ∉ b.effects) →
      exec (.faultTake c e) s = .next (takeFault s key r (BitVec.ofNat 64 b.addr))) ∧
    (∀ r c0 c1, b.raised = some r → (r.index, .rtswap c0 c1 true) ∈ b.effects → c0 ≤ c1 → e < 256 →
      c / 48 < s.dies.length → ∃ t : State,
      exec (.faultTake c e) s = .next (takeFault t key r (BitVec.ofNat 64 b.addr)) ∧
      (∀ k, c0 ≤ k / 64 → k / 64 ≤ c1 → find (die t (c / 48)).shadows k = none) ∧
      (∀ k, c0 ≤ k → k ≤ c1 → find (die t (c / 48)).shadowBad k = none) ∧
      (die t (c / 48)).cells = (die s (c / 48)).cells) ∧
    let given : Nat → Prop := fun n => find b.slots n ≠ none
    let resolved := (∀ i < 64, b.h1.getLsbD i = true → b.resolved.has i = true) ∧ ∀ n < b.writes.length, given (4 * n + 3)
    let idle := b.waits = [] ∧ ∀ i < b.words.length, b.fired.has i = true ∨ delivered b i = false
    (b.raised = none → b.complete = false → idle →
      (¬ resolved → exec (.blockStarvedDrain c e) s =
        .next (takeFault s key ⟨.blockStarved, 0xFF, b.mask, b.addr, 0⟩ (BitVec.ofNat 64 b.addr))) ∧
      (resolved → ∃ m : Mask, (∀ l < 64, m.has l = true ↔ b.mask.has l = true ∧ b.removed.has l = false ∧
          ∀ h, (l, h) ∉ b.choices) ∧ exec (.blockStarvedDrain c e) s =
        .next (takeFault s key ⟨.blockStarved, 0xFF, m, b.addr, 0⟩ (BitVec.ofNat 64 b.addr)))) ∧
    (b.raised ≠ none ∨ b.complete = true ∨ ¬ idle → exec (.blockStarvedDrain c e) s = .next s)) ∧
  (∀ (st : Strand) r, st.bank.getD 3 0 = r →
    (Strand.leaveTrap st).pc = r &&& ~~~0xF#64 ∧ (Strand.leaveTrap st).trap = false ∧ (Strand.leaveTrap st).bank = []) ∧
  ∀ s key n i st p, placeOf s key = some (st, p) →
    meetAfter s key (some (.trap n i)) = takeFault s key ⟨.trap, i, st.mask, st.pc.toNat, n⟩ st.pc ∧
    meetAfter s key (some (.brk i)) = takeFault s key ⟨.brk, i, st.mask, st.pc.toNat, 0⟩ st.pc

/-! ## Waits, barriers, launches and workgroups (02_work, 10_ref_lanes, 21_faults) -/

/-- R188, R195, R197 to R201: a collective, an exchange, a REGANG or a barrier held past its limit faults the strands that
wait; lanes that all wait at one label are one strand again; arrivals at a barrier count for its generation, and when every
live lane has arrived the generation goes on.
Log entry 19 names what in it is the model's reading or choice. -/
def Obligations.WaitsAndBarriers : Prop :=
  (∀ s (c : Collective), s.colls.find? (fun d => d.uid == c.uid) = some c →
    let failed : FaultCode → State → Prop := fun code t => (∀ d ∈ t.colls, d.uid ≠ c.uid) ∧
      ∀ a ∈ c.arrivals, (∀ b ∈ c.arrivals, b.2.1 = a.2.1 → b.1 = a.1 → b.2.2.1 = a.2.2.1) →
        ∀ st, find s.strands a.1 = some st → ∃ st' : Strand, find t.strands a.1 = some st' ∧
        ∀ (n : Nat) (b : Blk), st.blocks[n]? = some b → b.uid = a.2.1 → b.raised = none →
          ∃ b' : Blk, st'.blocks[n]? = some b' ∧ b'.raised = some ⟨code, c.index, a.2.2.1, b.addr, 0⟩
    (c.full = true ∨ s.time.toNat < c.since + s.barrierLimit → exec (.collectiveTimeout c.uid) s = .next s) ∧
    (c.full = false → c.since + s.barrierLimit ≤ s.time.toNat → ∃ t, exec (.collectiveTimeout c.uid) s = .next t ∧
      t.mem = s.mem ∧ failed .barTimeout t) ∧
    ∀ d (o : Offer), (die s d).offers.find? (fun e => e.uid == o.uid) = some o → o.inst = c.uid →
      (s.time.toNat < o.since + s.xshflLimit → exec (.xshflTimeout d o.uid) s = .next s) ∧
      (o.since + s.xshflLimit ≤ s.time.toNat → ∃ t, exec (.xshflTimeout d o.uid) s = .next t ∧ t.mem = s.mem ∧
        failed .xshflTimeout t ∧ (d < s.dies.length → ∀ e ∈ (die t d).offers, e.uid ≠ o.uid))) ∧
  (∀ s gk label g (w : Wg), find s.groups gk = some g → find s.wgs g.wg = some w → w.st = .resident →
    let stays : Strand → Prop := fun v => v.group = gk ∧ v.pc = label ∧ ∃ k n, v.st = .label k n
    let held : Parked → Prop := fun q => q.succ = some label ∧ q.regang ≠ none
    let here : Nat → Prop := fun l => (∃ e ∈ s.strands, stays e.2 ∧ e.2.mask.has l = true) ∨
      (∃ q ∈ g.parked, held q ∧ q.mask.has l = true) ∨ ∃ q ∈ g.parked, q.succ = none ∧ q.mask.has l = true
    (∀ k, labelMember s gk label = some k →
      ((∃ l, k.has l = true ∧ ¬ here l) → exec (.regangComplete gk label) s = .next s) ∧
      ((∀ l, k.has l = true → here l) → risingFrom 0 s.strands = true → ∀ key v, find s.strands key = some v → stays v →
        (∀ e ∈ s.strands, stays e.2 → e.1 ≠ key → v.mask.lowest.getD 64 < e.2.mask.lowest.getD 64) → ∃ t u,
        exec (.regangComplete gk label) s = .next t ∧ t.mem = s.mem ∧ find t.strands key = some u ∧
        u.group = gk ∧ u.mask = k ∧ u.pc = label ∧ u.st = .ready ∧ u.blocks = [])) ∧
    (∀ e v, s.strands.filter (fun q => decide (q.2.group = gk) && q.2.pc == label) = [(e, v)] → stays v →
      (∀ q ∈ g.parked, ¬ held q) → ∀ k n, v.st = .label k n →
      (s.time.toNat < n + s.barrierLimit → exec (.regangTimeout gk label) s = .next s) ∧
      (n + s.barrierLimit ≤ s.time.toNat → ∃ u, exec (.regangTimeout gk label) s = .next (takeFault u e
        ⟨.barTimeout, 0xFF, v.mask, label.toNat, 0⟩ label) ∧ u.strands = s.strands ∧ u.mem = s.mem ∧
        find u.groups gk = some g))) ∧
  (∀ key p m gate s n (l k : Mask) wait g (w : Wg), find s.groups p.gk = some g → find s.wgs p.wk = some w →
    let b := g.bar n
    let gen := get w.barGen n 0
    (l &&& b.arrived = 0 → l ≠ 0 → ∃ t g' b', applyEffect key p m gate s (.barArrive n l k wait) = ([], t) ∧
      find t.groups p.gk = some g' ∧ find g'.bars n = some b' ∧ b'.arrived = b.arrived ||| l ∧
      b'.member = some (b.member.getD k) ∧ b'.arrivedNext = b.arrivedNext ∧
      (∀ i < 64, find b'.targets i = if l.has i = true then some (gen + 1) else find b.targets i) ∧
      ∃ w', find t.wgs p.wk = some w' ∧ w' = { w with barStart := w'.barStart } ∧
        find w'.barStart n = some ((find w.barStart n).getD s.time.toNat)) ∧
    (l &&& ~~~b.arrived = 0 → l ≠ 0 → ∃ t g' b', applyEffect key p m gate s (.barArrive n l k wait) = ([], t) ∧
      find t.groups p.gk = some g' ∧ find g'.bars n = some b' ∧ b'.arrived = b.arrived ∧
      b'.arrivedNext = b.arrivedNext ||| l ∧ b'.memberNext = some (b.memberNext.getD k) ∧
      ∀ i < 64, l.has i = true → find b'.targets i = some (gen + 2))) ∧
  (∀ s wk n (w : Wg), find s.wgs wk = some w → risingFrom 0 w.barGen = true →
    let whole := (∀ e ∈ s.groups, e.2.wg = wk → ∀ l, (e.2.bar n).member.all (·.has l) = true → e.2.live.has l = true →
        (e.2.bar n).arrived.has l = true) ∧ ∃ e ∈ s.groups, e.2.wg = wk ∧ (e.2.bar n).arrived ≠ 0
    let calm := ∀ e ∈ s.groups, e.2.wg = wk → (e.2.bar n).arrivedNext = 0 ∧ risingFrom 0 e.2.bars = true
    let goesOn : State → Prop := fun t => ∃ w', find t.wgs wk = some w' ∧ get w'.barGen n 0 = get w.barGen n 0 + 1 ∧
      ∀ k g, find s.groups k = some g → g.wg = wk → risingFrom 0 g.bars = true → ∃ g', find t.groups k = some g' ∧
        (g'.bar n).arrived = 0 ∧ (g'.bar n).targets = (g.bar n).targets ∧ g'.live = g.live ∧ g'.vregs = g.vregs
    (¬ whole → settleBar s wk n = s) ∧ (whole → calm → goesOn (settleBar s wk n)) ∧
    (w.st = .resident → ∀ since, find w.barStart n = some since →
      (s.time.toNat < since + s.barrierLimit → exec (.barTimeout wk n) s = .next s) ∧
      (since + s.barrierLimit ≤ s.time.toNat → calm →
        ((∀ e ∈ s.strands, waitsOnBar s n e = false) → ∃ t w', exec (.barTimeout wk n) s = .next t ∧ goesOn t ∧
          find t.wgs wk = some w' ∧ n ∈ w'.broken ∧ t.mem = s.mem ∧ t.strands = s.strands) ∧
        ∀ key st p, placeOf s key = some (st, p) → p.wk = wk → waitsOnBar s n (key, st) = true →
          (∀ e ∈ s.strands, waitsOnBar s n e = true → e = (key, st)) → risingFrom 0 s.strands = true → risingFrom 0 s.groups = true →
          ∃ t, goesOn t ∧ t.strands = s.strands ∧
            (st.blocks = [] → exec (.barTimeout wk n) s =
              .next (takeFault t key ⟨.barTimeout, 0xFF, st.mask, st.pc.toNat, 0⟩ st.pc)) ∧
            (st.blocks ≠ [] → exec (.barTimeout wk n) s =
              .next (modStrand t key fun v => { v with due := v.due.or (some (.barTimeout, none)) })))))

/-- R22 to R36, R48 to R56, R129, R381, R391, R392, R395 and R404: a posted record is checked, marked and accepted, each status
for its own condition; launches whose waits are met are handed over, and their workgroups placed where they fit; a finished launch adds to its DONE word; the
watchdog stops a workgroup; queue descriptors; time slices, pre-emption and the return of a pre-empted workgroup.
Log entries 9, 24, 31, 32, 33, 44, 48 and 51 name what in it is the model's reading or choice. -/
def Obligations.LaunchesAndWorkgroups : Prop :=
  let alive : State → Prop := fun s => s.boot.powered = true ∧ s.boot.running = true
  let replies : State → Nat → Nat → State := fun s r v => { s with out := s.out ++ [.reply r v] }
  (∀ s q, q < 64 → q < s.queues.length → alive s → Memory.wf s.mem = true →
    let d := queueOf s q
    let mark := 0x80_0000_0000 + q * 2 ^ 14 + d.next * 256 + 0xFF
    let bs := slotBytes s q d.next
    let code := recordStatus s q d.next bs
    let kept : Nat → Bool := fun a => lineHeld s (a % 2 ^ 51 / 128 * 128)
    (∀ a, d.owed = [a] → d.enable = false →
      (kept a = true → exec (.launchParse q) s = .next s) ∧
      (kept a = false →
        exec (.launchParse q) s = .next (writeSource (modQueue s q fun y => { y with owed := [] }) a 0xE6))) ∧
    (d.owed = [] →
    (∀ a, d.enable = true → homeRead s mark 1 = 0xA5 → find d.src d.next = some a →
      let u := writeSource (homeWrite s mark 1 code) a code
      let more : Queue → Queue := fun x => { x with next := (d.next + 1) % 64, src := del x.src d.next }
      (kept a = true → exec (.launchParse q) s = .next s) ∧
      (kept a = false → (code ≠ 0x5A → exec (.launchParse q) s = .next (modQueue u q more)) ∧
        (code = 0x5A → ∃ t, exec (.launchParse q) s = .next t ∧ t.mem = u.mem ∧ ∃ n,
          find t.launches n = some (launchOf s q d.next bs)))) ∧
    (d.enable = false ∨ homeRead s mark 1 ≠ 0xA5 → exec (.launchParse q) s = .next s) ∧
    (d.enable = true → homeRead s mark 1 = 0xA5 → find d.src d.next = none → d.next < 64 → ∃ t,
      exec (.launchParse q) s = .next t ∧ readByte t.mem mark = BitVec.ofNat 8 code ∧
      (∀ a, a ≠ mark → readByte t.mem a = readByte s.mem a) ∧ (queueOf t q).next = (d.next + 1) % 64 ∧
      (code ≠ 0x5A → (queueOf t q).fifo = d.fifo ∧ t.launches = s.launches) ∧
      (code = 0x5A → ∃ n l, (queueOf t q).fifo = d.fifo ++ [n] ∧ find t.launches n = some l ∧
        l = launchOf s q d.next bs ∧ l.ctx = d.ctx ∧ l.entry = BitVec.ofNat 64 (leAt bs 0 8) ∧ l.groups = leAt bs 0x20 2 ∧
        l.tag = leAt bs 0xFC 2 ∧ l.dispatched = false)))) ∧
  (∀ s q k (bs : List Nat), bs.length = 256 → (∀ b ∈ bs, b < 256) →
    let at_ : Nat → Nat → Nat := leAt bs
    let fc := at_ 0x1E 1
    let w : Nat → Nat := fun j => at_ (0x18 + j) 1
    let ext : Nat → Nat := fun j => if at_ (0x30 + 4 * j) 4 = 0 then 2 ^ 32 else at_ (0x30 + 4 * j) 4
    let grid := ext 0 * ext 1 * ext 2 * ext 3
    let groups := at_ 0x20 2
    let lo : Nat → Nat := fun j => at_ (0x40 + 16 * j) 8
    let hi : Nat → Nat := fun j => at_ (0x48 + 16 * j) 8
    let rdie : Nat → Nat := fun j => at_ (0x80 + j) 1
    let signal : Nat → Prop := fun a => a % 8 = 0 ∧ a < 2 ^ 52 ∧ ∃ e, translatePkg s (queueOf s q).ctx a = .page e ∧
      pteW e.pte = true ∧ populated (e.pa a) = true ∧ (kindAt (plainPa (e.pa a)) = .hbm ∨ kindAt (plainPa (e.pa a)) = .host)
    let formed := at_ 0x27 1 = 0 ∧ at_ 0x2C 4 = 0 ∧ at_ 0x86 2 = 0 ∧ at_ 0xFE 1 = 0 ∧ at_ 0x1F 1 < 16 ∧ 3 ≤ fc ∧ fc ≤ 6 ∧
      (∀ j < 6, fc ≤ j → w j = 0) ∧ 3 ≤ w 0 ∧ w 0 ≤ 6 ∧ w 1 ≤ 11 ∧ (∀ j < 6, w j ≤ 32) ∧
      w 0 + w 1 + w 2 + w 3 + w 4 + w 5 ≤ 64 ∧ at_ 0 8 % 16 = 0 ∧ 1 ≤ groups ∧ groups ≤ 2 ^ w 1 ∧
      1 ≤ at_ 0x22 2 ∧ at_ 0x22 2 ≤ 2048 ∧ at_ 0x24 2 ≤ 1024 ∧ at_ 0x26 1 ≤ 32 ∧ at_ 0x28 4 % 256 = 0 ∧ at_ 0x28 4 ≤ 2 ^ 20 ∧
      (∀ j < 4, at_ (0x30 + 4 * j) 4 ≤ 2 ^ w (j + 2) ∧ (at_ (0x30 + 4 * j) 4 = 0 → w (j + 2) = 32)) ∧
      1 ≤ at_ 0x84 1 ∧ at_ 0x84 1 ≤ 4 ∧ at_ 0x85 1 ≤ 4 ∧ (∀ j < at_ 0x85 1, signal (at_ (0x88 + 16 * j) 8)) ∧
      (at_ 0xC8 8 ≠ 0 → signal (at_ 0xC8 8))
    let covers := (∀ j < at_ 0x84 1, 8 ≤ rdie j ∧ rdie j ≤ 11 ∧ lo j ≤ hi j ∧ hi j ≤ grid ∧
        ∀ i < at_ 0x84 1, ¬ (lo i < lo j ∧ lo j < hi i)) ∧
      ∀ m < grid, ∃ j < at_ 0x84 1, lo j ≤ m ∧ m < hi j ∧ ∀ i < at_ 0x84 1, lo i ≤ m → m < hi i → i = j
    let fits := fitOk (launchOf s q k bs) = true
    let lanes := 2 ^ w 0 * groups
    let coop := at_ 0x1F 1 % 2 = 1
    let whole := at_ 0x1F 1 / 2 % 2 = 1
    let vec := 4 * 2 ^ w 0 * ((at_ 0x22 2 + 7) / 8 * 8) * groups
    let sca := 8 * ((at_ 0x24 2 + 7) / 8 * 8) * groups
    let gone := ∃ j < at_ 0x84 1, (die s (rdie j - 8)).mode = .off ∨ (die s (rdie j - 8)).inReset = true
    let dear := whole ∧ s.damper.budget.toNat < grid * at_ 0xF8 4
    let code := recordStatus s q k bs
    (¬ formed → code = 0xE1) ∧ (formed → ¬ covers → code = 0xE2) ∧
    (formed → covers →
      (¬ fits → code = 0xE3) ∧ (fits → gone → code = 0xE4) ∧ (fits → ¬ gone → dear → code = 0xE5) ∧
      (fits → ¬ gone → ¬ dear → code = 0x5A) ∧
      (fits → lanes ≤ (if coop then 16_384 else 4096) ∧ vec ≤ (if coop then 2 ^ 21 else 2 ^ 19) ∧
        sca ≤ (if coop then 2 ^ 20 else 2 ^ 18) ∧ (whole → grid * lanes ≤ 4 * 48 * 4096)) ∧
      (¬ coop → ¬ whole → lanes ≤ 4096 → vec ≤ 2 ^ 19 → sca ≤ 2 ^ 18 → groups ≤ 256 → fits))) ∧
  (∀ s q lk l, alive s → q < 64 → (queueOf s q).prio < 4 → (queueOf s q).fifo.head? = some lk →
    (∀ r < 64, r ≠ q → (queueOf s r).fifo = []) → find s.launches lk = some l → l.cores = false → l.early = false →
    (l.dispatched = false → (∀ w ∈ l.waits, dieUp s w.home = true ∧ homePoisoned s w.pa = false ∧
        w.value.toNat ≤ homeRead s w.pa 8) →
      exec .launchDispatch s = .next { (modLaunch { s with uid := s.uid + 1 } lk fun l =>
        { l with dispatched := true, order := s.uid }) with rr := s.rr.set (queueOf s q).prio ((q + 1) % 64) }) ∧
    (l.dispatched = true ∨ (∃ w ∈ l.waits, homeRead s w.pa 8 < w.value.toNat) →
      exec .launchDispatch s = .next s)) ∧
  (∀ s d lk l n u sp more caps, alive s → d < 4 → dieOpen s d = true → waitingFor s d = [lk] → find s.launches lk = some l →
    nextNum l d = some n → chooseNew s [] lk l d = some (u, sp :: more, caps) →
    let est := (l.energy * l.corr + 255) / 256
    let e := s.damper
    let fits := e.admitted + e.reserved + e.carry + est ≤ e.budget.toNat ∧ e.measured < e.budget.toNat ∧
      higherFirst s d (levelOf s l) = false
    (¬ fits → exec (.workgroupPlace d) s = .next s) ∧
    (fits → takeEntry s (u.getD sp.1 0) ≠ none → ∃ t w g, exec (.workgroupPlace d) s = .next t ∧ t.mem = s.mem ∧
      find t.wgs s.uid = some w ∧ w.launch = lk ∧ w.ctx = l.ctx ∧ w.num = n ∧ w.die = d ∧ w.st = .resident ∧ w.scratch = [] ∧
      t.damper = { e with admitted := e.admitted + est } ∧
      find t.groups (s.uid + 1) = some g ∧ g.wg = s.uid ∧ g.num = 0 ∧ g.core = u.getD sp.1 0 ∧ g.slot = sp.2.1 ∧
      g.pos = sp.2.2 ∧ g.width = 2 ^ l.widths.headD 3 ∧ g.live = Mask.below g.width ∧ g.vregs = [] ∧ g.cbase = l.cbase ∧
      g.tbase = l.tbase ∧ (∀ k < 4, k < l.sregs → get g.sregs k 0 = l.args.getD k 0) ∧
      (∀ k, 4 ≤ k → get g.sregs k 0 = 0) ∧ ∃ key st, find t.strands key = some st ∧ key / 256 = g.core ∧
        st.group = s.uid + 1 ∧ st.mask = Mask.below g.width ∧ st.pc = l.entry ∧ st.st = .ready ∧ st.blocks = [] ∧
        st.trap = false ∧ ∀ l', find t.launches lk = some l' → l'.ranges.map Range.next ≠ l.ranges.map Range.next)) ∧
  (∀ s lk l, find s.launches lk = some l →
    let over_ := (∀ r ∈ l.ranges, r.hi ≤ r.next) ∧ (∀ e ∈ s.wgs, e.2.launch ≠ lk) ∧ (∀ q ∈ s.posted, q.launch ≠ lk) ∧
      flushPending s lk = false
    (¬ over_ → exec (.launchComplete lk) s = .next s) ∧
    (over_ → l.failed = none → l.doneVa = 0 → l.notify = false →
      exec (.launchComplete lk) s = .next { s with launches := del s.launches lk }) ∧
    (over_ → l.failed = none → l.doneVa ≠ 0 → l.notify = false → dieUp s l.doneHome = true →
      homePoisoned s l.donePa = false → (∀ h ∈ s.held, h.line ≠ l.donePa / 128 * 128) → l.donePa % 8 = 0 → l.donePa < 2 ^ 51 →
      Memory.wf s.mem = true → ∃ t, exec (.launchComplete lk) s = .next t ∧ t.launches = del s.launches lk ∧
      readLE t.mem l.donePa 8 = (homeRead s l.donePa 8 + l.doneInc.toNat) % 2 ^ 64 ∧
      ∀ a, a < l.donePa ∨ l.donePa + 8 ≤ a → readByte t.mem a = readByte s.mem a) ∧
    (over_ → ∀ f a, l.failed = some (f, a) → l.notify = false → s.events.length < 4096 → s.dispRecs = [] → ∃ t,
      exec (.launchComplete lk) s = .next t ∧ t.launches = del s.launches lk ∧ t.mem = s.mem ∧ ∃ r : Record,
      t.events = s.events ++ [r] ∧ r.type = 1 ∧ r.code = f.code ∧ r.ctx = l.ctx ∧ r.tag = l.tag ∧ r.addr = BitVec.ofNat 64 (a % 2 ^ 52)) ∧
    (over_ → l.failed = none → l.doneVa = 0 → l.notify = true → s.events.length < 4096 → s.dispRecs = [] → ∃ t,
      exec (.launchComplete lk) s = .next t ∧ ∃ r : Record, t.events = s.events ++ [r] ∧ r.type = 2 ∧ r.code = 0 ∧ r.tag = l.tag)) ∧
  (∀ s wk w, find s.wgs wk = some w →
    let used := w.resTime + (s.time.toNat - w.since)
    (w.st ≠ .resident ∨ w.stopped = true ∨ s.watchdogLimit = 0 ∨ used ≤ s.watchdogLimit → exec (.watchdog wk) s = .next s) ∧
    (w.st = .resident → w.stopped = false → s.watchdogLimit ≠ 0 → s.watchdogLimit < used → ∃ t,
      exec (.watchdog wk) s = .next t ∧ find t.wgs wk = some { w with stopped := true } ∧
      (∃ rec : Option Untaken,
        (∀ key st g, find s.strands key = some st → find s.groups st.group = some g → g.wg = wk →
          find t.strands key = some { st with blocks := [], due := some (.watchdog, rec) }) ∧
        (∀ k g, find s.groups k = some g → g.wg = wk → ∃ g', find t.groups k = some g' ∧
          g'.parked = g.parked.map fun q => { q with due := some (.watchdog, rec) }) ∧
        (s.events.length < 4096 → (die s w.die).holding = [] → rec = none)) ∧
      (s.events.length < 4096 → (die s w.die).holding = [] → ∃ r : Record, t.events = s.events ++ [r] ∧ r.type = 1 ∧ r.code = 0x1F ∧ r.ctx = w.ctx))) ∧
  (∀ s q en prio slice ctx next, alive s →
    let d := queueOf s q
    let fits := q < 64 ∧ prio < 4 ∧ 1 ≤ slice ∧ slice ≤ 1000 ∧ ctx < 4096 ∧ next < 64
    let left_ := d.enable = true ∧ en = false ∧ ∃ k < 64, homeRead s (0x80_0000_0000 + q * 2 ^ 14 + k * 256 + 0xFF) 1 = 0xA5
    (¬ fits → exec (.queueDesc q en prio slice ctx next) s = .next (replies s 4 2)) ∧
    (fits → left_ → exec (.queueDesc q en prio slice ctx next) s = .next (replies s 4 1)) ∧
    (fits → ¬ left_ → en = true → find s.roots ctx = none → exec (.queueDesc q en prio slice ctx next) s = .next (replies s 4 3)) ∧
    (fits → ¬ left_ → (en = true → find s.roots ctx ≠ none) → exec (.queueDesc q en prio slice ctx next) s =
      .next (replies { s with queues := s.queues.modify q fun x => { x with
        enable := en
        prio := prio
        slice := slice
        ctx := ctx
        next := (if en && !d.enable then next else x.next)
        post := (if en && !d.enable then nextFree s q next else x.post) } } 4 0))) ∧
  ∀ s wk w l, find s.wgs wk = some w → find s.launches w.launch = some l →
    (let due := w.st = .resident ∧ w.leaving = false ∧ callOut s wk = false ∧
        w.since + (queueOf s l.queue).slice * 100_000 ≤ s.time.toNat ∧ equalWaits s w l = true
     (due → ∃ t, exec (.timeSliceExpiry wk) s = .next t ∧
       t = { (modWg s wk fun v => { v with leaving := true }) with rings := t.rings } ∧
       ∀ k r, find s.rings k = some r → r.st = 3 → r.owner = some (w.ctx, wk) → find t.rings k = some { r with halting := true }) ∧
     (¬ due → exec (.timeSliceExpiry wk) s = .next s)) ∧
    (mayStop s wk w = false → exec (.preempt wk) s = .next s) ∧
    (mayStop s wk w = true → w.saved = [] → ∃ t w', exec (.preempt wk) s = .next t ∧ find t.wgs wk = some w' ∧
      w'.st = .preempted ∧ w'.leaving = false ∧ w'.since = s.time.toNat ∧ w'.resTime = w.resTime + (s.time.toNat - w.since) ∧
      w'.scratch = w.scratch ∧ w'.saved.map Saved.core = w.cores ∧
      (∀ v ∈ w'.saved, ∀ key st g, find s.strands key = some st → find s.groups st.group = some g → g.wg = wk →
        g.core = v.core → key / 256 = v.core → w.cores.Nodup → { st with blocks := [] } ∈ v.strands) ∧
      ∀ k g, find s.groups k = some g → g.wg = wk → ∃ g', find t.groups k = some g' ∧ g'.vregs = g.vregs ∧ g'.sregs = g.sregs) ∧
    ∀ unit spots caps, w.st = .preempted → alive s → dieOpen s w.die = true →
      (firstBack s l.queue w.die).map Prod.fst = some wk → returnFit s [] wk w l = some (unit, spots, caps) →
      outranked s w.die (levelOf s l) = false →
      (claimedBefore s w l (unit, spots, caps) = true → exec (.workgroupResume wk) s = .next s) ∧
      (claimedBefore s w l (unit, spots, caps) = false → (∀ v ∈ w.saved, huskWhole s v = true) → ∃ t w', exec (.workgroupResume wk) s = .next t ∧ find t.wgs wk = some w' ∧
        w'.st = .resident ∧ w'.saved = [] ∧ w'.since = s.time.toNat ∧ w'.scratch = w.scratch ∧
        ∀ (n k : Nat) g sp, (groupsOf s wk)[n]? = some (k, g) → spots[n]? = some sp → risingFrom 0 s.groups = true → ∃ g',
          find t.groups k = some g' ∧ g'.core = unit.getD sp.1 0 ∧ g'.slot = sp.2.1 ∧ g'.pos = sp.2.2 ∧ g'.vregs = g.vregs ∧
          g'.sregs = g.sregs) ∧
      (claimedBefore s w l (unit, spots, caps) = false → (∃ v ∈ w.saved, huskWhole s v = false) → risingFrom 0 s.wgs = true →
        s.events.length < 4096 → (die s w.die).holding = [] →
        (∀ e ∈ s.groups, ∀ q ∈ e.2.parked, q.after = none) → ∃ t,
        exec (.workgroupResume wk) s = .next t ∧ find t.wgs wk = none ∧ ∃ r : Record, t.events = s.events ++ [r] ∧
        r.type = 1 ∧ r.code = 0x0C ∧ r.ctx = w.ctx)

/-! ## Management, boot, errors and the host (11_memories, 12_ordering, 21_faults, 22_dies) -/

/-- R208, R211, R288, R389, R390, R396, R404, R405 and R409: firmware resumes or redirects a parked strand, ends a context,
shoots translations down, writes a root, a format window and the limits, moves a die between its states and resets it.
Log entries 14, 34, 35 and 36 name what in it is the model's reading or choice. -/
def Obligations.ManagementRequests : Prop :=
  let alive : State → Prop := fun s => s.boot.powered = true ∧ s.boot.running = true
  let replies : State → Nat → Nat → State := fun s r v => { s with out := s.out ++ [.reply r v] }
  (∀ s c e, alive s → let key := 256 * c + e
    let refused : Prop := exec (.strandResume c e) s = .next (replies s 6 2) ∧
      ∀ a, exec (.strandRedirect c e a) s = .next (replies s 6 2)
    (find s.strands key = none → refused) ∧
    ∀ st, find s.strands key = some st →
      (st.record ≠ none ∨ (∀ k, st.st ≠ .parked k) → refused) ∧
      (∀ k, st.st = .parked k → st.record = none →
        exec (.strandResume c e) s = .next (replies (modStrand s key fun v => { v with st := .ready }) 6 0) ∧
        (∀ a : Word, a.toNat % 16 = 0 → exec (.strandRedirect c e a) s = .next (replies (modStrand s key fun v =>
          { v with st := .ready, pc := a, trap := false, bank := [] }) 6 0)) ∧
        ∀ a : Word, a.toNat % 16 ≠ 0 → exec (.strandRedirect c e a) s = .next (replies s 6 2))) ∧
  (∀ s ctx, alive s →
    (recordHeld s ctx = true → exec (.contextKill ctx) s = .next (replies s 6 3)) ∧
    (recordHeld s ctx = false → risingFrom 0 s.wgs = true → risingFrom 0 s.groups = true → ∃ t,
      exec (.contextKill ctx) s = .next t ∧ t.out = s.out ++ [.reply 6 0] ∧ (s.held = [] → t.mem = s.mem) ∧
      t.posted = s.posted ∧ t.roots = s.roots ∧ t.ptlb = s.ptlb ∧
      t.launches = s.launches.filter (fun e => e.2.ctx != ctx) ∧
      (∀ q, (queueOf t q).enable = (queueOf s q).enable ∧ (queueOf t q).next = (queueOf s q).next ∧
        ∀ n ∈ (queueOf t q).fifo, n ∈ (queueOf s q).fifo ∧ ∀ e ∈ s.launches, e.1 = n → e.2.ctx ≠ ctx) ∧
      (∀ e ∈ t.mailbox, e.ctx ≠ ctx) ∧
      (∀ k w, find s.wgs k = some w → (w.ctx = ctx → find t.wgs k = none) ∧
        (w.ctx ≠ ctx → ∃ w', find t.wgs k = some w' ∧ w' = { w with saved := w'.saved })) ∧
      ∀ k g w, find s.groups k = some g → find s.wgs g.wg = some w → w.ctx = ctx →
        find t.groups k = none ∧ ∀ e ∈ t.strands, e.2.group ≠ k)) ∧
  (∀ s ctx lo hi, alive s → risingFrom 0 s.cores = true →
    let stale : TlbEntry → Bool := fun e => e.ctx == ctx && decide (e.va < hi) && decide (lo < e.va + e.size)
    let ours : Nat → Prop := fun k => ∃ g w, find s.groups k = some g ∧ find s.wgs g.wg = some w ∧ w.ctx = ctx
    (∀ p ∈ s.posted, (∀ l, find s.launches p.launch = some l → l.ctx = ctx) →
      (∃ n ∈ p.pages, 4096 * n < hi ∧ lo < 4096 * (n + 1)) → rangeInUse s ctx lo hi = true) ∧
    (s.posted = [] → s.drains = [] → s.merges = [] → s.portLines = [] → rangeInUse s ctx lo hi = false) ∧
    ∃ t, exec (.shootdown ctx lo hi) s = .next t ∧
      (rangeInUse s ctx lo hi = false → t.out = s.out ++ [.reply 5 0] ∧ t.asked = s.asked) ∧
      (rangeInUse s ctx lo hi = true → t.out = s.out ∧ t.asked = false) ∧
      t.ptlb = s.ptlb.filter (fun e => !stale e) ∧ (∀ c, (core t c).tlb = (core s c).tlb.filter fun e => !stale e) ∧
      (∀ k g, find s.groups k = some g → ∃ g', find t.groups k = some g' ∧
        ∀ n v, find g.wins n = some v → ∃ v', find g'.wins n = some v' ∧
          (ours k → lo ≤ winVbase v.bits → winVbase v.bits < hi → winValid v'.bits = false ∧
            ∀ i < 127, v'.bits.getLsbD i = v.bits.getLsbD i) ∧
          (¬ (ours k ∧ lo ≤ winVbase v.bits ∧ winVbase v.bits < hi) → v' = v)) ∧
      (∀ k v, find t.strands k = some v → ours v.group → ∀ b ∈ v.blocks, ∀ n ∈ b.pages,
        ¬ (4096 * n < hi ∧ lo < 4096 * (n + 1))) ∧
      (s.held = [] → t.mem = s.mem)) ∧
  (∀ s ctx, alive s → ctx < 4096 →
    (∀ r, r % 2 ^ 16 = 0 → r < 2 ^ 52 →
      exec (.translationRootWrite ctx (some r)) s = .next { s with roots := put s.roots ctx r }) ∧
    exec (.translationRootWrite ctx none) s = .next { s with roots := del s.roots ctx }) ∧
  (∀ s n v, alive s → n < 16 → ∃ t, exec (.formatWindowWrite n v) s = .next t ∧ t = { s with dies := t.dies } ∧
    t.dies.length = s.dies.length ∧ ∀ (d : Nat) (x : Die), s.dies[d]? = some x → risingFrom 0 x.fw = true → ∃ x', t.dies[d]? = some x' ∧
      x' = { x with fw := x'.fw } ∧ get x'.fw n 0 = v ∧ ∀ k, k ≠ n → get x'.fw k 0 = get x.fw k 0) ∧
  (∀ s (l : Limits), alive s →
    let okay : Option Nat → Nat → Nat → Prop := fun v lo hi => ∀ n, v = some n → lo ≤ n ∧ n ≤ hi
    let fits := okay l.lock (10 ^ 3) (10 ^ 8) ∧ okay l.hold (10 ^ 3) (10 ^ 8) ∧ okay l.barrier (10 ^ 5) (10 ^ 9) ∧
      okay l.xshfl (10 ^ 4) (10 ^ 7) ∧ (l.watchdog = some 0 ∨ okay l.watchdog (10 ^ 6) (3600 * 10 ^ 9))
    (¬ fits → exec (.timeouts l) s = .next (replies s 7 2)) ∧
    (fits → exec (.timeouts l) s = .next (replies { s with
      lockLimit := l.lock.getD s.lockLimit
      holdLimit := l.hold.getD s.holdLimit
      barrierLimit := l.barrier.getD s.barrierLimit
      xshflLimit := l.xshfl.getD s.xshflLimit
      watchdogLimit := l.watchdog.getD s.watchdogLimit } 7 0))) ∧
  ∀ s d, alive s → d < 4 → d < s.dies.length →
    let x := die s d
    let is : DieMode → State → Prop := fun m t => exec (.dieState d m) s = .next t
    let set : DieMode → DieMode → State := fun m r => replies (setMode s d m r) 1 0
    let resident := ∃ e ∈ s.wgs, e.2.die = d ∧ e.2.st = .resident
    let owed := (∃ e ∈ s.launches, e.2.dispatched = true ∧ nextNum e.2 d ≠ none) ∨ ∃ e ∈ s.wgs, e.2.die = d ∧ e.2.st = .preempted
    let ringing := ∃ e ∈ s.rings, e.1 / 3 = d ∧ e.2.st ≠ 0
    let awake : DieMode := if x.hot = true then .ember else .run
    let fresh_ : Die → Prop := fun y => y = { Die.reset with mode := awake, hot := x.hot, fw := x.fw, sample := s.time }
    let clocked : Die → Prop := fun y => (y.mode = .run ∨ y.mode = .ember) ∧ y.inReset = false
    (∀ m r, let y := { x with mode := m, request := r }
      (¬ clocked x ∧ clocked y → die (setMode s d m r) d = { y with sample := s.time }) ∧
      (clocked x ∨ ¬ clocked y → die (setMode s d m r) d = y)) ∧
    (∀ m, x.inReset = true ∨ x.resetting ≠ none ∨ (x.closing = true ∧ s.asked = true) → is m (replies s 1 1)) ∧
    (x.inReset = false → x.resetting = none → (x.closing = true → s.asked = false) →
      (∀ m, x.mode = m → is m (set m m)) ∧
      (x.mode = .run → is .ember (set .ember .ember)) ∧
      (x.mode = .ember → x.hot = false → is .run (set .run .run)) ∧
      (x.mode = .ember → x.hot = true → is .run (set .ember .run)) ∧
      (x.mode = .idle → is .run (set awake .run) ∧ is .ember (replies s 1 2)) ∧
      (x.mode = .run ∨ x.mode = .ember → (resident ∨ owed → is .idle (replies s 1 1)) ∧
        (¬ resident → ¬ owed → is .idle (set .idle .idle))) ∧
      (x.mode ≠ .off → (resident ∨ ringing → is .off (replies s 1 1)) ∧
        (¬ resident → ¬ ringing → quietDie s d = false → is .off (modDie s d fun y => { y with closing := true })) ∧
        (¬ resident → ¬ ringing → quietDie s d = true → ∃ t, is .off t ∧ t.mem = s.mem ∧ (die t d).mode = .off ∧
          t.out = s.out ++ [.reply 1 0] ∧ (die t d).closing = false ∧ (die t d).cells = [] ∧
          (∀ m ∈ t.recvMsgs, m.dst / 48 ≠ d) ∧ (∀ l ∈ t.locks, l.home ≠ d) ∧ ∀ n, (die t n).copies = (die s n).copies.filter fun e => !maybeHome e.1 d)) ∧
      (x.mode = .off → is .ember (replies s 1 2) ∧ is .idle (replies s 1 2) ∧ ∃ t, is .run t ∧ t.mem = s.mem ∧
        fresh_ (die t d) ∧ ∀ n, n ≠ d → die t n = die s n)) ∧
    ∀ kill : Bool, let w := exec (.warmReset d kill) s
      (x.mode = .off → w = .next (replies s 2 2)) ∧
      (x.mode ≠ .off → x.resetting = none →
        x.closing = true ∨ (∃ n < 4, n ≠ d ∧ ((die s n).resetting ≠ none ∨ (die s n).closing = true)) → w = .next (replies s 2 1)) ∧
      (x.mode ≠ .off → x.resetting = some (!kill) → w = .next (replies s 2 1)) ∧
      (x.mode ≠ .off → x.resetting = some kill → s.asked = true → w = .next (modDie s d fun y => { y with owed := y.owed + 1 })) ∧
      (x.mode ≠ .off → x.resetting = none → x.closing = false →
        (∀ n < 4, n ≠ d → (die s n).resetting = none ∧ (die s n).closing = false) → ∃ t, w = .next t ∧
        (die t d).resetting = some kill ∧
        (kill = true → risingFrom 0 s.wgs = true → ∀ k v, find s.wgs k = some v → v.die = d → v.st = .resident →
          recordHeld s v.ctx = false → find t.wgs k = none) ∧
        (kill = false → (∀ e ∈ s.rings, e.1 / 3 ≠ d) → ∀ k v, find s.wgs k = some v → v.die = d → v.st = .resident →
          find t.wgs k = some { v with leaving := true })) ∧
      (x.mode ≠ .off → x.resetting = some kill → s.asked = false → ¬ resident → (∀ e ∈ s.rings, e.1 / 3 = d → e.2.owner = none ∨ e.2.st = 7) →
        (x.inReset = false → quietDie s d = false → w = .next s) ∧
        (x.inReset = false → quietDie s d = true → ∃ t, w = .next t ∧ t.mem = s.mem ∧ t.out = s.out ∧
          (die t d).inReset = true ∧ (die t d).cells = [] ∧ ∀ m ∈ t.recvMsgs, m.dst / 48 ≠ d) ∧
        (x.inReset = true → risingFrom 0 s.cores = true → ∃ t, w = .next t ∧ t.mem = s.mem ∧ t.energy = s.energy ∧
          t.time = s.time ∧ t.out = s.out ++ List.replicate (x.owed + 1) (.reply 2 0) ∧ fresh_ (die t d) ∧
          (∀ l ∈ t.locks, l.home ≠ d) ∧
          (∀ k g, find t.groups k = some g → ∀ h ∈ g.locks, ∀ l ∈ s.locks, l.home = d → l.line ≠ h.line) ∧
          (∀ e ∈ t.rings, e.1 / 3 ≠ d) ∧ (∀ c, c / 48 = d → core t c =
            { Core.reset with recv := (core s c).recv.filter fun q => q.2.away }) ∧
          (∀ c, c / 48 ≠ d → core t c = core s c) ∧
          ∀ n, n ≠ d → die t n = { die s n with copies := (die s n).copies.filter fun e => !maybeHome e.1 d }))

/-- R217, R236, R238, R287, R288, R369, R371, R396, R400, R401, R403, R407, R408 and R410: link failures, split dies, heat, resets of
the package, firmware images, the management standards, memory errors, the host's accesses, the event queue.
Log entries 4, 7, 16, 37, 40, 41, 42 and 43 name what in it is the model's reading or choice. -/
def Obligations.PackageAndHost : Prop :=
  let alive : State → Prop := fun s => s.boot.powered = true ∧ s.boot.running = true
  let cold : State → Boot → State := fun s b => { State.reset with
    turn := s.turn
    uid := s.uid
    inbox := s.inbox
    out := s.out
    mem := s.mem.filter fun c => 2 ^ 44 ≤ c.1
    poison := s.poison.filter fun p => 2 ^ 44 ≤ p
    boot := b }
  let up : State → Nat → Prop := fun s n => s.links[n]? = some true
  let near : State → Nat → Nat → Prop := fun s a b => a < 4 ∧ b < 4 ∧
    ((b = (a + 1) % 4 ∧ up s (8 + a)) ∨ (a = (b + 1) % 4 ∧ up s (8 + b)))
  let joined : State → Nat → Prop := fun s d => ∃ e < 4, (up s (2 * e) ∨ up s (2 * e + 1)) ∧
    Relation.ReflTransGen (fun a b => near s a b ∧ dieUp s a = true) e d
  let poisoned_ : State → Nat → State := fun s a => { s with poison := insertNat s.poison (a / 64 * 64) }
  (∀ s n, exec (.linkDown n) s = .next { s with links := s.links.set n false }) ∧
  (∀ s n pa, up s n → pa < 0x80_0000_0000 → (∀ h ∈ s.held, h.line ≠ pa / 128 * 128) → ∃ t,
    exec (.linkFlitCrcFail n pa) s = .next t ∧ t.mem = s.mem ∧ t.poison = insertNat s.poison (pa / 64 * 64) ∧
    t.links = s.links ∧ ∀ d, ∀ e ∈ (die t d).copies, e.1 ≠ pa / 128 * 128) ∧
  (∀ s d, alive s → d < 4 → d < s.dies.length → (die s d).inReset = false →
    (joined s d → exec (.dieSplit d) s = .next s) ∧
    (¬ joined s d → risingFrom 0 s.wgs = true → ∃ t, exec (.dieSplit d) s = .next t ∧ (die t d).inReset = true ∧
      (∀ k v, find s.wgs k = some v → v.die = d → v.st = .resident → find t.wgs k = none) ∧
      (∀ p ∈ t.posted, p.die ≠ d ∧ p.home ≠ d) ∧ (∀ l ∈ t.locks, l.home ≠ d) ∧ (s.held = [] → t.mem = s.mem) ∧
      (∀ m ∈ t.recvMsgs, m.die ≠ d ∧ m.dst / 48 ≠ d) ∧ (∀ m ∈ t.portLines, m.die ≠ d) ∧
      t.out = s.out ++ ((if (die s d).closing = true then [.reply 1 1] else []) ++ [.answer 3 (8 + d) 0]) ∧
      (die t d).closing = false ∧ ∀ q ∈ t.toks, q.die ≠ d)) ∧
  (∀ s d, alive s → let x := die s d
    (x.mode ≠ .off → ∃ t, exec (.thermalThrottle d) s = .next t ∧ t = { s with dies := t.dies } ∧ (d < s.dies.length →
      (x.mode = .run → die t d = { x with mode := .ember, hot := true }) ∧
      (x.mode ≠ .run → die t d = { x with hot := true }))) ∧
    (x.mode = .off → exec (.thermalThrottle d) s = .next s) ∧ (x.hot = false → exec (.thermalRecover d) s = .next s) ∧
    (x.hot = true → x.mode = .ember → x.request = .run →
      ∃ t, exec (.thermalRecover d) s = .next t ∧ (d < s.dies.length → die t d = { x with hot := false, mode := .run })) ∧
    (x.hot = true → x.mode ≠ .ember ∨ x.request ≠ .run →
      ∃ t, exec (.thermalRecover d) s = .next t ∧ t = { s with dies := t.dies } ∧
        (d < s.dies.length → die t d = { x with hot := false }))) ∧
  (∀ s, let f := s.boot.flash
    let pass : Nat → Prop := fun d => Config.selfTest d s.uid = true
    let block : FwImage → CxlRegs := fun i => ⟨0x80_0000_0000, i.version⟩
    let portOf : Nat → Nat → Prop := fun d n => n = 2 * d ∨ n = 2 * d + 1 ∨ n = 8 + d ∨ n = 8 + (d + 3) % 4
    (s.boot.powered = true → exec .thermalTrip s = .next { (cold s ⟨false, false, false, f, Boot.reset.image, false, false, false,
        none, Boot.reset.passed, none⟩) with
      dies := List.replicate 4 { Die.reset with mode := .off, request := .off } }) ∧
    (∃ r w m t, exec .packageColdReset s = .next t ∧
      t = { (cold s ⟨true, r, w, f, f, false, false, false, m, (List.range 5).map fun d => Config.selfTest d s.uid,
          if r = true then some (block f) else none⟩) with
        uid := s.uid + 1
        links := t.links
        out := s.out ++ (if r = true then [.regs (block f) Config.hopTable] else [])
        dies := (List.range 4).map fun d =>
          if Config.selfTest d s.uid = true then Die.reset
          else { Die.reset with mode := .off, request := .off, inReset := true } } ∧
      (∀ n < 12, t.links[n]? = some true ↔ ∀ d < 4, portOf d n → pass d) ∧
      (r = true ↔ pass 4 ∧ f.authentic = true ∧ Config.bootFromHost = false) ∧
      (w = true ↔ pass 4 ∧ (f.authentic = false ∨ Config.bootFromHost = true)) ∧
      (pass 4 → m = some 0) ∧ (¬ pass 4 → (∀ d < 4, pass d → (∀ e < d, ¬ pass e) → m = some (8 + d)) ∧
        ((∀ d < 4, ¬ pass d) → m = none))) ∧
    (∀ i : FwImage, s.boot.powered = true → s.boot.recovery = true →
      (i.authentic = true → exec (.recoveryMailboxLoad i) s = .next { s with
        boot := { s.boot with running := true, recovery := false, image := i, regs := some (block i) }
        out := s.out ++ [.regs (block i) Config.hopTable] }) ∧
      (i.authentic = false → exec (.recoveryMailboxLoad i) s = .next s)) ∧
    (∀ i : FwImage, alive s → exec (.pldmFirmwareUpdate i) s = .next { s with boot := { s.boot with flash := i } }) ∧
    (s.boot.running = false → ∀ m, s.boot.master = some m → m ≠ 0 → s.boot.powered = true → ∀ p0 p1 p2 p3 p4 : Bool,
      s.boot.passed = [p0, p1, p2, p3, p4] →
      let say : State := { s with out := s.out ++
        [.answer 2 m (p0.toNat + 2 * p1.toNat + 4 * p2.toNat + 8 * p3.toNat + 16 * p4.toNat)] }
      exec .getVersion s = .next say ∧ exec .getDigests s = .next say ∧ ∀ n, exec (.pldmMonitoring n) s = .next say) ∧
    (¬ alive s → (s.boot.powered = false ∨ s.boot.master = none ∨ s.boot.master = some 0) →
      exec .getVersion s = .next s ∧ ∀ n, exec (.pldmMonitoring n) s = .next s)) ∧
  (∀ s, alive s →
    let says_ : State → Nat → Nat → Nat → State := fun t k i v => { t with out := t.out ++ [.answer k i v] }
    let spdm_ : Boot → Nat → State := fun b i => { s with
      boot := b
      uid := s.uid + 1
      out := s.out ++ [.answer 0 i (Config.answer i s.uid)] }
    let bad : State := says_ s 0 0x7F 0
    exec .getVersion s = .next (spdm_ { s.boot with spdmVersion := true, spdmCaps := false, spdmAlgs := false } 0x84) ∧
    (s.boot.spdmVersion = true →
      exec .getCapabilities s = .next (spdm_ { s.boot with spdmCaps := true, spdmAlgs := false } 0xE1)) ∧
    (s.boot.spdmVersion = false → exec .getCapabilities s = .next bad) ∧
    (s.boot.spdmCaps = true →
      exec (.negotiateAlgorithms true true) s = .next (spdm_ { s.boot with spdmAlgs := true } 0xE3)) ∧
    (∀ p q, s.boot.spdmCaps = false ∨ p = false ∨ q = false → exec (.negotiateAlgorithms p q) s = .next bad) ∧
    (s.boot.spdmAlgs = true → exec .getDigests s = .next (spdm_ s.boot 0x81) ∧
      (∀ a b c, exec (.getCertificate a b c) s = .next (spdm_ s.boot 0x82)) ∧
      (∀ a, exec (.challenge a) s = .next (spdm_ s.boot 0x83)) ∧
      ∀ a, exec (.getMeasurements a) s = .next (spdm_ s.boot 0xE0)) ∧
    (s.boot.spdmAlgs = false → exec .getDigests s = .next bad ∧ (∀ a b c, exec (.getCertificate a b c) s = .next bad) ∧
      (∀ a, exec (.challenge a) s = .next bad) ∧ ∀ a, exec (.getMeasurements a) s = .next bad) ∧
    ∀ n, let e : Nat → Word := fun r => get s.energy (16 * (n / 16) + r) 0
      (n < 80 → n % 16 < 4 → exec (.pldmMonitoring n) s = .next (says_ s 1 n (e (n % 16)).toNat)) ∧
      (n < 80 → n % 16 = 15 → exec (.pldmMonitoring n) s = .next (says_ s 1 n (e 0 + e 1 + e 2 + e 3).toNat)) ∧
      (80 ≤ n ∨ (4 ≤ n % 16 ∧ n % 16 ≠ 15) →
        exec (.pldmMonitoring n) s = .next (says_ { s with uid := s.uid + 1 } 1 n (Config.answer n s.uid)))) ∧
  (∀ s,
    (∀ pa, pa < 0x80_0000_0000 →
      ((∀ h ∈ s.held, h.line ≠ pa / 128 * 128) → exec (.uncorrectableError (.sector pa)) s = .next (poisoned_ s pa)) ∧
      ((∃ h ∈ s.held, h.line = pa / 128 * 128) →
        exec (.uncorrectableError (.sector pa)) s = .next { s with asked := false }) ∧
      exec (.correctableError (.sector pa)) s = .next (modDie s (pa / 2 ^ 37) fun y =>
        { y with counters := y.counters.modify 2 (satAdd32 · 1) })) ∧
    (∀ d, exec (.correctableError (.die d)) s = .next (modDie s d fun y =>
        { y with counters := y.counters.modify 2 (satAdd32 · 1) })) ∧
    (∀ c, exec (.correctableError (.core c)) s = .next (modCore s c fun y => { y with corr := satAdd32 y.corr 1 })) ∧
    (∀ c pa l, pa < 2 ^ 51 → find (core s c).l1 (pa / 128 * 128) = some l → (core s c).l1.length ≠ 0 → ∃ t,
      exec (.uncorrectableError (.l1 c pa)) s = .next t ∧ t.mem = s.mem ∧ ∃ l',
      find (core t c).l1 (pa / 128 * 128) = some l' ∧ l'.poison.getLsbD (pa / 64 % 2) = true ∧ l'.poison.getLsbD (1 - pa / 64 % 2) = l.poison.getLsbD (1 - pa / 64 % 2)) ∧
    (∀ wk off w, find s.wgs wk = some w → ∃ t w', exec (.uncorrectableError (.scratch wk off)) s = .next t ∧
      find t.wgs wk = some w' ∧ w' = { w with scratchBad := w'.scratchBad } ∧
      ∀ a, a ∈ w'.scratchBad ↔ a ∈ w.scratchBad ∨ a = off / 4 * 4) ∧
    ∀ pa, pa < 2 ^ 51 → let line := pa / 128 * 128
      let hit : BitVec 2 → BitVec 2 := fun p => p ||| ((1 : BitVec 2) <<< (pa % 128 / 64))
      (∀ d < s.dies.length,
        (∀ v, find (die s d).copies line = some v → ∃ t, exec (.uncorrectableError (.copy d pa)) s = .next t ∧
          t = { s with dies := t.dies } ∧ find (die t d).copies line = some (v.1, hit v.2)) ∧
        (∀ v, find (die s d).decoded line = some v → ∃ t, exec (.uncorrectableError (.decoded d pa)) s = .next t ∧
          t = { s with dies := t.dies } ∧ find (die t d).decoded line = some (v.1, hit v.2))) ∧
      (∀ p, find s.pkgCache line = some p → ∃ t, exec (.uncorrectableError (.pkg pa)) s = .next t ∧
        t = { s with pkgCache := t.pkgCache } ∧ find t.pkgCache line = some (hit p)) ∧
      exec (.correctableError (.pkg pa)) s = .next s ∧ ∀ d,
        exec (.correctableError (.copy d pa)) s = exec (.correctableError (.die d)) s ∧
        exec (.correctableError (.decoded d pa)) s = exec (.correctableError (.die d)) s) ∧
  (∀ s pa (bs : List Byte), alive s → pa + bs.length ≤ 0x80_0000_0000 → Memory.wf s.mem = true →
    (∀ d < 4, (die s d).mode ≠ .off ∧ (die s d).inReset = false) → s.held = [] →
    (∃ t, exec (.hostMemWrite pa bs) s = .next t ∧
      (∀ n (b : Byte), bs[n]? = some b → readByte t.mem (pa + n) = b) ∧
      (∀ a, a < pa ∨ pa + bs.length ≤ a → readByte t.mem a = readByte s.mem a) ∧
      (∀ k, k % 64 = 0 → pa ≤ k → k + 64 ≤ pa + bs.length → k ∉ t.poison) ∧
      (∀ c, ∀ e ∈ (core s c).l1, (∀ q ∈ s.sources, q.1 ≠ e.1) → e ∈ (core t c).l1) ∧
      ∀ n, n < bs.length → ∀ d, ∀ e ∈ (die t d).copies, e.1 ≠ (pa + n) / 128 * 128) ∧
    ∀ n, pa + n ≤ 0x80_0000_0000 → (∀ e ∈ s.pkgCache, e.2 = 0) → ∃ t, exec (.hostMemRead pa n) s = .next t ∧
      t = { s with uid := t.uid, dies := t.dies, pkgCache := t.pkgCache, out := t.out } ∧
      t.out = s.out ++ [.hostRead pa ((List.range n).map fun k => readByte s.mem (pa + k))
        ((List.range n).any fun k => s.poison.contains ((pa + k) / 64 * 64))]) ∧
  (∀ s pa n (bs : List Byte), alive s → n < bs.length → pa + bs.length ≤ 0x80_0000_0000 →
    let home := (pa + n) / 2 ^ 37
    ((die s home).mode = .off ∨ (die s home).inReset = true →
      exec (.hostMemWrite pa bs) s = .next { s with out := s.out ++ [.hostError pa true] } ∧
      exec (.hostMemRead pa bs.length) s = .next { s with out := s.out ++ [.hostError pa false] }) ∧
    ((∀ d < 4, (die s d).mode ≠ .off ∧ (die s d).inReset = false) → (∃ h ∈ s.held, h.line = (pa + n) / 128 * 128) →
      exec (.hostMemWrite pa bs) s = .next { s with asked := false })) ∧
  (∀ s line inval, alive s → line % 128 = 0 → 2 ^ 44 ≤ line → line < 2 ^ 51 → s.held = [] → ∃ t,
    exec (.cxlCacheHostSnoop line inval) s = .next t ∧ t.mem = s.mem ∧ t.cores = s.cores ∧
    (∃ p, t.out = s.out ++ [.hostRead line ((List.range 128).map fun k => readByte s.mem (line + k)) p]) ∧
    (inval = false → t = { s with out := t.out }) ∧
    (inval = true → (risingFrom 0 s.pkgCache = true → find t.pkgCache line = none) ∧ ∀ d < 4, d < s.dies.length →
      ((∀ r ∈ s.reqs, r.die = d → r.line = line → r.reply = none) → ∀ e ∈ (die t d).copies, e.1 ≠ line) ∧
      ((∃ r ∈ s.reqs, r.die = d ∧ r.line = line ∧ r.reply ≠ none) → die t d = die s d ∧
        ∃ p ∈ t.probes, p.die = d ∧ p.line = line))) ∧
  (∀ s d, let x := die s d
    (x.holding = [] → exec (.eventRecordOffer d) s = .next s) ∧
    ∀ r more, x.holding = r :: more → let n := if r.type = 5 then min (r.ncyc - 1) more.length else 0
      (s.time.toNat < x.offered + 1000 → exec (.eventRecordOffer d) s = .next s) ∧
      (x.offered + 1000 ≤ s.time.toNat →
        (4096 ≤ s.events.length + n →
          exec (.eventRecordOffer d) s = .next (modDie s d fun y => { y with offered := s.time.toNat })) ∧
        (s.events.length + n < 4096 → d < s.dies.length → ∃ t, exec (.eventRecordOffer d) s = .next t ∧
          t = { s with dies := t.dies, events := t.events } ∧
          die t d = { x with holding := more.drop n, lostCount := 0, offered := s.time.toNat } ∧
          t.events = s.events ++ { r with lost := x.lostCount, sent := s.uid } ::
            (more.take n).map fun q => { q with lost := 0, sent := s.uid }))) ∧
  (∀ r : Record, r.bytes.length = 32 ∧ ∀ q ∈ [(0x00, 1, r.type), (0x01, 1, r.code), (0x02, 1, r.die), (0x03, 1, r.slot),
      (0x04, 2, r.ctx), (0x06, 2, r.lost), (0x08, 8, r.addr.toNat), (0x10, 8, r.mask.toNat), (0x18, 1, r.core),
      (0x19, 1, r.strand), (0x1A, 2, r.tag), (0x1C, 1, r.seq), (0x1D, 1, r.ncyc), (0x1E, 2, 0)],
    leNat ((r.bytes.drop q.1).take q.2.1) = q.2.2 % 2 ^ (8 * q.2.1)) ∧
  ∀ s n, alive s → ∃ t, exec (.eventQueueTake n) s = .next t ∧ t.mem = s.mem ∧
    t.out = s.out ++ [.records ((s.events.take n).map Record.bytes)] ∧
    t.events ++ t.dispRecs = s.events.drop n ++ s.dispRecs ∧ (t.dispRecs ≠ [] → 4096 ≤ t.events.length) ∧
    let left_ : Nat → Option Untaken → Option Untaken → Prop := fun d u v => (v = none ∨ v = u) ∧
      (∀ m, u = some (.held m) → (v = none ↔ ∃ r ∈ s.events.take n, r.uid = m)) ∧
      ∀ m, u = some (.dropped m) → (v = none ↔ ∃ r ∈ s.events.take n, r.die = 8 + d ∧ r.lost ≠ 0 ∧ m < r.sent)
    ∀ k v, find s.strands k = some v → ∃ v', find t.strands k = some v' ∧ v' = { v with record := v'.record, due := v'.due } ∧
      left_ (k / 256 / 48) v.record v'.record ∧ (v.due = none → v'.due = none) ∧
      ∀ f u, v.due = some (f, u) → ∃ u', v'.due = some (f, u') ∧ left_ (k / 256 / 48) u u'

/-! ## What an instruction's turn leaves unchanged -/

/-- R42, R131, R132, R151: an instruction's turn always ends in a next state, and before the commit no register, no byte of
memory and no unit changes. Most instructions change their own block alone; the others may also fill translations and
lines, sample the time base, ask for lines, atomics or locks, arrive at a collective, reserve what their commit will take, or count.
Log entry 11 names what in it is the model's reading or choice. -/
def Obligations.InstructionFrames : Prop :=
  ∀ i s x, Instr.spec i ≠ none → site? s = some x → ∃ t, exec i s = .next t ∧
    ((match i with
      | .ld _ | .ldc _ | .lds _ | .st _ | .pref _ _ | .aadd _ | .afadd _ | .amin _ | .amax _ | .aand _ | .aor _ | .axor _
      | .axchg _ | .acas _ | .fence _ _ | .flsig _ _ | .win _ | .invl _ _ | .wbl _ | .llock _ | .ltry _ | .lunlk _
      | .shfl _ _ | .vote _ _ | .redux _ _ | .elect _ _ | .xshfl _ | .oclaim _ | .ofill _ | .accfl _ _ | .cpyc _ | .gthc _
      | .colc _ | .lnch _ | .signl _ | .dqpop _ | .dqsteal _ | .xmatchRule _ | .xinj _ | .xeject _ | .ipatch _ | .irun _
      | .rtcfg _ | .evcfg _ | .cntrd _ => True
      | _ => OnlyBlock x s t) ∧
    t = { s with
      strands := t.strands
      groups := t.groups
      cores := t.cores
      ptlb := t.ptlb
      reqs := t.reqs
      atoms := t.atoms
      lockMsgs := t.lockMsgs
      colls := t.colls
      dies := t.dies
      pkgCache := t.pkgCache
      sources := t.sources
      uid := t.uid } ∧
    (∀ (d : Nat) (y : Die), s.dies[d]? = some y → ∃ z : Die, t.dies[d]? = some z ∧ z =
      { y with
        copies := z.copies
        decoded := z.decoded
        resident := z.resident
        heat := z.heat
        counters := z.counters
        counted := z.counted
        sample := z.sample }) ∧
    (∀ k g, find s.groups k = some g → ∃ g', find t.groups k = some g' ∧ g' = { g with replay := g'.replay }) ∧
    (∀ k v, find s.strands k = some v → ∃ v', find t.strands k = some v' ∧
      v' = { v with blocks := v'.blocks, l1min := v'.l1min } ∧ (k ≠ x.key → v' = v) ∧ v'.blocks.length = v.blocks.length ∧
      ∀ (n : Nat) (b : Blk), v.blocks[n]? = some b → ∃ b' : Blk, v'.blocks[n]? = some b' ∧
        (b.uid ≠ x.b.uid → b' = { b with l1min := b'.l1min }) ∧ b' =
        { b with
          slots := b'.slots
          fired := b'.fired
          resolved := b'.resolved
          waits := b'.waits
          choices := b'.choices
          removed := b'.removed
          raised := b'.raised
          raisedAt := b'.raisedAt
          effects := b'.effects
          stores := b'.stores
          results := b'.results
          pages := b'.pages
          l1min := b'.l1min }) ∧
    (risingFrom 0 s.cores = true → ∀ c, let y := core s c
      let z := core t c
      z = { y with
        l1 := z.l1
        tlb := z.tlb
        res := z.res
        deque := z.deque
        field := z.field
        xbar := z.xbar
        perf := z.perf
        counted := z.counted } ∧
      z.res.map Res.st = y.res.map Res.st ∧ z.deque.owner = y.deque.owner ∧
      z.deque.entries.map Item.val = y.deque.entries.map Item.val ∧
      z.field = { y.field with resv := z.field.resv, shadowResv := z.field.shadowResv } ∧
      z.xbar = { y.xbar with resv := z.xbar.resv } ∧ (c ≠ x.core → z = { y with deque := z.deque })))
end

