-- ==== Sys2Proof/Laws/State.lean ====
section
/-! SUPPORT. One lemma per field per update of the state: what an update leaves, and the update itself for the field it
changes. Every one is true by unfolding the update once. -/

namespace Sys2Proof.Machine

variable (s : State)

/-! ## setCore s c v -/

@[simp] theorem setCore_pick (c : Nat) (v : Core) : (setCore s c v).pick = s.pick := rfl
@[simp] theorem setCore_turn (c : Nat) (v : Core) : (setCore s c v).turn = s.turn := rfl
@[simp] theorem setCore_focus (c : Nat) (v : Core) : (setCore s c v).focus = s.focus := rfl
@[simp] theorem setCore_uid (c : Nat) (v : Core) : (setCore s c v).uid = s.uid := rfl
@[simp] theorem setCore_inbox (c : Nat) (v : Core) : (setCore s c v).inbox = s.inbox := rfl
@[simp] theorem setCore_asked (c : Nat) (v : Core) : (setCore s c v).asked = s.asked := rfl
@[simp] theorem setCore_out (c : Nat) (v : Core) : (setCore s c v).out = s.out := rfl
@[simp] theorem setCore_time (c : Nat) (v : Core) : (setCore s c v).time = s.time := rfl
@[simp] theorem setCore_mem (c : Nat) (v : Core) : (setCore s c v).mem = s.mem := rfl
@[simp] theorem setCore_poison (c : Nat) (v : Core) : (setCore s c v).poison = s.poison := rfl
@[simp] theorem setCore_cores (c : Nat) (v : Core) : (setCore s c v).cores = store s.cores c v Core.reset := rfl
@[simp] theorem setCore_dies (c : Nat) (v : Core) : (setCore s c v).dies = s.dies := rfl
@[simp] theorem setCore_strands (c : Nat) (v : Core) : (setCore s c v).strands = s.strands := rfl
@[simp] theorem setCore_groups (c : Nat) (v : Core) : (setCore s c v).groups = s.groups := rfl
@[simp] theorem setCore_wgs (c : Nat) (v : Core) : (setCore s c v).wgs = s.wgs := rfl
@[simp] theorem setCore_launches (c : Nat) (v : Core) : (setCore s c v).launches = s.launches := rfl
@[simp] theorem setCore_queues (c : Nat) (v : Core) : (setCore s c v).queues = s.queues := rfl
@[simp] theorem setCore_hearthCells (c : Nat) (v : Core) : (setCore s c v).hearthCells = s.hearthCells := rfl
@[simp] theorem setCore_rings (c : Nat) (v : Core) : (setCore s c v).rings = s.rings := rfl
@[simp] theorem setCore_roots (c : Nat) (v : Core) : (setCore s c v).roots = s.roots := rfl
@[simp] theorem setCore_ptlb (c : Nat) (v : Core) : (setCore s c v).ptlb = s.ptlb := rfl
@[simp] theorem setCore_pkgCache (c : Nat) (v : Core) : (setCore s c v).pkgCache = s.pkgCache := rfl
@[simp] theorem setCore_sources (c : Nat) (v : Core) : (setCore s c v).sources = s.sources := rfl
@[simp] theorem setCore_posted (c : Nat) (v : Core) : (setCore s c v).posted = s.posted := rfl
@[simp] theorem setCore_reqs (c : Nat) (v : Core) : (setCore s c v).reqs = s.reqs := rfl
@[simp] theorem setCore_probes (c : Nat) (v : Core) : (setCore s c v).probes = s.probes := rfl
@[simp] theorem setCore_held (c : Nat) (v : Core) : (setCore s c v).held = s.held := rfl
@[simp] theorem setCore_atoms (c : Nat) (v : Core) : (setCore s c v).atoms = s.atoms := rfl
@[simp] theorem setCore_merges (c : Nat) (v : Core) : (setCore s c v).merges = s.merges := rfl
@[simp] theorem setCore_portLines (c : Nat) (v : Core) : (setCore s c v).portLines = s.portLines := rfl
@[simp] theorem setCore_drains (c : Nat) (v : Core) : (setCore s c v).drains = s.drains := rfl
@[simp] theorem setCore_locks (c : Nat) (v : Core) : (setCore s c v).locks = s.locks := rfl
@[simp] theorem setCore_lockMsgs (c : Nat) (v : Core) : (setCore s c v).lockMsgs = s.lockMsgs := rfl
@[simp] theorem setCore_recvMsgs (c : Nat) (v : Core) : (setCore s c v).recvMsgs = s.recvMsgs := rfl
@[simp] theorem setCore_colls (c : Nat) (v : Core) : (setCore s c v).colls = s.colls := rfl
@[simp] theorem setCore_toks (c : Nat) (v : Core) : (setCore s c v).toks = s.toks := rfl
@[simp] theorem setCore_events (c : Nat) (v : Core) : (setCore s c v).events = s.events := rfl
@[simp] theorem setCore_dispRecs (c : Nat) (v : Core) : (setCore s c v).dispRecs = s.dispRecs := rfl
@[simp] theorem setCore_energy (c : Nat) (v : Core) : (setCore s c v).energy = s.energy := rfl
@[simp] theorem setCore_damper (c : Nat) (v : Core) : (setCore s c v).damper = s.damper := rfl
@[simp] theorem setCore_mailbox (c : Nat) (v : Core) : (setCore s c v).mailbox = s.mailbox := rfl
@[simp] theorem setCore_barrierLimit (c : Nat) (v : Core) : (setCore s c v).barrierLimit = s.barrierLimit := rfl
@[simp] theorem setCore_lockLimit (c : Nat) (v : Core) : (setCore s c v).lockLimit = s.lockLimit := rfl
@[simp] theorem setCore_holdLimit (c : Nat) (v : Core) : (setCore s c v).holdLimit = s.holdLimit := rfl
@[simp] theorem setCore_xshflLimit (c : Nat) (v : Core) : (setCore s c v).xshflLimit = s.xshflLimit := rfl
@[simp] theorem setCore_watchdogLimit (c : Nat) (v : Core) : (setCore s c v).watchdogLimit = s.watchdogLimit := rfl
@[simp] theorem setCore_rr (c : Nat) (v : Core) : (setCore s c v).rr = s.rr := rfl
@[simp] theorem setCore_links (c : Nat) (v : Core) : (setCore s c v).links = s.links := rfl
@[simp] theorem setCore_boot (c : Nat) (v : Core) : (setCore s c v).boot = s.boot := rfl

/-! ## modCore s c f -/

@[simp] theorem modCore_pick (c : Nat) (f : Core → Core) : (modCore s c f).pick = s.pick := rfl
@[simp] theorem modCore_turn (c : Nat) (f : Core → Core) : (modCore s c f).turn = s.turn := rfl
@[simp] theorem modCore_focus (c : Nat) (f : Core → Core) : (modCore s c f).focus = s.focus := rfl
@[simp] theorem modCore_uid (c : Nat) (f : Core → Core) : (modCore s c f).uid = s.uid := rfl
@[simp] theorem modCore_inbox (c : Nat) (f : Core → Core) : (modCore s c f).inbox = s.inbox := rfl
@[simp] theorem modCore_asked (c : Nat) (f : Core → Core) : (modCore s c f).asked = s.asked := rfl
@[simp] theorem modCore_out (c : Nat) (f : Core → Core) : (modCore s c f).out = s.out := rfl
@[simp] theorem modCore_time (c : Nat) (f : Core → Core) : (modCore s c f).time = s.time := rfl
@[simp] theorem modCore_mem (c : Nat) (f : Core → Core) : (modCore s c f).mem = s.mem := rfl
@[simp] theorem modCore_poison (c : Nat) (f : Core → Core) : (modCore s c f).poison = s.poison := rfl
@[simp] theorem modCore_cores (c : Nat) (f : Core → Core) : (modCore s c f).cores = store s.cores c (f (core s c)) Core.reset := rfl
@[simp] theorem modCore_dies (c : Nat) (f : Core → Core) : (modCore s c f).dies = s.dies := rfl
@[simp] theorem modCore_strands (c : Nat) (f : Core → Core) : (modCore s c f).strands = s.strands := rfl
@[simp] theorem modCore_groups (c : Nat) (f : Core → Core) : (modCore s c f).groups = s.groups := rfl
@[simp] theorem modCore_wgs (c : Nat) (f : Core → Core) : (modCore s c f).wgs = s.wgs := rfl
@[simp] theorem modCore_launches (c : Nat) (f : Core → Core) : (modCore s c f).launches = s.launches := rfl
@[simp] theorem modCore_queues (c : Nat) (f : Core → Core) : (modCore s c f).queues = s.queues := rfl
@[simp] theorem modCore_hearthCells (c : Nat) (f : Core → Core) : (modCore s c f).hearthCells = s.hearthCells := rfl
@[simp] theorem modCore_rings (c : Nat) (f : Core → Core) : (modCore s c f).rings = s.rings := rfl
@[simp] theorem modCore_roots (c : Nat) (f : Core → Core) : (modCore s c f).roots = s.roots := rfl
@[simp] theorem modCore_ptlb (c : Nat) (f : Core → Core) : (modCore s c f).ptlb = s.ptlb := rfl
@[simp] theorem modCore_pkgCache (c : Nat) (f : Core → Core) : (modCore s c f).pkgCache = s.pkgCache := rfl
@[simp] theorem modCore_sources (c : Nat) (f : Core → Core) : (modCore s c f).sources = s.sources := rfl
@[simp] theorem modCore_posted (c : Nat) (f : Core → Core) : (modCore s c f).posted = s.posted := rfl
@[simp] theorem modCore_reqs (c : Nat) (f : Core → Core) : (modCore s c f).reqs = s.reqs := rfl
@[simp] theorem modCore_probes (c : Nat) (f : Core → Core) : (modCore s c f).probes = s.probes := rfl
@[simp] theorem modCore_held (c : Nat) (f : Core → Core) : (modCore s c f).held = s.held := rfl
@[simp] theorem modCore_atoms (c : Nat) (f : Core → Core) : (modCore s c f).atoms = s.atoms := rfl
@[simp] theorem modCore_merges (c : Nat) (f : Core → Core) : (modCore s c f).merges = s.merges := rfl
@[simp] theorem modCore_portLines (c : Nat) (f : Core → Core) : (modCore s c f).portLines = s.portLines := rfl
@[simp] theorem modCore_drains (c : Nat) (f : Core → Core) : (modCore s c f).drains = s.drains := rfl
@[simp] theorem modCore_locks (c : Nat) (f : Core → Core) : (modCore s c f).locks = s.locks := rfl
@[simp] theorem modCore_lockMsgs (c : Nat) (f : Core → Core) : (modCore s c f).lockMsgs = s.lockMsgs := rfl
@[simp] theorem modCore_recvMsgs (c : Nat) (f : Core → Core) : (modCore s c f).recvMsgs = s.recvMsgs := rfl
@[simp] theorem modCore_colls (c : Nat) (f : Core → Core) : (modCore s c f).colls = s.colls := rfl
@[simp] theorem modCore_toks (c : Nat) (f : Core → Core) : (modCore s c f).toks = s.toks := rfl
@[simp] theorem modCore_events (c : Nat) (f : Core → Core) : (modCore s c f).events = s.events := rfl
@[simp] theorem modCore_dispRecs (c : Nat) (f : Core → Core) : (modCore s c f).dispRecs = s.dispRecs := rfl
@[simp] theorem modCore_energy (c : Nat) (f : Core → Core) : (modCore s c f).energy = s.energy := rfl
@[simp] theorem modCore_damper (c : Nat) (f : Core → Core) : (modCore s c f).damper = s.damper := rfl
@[simp] theorem modCore_mailbox (c : Nat) (f : Core → Core) : (modCore s c f).mailbox = s.mailbox := rfl
@[simp] theorem modCore_barrierLimit (c : Nat) (f : Core → Core) : (modCore s c f).barrierLimit = s.barrierLimit := rfl
@[simp] theorem modCore_lockLimit (c : Nat) (f : Core → Core) : (modCore s c f).lockLimit = s.lockLimit := rfl
@[simp] theorem modCore_holdLimit (c : Nat) (f : Core → Core) : (modCore s c f).holdLimit = s.holdLimit := rfl
@[simp] theorem modCore_xshflLimit (c : Nat) (f : Core → Core) : (modCore s c f).xshflLimit = s.xshflLimit := rfl
@[simp] theorem modCore_watchdogLimit (c : Nat) (f : Core → Core) : (modCore s c f).watchdogLimit = s.watchdogLimit := rfl
@[simp] theorem modCore_rr (c : Nat) (f : Core → Core) : (modCore s c f).rr = s.rr := rfl
@[simp] theorem modCore_links (c : Nat) (f : Core → Core) : (modCore s c f).links = s.links := rfl
@[simp] theorem modCore_boot (c : Nat) (f : Core → Core) : (modCore s c f).boot = s.boot := rfl

/-! ## modDie s d f -/

@[simp] theorem modDie_pick (d : Nat) (f : Die → Die) : (modDie s d f).pick = s.pick := rfl
@[simp] theorem modDie_turn (d : Nat) (f : Die → Die) : (modDie s d f).turn = s.turn := rfl
@[simp] theorem modDie_focus (d : Nat) (f : Die → Die) : (modDie s d f).focus = s.focus := rfl
@[simp] theorem modDie_uid (d : Nat) (f : Die → Die) : (modDie s d f).uid = s.uid := rfl
@[simp] theorem modDie_inbox (d : Nat) (f : Die → Die) : (modDie s d f).inbox = s.inbox := rfl
@[simp] theorem modDie_asked (d : Nat) (f : Die → Die) : (modDie s d f).asked = s.asked := rfl
@[simp] theorem modDie_out (d : Nat) (f : Die → Die) : (modDie s d f).out = s.out := rfl
@[simp] theorem modDie_time (d : Nat) (f : Die → Die) : (modDie s d f).time = s.time := rfl
@[simp] theorem modDie_mem (d : Nat) (f : Die → Die) : (modDie s d f).mem = s.mem := rfl
@[simp] theorem modDie_poison (d : Nat) (f : Die → Die) : (modDie s d f).poison = s.poison := rfl
@[simp] theorem modDie_cores (d : Nat) (f : Die → Die) : (modDie s d f).cores = s.cores := rfl
@[simp] theorem modDie_dies (d : Nat) (f : Die → Die) : (modDie s d f).dies = s.dies.modify d f := rfl
@[simp] theorem modDie_strands (d : Nat) (f : Die → Die) : (modDie s d f).strands = s.strands := rfl
@[simp] theorem modDie_groups (d : Nat) (f : Die → Die) : (modDie s d f).groups = s.groups := rfl
@[simp] theorem modDie_wgs (d : Nat) (f : Die → Die) : (modDie s d f).wgs = s.wgs := rfl
@[simp] theorem modDie_launches (d : Nat) (f : Die → Die) : (modDie s d f).launches = s.launches := rfl
@[simp] theorem modDie_queues (d : Nat) (f : Die → Die) : (modDie s d f).queues = s.queues := rfl
@[simp] theorem modDie_hearthCells (d : Nat) (f : Die → Die) : (modDie s d f).hearthCells = s.hearthCells := rfl
@[simp] theorem modDie_rings (d : Nat) (f : Die → Die) : (modDie s d f).rings = s.rings := rfl
@[simp] theorem modDie_roots (d : Nat) (f : Die → Die) : (modDie s d f).roots = s.roots := rfl
@[simp] theorem modDie_ptlb (d : Nat) (f : Die → Die) : (modDie s d f).ptlb = s.ptlb := rfl
@[simp] theorem modDie_pkgCache (d : Nat) (f : Die → Die) : (modDie s d f).pkgCache = s.pkgCache := rfl
@[simp] theorem modDie_sources (d : Nat) (f : Die → Die) : (modDie s d f).sources = s.sources := rfl
@[simp] theorem modDie_posted (d : Nat) (f : Die → Die) : (modDie s d f).posted = s.posted := rfl
@[simp] theorem modDie_reqs (d : Nat) (f : Die → Die) : (modDie s d f).reqs = s.reqs := rfl
@[simp] theorem modDie_probes (d : Nat) (f : Die → Die) : (modDie s d f).probes = s.probes := rfl
@[simp] theorem modDie_held (d : Nat) (f : Die → Die) : (modDie s d f).held = s.held := rfl
@[simp] theorem modDie_atoms (d : Nat) (f : Die → Die) : (modDie s d f).atoms = s.atoms := rfl
@[simp] theorem modDie_merges (d : Nat) (f : Die → Die) : (modDie s d f).merges = s.merges := rfl
@[simp] theorem modDie_portLines (d : Nat) (f : Die → Die) : (modDie s d f).portLines = s.portLines := rfl
@[simp] theorem modDie_drains (d : Nat) (f : Die → Die) : (modDie s d f).drains = s.drains := rfl
@[simp] theorem modDie_locks (d : Nat) (f : Die → Die) : (modDie s d f).locks = s.locks := rfl
@[simp] theorem modDie_lockMsgs (d : Nat) (f : Die → Die) : (modDie s d f).lockMsgs = s.lockMsgs := rfl
@[simp] theorem modDie_recvMsgs (d : Nat) (f : Die → Die) : (modDie s d f).recvMsgs = s.recvMsgs := rfl
@[simp] theorem modDie_colls (d : Nat) (f : Die → Die) : (modDie s d f).colls = s.colls := rfl
@[simp] theorem modDie_toks (d : Nat) (f : Die → Die) : (modDie s d f).toks = s.toks := rfl
@[simp] theorem modDie_events (d : Nat) (f : Die → Die) : (modDie s d f).events = s.events := rfl
@[simp] theorem modDie_dispRecs (d : Nat) (f : Die → Die) : (modDie s d f).dispRecs = s.dispRecs := rfl
@[simp] theorem modDie_energy (d : Nat) (f : Die → Die) : (modDie s d f).energy = s.energy := rfl
@[simp] theorem modDie_damper (d : Nat) (f : Die → Die) : (modDie s d f).damper = s.damper := rfl
@[simp] theorem modDie_mailbox (d : Nat) (f : Die → Die) : (modDie s d f).mailbox = s.mailbox := rfl
@[simp] theorem modDie_barrierLimit (d : Nat) (f : Die → Die) : (modDie s d f).barrierLimit = s.barrierLimit := rfl
@[simp] theorem modDie_lockLimit (d : Nat) (f : Die → Die) : (modDie s d f).lockLimit = s.lockLimit := rfl
@[simp] theorem modDie_holdLimit (d : Nat) (f : Die → Die) : (modDie s d f).holdLimit = s.holdLimit := rfl
@[simp] theorem modDie_xshflLimit (d : Nat) (f : Die → Die) : (modDie s d f).xshflLimit = s.xshflLimit := rfl
@[simp] theorem modDie_watchdogLimit (d : Nat) (f : Die → Die) : (modDie s d f).watchdogLimit = s.watchdogLimit := rfl
@[simp] theorem modDie_rr (d : Nat) (f : Die → Die) : (modDie s d f).rr = s.rr := rfl
@[simp] theorem modDie_links (d : Nat) (f : Die → Die) : (modDie s d f).links = s.links := rfl
@[simp] theorem modDie_boot (d : Nat) (f : Die → Die) : (modDie s d f).boot = s.boot := rfl

/-! ## modStrand s k f -/

@[simp] theorem modStrand_pick (k : Nat) (f : Strand → Strand) : (modStrand s k f).pick = s.pick := rfl
@[simp] theorem modStrand_turn (k : Nat) (f : Strand → Strand) : (modStrand s k f).turn = s.turn := rfl
@[simp] theorem modStrand_focus (k : Nat) (f : Strand → Strand) : (modStrand s k f).focus = s.focus := rfl
@[simp] theorem modStrand_uid (k : Nat) (f : Strand → Strand) : (modStrand s k f).uid = s.uid := rfl
@[simp] theorem modStrand_inbox (k : Nat) (f : Strand → Strand) : (modStrand s k f).inbox = s.inbox := rfl
@[simp] theorem modStrand_asked (k : Nat) (f : Strand → Strand) : (modStrand s k f).asked = s.asked := rfl
@[simp] theorem modStrand_out (k : Nat) (f : Strand → Strand) : (modStrand s k f).out = s.out := rfl
@[simp] theorem modStrand_time (k : Nat) (f : Strand → Strand) : (modStrand s k f).time = s.time := rfl
@[simp] theorem modStrand_mem (k : Nat) (f : Strand → Strand) : (modStrand s k f).mem = s.mem := rfl
@[simp] theorem modStrand_poison (k : Nat) (f : Strand → Strand) : (modStrand s k f).poison = s.poison := rfl
@[simp] theorem modStrand_cores (k : Nat) (f : Strand → Strand) : (modStrand s k f).cores = s.cores := rfl
@[simp] theorem modStrand_dies (k : Nat) (f : Strand → Strand) : (modStrand s k f).dies = s.dies := rfl
@[simp] theorem modStrand_strands (k : Nat) (f : Strand → Strand) : (modStrand s k f).strands = edit s.strands k f := rfl
@[simp] theorem modStrand_groups (k : Nat) (f : Strand → Strand) : (modStrand s k f).groups = s.groups := rfl
@[simp] theorem modStrand_wgs (k : Nat) (f : Strand → Strand) : (modStrand s k f).wgs = s.wgs := rfl
@[simp] theorem modStrand_launches (k : Nat) (f : Strand → Strand) : (modStrand s k f).launches = s.launches := rfl
@[simp] theorem modStrand_queues (k : Nat) (f : Strand → Strand) : (modStrand s k f).queues = s.queues := rfl
@[simp] theorem modStrand_hearthCells (k : Nat) (f : Strand → Strand) : (modStrand s k f).hearthCells = s.hearthCells := rfl
@[simp] theorem modStrand_rings (k : Nat) (f : Strand → Strand) : (modStrand s k f).rings = s.rings := rfl
@[simp] theorem modStrand_roots (k : Nat) (f : Strand → Strand) : (modStrand s k f).roots = s.roots := rfl
@[simp] theorem modStrand_ptlb (k : Nat) (f : Strand → Strand) : (modStrand s k f).ptlb = s.ptlb := rfl
@[simp] theorem modStrand_pkgCache (k : Nat) (f : Strand → Strand) : (modStrand s k f).pkgCache = s.pkgCache := rfl
@[simp] theorem modStrand_sources (k : Nat) (f : Strand → Strand) : (modStrand s k f).sources = s.sources := rfl
@[simp] theorem modStrand_posted (k : Nat) (f : Strand → Strand) : (modStrand s k f).posted = s.posted := rfl
@[simp] theorem modStrand_reqs (k : Nat) (f : Strand → Strand) : (modStrand s k f).reqs = s.reqs := rfl
@[simp] theorem modStrand_probes (k : Nat) (f : Strand → Strand) : (modStrand s k f).probes = s.probes := rfl
@[simp] theorem modStrand_held (k : Nat) (f : Strand → Strand) : (modStrand s k f).held = s.held := rfl
@[simp] theorem modStrand_atoms (k : Nat) (f : Strand → Strand) : (modStrand s k f).atoms = s.atoms := rfl
@[simp] theorem modStrand_merges (k : Nat) (f : Strand → Strand) : (modStrand s k f).merges = s.merges := rfl
@[simp] theorem modStrand_portLines (k : Nat) (f : Strand → Strand) : (modStrand s k f).portLines = s.portLines := rfl
@[simp] theorem modStrand_drains (k : Nat) (f : Strand → Strand) : (modStrand s k f).drains = s.drains := rfl
@[simp] theorem modStrand_locks (k : Nat) (f : Strand → Strand) : (modStrand s k f).locks = s.locks := rfl
@[simp] theorem modStrand_lockMsgs (k : Nat) (f : Strand → Strand) : (modStrand s k f).lockMsgs = s.lockMsgs := rfl
@[simp] theorem modStrand_recvMsgs (k : Nat) (f : Strand → Strand) : (modStrand s k f).recvMsgs = s.recvMsgs := rfl
@[simp] theorem modStrand_colls (k : Nat) (f : Strand → Strand) : (modStrand s k f).colls = s.colls := rfl
@[simp] theorem modStrand_toks (k : Nat) (f : Strand → Strand) : (modStrand s k f).toks = s.toks := rfl
@[simp] theorem modStrand_events (k : Nat) (f : Strand → Strand) : (modStrand s k f).events = s.events := rfl
@[simp] theorem modStrand_dispRecs (k : Nat) (f : Strand → Strand) : (modStrand s k f).dispRecs = s.dispRecs := rfl
@[simp] theorem modStrand_energy (k : Nat) (f : Strand → Strand) : (modStrand s k f).energy = s.energy := rfl
@[simp] theorem modStrand_damper (k : Nat) (f : Strand → Strand) : (modStrand s k f).damper = s.damper := rfl
@[simp] theorem modStrand_mailbox (k : Nat) (f : Strand → Strand) : (modStrand s k f).mailbox = s.mailbox := rfl
@[simp] theorem modStrand_barrierLimit (k : Nat) (f : Strand → Strand) : (modStrand s k f).barrierLimit = s.barrierLimit := rfl
@[simp] theorem modStrand_lockLimit (k : Nat) (f : Strand → Strand) : (modStrand s k f).lockLimit = s.lockLimit := rfl
@[simp] theorem modStrand_holdLimit (k : Nat) (f : Strand → Strand) : (modStrand s k f).holdLimit = s.holdLimit := rfl
@[simp] theorem modStrand_xshflLimit (k : Nat) (f : Strand → Strand) : (modStrand s k f).xshflLimit = s.xshflLimit := rfl
@[simp] theorem modStrand_watchdogLimit (k : Nat) (f : Strand → Strand) : (modStrand s k f).watchdogLimit = s.watchdogLimit := rfl
@[simp] theorem modStrand_rr (k : Nat) (f : Strand → Strand) : (modStrand s k f).rr = s.rr := rfl
@[simp] theorem modStrand_links (k : Nat) (f : Strand → Strand) : (modStrand s k f).links = s.links := rfl
@[simp] theorem modStrand_boot (k : Nat) (f : Strand → Strand) : (modStrand s k f).boot = s.boot := rfl

/-! ## modGroup s g f -/

@[simp] theorem modGroup_pick (g : Nat) (f : Group → Group) : (modGroup s g f).pick = s.pick := rfl
@[simp] theorem modGroup_turn (g : Nat) (f : Group → Group) : (modGroup s g f).turn = s.turn := rfl
@[simp] theorem modGroup_focus (g : Nat) (f : Group → Group) : (modGroup s g f).focus = s.focus := rfl
@[simp] theorem modGroup_uid (g : Nat) (f : Group → Group) : (modGroup s g f).uid = s.uid := rfl
@[simp] theorem modGroup_inbox (g : Nat) (f : Group → Group) : (modGroup s g f).inbox = s.inbox := rfl
@[simp] theorem modGroup_asked (g : Nat) (f : Group → Group) : (modGroup s g f).asked = s.asked := rfl
@[simp] theorem modGroup_out (g : Nat) (f : Group → Group) : (modGroup s g f).out = s.out := rfl
@[simp] theorem modGroup_time (g : Nat) (f : Group → Group) : (modGroup s g f).time = s.time := rfl
@[simp] theorem modGroup_mem (g : Nat) (f : Group → Group) : (modGroup s g f).mem = s.mem := rfl
@[simp] theorem modGroup_poison (g : Nat) (f : Group → Group) : (modGroup s g f).poison = s.poison := rfl
@[simp] theorem modGroup_cores (g : Nat) (f : Group → Group) : (modGroup s g f).cores = s.cores := rfl
@[simp] theorem modGroup_dies (g : Nat) (f : Group → Group) : (modGroup s g f).dies = s.dies := rfl
@[simp] theorem modGroup_strands (g : Nat) (f : Group → Group) : (modGroup s g f).strands = s.strands := rfl
@[simp] theorem modGroup_groups (g : Nat) (f : Group → Group) : (modGroup s g f).groups = edit s.groups g f := rfl
@[simp] theorem modGroup_wgs (g : Nat) (f : Group → Group) : (modGroup s g f).wgs = s.wgs := rfl
@[simp] theorem modGroup_launches (g : Nat) (f : Group → Group) : (modGroup s g f).launches = s.launches := rfl
@[simp] theorem modGroup_queues (g : Nat) (f : Group → Group) : (modGroup s g f).queues = s.queues := rfl
@[simp] theorem modGroup_hearthCells (g : Nat) (f : Group → Group) : (modGroup s g f).hearthCells = s.hearthCells := rfl
@[simp] theorem modGroup_rings (g : Nat) (f : Group → Group) : (modGroup s g f).rings = s.rings := rfl
@[simp] theorem modGroup_roots (g : Nat) (f : Group → Group) : (modGroup s g f).roots = s.roots := rfl
@[simp] theorem modGroup_ptlb (g : Nat) (f : Group → Group) : (modGroup s g f).ptlb = s.ptlb := rfl
@[simp] theorem modGroup_pkgCache (g : Nat) (f : Group → Group) : (modGroup s g f).pkgCache = s.pkgCache := rfl
@[simp] theorem modGroup_sources (g : Nat) (f : Group → Group) : (modGroup s g f).sources = s.sources := rfl
@[simp] theorem modGroup_posted (g : Nat) (f : Group → Group) : (modGroup s g f).posted = s.posted := rfl
@[simp] theorem modGroup_reqs (g : Nat) (f : Group → Group) : (modGroup s g f).reqs = s.reqs := rfl
@[simp] theorem modGroup_probes (g : Nat) (f : Group → Group) : (modGroup s g f).probes = s.probes := rfl
@[simp] theorem modGroup_held (g : Nat) (f : Group → Group) : (modGroup s g f).held = s.held := rfl
@[simp] theorem modGroup_atoms (g : Nat) (f : Group → Group) : (modGroup s g f).atoms = s.atoms := rfl
@[simp] theorem modGroup_merges (g : Nat) (f : Group → Group) : (modGroup s g f).merges = s.merges := rfl
@[simp] theorem modGroup_portLines (g : Nat) (f : Group → Group) : (modGroup s g f).portLines = s.portLines := rfl
@[simp] theorem modGroup_drains (g : Nat) (f : Group → Group) : (modGroup s g f).drains = s.drains := rfl
@[simp] theorem modGroup_locks (g : Nat) (f : Group → Group) : (modGroup s g f).locks = s.locks := rfl
@[simp] theorem modGroup_lockMsgs (g : Nat) (f : Group → Group) : (modGroup s g f).lockMsgs = s.lockMsgs := rfl
@[simp] theorem modGroup_recvMsgs (g : Nat) (f : Group → Group) : (modGroup s g f).recvMsgs = s.recvMsgs := rfl
@[simp] theorem modGroup_colls (g : Nat) (f : Group → Group) : (modGroup s g f).colls = s.colls := rfl
@[simp] theorem modGroup_toks (g : Nat) (f : Group → Group) : (modGroup s g f).toks = s.toks := rfl
@[simp] theorem modGroup_events (g : Nat) (f : Group → Group) : (modGroup s g f).events = s.events := rfl
@[simp] theorem modGroup_dispRecs (g : Nat) (f : Group → Group) : (modGroup s g f).dispRecs = s.dispRecs := rfl
@[simp] theorem modGroup_energy (g : Nat) (f : Group → Group) : (modGroup s g f).energy = s.energy := rfl
@[simp] theorem modGroup_damper (g : Nat) (f : Group → Group) : (modGroup s g f).damper = s.damper := rfl
@[simp] theorem modGroup_mailbox (g : Nat) (f : Group → Group) : (modGroup s g f).mailbox = s.mailbox := rfl
@[simp] theorem modGroup_barrierLimit (g : Nat) (f : Group → Group) : (modGroup s g f).barrierLimit = s.barrierLimit := rfl
@[simp] theorem modGroup_lockLimit (g : Nat) (f : Group → Group) : (modGroup s g f).lockLimit = s.lockLimit := rfl
@[simp] theorem modGroup_holdLimit (g : Nat) (f : Group → Group) : (modGroup s g f).holdLimit = s.holdLimit := rfl
@[simp] theorem modGroup_xshflLimit (g : Nat) (f : Group → Group) : (modGroup s g f).xshflLimit = s.xshflLimit := rfl
@[simp] theorem modGroup_watchdogLimit (g : Nat) (f : Group → Group) : (modGroup s g f).watchdogLimit = s.watchdogLimit := rfl
@[simp] theorem modGroup_rr (g : Nat) (f : Group → Group) : (modGroup s g f).rr = s.rr := rfl
@[simp] theorem modGroup_links (g : Nat) (f : Group → Group) : (modGroup s g f).links = s.links := rfl
@[simp] theorem modGroup_boot (g : Nat) (f : Group → Group) : (modGroup s g f).boot = s.boot := rfl

/-! ## modWg s w f -/

@[simp] theorem modWg_pick (w : Nat) (f : Wg → Wg) : (modWg s w f).pick = s.pick := rfl
@[simp] theorem modWg_turn (w : Nat) (f : Wg → Wg) : (modWg s w f).turn = s.turn := rfl
@[simp] theorem modWg_focus (w : Nat) (f : Wg → Wg) : (modWg s w f).focus = s.focus := rfl
@[simp] theorem modWg_uid (w : Nat) (f : Wg → Wg) : (modWg s w f).uid = s.uid := rfl
@[simp] theorem modWg_inbox (w : Nat) (f : Wg → Wg) : (modWg s w f).inbox = s.inbox := rfl
@[simp] theorem modWg_asked (w : Nat) (f : Wg → Wg) : (modWg s w f).asked = s.asked := rfl
@[simp] theorem modWg_out (w : Nat) (f : Wg → Wg) : (modWg s w f).out = s.out := rfl
@[simp] theorem modWg_time (w : Nat) (f : Wg → Wg) : (modWg s w f).time = s.time := rfl
@[simp] theorem modWg_mem (w : Nat) (f : Wg → Wg) : (modWg s w f).mem = s.mem := rfl
@[simp] theorem modWg_poison (w : Nat) (f : Wg → Wg) : (modWg s w f).poison = s.poison := rfl
@[simp] theorem modWg_cores (w : Nat) (f : Wg → Wg) : (modWg s w f).cores = s.cores := rfl
@[simp] theorem modWg_dies (w : Nat) (f : Wg → Wg) : (modWg s w f).dies = s.dies := rfl
@[simp] theorem modWg_strands (w : Nat) (f : Wg → Wg) : (modWg s w f).strands = s.strands := rfl
@[simp] theorem modWg_groups (w : Nat) (f : Wg → Wg) : (modWg s w f).groups = s.groups := rfl
@[simp] theorem modWg_wgs (w : Nat) (f : Wg → Wg) : (modWg s w f).wgs = edit s.wgs w f := rfl
@[simp] theorem modWg_launches (w : Nat) (f : Wg → Wg) : (modWg s w f).launches = s.launches := rfl
@[simp] theorem modWg_queues (w : Nat) (f : Wg → Wg) : (modWg s w f).queues = s.queues := rfl
@[simp] theorem modWg_hearthCells (w : Nat) (f : Wg → Wg) : (modWg s w f).hearthCells = s.hearthCells := rfl
@[simp] theorem modWg_rings (w : Nat) (f : Wg → Wg) : (modWg s w f).rings = s.rings := rfl
@[simp] theorem modWg_roots (w : Nat) (f : Wg → Wg) : (modWg s w f).roots = s.roots := rfl
@[simp] theorem modWg_ptlb (w : Nat) (f : Wg → Wg) : (modWg s w f).ptlb = s.ptlb := rfl
@[simp] theorem modWg_pkgCache (w : Nat) (f : Wg → Wg) : (modWg s w f).pkgCache = s.pkgCache := rfl
@[simp] theorem modWg_sources (w : Nat) (f : Wg → Wg) : (modWg s w f).sources = s.sources := rfl
@[simp] theorem modWg_posted (w : Nat) (f : Wg → Wg) : (modWg s w f).posted = s.posted := rfl
@[simp] theorem modWg_reqs (w : Nat) (f : Wg → Wg) : (modWg s w f).reqs = s.reqs := rfl
@[simp] theorem modWg_probes (w : Nat) (f : Wg → Wg) : (modWg s w f).probes = s.probes := rfl
@[simp] theorem modWg_held (w : Nat) (f : Wg → Wg) : (modWg s w f).held = s.held := rfl
@[simp] theorem modWg_atoms (w : Nat) (f : Wg → Wg) : (modWg s w f).atoms = s.atoms := rfl
@[simp] theorem modWg_merges (w : Nat) (f : Wg → Wg) : (modWg s w f).merges = s.merges := rfl
@[simp] theorem modWg_portLines (w : Nat) (f : Wg → Wg) : (modWg s w f).portLines = s.portLines := rfl
@[simp] theorem modWg_drains (w : Nat) (f : Wg → Wg) : (modWg s w f).drains = s.drains := rfl
@[simp] theorem modWg_locks (w : Nat) (f : Wg → Wg) : (modWg s w f).locks = s.locks := rfl
@[simp] theorem modWg_lockMsgs (w : Nat) (f : Wg → Wg) : (modWg s w f).lockMsgs = s.lockMsgs := rfl
@[simp] theorem modWg_recvMsgs (w : Nat) (f : Wg → Wg) : (modWg s w f).recvMsgs = s.recvMsgs := rfl
@[simp] theorem modWg_colls (w : Nat) (f : Wg → Wg) : (modWg s w f).colls = s.colls := rfl
@[simp] theorem modWg_toks (w : Nat) (f : Wg → Wg) : (modWg s w f).toks = s.toks := rfl
@[simp] theorem modWg_events (w : Nat) (f : Wg → Wg) : (modWg s w f).events = s.events := rfl
@[simp] theorem modWg_dispRecs (w : Nat) (f : Wg → Wg) : (modWg s w f).dispRecs = s.dispRecs := rfl
@[simp] theorem modWg_energy (w : Nat) (f : Wg → Wg) : (modWg s w f).energy = s.energy := rfl
@[simp] theorem modWg_damper (w : Nat) (f : Wg → Wg) : (modWg s w f).damper = s.damper := rfl
@[simp] theorem modWg_mailbox (w : Nat) (f : Wg → Wg) : (modWg s w f).mailbox = s.mailbox := rfl
@[simp] theorem modWg_barrierLimit (w : Nat) (f : Wg → Wg) : (modWg s w f).barrierLimit = s.barrierLimit := rfl
@[simp] theorem modWg_lockLimit (w : Nat) (f : Wg → Wg) : (modWg s w f).lockLimit = s.lockLimit := rfl
@[simp] theorem modWg_holdLimit (w : Nat) (f : Wg → Wg) : (modWg s w f).holdLimit = s.holdLimit := rfl
@[simp] theorem modWg_xshflLimit (w : Nat) (f : Wg → Wg) : (modWg s w f).xshflLimit = s.xshflLimit := rfl
@[simp] theorem modWg_watchdogLimit (w : Nat) (f : Wg → Wg) : (modWg s w f).watchdogLimit = s.watchdogLimit := rfl
@[simp] theorem modWg_rr (w : Nat) (f : Wg → Wg) : (modWg s w f).rr = s.rr := rfl
@[simp] theorem modWg_links (w : Nat) (f : Wg → Wg) : (modWg s w f).links = s.links := rfl
@[simp] theorem modWg_boot (w : Nat) (f : Wg → Wg) : (modWg s w f).boot = s.boot := rfl

/-! ## modLaunch s l f -/

@[simp] theorem modLaunch_pick (l : Nat) (f : Launch → Launch) : (modLaunch s l f).pick = s.pick := rfl
@[simp] theorem modLaunch_turn (l : Nat) (f : Launch → Launch) : (modLaunch s l f).turn = s.turn := rfl
@[simp] theorem modLaunch_focus (l : Nat) (f : Launch → Launch) : (modLaunch s l f).focus = s.focus := rfl
@[simp] theorem modLaunch_uid (l : Nat) (f : Launch → Launch) : (modLaunch s l f).uid = s.uid := rfl
@[simp] theorem modLaunch_inbox (l : Nat) (f : Launch → Launch) : (modLaunch s l f).inbox = s.inbox := rfl
@[simp] theorem modLaunch_asked (l : Nat) (f : Launch → Launch) : (modLaunch s l f).asked = s.asked := rfl
@[simp] theorem modLaunch_out (l : Nat) (f : Launch → Launch) : (modLaunch s l f).out = s.out := rfl
@[simp] theorem modLaunch_time (l : Nat) (f : Launch → Launch) : (modLaunch s l f).time = s.time := rfl
@[simp] theorem modLaunch_mem (l : Nat) (f : Launch → Launch) : (modLaunch s l f).mem = s.mem := rfl
@[simp] theorem modLaunch_poison (l : Nat) (f : Launch → Launch) : (modLaunch s l f).poison = s.poison := rfl
@[simp] theorem modLaunch_cores (l : Nat) (f : Launch → Launch) : (modLaunch s l f).cores = s.cores := rfl
@[simp] theorem modLaunch_dies (l : Nat) (f : Launch → Launch) : (modLaunch s l f).dies = s.dies := rfl
@[simp] theorem modLaunch_strands (l : Nat) (f : Launch → Launch) : (modLaunch s l f).strands = s.strands := rfl
@[simp] theorem modLaunch_groups (l : Nat) (f : Launch → Launch) : (modLaunch s l f).groups = s.groups := rfl
@[simp] theorem modLaunch_wgs (l : Nat) (f : Launch → Launch) : (modLaunch s l f).wgs = s.wgs := rfl
@[simp] theorem modLaunch_launches (l : Nat) (f : Launch → Launch) : (modLaunch s l f).launches = edit s.launches l f := rfl
@[simp] theorem modLaunch_queues (l : Nat) (f : Launch → Launch) : (modLaunch s l f).queues = s.queues := rfl
@[simp] theorem modLaunch_hearthCells (l : Nat) (f : Launch → Launch) : (modLaunch s l f).hearthCells = s.hearthCells := rfl
@[simp] theorem modLaunch_rings (l : Nat) (f : Launch → Launch) : (modLaunch s l f).rings = s.rings := rfl
@[simp] theorem modLaunch_roots (l : Nat) (f : Launch → Launch) : (modLaunch s l f).roots = s.roots := rfl
@[simp] theorem modLaunch_ptlb (l : Nat) (f : Launch → Launch) : (modLaunch s l f).ptlb = s.ptlb := rfl
@[simp] theorem modLaunch_pkgCache (l : Nat) (f : Launch → Launch) : (modLaunch s l f).pkgCache = s.pkgCache := rfl
@[simp] theorem modLaunch_sources (l : Nat) (f : Launch → Launch) : (modLaunch s l f).sources = s.sources := rfl
@[simp] theorem modLaunch_posted (l : Nat) (f : Launch → Launch) : (modLaunch s l f).posted = s.posted := rfl
@[simp] theorem modLaunch_reqs (l : Nat) (f : Launch → Launch) : (modLaunch s l f).reqs = s.reqs := rfl
@[simp] theorem modLaunch_probes (l : Nat) (f : Launch → Launch) : (modLaunch s l f).probes = s.probes := rfl
@[simp] theorem modLaunch_held (l : Nat) (f : Launch → Launch) : (modLaunch s l f).held = s.held := rfl
@[simp] theorem modLaunch_atoms (l : Nat) (f : Launch → Launch) : (modLaunch s l f).atoms = s.atoms := rfl
@[simp] theorem modLaunch_merges (l : Nat) (f : Launch → Launch) : (modLaunch s l f).merges = s.merges := rfl
@[simp] theorem modLaunch_portLines (l : Nat) (f : Launch → Launch) : (modLaunch s l f).portLines = s.portLines := rfl
@[simp] theorem modLaunch_drains (l : Nat) (f : Launch → Launch) : (modLaunch s l f).drains = s.drains := rfl
@[simp] theorem modLaunch_locks (l : Nat) (f : Launch → Launch) : (modLaunch s l f).locks = s.locks := rfl
@[simp] theorem modLaunch_lockMsgs (l : Nat) (f : Launch → Launch) : (modLaunch s l f).lockMsgs = s.lockMsgs := rfl
@[simp] theorem modLaunch_recvMsgs (l : Nat) (f : Launch → Launch) : (modLaunch s l f).recvMsgs = s.recvMsgs := rfl
@[simp] theorem modLaunch_colls (l : Nat) (f : Launch → Launch) : (modLaunch s l f).colls = s.colls := rfl
@[simp] theorem modLaunch_toks (l : Nat) (f : Launch → Launch) : (modLaunch s l f).toks = s.toks := rfl
@[simp] theorem modLaunch_events (l : Nat) (f : Launch → Launch) : (modLaunch s l f).events = s.events := rfl
@[simp] theorem modLaunch_dispRecs (l : Nat) (f : Launch → Launch) : (modLaunch s l f).dispRecs = s.dispRecs := rfl
@[simp] theorem modLaunch_energy (l : Nat) (f : Launch → Launch) : (modLaunch s l f).energy = s.energy := rfl
@[simp] theorem modLaunch_damper (l : Nat) (f : Launch → Launch) : (modLaunch s l f).damper = s.damper := rfl
@[simp] theorem modLaunch_mailbox (l : Nat) (f : Launch → Launch) : (modLaunch s l f).mailbox = s.mailbox := rfl
@[simp] theorem modLaunch_barrierLimit (l : Nat) (f : Launch → Launch) : (modLaunch s l f).barrierLimit = s.barrierLimit := rfl
@[simp] theorem modLaunch_lockLimit (l : Nat) (f : Launch → Launch) : (modLaunch s l f).lockLimit = s.lockLimit := rfl
@[simp] theorem modLaunch_holdLimit (l : Nat) (f : Launch → Launch) : (modLaunch s l f).holdLimit = s.holdLimit := rfl
@[simp] theorem modLaunch_xshflLimit (l : Nat) (f : Launch → Launch) : (modLaunch s l f).xshflLimit = s.xshflLimit := rfl
@[simp] theorem modLaunch_watchdogLimit (l : Nat) (f : Launch → Launch) : (modLaunch s l f).watchdogLimit = s.watchdogLimit := rfl
@[simp] theorem modLaunch_rr (l : Nat) (f : Launch → Launch) : (modLaunch s l f).rr = s.rr := rfl
@[simp] theorem modLaunch_links (l : Nat) (f : Launch → Launch) : (modLaunch s l f).links = s.links := rfl
@[simp] theorem modLaunch_boot (l : Nat) (f : Launch → Launch) : (modLaunch s l f).boot = s.boot := rfl

/-! ## modRing s k f -/

@[simp] theorem modRing_pick (k : Nat) (f : Ring → Ring) : (modRing s k f).pick = s.pick := rfl
@[simp] theorem modRing_turn (k : Nat) (f : Ring → Ring) : (modRing s k f).turn = s.turn := rfl
@[simp] theorem modRing_focus (k : Nat) (f : Ring → Ring) : (modRing s k f).focus = s.focus := rfl
@[simp] theorem modRing_uid (k : Nat) (f : Ring → Ring) : (modRing s k f).uid = s.uid := rfl
@[simp] theorem modRing_inbox (k : Nat) (f : Ring → Ring) : (modRing s k f).inbox = s.inbox := rfl
@[simp] theorem modRing_asked (k : Nat) (f : Ring → Ring) : (modRing s k f).asked = s.asked := rfl
@[simp] theorem modRing_out (k : Nat) (f : Ring → Ring) : (modRing s k f).out = s.out := rfl
@[simp] theorem modRing_time (k : Nat) (f : Ring → Ring) : (modRing s k f).time = s.time := rfl
@[simp] theorem modRing_mem (k : Nat) (f : Ring → Ring) : (modRing s k f).mem = s.mem := rfl
@[simp] theorem modRing_poison (k : Nat) (f : Ring → Ring) : (modRing s k f).poison = s.poison := rfl
@[simp] theorem modRing_cores (k : Nat) (f : Ring → Ring) : (modRing s k f).cores = s.cores := rfl
@[simp] theorem modRing_dies (k : Nat) (f : Ring → Ring) : (modRing s k f).dies = s.dies := rfl
@[simp] theorem modRing_strands (k : Nat) (f : Ring → Ring) : (modRing s k f).strands = s.strands := rfl
@[simp] theorem modRing_groups (k : Nat) (f : Ring → Ring) : (modRing s k f).groups = s.groups := rfl
@[simp] theorem modRing_wgs (k : Nat) (f : Ring → Ring) : (modRing s k f).wgs = s.wgs := rfl
@[simp] theorem modRing_launches (k : Nat) (f : Ring → Ring) : (modRing s k f).launches = s.launches := rfl
@[simp] theorem modRing_queues (k : Nat) (f : Ring → Ring) : (modRing s k f).queues = s.queues := rfl
@[simp] theorem modRing_hearthCells (k : Nat) (f : Ring → Ring) : (modRing s k f).hearthCells = s.hearthCells := rfl
@[simp] theorem modRing_roots (k : Nat) (f : Ring → Ring) : (modRing s k f).roots = s.roots := rfl
@[simp] theorem modRing_ptlb (k : Nat) (f : Ring → Ring) : (modRing s k f).ptlb = s.ptlb := rfl
@[simp] theorem modRing_pkgCache (k : Nat) (f : Ring → Ring) : (modRing s k f).pkgCache = s.pkgCache := rfl
@[simp] theorem modRing_sources (k : Nat) (f : Ring → Ring) : (modRing s k f).sources = s.sources := rfl
@[simp] theorem modRing_posted (k : Nat) (f : Ring → Ring) : (modRing s k f).posted = s.posted := rfl
@[simp] theorem modRing_reqs (k : Nat) (f : Ring → Ring) : (modRing s k f).reqs = s.reqs := rfl
@[simp] theorem modRing_probes (k : Nat) (f : Ring → Ring) : (modRing s k f).probes = s.probes := rfl
@[simp] theorem modRing_held (k : Nat) (f : Ring → Ring) : (modRing s k f).held = s.held := rfl
@[simp] theorem modRing_atoms (k : Nat) (f : Ring → Ring) : (modRing s k f).atoms = s.atoms := rfl
@[simp] theorem modRing_merges (k : Nat) (f : Ring → Ring) : (modRing s k f).merges = s.merges := rfl
@[simp] theorem modRing_portLines (k : Nat) (f : Ring → Ring) : (modRing s k f).portLines = s.portLines := rfl
@[simp] theorem modRing_drains (k : Nat) (f : Ring → Ring) : (modRing s k f).drains = s.drains := rfl
@[simp] theorem modRing_locks (k : Nat) (f : Ring → Ring) : (modRing s k f).locks = s.locks := rfl
@[simp] theorem modRing_lockMsgs (k : Nat) (f : Ring → Ring) : (modRing s k f).lockMsgs = s.lockMsgs := rfl
@[simp] theorem modRing_recvMsgs (k : Nat) (f : Ring → Ring) : (modRing s k f).recvMsgs = s.recvMsgs := rfl
@[simp] theorem modRing_colls (k : Nat) (f : Ring → Ring) : (modRing s k f).colls = s.colls := rfl
@[simp] theorem modRing_toks (k : Nat) (f : Ring → Ring) : (modRing s k f).toks = s.toks := rfl
@[simp] theorem modRing_events (k : Nat) (f : Ring → Ring) : (modRing s k f).events = s.events := rfl
@[simp] theorem modRing_dispRecs (k : Nat) (f : Ring → Ring) : (modRing s k f).dispRecs = s.dispRecs := rfl
@[simp] theorem modRing_energy (k : Nat) (f : Ring → Ring) : (modRing s k f).energy = s.energy := rfl
@[simp] theorem modRing_damper (k : Nat) (f : Ring → Ring) : (modRing s k f).damper = s.damper := rfl
@[simp] theorem modRing_mailbox (k : Nat) (f : Ring → Ring) : (modRing s k f).mailbox = s.mailbox := rfl
@[simp] theorem modRing_barrierLimit (k : Nat) (f : Ring → Ring) : (modRing s k f).barrierLimit = s.barrierLimit := rfl
@[simp] theorem modRing_lockLimit (k : Nat) (f : Ring → Ring) : (modRing s k f).lockLimit = s.lockLimit := rfl
@[simp] theorem modRing_holdLimit (k : Nat) (f : Ring → Ring) : (modRing s k f).holdLimit = s.holdLimit := rfl
@[simp] theorem modRing_xshflLimit (k : Nat) (f : Ring → Ring) : (modRing s k f).xshflLimit = s.xshflLimit := rfl
@[simp] theorem modRing_watchdogLimit (k : Nat) (f : Ring → Ring) : (modRing s k f).watchdogLimit = s.watchdogLimit := rfl
@[simp] theorem modRing_rr (k : Nat) (f : Ring → Ring) : (modRing s k f).rr = s.rr := rfl
@[simp] theorem modRing_links (k : Nat) (f : Ring → Ring) : (modRing s k f).links = s.links := rfl
@[simp] theorem modRing_boot (k : Nat) (f : Ring → Ring) : (modRing s k f).boot = s.boot := rfl

/-! ## modQueue s q f -/

@[simp] theorem modQueue_pick (q : Nat) (f : Queue → Queue) : (modQueue s q f).pick = s.pick := rfl
@[simp] theorem modQueue_turn (q : Nat) (f : Queue → Queue) : (modQueue s q f).turn = s.turn := rfl
@[simp] theorem modQueue_focus (q : Nat) (f : Queue → Queue) : (modQueue s q f).focus = s.focus := rfl
@[simp] theorem modQueue_uid (q : Nat) (f : Queue → Queue) : (modQueue s q f).uid = s.uid := rfl
@[simp] theorem modQueue_inbox (q : Nat) (f : Queue → Queue) : (modQueue s q f).inbox = s.inbox := rfl
@[simp] theorem modQueue_asked (q : Nat) (f : Queue → Queue) : (modQueue s q f).asked = s.asked := rfl
@[simp] theorem modQueue_out (q : Nat) (f : Queue → Queue) : (modQueue s q f).out = s.out := rfl
@[simp] theorem modQueue_time (q : Nat) (f : Queue → Queue) : (modQueue s q f).time = s.time := rfl
@[simp] theorem modQueue_mem (q : Nat) (f : Queue → Queue) : (modQueue s q f).mem = s.mem := rfl
@[simp] theorem modQueue_poison (q : Nat) (f : Queue → Queue) : (modQueue s q f).poison = s.poison := rfl
@[simp] theorem modQueue_cores (q : Nat) (f : Queue → Queue) : (modQueue s q f).cores = s.cores := rfl
@[simp] theorem modQueue_dies (q : Nat) (f : Queue → Queue) : (modQueue s q f).dies = s.dies := rfl
@[simp] theorem modQueue_strands (q : Nat) (f : Queue → Queue) : (modQueue s q f).strands = s.strands := rfl
@[simp] theorem modQueue_groups (q : Nat) (f : Queue → Queue) : (modQueue s q f).groups = s.groups := rfl
@[simp] theorem modQueue_wgs (q : Nat) (f : Queue → Queue) : (modQueue s q f).wgs = s.wgs := rfl
@[simp] theorem modQueue_launches (q : Nat) (f : Queue → Queue) : (modQueue s q f).launches = s.launches := rfl
@[simp] theorem modQueue_queues (q : Nat) (f : Queue → Queue) : (modQueue s q f).queues = s.queues.modify q f := rfl
@[simp] theorem modQueue_hearthCells (q : Nat) (f : Queue → Queue) : (modQueue s q f).hearthCells = s.hearthCells := rfl
@[simp] theorem modQueue_rings (q : Nat) (f : Queue → Queue) : (modQueue s q f).rings = s.rings := rfl
@[simp] theorem modQueue_roots (q : Nat) (f : Queue → Queue) : (modQueue s q f).roots = s.roots := rfl
@[simp] theorem modQueue_ptlb (q : Nat) (f : Queue → Queue) : (modQueue s q f).ptlb = s.ptlb := rfl
@[simp] theorem modQueue_pkgCache (q : Nat) (f : Queue → Queue) : (modQueue s q f).pkgCache = s.pkgCache := rfl
@[simp] theorem modQueue_sources (q : Nat) (f : Queue → Queue) : (modQueue s q f).sources = s.sources := rfl
@[simp] theorem modQueue_posted (q : Nat) (f : Queue → Queue) : (modQueue s q f).posted = s.posted := rfl
@[simp] theorem modQueue_reqs (q : Nat) (f : Queue → Queue) : (modQueue s q f).reqs = s.reqs := rfl
@[simp] theorem modQueue_probes (q : Nat) (f : Queue → Queue) : (modQueue s q f).probes = s.probes := rfl
@[simp] theorem modQueue_held (q : Nat) (f : Queue → Queue) : (modQueue s q f).held = s.held := rfl
@[simp] theorem modQueue_atoms (q : Nat) (f : Queue → Queue) : (modQueue s q f).atoms = s.atoms := rfl
@[simp] theorem modQueue_merges (q : Nat) (f : Queue → Queue) : (modQueue s q f).merges = s.merges := rfl
@[simp] theorem modQueue_portLines (q : Nat) (f : Queue → Queue) : (modQueue s q f).portLines = s.portLines := rfl
@[simp] theorem modQueue_drains (q : Nat) (f : Queue → Queue) : (modQueue s q f).drains = s.drains := rfl
@[simp] theorem modQueue_locks (q : Nat) (f : Queue → Queue) : (modQueue s q f).locks = s.locks := rfl
@[simp] theorem modQueue_lockMsgs (q : Nat) (f : Queue → Queue) : (modQueue s q f).lockMsgs = s.lockMsgs := rfl
@[simp] theorem modQueue_recvMsgs (q : Nat) (f : Queue → Queue) : (modQueue s q f).recvMsgs = s.recvMsgs := rfl
@[simp] theorem modQueue_colls (q : Nat) (f : Queue → Queue) : (modQueue s q f).colls = s.colls := rfl
@[simp] theorem modQueue_toks (q : Nat) (f : Queue → Queue) : (modQueue s q f).toks = s.toks := rfl
@[simp] theorem modQueue_events (q : Nat) (f : Queue → Queue) : (modQueue s q f).events = s.events := rfl
@[simp] theorem modQueue_dispRecs (q : Nat) (f : Queue → Queue) : (modQueue s q f).dispRecs = s.dispRecs := rfl
@[simp] theorem modQueue_energy (q : Nat) (f : Queue → Queue) : (modQueue s q f).energy = s.energy := rfl
@[simp] theorem modQueue_damper (q : Nat) (f : Queue → Queue) : (modQueue s q f).damper = s.damper := rfl
@[simp] theorem modQueue_mailbox (q : Nat) (f : Queue → Queue) : (modQueue s q f).mailbox = s.mailbox := rfl
@[simp] theorem modQueue_barrierLimit (q : Nat) (f : Queue → Queue) : (modQueue s q f).barrierLimit = s.barrierLimit := rfl
@[simp] theorem modQueue_lockLimit (q : Nat) (f : Queue → Queue) : (modQueue s q f).lockLimit = s.lockLimit := rfl
@[simp] theorem modQueue_holdLimit (q : Nat) (f : Queue → Queue) : (modQueue s q f).holdLimit = s.holdLimit := rfl
@[simp] theorem modQueue_xshflLimit (q : Nat) (f : Queue → Queue) : (modQueue s q f).xshflLimit = s.xshflLimit := rfl
@[simp] theorem modQueue_watchdogLimit (q : Nat) (f : Queue → Queue) : (modQueue s q f).watchdogLimit = s.watchdogLimit := rfl
@[simp] theorem modQueue_rr (q : Nat) (f : Queue → Queue) : (modQueue s q f).rr = s.rr := rfl
@[simp] theorem modQueue_links (q : Nat) (f : Queue → Queue) : (modQueue s q f).links = s.links := rfl
@[simp] theorem modQueue_boot (q : Nat) (f : Queue → Queue) : (modQueue s q f).boot = s.boot := rfl

/-! ## modBlk s k u f -/

@[simp] theorem modBlk_pick (k u : Nat) (f : Blk → Blk) : (modBlk s k u f).pick = s.pick := rfl
@[simp] theorem modBlk_turn (k u : Nat) (f : Blk → Blk) : (modBlk s k u f).turn = s.turn := rfl
@[simp] theorem modBlk_focus (k u : Nat) (f : Blk → Blk) : (modBlk s k u f).focus = s.focus := rfl
@[simp] theorem modBlk_uid (k u : Nat) (f : Blk → Blk) : (modBlk s k u f).uid = s.uid := rfl
@[simp] theorem modBlk_inbox (k u : Nat) (f : Blk → Blk) : (modBlk s k u f).inbox = s.inbox := rfl
@[simp] theorem modBlk_asked (k u : Nat) (f : Blk → Blk) : (modBlk s k u f).asked = s.asked := rfl
@[simp] theorem modBlk_out (k u : Nat) (f : Blk → Blk) : (modBlk s k u f).out = s.out := rfl
@[simp] theorem modBlk_time (k u : Nat) (f : Blk → Blk) : (modBlk s k u f).time = s.time := rfl
@[simp] theorem modBlk_mem (k u : Nat) (f : Blk → Blk) : (modBlk s k u f).mem = s.mem := rfl
@[simp] theorem modBlk_poison (k u : Nat) (f : Blk → Blk) : (modBlk s k u f).poison = s.poison := rfl
@[simp] theorem modBlk_cores (k u : Nat) (f : Blk → Blk) : (modBlk s k u f).cores = s.cores := rfl
@[simp] theorem modBlk_dies (k u : Nat) (f : Blk → Blk) : (modBlk s k u f).dies = s.dies := rfl
@[simp] theorem modBlk_groups (k u : Nat) (f : Blk → Blk) : (modBlk s k u f).groups = s.groups := rfl
@[simp] theorem modBlk_wgs (k u : Nat) (f : Blk → Blk) : (modBlk s k u f).wgs = s.wgs := rfl
@[simp] theorem modBlk_launches (k u : Nat) (f : Blk → Blk) : (modBlk s k u f).launches = s.launches := rfl
@[simp] theorem modBlk_queues (k u : Nat) (f : Blk → Blk) : (modBlk s k u f).queues = s.queues := rfl
@[simp] theorem modBlk_hearthCells (k u : Nat) (f : Blk → Blk) : (modBlk s k u f).hearthCells = s.hearthCells := rfl
@[simp] theorem modBlk_rings (k u : Nat) (f : Blk → Blk) : (modBlk s k u f).rings = s.rings := rfl
@[simp] theorem modBlk_roots (k u : Nat) (f : Blk → Blk) : (modBlk s k u f).roots = s.roots := rfl
@[simp] theorem modBlk_ptlb (k u : Nat) (f : Blk → Blk) : (modBlk s k u f).ptlb = s.ptlb := rfl
@[simp] theorem modBlk_pkgCache (k u : Nat) (f : Blk → Blk) : (modBlk s k u f).pkgCache = s.pkgCache := rfl
@[simp] theorem modBlk_sources (k u : Nat) (f : Blk → Blk) : (modBlk s k u f).sources = s.sources := rfl
@[simp] theorem modBlk_posted (k u : Nat) (f : Blk → Blk) : (modBlk s k u f).posted = s.posted := rfl
@[simp] theorem modBlk_reqs (k u : Nat) (f : Blk → Blk) : (modBlk s k u f).reqs = s.reqs := rfl
@[simp] theorem modBlk_probes (k u : Nat) (f : Blk → Blk) : (modBlk s k u f).probes = s.probes := rfl
@[simp] theorem modBlk_held (k u : Nat) (f : Blk → Blk) : (modBlk s k u f).held = s.held := rfl
@[simp] theorem modBlk_atoms (k u : Nat) (f : Blk → Blk) : (modBlk s k u f).atoms = s.atoms := rfl
@[simp] theorem modBlk_merges (k u : Nat) (f : Blk → Blk) : (modBlk s k u f).merges = s.merges := rfl
@[simp] theorem modBlk_portLines (k u : Nat) (f : Blk → Blk) : (modBlk s k u f).portLines = s.portLines := rfl
@[simp] theorem modBlk_drains (k u : Nat) (f : Blk → Blk) : (modBlk s k u f).drains = s.drains := rfl
@[simp] theorem modBlk_locks (k u : Nat) (f : Blk → Blk) : (modBlk s k u f).locks = s.locks := rfl
@[simp] theorem modBlk_lockMsgs (k u : Nat) (f : Blk → Blk) : (modBlk s k u f).lockMsgs = s.lockMsgs := rfl
@[simp] theorem modBlk_recvMsgs (k u : Nat) (f : Blk → Blk) : (modBlk s k u f).recvMsgs = s.recvMsgs := rfl
@[simp] theorem modBlk_colls (k u : Nat) (f : Blk → Blk) : (modBlk s k u f).colls = s.colls := rfl
@[simp] theorem modBlk_toks (k u : Nat) (f : Blk → Blk) : (modBlk s k u f).toks = s.toks := rfl
@[simp] theorem modBlk_events (k u : Nat) (f : Blk → Blk) : (modBlk s k u f).events = s.events := rfl
@[simp] theorem modBlk_dispRecs (k u : Nat) (f : Blk → Blk) : (modBlk s k u f).dispRecs = s.dispRecs := rfl
@[simp] theorem modBlk_energy (k u : Nat) (f : Blk → Blk) : (modBlk s k u f).energy = s.energy := rfl
@[simp] theorem modBlk_damper (k u : Nat) (f : Blk → Blk) : (modBlk s k u f).damper = s.damper := rfl
@[simp] theorem modBlk_mailbox (k u : Nat) (f : Blk → Blk) : (modBlk s k u f).mailbox = s.mailbox := rfl
@[simp] theorem modBlk_barrierLimit (k u : Nat) (f : Blk → Blk) : (modBlk s k u f).barrierLimit = s.barrierLimit := rfl
@[simp] theorem modBlk_lockLimit (k u : Nat) (f : Blk → Blk) : (modBlk s k u f).lockLimit = s.lockLimit := rfl
@[simp] theorem modBlk_holdLimit (k u : Nat) (f : Blk → Blk) : (modBlk s k u f).holdLimit = s.holdLimit := rfl
@[simp] theorem modBlk_xshflLimit (k u : Nat) (f : Blk → Blk) : (modBlk s k u f).xshflLimit = s.xshflLimit := rfl
@[simp] theorem modBlk_watchdogLimit (k u : Nat) (f : Blk → Blk) : (modBlk s k u f).watchdogLimit = s.watchdogLimit := rfl
@[simp] theorem modBlk_rr (k u : Nat) (f : Blk → Blk) : (modBlk s k u f).rr = s.rr := rfl
@[simp] theorem modBlk_links (k u : Nat) (f : Blk → Blk) : (modBlk s k u f).links = s.links := rfl
@[simp] theorem modBlk_boot (k u : Nat) (f : Blk → Blk) : (modBlk s k u f).boot = s.boot := rfl

/-! ## setPoison s a b -/

@[simp] theorem setPoison_pick (a : Nat) (b : Bool) : (setPoison s a b).pick = s.pick := rfl
@[simp] theorem setPoison_turn (a : Nat) (b : Bool) : (setPoison s a b).turn = s.turn := rfl
@[simp] theorem setPoison_focus (a : Nat) (b : Bool) : (setPoison s a b).focus = s.focus := rfl
@[simp] theorem setPoison_uid (a : Nat) (b : Bool) : (setPoison s a b).uid = s.uid := rfl
@[simp] theorem setPoison_inbox (a : Nat) (b : Bool) : (setPoison s a b).inbox = s.inbox := rfl
@[simp] theorem setPoison_asked (a : Nat) (b : Bool) : (setPoison s a b).asked = s.asked := rfl
@[simp] theorem setPoison_out (a : Nat) (b : Bool) : (setPoison s a b).out = s.out := rfl
@[simp] theorem setPoison_time (a : Nat) (b : Bool) : (setPoison s a b).time = s.time := rfl
@[simp] theorem setPoison_mem (a : Nat) (b : Bool) : (setPoison s a b).mem = s.mem := rfl
@[simp] theorem setPoison_cores (a : Nat) (b : Bool) : (setPoison s a b).cores = s.cores := rfl
@[simp] theorem setPoison_dies (a : Nat) (b : Bool) : (setPoison s a b).dies = s.dies := rfl
@[simp] theorem setPoison_strands (a : Nat) (b : Bool) : (setPoison s a b).strands = s.strands := rfl
@[simp] theorem setPoison_groups (a : Nat) (b : Bool) : (setPoison s a b).groups = s.groups := rfl
@[simp] theorem setPoison_wgs (a : Nat) (b : Bool) : (setPoison s a b).wgs = s.wgs := rfl
@[simp] theorem setPoison_launches (a : Nat) (b : Bool) : (setPoison s a b).launches = s.launches := rfl
@[simp] theorem setPoison_queues (a : Nat) (b : Bool) : (setPoison s a b).queues = s.queues := rfl
@[simp] theorem setPoison_hearthCells (a : Nat) (b : Bool) : (setPoison s a b).hearthCells = s.hearthCells := rfl
@[simp] theorem setPoison_rings (a : Nat) (b : Bool) : (setPoison s a b).rings = s.rings := rfl
@[simp] theorem setPoison_roots (a : Nat) (b : Bool) : (setPoison s a b).roots = s.roots := rfl
@[simp] theorem setPoison_ptlb (a : Nat) (b : Bool) : (setPoison s a b).ptlb = s.ptlb := rfl
@[simp] theorem setPoison_pkgCache (a : Nat) (b : Bool) : (setPoison s a b).pkgCache = s.pkgCache := rfl
@[simp] theorem setPoison_sources (a : Nat) (b : Bool) : (setPoison s a b).sources = s.sources := rfl
@[simp] theorem setPoison_posted (a : Nat) (b : Bool) : (setPoison s a b).posted = s.posted := rfl
@[simp] theorem setPoison_reqs (a : Nat) (b : Bool) : (setPoison s a b).reqs = s.reqs := rfl
@[simp] theorem setPoison_probes (a : Nat) (b : Bool) : (setPoison s a b).probes = s.probes := rfl
@[simp] theorem setPoison_held (a : Nat) (b : Bool) : (setPoison s a b).held = s.held := rfl
@[simp] theorem setPoison_atoms (a : Nat) (b : Bool) : (setPoison s a b).atoms = s.atoms := rfl
@[simp] theorem setPoison_merges (a : Nat) (b : Bool) : (setPoison s a b).merges = s.merges := rfl
@[simp] theorem setPoison_portLines (a : Nat) (b : Bool) : (setPoison s a b).portLines = s.portLines := rfl
@[simp] theorem setPoison_drains (a : Nat) (b : Bool) : (setPoison s a b).drains = s.drains := rfl
@[simp] theorem setPoison_locks (a : Nat) (b : Bool) : (setPoison s a b).locks = s.locks := rfl
@[simp] theorem setPoison_lockMsgs (a : Nat) (b : Bool) : (setPoison s a b).lockMsgs = s.lockMsgs := rfl
@[simp] theorem setPoison_recvMsgs (a : Nat) (b : Bool) : (setPoison s a b).recvMsgs = s.recvMsgs := rfl
@[simp] theorem setPoison_colls (a : Nat) (b : Bool) : (setPoison s a b).colls = s.colls := rfl
@[simp] theorem setPoison_toks (a : Nat) (b : Bool) : (setPoison s a b).toks = s.toks := rfl
@[simp] theorem setPoison_events (a : Nat) (b : Bool) : (setPoison s a b).events = s.events := rfl
@[simp] theorem setPoison_dispRecs (a : Nat) (b : Bool) : (setPoison s a b).dispRecs = s.dispRecs := rfl
@[simp] theorem setPoison_energy (a : Nat) (b : Bool) : (setPoison s a b).energy = s.energy := rfl
@[simp] theorem setPoison_damper (a : Nat) (b : Bool) : (setPoison s a b).damper = s.damper := rfl
@[simp] theorem setPoison_mailbox (a : Nat) (b : Bool) : (setPoison s a b).mailbox = s.mailbox := rfl
@[simp] theorem setPoison_barrierLimit (a : Nat) (b : Bool) : (setPoison s a b).barrierLimit = s.barrierLimit := rfl
@[simp] theorem setPoison_lockLimit (a : Nat) (b : Bool) : (setPoison s a b).lockLimit = s.lockLimit := rfl
@[simp] theorem setPoison_holdLimit (a : Nat) (b : Bool) : (setPoison s a b).holdLimit = s.holdLimit := rfl
@[simp] theorem setPoison_xshflLimit (a : Nat) (b : Bool) : (setPoison s a b).xshflLimit = s.xshflLimit := rfl
@[simp] theorem setPoison_watchdogLimit (a : Nat) (b : Bool) : (setPoison s a b).watchdogLimit = s.watchdogLimit := rfl
@[simp] theorem setPoison_rr (a : Nat) (b : Bool) : (setPoison s a b).rr = s.rr := rfl
@[simp] theorem setPoison_links (a : Nat) (b : Bool) : (setPoison s a b).links = s.links := rfl
@[simp] theorem setPoison_boot (a : Nat) (b : Bool) : (setPoison s a b).boot = s.boot := rfl

/-! ## x.mod s f -/

@[simp] theorem Site_mod_pick (x : Site) (f : Blk → Blk) : (x.mod s f).pick = s.pick := rfl
@[simp] theorem Site_mod_turn (x : Site) (f : Blk → Blk) : (x.mod s f).turn = s.turn := rfl
@[simp] theorem Site_mod_focus (x : Site) (f : Blk → Blk) : (x.mod s f).focus = s.focus := rfl
@[simp] theorem Site_mod_uid (x : Site) (f : Blk → Blk) : (x.mod s f).uid = s.uid := rfl
@[simp] theorem Site_mod_inbox (x : Site) (f : Blk → Blk) : (x.mod s f).inbox = s.inbox := rfl
@[simp] theorem Site_mod_asked (x : Site) (f : Blk → Blk) : (x.mod s f).asked = s.asked := rfl
@[simp] theorem Site_mod_out (x : Site) (f : Blk → Blk) : (x.mod s f).out = s.out := rfl
@[simp] theorem Site_mod_time (x : Site) (f : Blk → Blk) : (x.mod s f).time = s.time := rfl
@[simp] theorem Site_mod_mem (x : Site) (f : Blk → Blk) : (x.mod s f).mem = s.mem := rfl
@[simp] theorem Site_mod_poison (x : Site) (f : Blk → Blk) : (x.mod s f).poison = s.poison := rfl
@[simp] theorem Site_mod_cores (x : Site) (f : Blk → Blk) : (x.mod s f).cores = s.cores := rfl
@[simp] theorem Site_mod_dies (x : Site) (f : Blk → Blk) : (x.mod s f).dies = s.dies := rfl
@[simp] theorem Site_mod_groups (x : Site) (f : Blk → Blk) : (x.mod s f).groups = s.groups := rfl
@[simp] theorem Site_mod_wgs (x : Site) (f : Blk → Blk) : (x.mod s f).wgs = s.wgs := rfl
@[simp] theorem Site_mod_launches (x : Site) (f : Blk → Blk) : (x.mod s f).launches = s.launches := rfl
@[simp] theorem Site_mod_queues (x : Site) (f : Blk → Blk) : (x.mod s f).queues = s.queues := rfl
@[simp] theorem Site_mod_hearthCells (x : Site) (f : Blk → Blk) : (x.mod s f).hearthCells = s.hearthCells := rfl
@[simp] theorem Site_mod_rings (x : Site) (f : Blk → Blk) : (x.mod s f).rings = s.rings := rfl
@[simp] theorem Site_mod_roots (x : Site) (f : Blk → Blk) : (x.mod s f).roots = s.roots := rfl
@[simp] theorem Site_mod_ptlb (x : Site) (f : Blk → Blk) : (x.mod s f).ptlb = s.ptlb := rfl
@[simp] theorem Site_mod_pkgCache (x : Site) (f : Blk → Blk) : (x.mod s f).pkgCache = s.pkgCache := rfl
@[simp] theorem Site_mod_sources (x : Site) (f : Blk → Blk) : (x.mod s f).sources = s.sources := rfl
@[simp] theorem Site_mod_posted (x : Site) (f : Blk → Blk) : (x.mod s f).posted = s.posted := rfl
@[simp] theorem Site_mod_reqs (x : Site) (f : Blk → Blk) : (x.mod s f).reqs = s.reqs := rfl
@[simp] theorem Site_mod_probes (x : Site) (f : Blk → Blk) : (x.mod s f).probes = s.probes := rfl
@[simp] theorem Site_mod_held (x : Site) (f : Blk → Blk) : (x.mod s f).held = s.held := rfl
@[simp] theorem Site_mod_atoms (x : Site) (f : Blk → Blk) : (x.mod s f).atoms = s.atoms := rfl
@[simp] theorem Site_mod_merges (x : Site) (f : Blk → Blk) : (x.mod s f).merges = s.merges := rfl
@[simp] theorem Site_mod_portLines (x : Site) (f : Blk → Blk) : (x.mod s f).portLines = s.portLines := rfl
@[simp] theorem Site_mod_drains (x : Site) (f : Blk → Blk) : (x.mod s f).drains = s.drains := rfl
@[simp] theorem Site_mod_locks (x : Site) (f : Blk → Blk) : (x.mod s f).locks = s.locks := rfl
@[simp] theorem Site_mod_lockMsgs (x : Site) (f : Blk → Blk) : (x.mod s f).lockMsgs = s.lockMsgs := rfl
@[simp] theorem Site_mod_recvMsgs (x : Site) (f : Blk → Blk) : (x.mod s f).recvMsgs = s.recvMsgs := rfl
@[simp] theorem Site_mod_colls (x : Site) (f : Blk → Blk) : (x.mod s f).colls = s.colls := rfl
@[simp] theorem Site_mod_toks (x : Site) (f : Blk → Blk) : (x.mod s f).toks = s.toks := rfl
@[simp] theorem Site_mod_events (x : Site) (f : Blk → Blk) : (x.mod s f).events = s.events := rfl
@[simp] theorem Site_mod_dispRecs (x : Site) (f : Blk → Blk) : (x.mod s f).dispRecs = s.dispRecs := rfl
@[simp] theorem Site_mod_energy (x : Site) (f : Blk → Blk) : (x.mod s f).energy = s.energy := rfl
@[simp] theorem Site_mod_damper (x : Site) (f : Blk → Blk) : (x.mod s f).damper = s.damper := rfl
@[simp] theorem Site_mod_mailbox (x : Site) (f : Blk → Blk) : (x.mod s f).mailbox = s.mailbox := rfl
@[simp] theorem Site_mod_barrierLimit (x : Site) (f : Blk → Blk) : (x.mod s f).barrierLimit = s.barrierLimit := rfl
@[simp] theorem Site_mod_lockLimit (x : Site) (f : Blk → Blk) : (x.mod s f).lockLimit = s.lockLimit := rfl
@[simp] theorem Site_mod_holdLimit (x : Site) (f : Blk → Blk) : (x.mod s f).holdLimit = s.holdLimit := rfl
@[simp] theorem Site_mod_xshflLimit (x : Site) (f : Blk → Blk) : (x.mod s f).xshflLimit = s.xshflLimit := rfl
@[simp] theorem Site_mod_watchdogLimit (x : Site) (f : Blk → Blk) : (x.mod s f).watchdogLimit = s.watchdogLimit := rfl
@[simp] theorem Site_mod_rr (x : Site) (f : Blk → Blk) : (x.mod s f).rr = s.rr := rfl
@[simp] theorem Site_mod_links (x : Site) (f : Blk → Blk) : (x.mod s f).links = s.links := rfl
@[simp] theorem Site_mod_boot (x : Site) (f : Blk → Blk) : (x.mod s f).boot = s.boot := rfl

/-! ## reply s r v -/

@[simp] theorem reply_pick (r v : Nat) : (reply s r v).pick = s.pick := rfl
@[simp] theorem reply_turn (r v : Nat) : (reply s r v).turn = s.turn := rfl
@[simp] theorem reply_focus (r v : Nat) : (reply s r v).focus = s.focus := rfl
@[simp] theorem reply_uid (r v : Nat) : (reply s r v).uid = s.uid := rfl
@[simp] theorem reply_inbox (r v : Nat) : (reply s r v).inbox = s.inbox := rfl
@[simp] theorem reply_asked (r v : Nat) : (reply s r v).asked = s.asked := rfl
@[simp] theorem reply_out (r v : Nat) : (reply s r v).out = s.out ++ [.reply r v] := rfl
@[simp] theorem reply_time (r v : Nat) : (reply s r v).time = s.time := rfl
@[simp] theorem reply_mem (r v : Nat) : (reply s r v).mem = s.mem := rfl
@[simp] theorem reply_poison (r v : Nat) : (reply s r v).poison = s.poison := rfl
@[simp] theorem reply_cores (r v : Nat) : (reply s r v).cores = s.cores := rfl
@[simp] theorem reply_dies (r v : Nat) : (reply s r v).dies = s.dies := rfl
@[simp] theorem reply_strands (r v : Nat) : (reply s r v).strands = s.strands := rfl
@[simp] theorem reply_groups (r v : Nat) : (reply s r v).groups = s.groups := rfl
@[simp] theorem reply_wgs (r v : Nat) : (reply s r v).wgs = s.wgs := rfl
@[simp] theorem reply_launches (r v : Nat) : (reply s r v).launches = s.launches := rfl
@[simp] theorem reply_queues (r v : Nat) : (reply s r v).queues = s.queues := rfl
@[simp] theorem reply_hearthCells (r v : Nat) : (reply s r v).hearthCells = s.hearthCells := rfl
@[simp] theorem reply_rings (r v : Nat) : (reply s r v).rings = s.rings := rfl
@[simp] theorem reply_roots (r v : Nat) : (reply s r v).roots = s.roots := rfl
@[simp] theorem reply_ptlb (r v : Nat) : (reply s r v).ptlb = s.ptlb := rfl
@[simp] theorem reply_pkgCache (r v : Nat) : (reply s r v).pkgCache = s.pkgCache := rfl
@[simp] theorem reply_sources (r v : Nat) : (reply s r v).sources = s.sources := rfl
@[simp] theorem reply_posted (r v : Nat) : (reply s r v).posted = s.posted := rfl
@[simp] theorem reply_reqs (r v : Nat) : (reply s r v).reqs = s.reqs := rfl
@[simp] theorem reply_probes (r v : Nat) : (reply s r v).probes = s.probes := rfl
@[simp] theorem reply_held (r v : Nat) : (reply s r v).held = s.held := rfl
@[simp] theorem reply_atoms (r v : Nat) : (reply s r v).atoms = s.atoms := rfl
@[simp] theorem reply_merges (r v : Nat) : (reply s r v).merges = s.merges := rfl
@[simp] theorem reply_portLines (r v : Nat) : (reply s r v).portLines = s.portLines := rfl
@[simp] theorem reply_drains (r v : Nat) : (reply s r v).drains = s.drains := rfl
@[simp] theorem reply_locks (r v : Nat) : (reply s r v).locks = s.locks := rfl
@[simp] theorem reply_lockMsgs (r v : Nat) : (reply s r v).lockMsgs = s.lockMsgs := rfl
@[simp] theorem reply_recvMsgs (r v : Nat) : (reply s r v).recvMsgs = s.recvMsgs := rfl
@[simp] theorem reply_colls (r v : Nat) : (reply s r v).colls = s.colls := rfl
@[simp] theorem reply_toks (r v : Nat) : (reply s r v).toks = s.toks := rfl
@[simp] theorem reply_events (r v : Nat) : (reply s r v).events = s.events := rfl
@[simp] theorem reply_dispRecs (r v : Nat) : (reply s r v).dispRecs = s.dispRecs := rfl
@[simp] theorem reply_energy (r v : Nat) : (reply s r v).energy = s.energy := rfl
@[simp] theorem reply_damper (r v : Nat) : (reply s r v).damper = s.damper := rfl
@[simp] theorem reply_mailbox (r v : Nat) : (reply s r v).mailbox = s.mailbox := rfl
@[simp] theorem reply_barrierLimit (r v : Nat) : (reply s r v).barrierLimit = s.barrierLimit := rfl
@[simp] theorem reply_lockLimit (r v : Nat) : (reply s r v).lockLimit = s.lockLimit := rfl
@[simp] theorem reply_holdLimit (r v : Nat) : (reply s r v).holdLimit = s.holdLimit := rfl
@[simp] theorem reply_xshflLimit (r v : Nat) : (reply s r v).xshflLimit = s.xshflLimit := rfl
@[simp] theorem reply_watchdogLimit (r v : Nat) : (reply s r v).watchdogLimit = s.watchdogLimit := rfl
@[simp] theorem reply_rr (r v : Nat) : (reply s r v).rr = s.rr := rfl
@[simp] theorem reply_links (r v : Nat) : (reply s r v).links = s.links := rfl
@[simp] theorem reply_boot (r v : Nat) : (reply s r v).boot = s.boot := rfl

end Sys2Proof.Machine
end

