-- ==== Sys2Proof/Laws/Tables.lean ====
section
/-! SUPPORT. Sparse tables: what a read gives after each update, and that every update keeps the keys rising. -/

namespace Sys2Proof.Machine

variable {α : Type}

@[simp] theorem find_nil (k : Nat) : find ([] : KMap α) k = none := rfl

/-- A read at the key just written. -/
@[simp] theorem find_put_same (m : KMap α) (k : Nat) (v : α) : find (put m k v) k = some v := by
  induction m with
  | nil => simp [put, find]
  | cons e r ih =>
    obtain ⟨a, w⟩ := e
    by_cases h1 : k < a
    · simp [put, find, h1]
    · by_cases h2 : k = a
      · simp [put, find, h2]
      · simp [put, find, h1, h2, Ne.symm h2, ih]

/-- A read at another key. -/
theorem find_put_other (m : KMap α) {k n : Nat} (v : α) (h : n ≠ k) : find (put m k v) n = find m n := by
  induction m with
  | nil => simp [put, find, Ne.symm h]
  | cons e r ih =>
    obtain ⟨a, w⟩ := e
    by_cases h1 : k < a
    · simp [put, find, h1, Ne.symm h]
    · by_cases h2 : k = a
      · subst h2; simp [put, find, Ne.symm h]
      · simp [put, find, h1, h2, ih]

/-- A read at a key that was not removed. -/
theorem find_del_other (m : KMap α) {k n : Nat} (h : n ≠ k) : find (del m k) n = find m n := by
  induction m with
  | nil => rfl
  | cons e r ih =>
    obtain ⟨a, w⟩ := e
    by_cases h1 : a = k
    · subst h1; simp [del, find, Ne.symm h]
    · simp [del, find, h1, ih]

theorem risingFrom_mono {m : KMap α} {lo l : Nat} (h : risingFrom lo m = true) (hl : l ≤ lo) : risingFrom l m = true := by
  cases m with
  | nil => rfl
  | cons e r => obtain ⟨a, w⟩ := e; simp [risingFrom] at h ⊢; exact ⟨by omega, h.2⟩

/-- Nothing is listed below the least key. -/
theorem find_below {m : KMap α} {lo k : Nat} (h : risingFrom lo m = true) (hk : k < lo) : find m k = none := by
  induction m generalizing lo with
  | nil => rfl
  | cons e r ih =>
    obtain ⟨a, w⟩ := e
    simp [risingFrom] at h
    have : a ≠ k := by omega
    simp [find, this, ih h.2 (by omega)]

/-- A read at a removed key. -/
theorem find_del_same {m : KMap α} {lo : Nat} (k : Nat) (h : risingFrom lo m = true) : find (del m k) k = none := by
  induction m generalizing lo with
  | nil => rfl
  | cons e r ih =>
    obtain ⟨a, w⟩ := e
    simp [risingFrom] at h
    by_cases h1 : a = k
    · simp [del, h1]; exact find_below h.2 (by omega)
    · simp [del, find, h1, ih h.2]

theorem risingFrom_put {m : KMap α} {lo : Nat} (k : Nat) (v : α) (h : risingFrom lo m = true) (hk : lo ≤ k) :
    risingFrom lo (put m k v) = true := by
  induction m generalizing lo with
  | nil => simp [put, risingFrom, hk]
  | cons e r ih =>
    obtain ⟨a, w⟩ := e
    simp [risingFrom] at h
    by_cases h1 : k < a
    · simp [put, risingFrom, h1, hk, h.2]
    · by_cases h2 : k = a
      · subst h2; simp [put, risingFrom, h]
      · simp [put, risingFrom, h1, h2, h.1, ih h.2 (by omega)]

theorem risingFrom_del {m : KMap α} {lo : Nat} (k : Nat) (h : risingFrom lo m = true) : risingFrom lo (del m k) = true := by
  induction m generalizing lo with
  | nil => rfl
  | cons e r ih =>
    obtain ⟨a, w⟩ := e
    simp [risingFrom] at h
    by_cases h1 : a = k
    · simp [del, h1]; exact risingFrom_mono h.2 (by omega)
    · simp [del, risingFrom, h1, h.1, ih h.2]

theorem risingFrom_edit {m : KMap α} {lo : Nat} (k : Nat) (f : α → α) (h : risingFrom lo m = true) :
    risingFrom lo (edit m k f) = true := by
  induction m generalizing lo with
  | nil => rfl
  | cons e r ih =>
    obtain ⟨a, w⟩ := e
    simp [risingFrom] at h
    have hr := ih h.2
    by_cases h1 : a = k <;> simp_all [edit, risingFrom]

theorem risingFrom_mapVals {m : KMap α} {lo : Nat} (f : α → α) (h : risingFrom lo m = true) :
    risingFrom lo (mapVals m f) = true := by
  induction m generalizing lo with
  | nil => rfl
  | cons e r ih =>
    obtain ⟨a, w⟩ := e
    simp [risingFrom] at h
    have hr := ih h.2
    simp_all [mapVals, risingFrom]

theorem risingFrom_filter {m : KMap α} {lo : Nat} (p : Nat × α → Bool) (h : risingFrom lo m = true) :
    risingFrom lo (m.filter p) = true := by
  induction m generalizing lo with
  | nil => rfl
  | cons e r ih =>
    obtain ⟨a, w⟩ := e
    simp [risingFrom] at h
    by_cases hp : p (a, w) = true
    · simp [hp, risingFrom, h.1, ih h.2]
    · simp [hp]; exact risingFrom_mono (ih h.2) (by omega)

/-- A read after one entry was changed. -/
theorem find_edit (m : KMap α) (k : Nat) (f : α → α) (n : Nat) :
    find (edit m k f) n = if n = k then (find m n).map f else find m n := by
  induction m with
  | nil => simp [edit]
  | cons e r ih =>
    obtain ⟨a, w⟩ := e
    simp only [edit] at ih
    by_cases h1 : a = k <;> by_cases h2 : a = n <;> simp_all [edit, find]

@[simp] theorem find_mapVals (m : KMap α) (f : α → α) (n : Nat) : find (mapVals m f) n = (find m n).map f := by
  induction m with
  | nil => rfl
  | cons e r ih =>
    obtain ⟨a, w⟩ := e
    simp only [mapVals] at ih
    by_cases h : a = n <;> simp [mapVals, find, h, ih]

/-- A read after a write that lists no default. -/
theorem get_store_same [DecidableEq α] {m : KMap α} {lo : Nat} (k : Nat) (v d : α) (h : risingFrom lo m = true) :
    get (store m k v d) k d = v := by
  by_cases hv : v = d
  · simp [store, get, hv, find_del_same k h]
  · simp [store, get, hv]

theorem get_store_other [DecidableEq α] (m : KMap α) {k n : Nat} (v d : α) (h : n ≠ k) :
    get (store m k v d) n d = get m n d := by
  by_cases hv : v = d
  · simp [store, get, hv, find_del_other m h]
  · simp [store, get, hv, find_put_other m v h]

theorem risingFrom_store [DecidableEq α] {m : KMap α} (k : Nat) (v d : α) (h : risingFrom 0 m = true) :
    risingFrom 0 (store m k v d) = true := by
  by_cases hv : v = d
  · simp [store, hv, risingFrom_del k h]
  · simp [store, hv, risingFrom_put k v h (Nat.zero_le k)]

end Sys2Proof.Machine
end

