-- ==== Sys2Proof/Laws/Memory.lean ====
section
/-! SUPPORT. Bytes of memory: a read after a write, and that every operation which writes memory keeps its canonical form. -/

namespace Sys2Proof.Machine

variable {m : List Host.Cell}

/-- What the canonical form says of the list. -/
theorem Memory.wf_iff : Memory.wf m = true ↔ risingFrom 0 m = true ∧ ∀ c ∈ m, c.2 ≠ 0 := by
  simp [Memory.wf]

/-- A write lists no byte that was not listed or is not the one written. -/
theorem mem_store {a : Nat} {b : Byte} {c : Host.Cell} (h : c ∈ store m a b 0) : c ∈ m ∨ (c = (a, b) ∧ b ≠ 0) := by
  have hput : ∀ l : List Host.Cell, c ∈ put l a b → c ∈ l ∨ c = (a, b) := by
    intro l; induction l with
    | nil => simp [put]
    | cons e r ih =>
      obtain ⟨k, w⟩ := e
      unfold put; split
      · simp; tauto
      · split
        · simp; tauto
        · simp; intro h; rcases h with h | h
          · exact .inl (.inl h)
          · rcases ih h with h | h <;> tauto
  have hdel : ∀ l : List Host.Cell, c ∈ del l a → c ∈ l := by
    intro l; induction l with
    | nil => simp [del]
    | cons e r ih =>
      obtain ⟨k, w⟩ := e
      unfold del; split
      · intro h; exact List.mem_cons_of_mem _ h
      · simp; intro h; rcases h with h | h
        · exact .inl h
        · exact .inr (ih h)
  unfold store at h; split at h
  · exact .inl (hdel m h)
  · rename_i hb; rcases hput m h with h | h
    · exact .inl h
    · exact .inr ⟨h, hb⟩

/-- A write of one byte keeps the canonical form. -/
theorem wf_writeByte (a : Nat) (b : Byte) (h : Memory.wf m = true) : Memory.wf (writeByte m a b) = true := by
  rw [Memory.wf_iff] at h ⊢
  refine ⟨risingFrom_store a b 0 h.1, fun c hc => ?_⟩
  rcases mem_store hc with hc | ⟨rfl, hb⟩
  · exact h.2 c hc
  · exact hb

theorem wf_writeBytes (a : Nat) (bs : List Byte) (h : Memory.wf m = true) : Memory.wf (writeBytes m a bs) = true := by
  induction bs generalizing m a with
  | nil => exact h
  | cons b bs ih => exact ih (a + 1) (wf_writeByte a b h)

theorem wf_writeLE (a n v : Nat) (h : Memory.wf m = true) : Memory.wf (writeLE m a n v) = true := wf_writeBytes a _ h

theorem wf_writeLine (a : Nat) (l : Line) (h : Memory.wf m = true) : Memory.wf (writeLine m a l) = true := wf_writeLE a _ _ h

/-- A read at the byte just written. -/
theorem readByte_writeByte_same (a : Nat) (b : Byte) (h : Memory.wf m = true) : readByte (writeByte m a b) a = b :=
  get_store_same a b 0 (Memory.wf_iff.mp h).1

/-- A write leaves every other byte. -/
theorem readByte_writeByte_other {a n : Nat} (b : Byte) (h : n ≠ a) : readByte (writeByte m a b) n = readByte m n :=
  get_store_other m b 0 h

/-- A write of several bytes leaves the bytes outside them. -/
theorem readByte_writeBytes_outside {a n : Nat} (bs : List Byte) (h : n < a ∨ a + bs.length ≤ n) :
    readByte (writeBytes m a bs) n = readByte m n := by
  induction bs generalizing m a with
  | nil => rfl
  | cons b bs ih =>
    simp at h
    rw [writeBytes, ih (by omega), readByte_writeByte_other b (by omega)]

/-- A read of a byte among several just written. -/
theorem readByte_writeBytes_inside {a k : Nat} (bs : List Byte) (h : Memory.wf m = true) (hk : k < bs.length) :
    readByte (writeBytes m a bs) (a + k) = bs[k] := by
  induction bs generalizing m a k with
  | nil => simp at hk
  | cons b bs ih =>
    rw [writeBytes]
    cases k with
    | zero =>
      rw [readByte_writeBytes_outside bs (by omega)]
      exact readByte_writeByte_same a b h
    | succ k =>
      have := ih (a := a + 1) (k := k) (wf_writeByte a b h) (by simpa using hk)
      rw [show a + (k + 1) = a + 1 + k by omega]
      simpa using this

@[simp] theorem length_leBytes (n v : Nat) : (leBytes n v).length = n := by
  induction n generalizing v with
  | zero => rfl
  | succ n ih => simp [leBytes, ih]

/-- A write of a number leaves the bytes outside it. -/
theorem readByte_writeLE_outside {a n k : Nat} (v : Nat) (h : k < a ∨ a + n ≤ k) :
    readByte (writeLE m a n v) k = readByte m k :=
  readByte_writeBytes_outside _ (by simpa using h)

/-! ## The operations of the machine that write memory -/

variable {s : State}

@[simp] theorem setLine_mem (s : State) (line : Nat) (l : Line) (p : BitVec 2) :
    (setLine s line l p).mem = writeLine s.mem line l := by
  rw [setLine, setPoison_mem, setPoison_mem]

theorem wf_setLine (line : Nat) (l : Line) (p : BitVec 2) (h : Memory.wf s.mem = true) :
    Memory.wf (setLine s line l p).mem = true := by
  simpa using wf_writeLine line l h

@[simp] theorem dropCopies_mem (s : State) (line : Nat) : (dropCopies s line).mem = s.mem := rfl

@[simp] theorem dropDecoded_mem (s : State) (line : Nat) (raw : BitVec 128) : (dropDecoded s line raw).mem = s.mem := by
  unfold dropDecoded; dsimp only; split <;> rfl

@[simp] theorem refreshReplies_mem (s : State) (line : Nat) : (refreshReplies s line).mem = s.mem := rfl

@[simp] theorem notePost_mem (s : State) (line : Nat) (bytes : BitVec 128) : (notePost s line bytes).mem = s.mem := by
  unfold notePost; dsimp only; split <;> rfl

/-- What a store at the home does to memory. -/
theorem homeStore_mem (s : State) (line : Nat) (bytes : BitVec 128) (d : Line) (p : BitVec 2) (raw : BitVec 128) :
    (homeStore s line bytes d p raw).mem = writeLine s.mem line (mergeLine (readLine s.mem line) bytes d) := by
  simp [homeStore]

theorem wf_homeStore (line : Nat) (bytes : BitVec 128) (d : Line) (p : BitVec 2) (raw : BitVec 128)
    (h : Memory.wf s.mem = true) : Memory.wf (homeStore s line bytes d p raw).mem = true := by
  rw [homeStore_mem]; exact wf_writeLine _ _ h

theorem wf_homeWrite (pa n v : Nat) (h : Memory.wf s.mem = true) : Memory.wf (homeWrite s pa n v).mem = true :=
  wf_homeStore _ _ _ _ _ h

theorem wf_homePieces (n pa : Nat) (bs : List Byte) (h : Memory.wf s.mem = true) :
    Memory.wf (homePieces n s pa bs).mem = true := by
  induction n generalizing s pa bs with
  | zero => exact h
  | succ n ih =>
    unfold homePieces; split
    · exact h
    · exact ih _ _ (wf_homeWrite _ _ _ h)

theorem wf_homeBytes (pa : Nat) (bs : List Byte) (h : Memory.wf s.mem = true) : Memory.wf (homeBytes s pa bs).mem = true :=
  wf_homePieces _ _ _ h

theorem wf_writeHusk (a : Nat) (ls : List (List Byte)) (h : Memory.wf s.mem = true) :
    Memory.wf (writeHusk s a ls).mem = true := by
  induction ls generalizing s a with
  | nil => exact h
  | cons l ls ih => exact ih _ (wf_homeStore _ _ _ _ _ h)

/-- A translation fills TLBs alone. -/
@[simp] theorem translate_mem (s : State) (c ctx va : Nat) (ok : Word → Bool) : (translate s c ctx va ok).2.mem = s.mem := by
  unfold translate
  split
  · rfl
  · split
    · rfl
    · split
      · dsimp only; split <;> rfl
      · rfl

/-- What an engine's write leaves behind before it writes is translations alone. -/
@[simp] theorem engineSee_write_mem (s : State) (c ctx va n : Nat) : (engineSee s c ctx va n true).mem = s.mem := by
  unfold engineSee
  induction spanOffs va n generalizing s with
  | nil => rfl
  | cons o l ih =>
    rw [List.foldl_cons, ih]
    split
    · rfl
    · split
      · rename_i h; simpa using congrArg (fun x => x.2.mem) h.symm
      · rename_i h; simpa using congrArg (fun x => x.2.mem) h.symm

theorem wf_engineWrite {c ctx va : Nat} {bs : List Nat} {pois : Bool} {t : State} (h : Memory.wf s.mem = true)
    (ht : engineWrite s c ctx va bs pois = .ok t) : Memory.wf t.mem = true := by
  unfold engineWrite at ht
  split at ht
  · cases ht
  · cases ht; exact wf_homeStore _ _ _ _ _ (by simpa using h)

theorem wf_dropAtomics (uid : Nat) (h : Memory.wf s.mem = true) : Memory.wf (dropAtomics s uid).mem = true := by
  have : ∀ (l : List HeldLine) (s : State), Memory.wf s.mem = true →
      Memory.wf (l.foldl (fun s h => setLine s h.line h.old h.oldPoison) s).mem = true := by
    intro l; induction l with
    | nil => intro s h; exact h
    | cons x l ih => intro s h; exact ih _ (wf_setLine _ _ _ h)
  exact this _ s h

end Sys2Proof.Machine
end

