-- ==== Sys2Proof/Laws/Ops.lean ====
section
/-! SUPPORT. What each shared operation can do, said once: an instruction's turn at its site, delivery, resolution, the
raised fault, a step. -/

namespace Sys2Proof.Machine

/-! ## An instruction's turn -/

/-- With a block in focus an instruction's meaning runs at its site. -/
theorem atSite_some {s : State} {x : Site} (f : Site → State) (h : site? s = some x) : atSite s f = .next (f x) := by
  simp [atSite, h]

/-- An instruction's meaning that answers a next state ran at the site in focus. -/
theorem atSite_next {s t : State} {f : Site → State} (h : atSite s f = .next t) : ∃ x, site? s = some x ∧ t = f x := by
  unfold atSite at h
  split at h
  · rename_i x hx; cases h; exact ⟨x, hx, rfl⟩
  · cases h

/-- What a site names: the strand of its key and, in it, the first block of the focus's number. -/
theorem site?_eq {s : State} {x : Site} (h : site? s = some x) :
    find s.strands x.key = some x.st ∧ x.st.blocks.find? (fun b => b.uid == x.b.uid) = some x.b ∧
      ∃ f, s.focus = some f ∧ x.key = strandKey f.core f.entry ∧ f.blk = x.b.uid ∧ f.index = x.i := by
  simp only [site?, bind, pure, Option.bind_eq_some_iff, Option.some.injEq] at h
  obtain ⟨f, hf, st, hst, b, hb, rfl⟩ := h
  have hu : b.uid = f.blk := by simpa using List.find?_some hb
  exact ⟨hst, by rw [hu]; exact hb, f, hf, rfl, hu.symm, rfl⟩

/-- The strand of a block changed twice. -/
theorem mod_mod (x : Site) (s : State) (f g : Blk → Blk) (hf : ∀ b, (f b).uid = b.uid) :
    x.mod (x.mod s f) g = x.mod s (g ∘ f) := by
  simp only [Site.mod, modBlk, modStrand, edit, List.map_map]
  congr 2
  funext e
  by_cases h : e.1 = x.key
  · simp only [Function.comp, h, if_true, List.map_map]
    congr 3
    funext b
    by_cases hb : b.uid = x.b.uid <;> simp [hb, hf]
  · simp [h]

/-- A site's block changed by nothing is the state as it was. -/
theorem mod_id (x : Site) (s : State) : x.mod s id = s := by
  simp [Site.mod, modBlk, modStrand, edit]

/-- After the site's block changed, the site names the changed block. -/
theorem site?_mod {s : State} {x : Site} (f : Blk → Blk) (hf : ∀ b, (f b).uid = b.uid) (h : site? s = some x) :
    site? (x.mod s f) = some
      ⟨x.key, { x.st with blocks := x.st.blocks.map fun b => if b.uid = x.b.uid then f b else b }, f x.b, x.i⟩ := by
  obtain ⟨hst, hb, fo, hfo, hk, hu, hi⟩ := site?_eq h
  have key : ∀ l : List Blk, (l.map fun b => if b.uid = x.b.uid then f b else b).find? (fun b => b.uid == x.b.uid) =
      (l.find? fun b => b.uid == x.b.uid).map f := by
    intro l
    induction l with
    | nil => rfl
    | cons b l ih => by_cases hbu : b.uid = x.b.uid <;> simp [hbu, hf, ih]
  simp [site?, hfo, ← hk, Site.mod, modBlk, modStrand, find_edit, hst, hu, hi, key, hb]

/-- Another strand after a site's block changed. -/
theorem find_strands_mod (x : Site) (s : State) (f : Blk → Blk) {k : Nat} (h : k ≠ x.key) :
    find (x.mod s f).strands k = find s.strands k := by
  simp [Site.mod, modBlk, modStrand, find_edit, h]

/-- A site's place does not depend on its block. -/
theorem place_mod (x : Site) (s : State) (f : Blk → Blk) : x.place (x.mod s f) = x.place s := by
  simp only [Site.place, placeOf, Site.mod, modBlk, modStrand, find_edit, if_true]
  rcases find s.strands x.key with _ | v
  · rfl
  · simp only [Option.map_some, Option.bind_eq_bind, Option.bind_some]
    rcases find s.groups v.group with _ | g
    · rfl
    · simp only [Option.bind_some]
      rcases find s.wgs g.wg with _ | w
      · rfl
      · simp only [Option.bind_some]
        rcases find s.launches w.launch with _ | l <;> rfl

/-! ## Delivery and resolution -/

@[simp] theorem deliver_uid (b : Blk) (g : Target) (t : Token) : (b.deliver g t).uid = b.uid := by
  unfold Blk.deliver; split <;> rfl

/-- Delivery changes only the slots. -/
theorem deliver_eq (b : Blk) (g : Target) (t : Token) : b.deliver g t = { b with slots := (b.deliver g t).slots } := by
  unfold Blk.deliver; split <;> rfl

/-- What a slot holds after a delivery. -/
theorem find_deliver (b : Blk) (g : Target) (t : Token) (k : Nat) :
    find (b.deliver g t).slots k = if Target.slot? g = some k then some t else find b.slots k := by
  unfold Blk.deliver
  split
  · rename_i n hn
    by_cases h : k = n
    · subst h; simp [hn]
    · simp [hn, find_put_other _ t h, Ne.symm h]
  · rename_i hn; simp [hn]

/-- Everything an instruction's firing with two tokens does to its block. -/
theorem finish_eq (b : Blk) (i : Nat) (ga gb : Target) (ta tb : Token) : b.finish i ga gb ta tb =
    { b with
      slots := ((b.deliver ga ta).deliver gb tb).slots
      fired := b.fired ||| Mask.one i
      resolved := b.resolved ||| Mask.one i
      waits := del b.waits i } := by
  unfold Blk.finish
  rw [deliver_eq (b.deliver ga ta), deliver_eq b ga]
  rfl

@[simp] theorem finish_uid (b : Blk) (i : Nat) (ga gb : Target) (ta tb : Token) : (b.finish i ga gb ta tb).uid = b.uid := by
  rw [finish_eq]

/-- A raised fault: the first one raised decides, and of those of one clock the one of the lower index (R135, R377). -/
theorem raise_cases (b : Blk) (now : Nat) (r : Raised) :
    (b.raised = none ∧ b.raise now r = { b with raised := some r, raisedAt := now }) ∨
      ∃ q, b.raised = some q ∧
        ((b.raisedAt = now ∧ r.index < q.index ∧ b.raise now r = { b with raised := some r }) ∨
          (¬(b.raisedAt = now ∧ r.index < q.index) ∧ b.raise now r = b)) := by
  unfold Blk.raise
  rcases h : b.raised with _ | q
  · exact .inl ⟨rfl, rfl⟩
  · refine .inr ⟨q, rfl, ?_⟩
    by_cases c : b.raisedAt = now ∧ r.index < q.index
    · exact .inl ⟨c.1, c.2, by simp [c]⟩
    · exact .inr ⟨c, by simp [c]⟩

/-- A block that has raised a fault is still one that has. -/
theorem raise_isSome (b : Blk) (now : Nat) (r : Raised) : (b.raise now r).raised.isSome = true := by
  rcases raise_cases b now r with ⟨-, h⟩ | ⟨q, hq, ⟨-, -, h⟩ | ⟨-, h⟩⟩ <;> simp [*]

/-! ## The step -/

/-- An event that is held changes the inputs that wait alone. -/
theorem keepHeld_eq (i : Instr) (s t : State) : ∃ l, keepHeld i s t = { t with inbox := l } := by
  unfold keepHeld; split <;> exact ⟨_, rfl⟩

@[simp] theorem keepHeld_mem (i : Instr) (s t : State) : (keepHeld i s t).mem = t.mem := by
  obtain ⟨l, h⟩ := keepHeld_eq i s t; rw [h]

@[simp] theorem takeOwed_mem (s : State) (c e u i : Nat) : (takeOwed s c e u i).mem = s.mem := rfl

/-- What a step can be: a choice, an event, the firing of an instruction, or the pick that one which is not ready owes. -/
theorem step_cases {s t : State} (h : step s = .next t) :
    (s.pick = none ∧ t = select s) ∨
    (∃ i r, s.pick = some (.event i) ∧ exec i { s with pick := none } = .next r ∧
      t = keepHeld i { s with pick := none } r) ∨
      ∃ c e u n, s.pick = some (.insn c e u n) ∧
        ((readyWord { s with pick := none } c e u n = none ∧ t = takeOwed { s with pick := none } c e u n) ∨
          ∃ w i r, readyWord { s with pick := none } c e u n = some w ∧ decodeWord w = .ok i ∧
            exec i (focusOn { s with pick := none } c e u n) = .next r ∧ t = leaveFocus r c e u n) := by
  unfold step at h
  split at h
  · rename_i hp; cases h; exact .inl ⟨hp, rfl⟩
  · rename_i a hp
    right
    cases a with
    | event i =>
      left
      unfold run at h
      split at h
      · rename_i j hj
        cases hj
        split at h
        · rename_i r hr; cases h; exact ⟨i, r, hp, hr, rfl⟩
        · cases h
        · cases h
      · rename_i hi; exact absurd hi (by simp)
    | insn c e u n =>
      refine .inr ⟨c, e, u, n, hp, ?_⟩
      unfold run at h
      split at h
      · rename_i hi; exact absurd hi (by simp)
      · rename_i c' e' u' n' hi
        cases hi
        split at h
        · rename_i hw; cases h; exact .inl ⟨hw, rfl⟩
        · rename_i w hw
          split at h
          · cases h
          · rename_i i hd
            split at h
            · rename_i r hr; cases h; exact .inr ⟨w, i, r, hw, hd, hr, rfl⟩
            · cases h
            · cases h

/-! ## The selection -/

/-- A pick's counts touch a strand's count and AGED alone. -/
theorem passOver_eq (s : State) (c n : Nat) (r : Ready) : ∃ f : Nat × Strand → Nat, ∃ cores,
    passOver s c n r = { s with strands := s.strands.map fun e => (e.1, { e.2 with passed := f e }), cores := cores } := by
  unfold passOver
  dsimp only
  split
  · exact ⟨_, _, rfl⟩
  · exact ⟨_, s.cores, rfl⟩

/-- What comes of a selected action: the action stands, or a pick of its partition with its counts. -/
theorem take_cases (s : State) (a : Act) (k : Nat) :
    take s a k = { s with pick := some a } ∨ ∃ c n r b, take s a k = { passOver s c n r with pick := some b } := by
  unfold take
  dsimp only
  repeat' split
  all_goals try exact .inl rfl
  rename_i g q h
  unfold issue
  rcases bestOf _ with _ | r
  · exact .inl rfl
  · exact .inr ⟨_, _, r, _, rfl⟩

/-- What a selection can be: what is due in the present clock, the outside's oldest input, time that passes, nothing, or one of
the machine's own actions. -/
theorem select_cases (s : State) :
    (∃ a ∈ dueActs s, changes s a = true ∧ select s = { s with turn := s.turn + 1, asked := false, pick := some a }) ∨
    (∃ i rest, s.inbox = i :: rest ∧ select s = { s with
      turn := s.turn + 1, pick := some (.event i), inbox := rest, asked := true }) ∨
    select s = passTime { s with turn := s.turn + 1, asked := false } s.turn ∨
    select s = { s with turn := s.turn + 1, asked := false } ∨
    ∃ a k, a ∈ candidates s ∧ select s = take { s with turn := s.turn + 1, asked := false } a k := by
  unfold select
  split
  · rename_i a h; exact .inl ⟨a, List.mem_of_find?_eq_some h, List.find?_some h, rfl⟩
  · dsimp only
    right
    split
    · rename_i i rest hn hi; exact .inl ⟨i, rest, hi, rfl⟩
    · exact .inr (.inr (.inl rfl))
    · exact .inr (.inl rfl)
    · right; right
      split
      · rename_i a h; exact .inr ⟨a, _, List.mem_of_getElem? h, rfl⟩
      · exact .inl rfl

/-- A choice of the next action leaves memory. -/
@[simp] theorem select_mem (s : State) : (select s).mem = s.mem := by
  rcases select_cases s with ⟨a, -, -, h⟩ | ⟨i, r, -, h⟩ | h | h | ⟨a, k, -, h⟩ <;> rw [h]
  · rfl
  · rcases take_cases { s with turn := s.turn + 1, asked := false } a k with h | ⟨c, n, r, b, h⟩
    · rw [h]
    · obtain ⟨f, cores, e⟩ := passOver_eq { s with turn := s.turn + 1, asked := false } c n r
      rw [h, e]

end Sys2Proof.Machine
end

