-- ==== Sys2Proof/Laws/PerInstr.lean ====
section
/-! SUPPORT. One lemma per instruction: building the instruction from the fields that encode it gives it back, with every
operand at every value (the half of the encoding that does not touch bits). An event has no fields. -/

/-- The fields that encode the instruction build it again. -/
def Sys2Proof.Laws.Fields.Statement (i : Sys2Proof.Instr) : Prop :=
  ∀ p, i.parts = some p → i.srcOk = true → p.build = some i

namespace Sys2Proof.Laws.Fields

theorem nop (w : Plain) : Statement (.nop w) := by
  rintro p ⟨⟩ _; rfl

theorem mov (w : Fan) : Statement (.mov w) := by
  rintro p ⟨⟩ _; rfl

theorem const (shift : BitVec 4) (w : Plain) : Statement (.const shift w) := by
  rintro p ⟨⟩ _; rfl

theorem consth (w : Plain) : Statement (.consth w) := by
  rintro p ⟨⟩ _; rfl

theorem steer (w : Plain) : Statement (.steer w) := by
  rintro p ⟨⟩ _; rfl

theorem merge (w : Plain) : Statement (.merge w) := by
  rintro p ⟨⟩ _; rfl

theorem select (w : Plain) : Statement (.select w) := by
  rintro p ⟨⟩ _; rfl

theorem nullify (w : Plain) : Statement (.nullify w) := by
  rintro p ⟨⟩ _; rfl

theorem exit (w : ExitW) : Statement (.exit w) := by
  rintro p ⟨⟩ _; rfl

theorem call (w : ExitW) : Statement (.call w) := by
  rintro p ⟨⟩ _; rfl

theorem ret (w : ExitW) : Statement (.ret w) := by
  rintro p ⟨⟩ _; rfl

theorem quit (w : Plain) : Statement (.quit w) := by
  rintro p ⟨⟩ _; rfl

theorem idx (w : Plain) : Statement (.idx w) := by
  rintro p ⟨⟩ _; rfl

theorem spr (w : Plain) : Statement (.spr w) := by
  rintro p ⟨⟩ _; rfl

theorem add (w : Plain) : Statement (.add w) := by
  rintro p ⟨⟩ _; rfl

theorem sub (w : Plain) : Statement (.sub w) := by
  rintro p ⟨⟩ _; rfl

theorem adds (w : Plain) : Statement (.adds w) := by
  rintro p ⟨⟩ _; rfl

theorem subs (w : Plain) : Statement (.subs w) := by
  rintro p ⟨⟩ _; rfl

theorem addc (w : Plain) : Statement (.addc w) := by
  rintro p ⟨⟩ _; rfl

theorem subb (w : Plain) : Statement (.subb w) := by
  rintro p ⟨⟩ _; rfl

theorem mul (w : Plain) : Statement (.mul w) := by
  rintro p ⟨⟩ _; rfl

theorem mulh (w : Plain) : Statement (.mulh w) := by
  rintro p ⟨⟩ _; rfl

theorem mad (w : Plain) : Statement (.mad w) := by
  rintro p ⟨⟩ _; rfl

theorem min (w : Plain) : Statement (.min w) := by
  rintro p ⟨⟩ _; rfl

theorem max (w : Plain) : Statement (.max w) := by
  rintro p ⟨⟩ _; rfl

theorem abs (w : Plain) : Statement (.abs w) := by
  rintro p ⟨⟩ _; rfl

theorem neg (w : Plain) : Statement (.neg w) := by
  rintro p ⟨⟩ _; rfl

theorem and (w : Plain) : Statement (.and w) := by
  rintro p ⟨⟩ _; rfl

theorem or (w : Plain) : Statement (.or w) := by
  rintro p ⟨⟩ _; rfl

theorem xor (w : Plain) : Statement (.xor w) := by
  rintro p ⟨⟩ _; rfl

theorem andn (w : Plain) : Statement (.andn w) := by
  rintro p ⟨⟩ _; rfl

theorem not (w : Plain) : Statement (.not w) := by
  rintro p ⟨⟩ _; rfl

theorem shl (w : Plain) : Statement (.shl w) := by
  rintro p ⟨⟩ _; rfl

theorem shr (w : Plain) : Statement (.shr w) := by
  rintro p ⟨⟩ _; rfl

theorem sar (w : Plain) : Statement (.sar w) := by
  rintro p ⟨⟩ _; rfl

theorem rot (w : Plain) : Statement (.rot w) := by
  rintro p ⟨⟩ _; rfl

theorem bfx (w : Plain) : Statement (.bfx w) := by
  rintro p ⟨⟩ _; rfl

theorem bfi (w : Plain) : Statement (.bfi w) := by
  rintro p ⟨⟩ _; rfl

theorem popc (w : Plain) : Statement (.popc w) := by
  rintro p ⟨⟩ _; rfl

theorem clz (w : Plain) : Statement (.clz w) := by
  rintro p ⟨⟩ _; rfl

theorem ctz (w : Plain) : Statement (.ctz w) := by
  rintro p ⟨⟩ _; rfl

theorem brev (w : Plain) : Statement (.brev w) := by
  rintro p ⟨⟩ _; rfl

theorem bswap (w : Plain) : Statement (.bswap w) := by
  rintro p ⟨⟩ _; rfl

theorem cmp (c : ICond) (w : Plain) : Statement (.cmp c w) := by
  rintro p ⟨⟩ _; cases c <;> rfl

theorem clmul (w : Plain) : Statement (.clmul w) := by
  rintro p ⟨⟩ _; rfl

theorem clmulh (w : Plain) : Statement (.clmulh w) := by
  rintro p ⟨⟩ _; rfl

theorem lea (scale : BitVec 3) (w : Plain) : Statement (.lea scale w) := by
  rintro p ⟨⟩ _; simp [Parts.build, buildPlain]

theorem widf (field : BitVec 3) (w : Plain) : Statement (.widf field w) := by
  rintro p ⟨⟩ _; simp [Parts.build, buildPlain]

theorem fadd (rm : Rnd) (w : Plain) : Statement (.fadd rm w) := by
  rintro p ⟨⟩ _; cases rm <;> rfl

theorem fsub (rm : Rnd) (w : Plain) : Statement (.fsub rm w) := by
  rintro p ⟨⟩ _; cases rm <;> rfl

theorem fmul (rm : Rnd) (w : Plain) : Statement (.fmul rm w) := by
  rintro p ⟨⟩ _; cases rm <;> rfl

theorem ffma (rm : Rnd) (w : Plain) : Statement (.ffma rm w) := by
  rintro p ⟨⟩ _; cases rm <;> rfl

theorem fmin (w : Plain) : Statement (.fmin w) := by
  rintro p ⟨⟩ _; rfl

theorem fmax (w : Plain) : Statement (.fmax w) := by
  rintro p ⟨⟩ _; rfl

theorem fabs (w : Plain) : Statement (.fabs w) := by
  rintro p ⟨⟩ _; rfl

theorem fneg (w : Plain) : Statement (.fneg w) := by
  rintro p ⟨⟩ _; rfl

theorem fcmp (c : FCond) (w : Plain) : Statement (.fcmp c w) := by
  rintro p ⟨⟩ _; cases c <;> rfl

theorem frcp (w : Plain) : Statement (.frcp w) := by
  rintro p ⟨⟩ _; rfl

theorem frsq (w : Plain) : Statement (.frsq w) := by
  rintro p ⟨⟩ _; rfl

theorem fexp2 (w : Plain) : Statement (.fexp2 w) := by
  rintro p ⟨⟩ _; rfl

theorem flog2 (w : Plain) : Statement (.flog2 w) := by
  rintro p ⟨⟩ _; rfl

theorem fsinp (w : Plain) : Statement (.fsinp w) := by
  rintro p ⟨⟩ _; rfl

theorem fcosp (w : Plain) : Statement (.fcosp w) := by
  rintro p ⟨⟩ _; rfl

theorem fsqrt (rm : Rnd) (w : Plain) : Statement (.fsqrt rm w) := by
  rintro p ⟨⟩ _; cases rm <;> rfl

theorem frnd (rm : Rnd) (w : Plain) : Statement (.frnd rm w) := by
  rintro p ⟨⟩ _; cases rm <;> rfl

theorem fcls (w : Plain) : Statement (.fcls w) := by
  rintro p ⟨⟩ _; rfl

theorem fscl (rm : Rnd) (w : Plain) : Statement (.fscl rm w) := by
  rintro p ⟨⟩ _; cases rm <;> rfl

theorem fdot2 (rm : Rnd) (w : Plain) : Statement (.fdot2 rm w) := by
  rintro p ⟨⟩ _; cases rm <;> rfl

theorem cvt (src : SrcFmt) (w : Plain) : Statement (.cvt src w) := by
  rintro p ⟨⟩ h
  cases src with
  | e8m0 => rfl
  | ty t => cases t <;> first | rfl | cases h

theorem pack (rm : Rnd) (w : Plain) : Statement (.pack rm w) := by
  rintro p ⟨⟩ _; cases rm <;> rfl

theorem unpk (w : Plain) : Statement (.unpk w) := by
  rintro p ⟨⟩ _; rfl

theorem lqd (w : Plain) : Statement (.lqd w) := by
  rintro p ⟨⟩ _; rfl

theorem sclx (w : Plain) : Statement (.sclx w) := by
  rintro p ⟨⟩ _; rfl

theorem shfl (m : ShflMode) (w : Plain) : Statement (.shfl m w) := by
  rintro p ⟨⟩ _; cases m <;> rfl

theorem vote (m : VoteMode) (w : Plain) : Statement (.vote m w) := by
  rintro p ⟨⟩ _; cases m <;> rfl

theorem redux (m : RedMode) (w : Plain) : Statement (.redux m w) := by
  rintro p ⟨⟩ _; cases m <;> rfl

theorem elect (hi : Bool) (w : Plain) : Statement (.elect hi w) := by
  rintro p ⟨⟩ _; cases hi <;> rfl

theorem xshfl (w : Plain) : Statement (.xshfl w) := by
  rintro p ⟨⟩ _; rfl

theorem mask (keep : Bool) (w : Plain) : Statement (.mask keep w) := by
  rintro p ⟨⟩ _; cases keep <;> rfl

theorem regang (w : ExitW) : Statement (.regang w) := by
  rintro p ⟨⟩ _; rfl

theorem bar (n : BitVec 4) (w : Plain) : Statement (.bar n w) := by
  rintro p ⟨⟩ _; rfl

theorem arrv (n : BitVec 4) (w : Plain) : Statement (.arrv n w) := by
  rintro p ⟨⟩ _; rfl

theorem ld (w : MemW) : Statement (.ld w) := by
  rintro p ⟨⟩ _; rfl

theorem lds (w : MemW) : Statement (.lds w) := by
  rintro p ⟨⟩ _; rfl

theorem ldc (w : MemW) : Statement (.ldc w) := by
  rintro p ⟨⟩ _; rfl

theorem st (w : MemW) : Statement (.st w) := by
  rintro p ⟨⟩ _; rfl

theorem sts (w : MemW) : Statement (.sts w) := by
  rintro p ⟨⟩ _; rfl

theorem pref (l2 : Bool) (w : MemW) : Statement (.pref l2 w) := by
  rintro p ⟨⟩ _; cases l2 <;> rfl

theorem aadd (w : MemW) : Statement (.aadd w) := by
  rintro p ⟨⟩ _; rfl

theorem afadd (w : MemW) : Statement (.afadd w) := by
  rintro p ⟨⟩ _; rfl

theorem amin (w : MemW) : Statement (.amin w) := by
  rintro p ⟨⟩ _; rfl

theorem amax (w : MemW) : Statement (.amax w) := by
  rintro p ⟨⟩ _; rfl

theorem aand (w : MemW) : Statement (.aand w) := by
  rintro p ⟨⟩ _; rfl

theorem aor (w : MemW) : Statement (.aor w) := by
  rintro p ⟨⟩ _; rfl

theorem axor (w : MemW) : Statement (.axor w) := by
  rintro p ⟨⟩ _; rfl

theorem axchg (w : MemW) : Statement (.axchg w) := by
  rintro p ⟨⟩ _; rfl

theorem acas (w : MemW) : Statement (.acas w) := by
  rintro p ⟨⟩ _; rfl

theorem fence (sc : BitVec 3) (w : Plain) : Statement (.fence sc w) := by
  rintro p ⟨⟩ _; simp [Parts.build, buildPlain]

theorem flsig (add : Bool) (w : MemW) : Statement (.flsig add w) := by
  rintro p ⟨⟩ _; cases add <;> rfl

theorem win (w : Plain) : Statement (.win w) := by
  rintro p ⟨⟩ _; rfl

theorem invl (all : Bool) (w : MemW) : Statement (.invl all w) := by
  rintro p ⟨⟩ _; cases all <;> rfl

theorem wbl (w : MemW) : Statement (.wbl w) := by
  rintro p ⟨⟩ _; rfl

theorem llock (w : MemW) : Statement (.llock w) := by
  rintro p ⟨⟩ _; rfl

theorem ltry (w : MemW) : Statement (.ltry w) := by
  rintro p ⟨⟩ _; rfl

theorem lunlk (w : MemW) : Statement (.lunlk w) := by
  rintro p ⟨⟩ _; rfl

theorem oclaim (w : Plain) : Statement (.oclaim w) := by
  rintro p ⟨⟩ _; rfl

theorem orlse (w : Plain) : Statement (.orlse w) := by
  rintro p ⟨⟩ _; rfl

theorem ofill (w : MemW) : Statement (.ofill w) := by
  rintro p ⟨⟩ _; rfl

theorem mma (mix : Bool) (w : Plain) : Statement (.mma mix w) := by
  rintro p ⟨⟩ _; cases mix <;> rfl

theorem accz (w : Plain) : Statement (.accz w) := by
  rintro p ⟨⟩ _; rfl

theorem accfl (add : Bool) (w : MemW) : Statement (.accfl add w) := by
  rintro p ⟨⟩ _; cases add <;> rfl

theorem accrd (w : Plain) : Statement (.accrd w) := by
  rintro p ⟨⟩ _; rfl

theorem mstat (w : Plain) : Statement (.mstat w) := by
  rintro p ⟨⟩ _; rfl

theorem qcfgBind (w : Plain) : Statement (.qcfgBind w) := by
  rintro p ⟨⟩ _; rfl

theorem qcfgDeq (w : Plain) : Statement (.qcfgDeq w) := by
  rintro p ⟨⟩ _; rfl

theorem qcfgUndeq (w : Plain) : Statement (.qcfgUndeq w) := by
  rintro p ⟨⟩ _; rfl

theorem qlen (w : Plain) : Statement (.qlen w) := by
  rintro p ⟨⟩ _; rfl

theorem cpyc (w : Plain) : Statement (.cpyc w) := by
  rintro p ⟨⟩ _; rfl

theorem gthc (w : Plain) : Statement (.gthc w) := by
  rintro p ⟨⟩ _; rfl

theorem colc (w : Plain) : Statement (.colc w) := by
  rintro p ⟨⟩ _; rfl

theorem send (w : Plain) : Statement (.send w) := by
  rintro p ⟨⟩ _; rfl

theorem dqpush (w : Plain) : Statement (.dqpush w) := by
  rintro p ⟨⟩ _; rfl

theorem dqpop (w : Plain) : Statement (.dqpop w) := by
  rintro p ⟨⟩ _; rfl

theorem dqsteal (w : Plain) : Statement (.dqsteal w) := by
  rintro p ⟨⟩ _; rfl

theorem lnch (w : Plain) : Statement (.lnch w) := by
  rintro p ⟨⟩ _; rfl

theorem signl (w : Plain) : Statement (.signl w) := by
  rintro p ⟨⟩ _; rfl

theorem xmatchOpen (w : Plain) : Statement (.xmatchOpen w) := by
  rintro p ⟨⟩ _; rfl

theorem xmatchRule (w : Plain) : Statement (.xmatchRule w) := by
  rintro p ⟨⟩ _; rfl

theorem xmatchJoin (w : Plain) : Statement (.xmatchJoin w) := by
  rintro p ⟨⟩ _; rfl

theorem xmatchStart (w : Plain) : Statement (.xmatchStart w) := by
  rintro p ⟨⟩ _; rfl

theorem xclr (w : Plain) : Statement (.xclr w) := by
  rintro p ⟨⟩ _; rfl

theorem xinj (w : Plain) : Statement (.xinj w) := by
  rintro p ⟨⟩ _; rfl

theorem xeject (w : Plain) : Statement (.xeject w) := by
  rintro p ⟨⟩ _; rfl

theorem xcnt (w : Plain) : Statement (.xcnt w) := by
  rintro p ⟨⟩ _; rfl

theorem xsweep (w : Plain) : Statement (.xsweep w) := by
  rintro p ⟨⟩ _; rfl

theorem xstat (w : Plain) : Statement (.xstat w) := by
  rintro p ⟨⟩ _; rfl

theorem ipatch (w : Plain) : Statement (.ipatch w) := by
  rintro p ⟨⟩ _; rfl

theorem iset (w : Plain) : Statement (.iset w) := by
  rintro p ⟨⟩ _; rfl

theorem iget (w : Plain) : Statement (.iget w) := by
  rintro p ⟨⟩ _; rfl

theorem istep (w : Plain) : Statement (.istep w) := by
  rintro p ⟨⟩ _; rfl

theorem irun (w : Plain) : Statement (.irun w) := by
  rintro p ⟨⟩ _; rfl

theorem ihalt (w : Plain) : Statement (.ihalt w) := by
  rintro p ⟨⟩ _; rfl

theorem isave (w : Plain) : Statement (.isave w) := by
  rintro p ⟨⟩ _; rfl

theorem irest (w : Plain) : Statement (.irest w) := by
  rintro p ⟨⟩ _; rfl

theorem iout (w : Plain) : Statement (.iout w) := by
  rintro p ⟨⟩ _; rfl

theorem rtcfg (w : Plain) : Statement (.rtcfg w) := by
  rintro p ⟨⟩ _; rfl

theorem rtswap (w : Plain) : Statement (.rtswap w) := by
  rintro p ⟨⟩ _; rfl

theorem rtsend (w : Plain) : Statement (.rtsend w) := by
  rintro p ⟨⟩ _; rfl

theorem qsc (w : Plain) : Statement (.qsc w) := by
  rintro p ⟨⟩ _; rfl

theorem evcfg (w : Plain) : Statement (.evcfg w) := by
  rintro p ⟨⟩ _; rfl

theorem evarmArm (w : Plain) : Statement (.evarmArm w) := by
  rintro p ⟨⟩ _; rfl

theorem evarmWait (w : Plain) : Statement (.evarmWait w) := by
  rintro p ⟨⟩ _; rfl

theorem evfire (w : Plain) : Statement (.evfire w) := by
  rintro p ⟨⟩ _; rfl

theorem cntrd (w : Plain) : Statement (.cntrd w) := by
  rintro p ⟨⟩ _; rfl

theorem cntset (w : Plain) : Statement (.cntset w) := by
  rintro p ⟨⟩ _; rfl

theorem time (w : Plain) : Statement (.time w) := by
  rintro p ⟨⟩ _; rfl

theorem enrd (w : Plain) : Statement (.enrd w) := by
  rintro p ⟨⟩ _; rfl

theorem enrsv (w : Plain) : Statement (.enrsv w) := by
  rintro p ⟨⟩ _; rfl

theorem trap (w : Plain) : Statement (.trap w) := by
  rintro p ⟨⟩ _; rfl

theorem brk (w : Plain) : Statement (.brk w) := by
  rintro p ⟨⟩ _; rfl

theorem hcall (w : Plain) : Statement (.hcall w) := by
  rintro p ⟨⟩ _; rfl

theorem tret (w : Plain) : Statement (.tret w) := by
  rintro p ⟨⟩ _; rfl

theorem hostMemWrite (pa : Nat) (bytes : List Byte) : Statement (.hostMemWrite pa bytes) := by
  rintro p ⟨⟩

theorem hostMemRead (pa n : Nat) : Statement (.hostMemRead pa n) := by
  rintro p ⟨⟩

theorem launchParse (q : Nat) : Statement (.launchParse q) := by
  rintro p ⟨⟩

theorem launchDispatch : Statement (.launchDispatch ) := by
  rintro p ⟨⟩

theorem workgroupPlace (die : Nat) : Statement (.workgroupPlace die) := by
  rintro p ⟨⟩

theorem damperWindowStart : Statement (.damperWindowStart ) := by
  rintro p ⟨⟩

theorem blockFire (core entry : Nat) : Statement (.blockFire core entry) := by
  rintro p ⟨⟩

theorem blockCommit (core entry : Nat) : Statement (.blockCommit core entry) := by
  rintro p ⟨⟩

theorem launchComplete (launch : Nat) : Statement (.launchComplete launch) := by
  rintro p ⟨⟩

theorem faultTake (core entry : Nat) : Statement (.faultTake core entry) := by
  rintro p ⟨⟩

theorem blockStarvedDrain (core entry : Nat) : Statement (.blockStarvedDrain core entry) := by
  rintro p ⟨⟩

theorem collectiveComplete (id : Nat) : Statement (.collectiveComplete id) := by
  rintro p ⟨⟩

theorem collectiveTimeout (id : Nat) : Statement (.collectiveTimeout id) := by
  rintro p ⟨⟩

theorem xshflTimeout (die id : Nat) : Statement (.xshflTimeout die id) := by
  rintro p ⟨⟩

theorem regangComplete (group : Nat) (label : Word) : Statement (.regangComplete group label) := by
  rintro p ⟨⟩

theorem regangTimeout (group : Nat) (label : Word) : Statement (.regangTimeout group label) := by
  rintro p ⟨⟩

theorem barTimeout (wg bar : Nat) : Statement (.barTimeout wg bar) := by
  rintro p ⟨⟩

theorem timeSliceExpiry (wg : Nat) : Statement (.timeSliceExpiry wg) := by
  rintro p ⟨⟩

theorem preempt (wg : Nat) : Statement (.preempt wg) := by
  rintro p ⟨⟩

theorem workgroupResume (wg : Nat) : Statement (.workgroupResume wg) := by
  rintro p ⟨⟩

theorem watchdog (wg : Nat) : Statement (.watchdog wg) := by
  rintro p ⟨⟩

theorem pageWalk (core ctx va : Nat) : Statement (.pageWalk core ctx va) := by
  rintro p ⟨⟩

theorem homeStoreApply (id : Nat) : Statement (.homeStoreApply id) := by
  rintro p ⟨⟩

theorem homeLineRequest (id : Nat) : Statement (.homeLineRequest id) := by
  rintro p ⟨⟩

theorem probeAct (die line : Nat) : Statement (.probeAct die line) := by
  rintro p ⟨⟩

theorem atomicHomePerform (id : Nat) : Statement (.atomicHomePerform id) := by
  rintro p ⟨⟩

theorem nearCacheMerge (id : Nat) : Statement (.nearCacheMerge id) := by
  rintro p ⟨⟩

theorem flsigToken (id die : Nat) : Statement (.flsigToken id die) := by
  rintro p ⟨⟩

theorem lockRequestArrival (id : Nat) : Statement (.lockRequestArrival id) := by
  rintro p ⟨⟩

theorem lockResend (id : Nat) : Statement (.lockResend id) := by
  rintro p ⟨⟩

theorem lockReleaseArrival (id : Nat) : Statement (.lockReleaseArrival id) := by
  rintro p ⟨⟩

theorem holdWindowExpiry (line : Nat) : Statement (.holdWindowExpiry line) := by
  rintro p ⟨⟩

theorem lockTimeout (id : Nat) : Statement (.lockTimeout id) := by
  rintro p ⟨⟩

theorem copyJobStart (core : Nat) : Statement (.copyJobStart core) := by
  rintro p ⟨⟩

theorem copyJobComplete (core id : Nat) : Statement (.copyJobComplete core id) := by
  rintro p ⟨⟩

theorem engineRecordDrain (core : Nat) : Statement (.engineRecordDrain core) := by
  rintro p ⟨⟩

theorem linkPortCombine (id : Nat) : Statement (.linkPortCombine id) := by
  rintro p ⟨⟩

theorem linkPortWaitExpiry (id : Nat) : Statement (.linkPortWaitExpiry id) := by
  rintro p ⟨⟩

theorem matrixCommandStart (core id : Nat) : Statement (.matrixCommandStart core id) := by
  rintro p ⟨⟩

theorem matrixCommandComplete (core id : Nat) : Statement (.matrixCommandComplete core id) := by
  rintro p ⟨⟩

theorem receiveArrival (id : Nat) : Statement (.receiveArrival id) := by
  rintro p ⟨⟩

theorem eventRecordOffer (die : Nat) : Statement (.eventRecordOffer die) := by
  rintro p ⟨⟩

theorem ringStart (die ring : Nat) : Statement (.ringStart die ring) := by
  rintro p ⟨⟩

theorem ringTickEnd (die ring : Nat) : Statement (.ringTickEnd die ring) := by
  rintro p ⟨⟩

theorem taskSpawn (die ring pos pair : Nat) : Statement (.taskSpawn die ring pos pair) := by
  rintro p ⟨⟩

theorem taskPairFree (die ring pos pair : Nat) : Statement (.taskPairFree die ring pos pair) := by
  rintro p ⟨⟩

theorem ringLapLimit (die ring rule : Nat) : Statement (.ringLapLimit die ring rule) := by
  rintro p ⟨⟩

theorem sweepFetchComplete (die ring pair : Nat) : Statement (.sweepFetchComplete die ring pair) := by
  rintro p ⟨⟩

theorem ringCompletionRecord (die ring : Nat) : Statement (.ringCompletionRecord die ring) := by
  rintro p ⟨⟩

theorem taskGroupReturn (die ring pos : Nat) : Statement (.taskGroupReturn die ring pos) := by
  rintro p ⟨⟩

theorem ringIdle (die ring : Nat) : Statement (.ringIdle die ring) := by
  rintro p ⟨⟩

theorem integratorStep (core : Nat) (doms : BitVec 4) : Statement (.integratorStep core doms) := by
  rintro p ⟨⟩

theorem patchJob (core id : Nat) : Statement (.patchJob core id) := by
  rintro p ⟨⟩

theorem isaveJob (core id : Nat) : Statement (.isaveJob core id) := by
  rintro p ⟨⟩

theorem irestJob (core id : Nat) : Statement (.irestJob core id) := by
  rintro p ⟨⟩

theorem redTokenArrival (id : Nat) : Statement (.redTokenArrival id) := by
  rintro p ⟨⟩

theorem cellServeKey (die cell : Nat) : Statement (.cellServeKey die cell) := by
  rintro p ⟨⟩

theorem cellTimeout (die cell : Nat) : Statement (.cellTimeout die cell) := by
  rintro p ⟨⟩

theorem sinkWrite (id : Nat) : Statement (.sinkWrite id) := by
  rintro p ⟨⟩

theorem configTokenApply (die cell inp : Nat) : Statement (.configTokenApply die cell inp) := by
  rintro p ⟨⟩

theorem rtcfgJob (core id : Nat) : Statement (.rtcfgJob core id) := by
  rintro p ⟨⟩

theorem drainTokenPass (die cell : Nat) : Statement (.drainTokenPass die cell) := by
  rintro p ⟨⟩

theorem regionSwap (die id : Nat) : Statement (.regionSwap die id) := by
  rintro p ⟨⟩

theorem crossbarThreshold (core : Nat) : Statement (.crossbarThreshold core) := by
  rintro p ⟨⟩

theorem termFire (core : Nat) : Statement (.termFire core) := by
  rintro p ⟨⟩

theorem evarmWaitTimeout (core entry index : Nat) : Statement (.evarmWaitTimeout core entry index) := by
  rintro p ⟨⟩

theorem crossbarTimerExpiry (core timer : Nat) : Statement (.crossbarTimerExpiry core timer) := by
  rintro p ⟨⟩

theorem energySample : Statement (.energySample ) := by
  rintro p ⟨⟩

theorem hcallService (slot : Nat) (stop : Bool) : Statement (.hcallService slot stop) := by
  rintro p ⟨⟩

theorem dieState (die : Nat) (mode : DieMode) : Statement (.dieState die mode) := by
  rintro p ⟨⟩

theorem warmReset (die : Nat) (kill : Bool) : Statement (.warmReset die kill) := by
  rintro p ⟨⟩

theorem setBudget (b : Word) : Statement (.setBudget b) := by
  rintro p ⟨⟩

theorem queueDesc (q : Nat) (enable : Bool) (prio slice ctx next : Nat) : Statement (.queueDesc q enable prio slice ctx next) := by
  rintro p ⟨⟩

theorem shootdown (ctx lo hi : Nat) : Statement (.shootdown ctx lo hi) := by
  rintro p ⟨⟩

theorem strandResume (core entry : Nat) : Statement (.strandResume core entry) := by
  rintro p ⟨⟩

theorem strandRedirect (core entry : Nat) (dest : Word) : Statement (.strandRedirect core entry dest) := by
  rintro p ⟨⟩

theorem contextKill (ctx : Nat) : Statement (.contextKill ctx) := by
  rintro p ⟨⟩

theorem timeouts (t : Limits) : Statement (.timeouts t) := by
  rintro p ⟨⟩

theorem heatWindow (die pair base size : Nat) : Statement (.heatWindow die pair base size) := by
  rintro p ⟨⟩

theorem packageColdReset : Statement (.packageColdReset ) := by
  rintro p ⟨⟩

theorem recoveryMailboxLoad (img : FwImage) : Statement (.recoveryMailboxLoad img) := by
  rintro p ⟨⟩

theorem pldmFirmwareUpdate (img : FwImage) : Statement (.pldmFirmwareUpdate img) := by
  rintro p ⟨⟩

theorem pldmMonitoring (sensor : Nat) : Statement (.pldmMonitoring sensor) := by
  rintro p ⟨⟩

theorem getVersion : Statement (.getVersion ) := by
  rintro p ⟨⟩

theorem getCapabilities : Statement (.getCapabilities ) := by
  rintro p ⟨⟩

theorem negotiateAlgorithms (ecdsaP384 sha384 : Bool) : Statement (.negotiateAlgorithms ecdsaP384 sha384) := by
  rintro p ⟨⟩

theorem getDigests : Statement (.getDigests ) := by
  rintro p ⟨⟩

theorem getCertificate (slot offset len : Nat) : Statement (.getCertificate slot offset len) := by
  rintro p ⟨⟩

theorem challenge (nonce : Nat) : Statement (.challenge nonce) := by
  rintro p ⟨⟩

theorem getMeasurements (index : Nat) : Statement (.getMeasurements index) := by
  rintro p ⟨⟩

theorem linkFlitCrcFail (port pa : Nat) : Statement (.linkFlitCrcFail port pa) := by
  rintro p ⟨⟩

theorem linkDown (port : Nat) : Statement (.linkDown port) := by
  rintro p ⟨⟩

theorem dieSplit (die : Nat) : Statement (.dieSplit die) := by
  rintro p ⟨⟩

theorem uncorrectableError (site : ErrSite) : Statement (.uncorrectableError site) := by
  rintro p ⟨⟩

theorem thermalThrottle (die : Nat) : Statement (.thermalThrottle die) := by
  rintro p ⟨⟩

theorem thermalRecover (die : Nat) : Statement (.thermalRecover die) := by
  rintro p ⟨⟩

theorem thermalTrip : Statement (.thermalTrip ) := by
  rintro p ⟨⟩

theorem eventQueueTake (n : Nat) : Statement (.eventQueueTake n) := by
  rintro p ⟨⟩

theorem cxlCacheHostSnoop (line : Nat) (inval : Bool) : Statement (.cxlCacheHostSnoop line inval) := by
  rintro p ⟨⟩

theorem correctableError (site : ErrSite) : Statement (.correctableError site) := by
  rintro p ⟨⟩

theorem formatWindowWrite (n : Nat) (val : Val) : Statement (.formatWindowWrite n val) := by
  rintro p ⟨⟩

theorem translationRootWrite (ctx : Nat) (root : Option Nat) : Statement (.translationRootWrite ctx root) := by
  rintro p ⟨⟩

end Sys2Proof.Laws.Fields
end

