-- ==== Sys2Proof/Tests/Slice0.lean ====
section
/-! SUPPORT. Small tests. A decoding test's words are the spec's own example lines with their words (the table of each
chapter), or, marked *, words put together from the fields of R71 to R79. A result test's expected value is a row of the
spec's tables of results, or a hand calculation from the rule it names. Each `witness_` theorem shows a state and operands
that meet the hypotheses of the statement it is named after. -/

namespace Sys2Proof.Tests

open Sys2Proof.Machine

/-! ## Helpers -/

/-- The spec's probe block with the word `w` and these operands, its instruction about to fire. -/
def readyWith (w : Word) (a b c : Token) : State :=
  modStrand (place State.reset w) 0 fun st =>
    { st with blocks := st.blocks.map fun k => { k with slots := [(0, a), (1, b), (2, c)] } }

/-- A uniform 64-bit token over the probe's eight lanes. -/
def tok (v : Nat) : Token := uniTok 64 (Mask.below 8) (BitVec.ofNat 128 v)

/-- The block after one step. -/
def fired (s : State) : Option Blk :=
  match step s with
  | .next t => (find t.strands 0).bind fun st => st.blocks.head?
  | _ => none

/-- The value that one step delivers to write entry `n`. -/
def gotAt (n : Nat) (w : Word) (a b c : Nat) : Option Val :=
  (fired (readyWith w (tok a) (tok b) (tok c))).bind fun k => (find k.slots (4 * n + 3)).map Token.val

/-- The value that one step delivers to write entry 0. -/
def got (w : Word) (a b c : Nat) : Option Val := gotAt 0 w a b c

/-- The fault that one step raises. -/
def raised (w : Word) (a b c : Nat) : Option FaultCode :=
  (fired (readyWith w (tok a) (tok b) (tok c))).bind fun k => k.raised.map Raised.code

/-- The effects that one step keeps for the commit. -/
def kept (w : Word) (a b c : Nat) : Option (List Effect) :=
  (fired (readyWith w (tok a) (tok b) (tok c))).map fun k => k.effects.map Prod.snd

/-- The state after one step, the reset state where there is none. -/
def after (s : State) : State :=
  match step s with
  | .next t => t
  | _ => State.reset

/-- The state after an event, the reset state where there is none. -/
def does (i : Instr) (s : State) : State :=
  match exec i s with
  | .next t => t
  | _ => State.reset

/-- Every word of a list decodes to the instruction beside it. -/
def decodes (l : List (Word × Instr)) : Bool := l.all fun e => (decodeWord e.1).toOption == some e.2

/-! ## Well-formedness: one ill-formed term for each check -/

theorem test_wf_type : Instr.wf (.bswap ⟨.i8, none, .nul, .nul⟩) = false := by decide
theorem test_wf_modifier : Instr.wf (.bar 0 ⟨.i8, none, .nul, .nul⟩) = false := by decide
theorem test_wf_count : Instr.wf (.abs ⟨.i32, some 1, .nul, .nul⟩) = false := by decide
theorem test_wf_memory_count : Instr.wf (.ld ⟨.i32, 2, 15, 0, 0, 0, .nul, .nul⟩) = false := by decide
theorem test_wf_immediate : Instr.wf (.shl ⟨.n32, some 32, .nul, .nul⟩) = false := by decide
theorem test_wf_immediate_range : Instr.wf (.add ⟨.i8, some 200, .nul, .nul⟩) = false := by decide
theorem test_wf_target : Instr.wf (.quit ⟨.i8, none, .out 0, .nul⟩) = false := by decide
theorem test_wf_write_entry_63 : Instr.wf (.not ⟨.i32, none, .out 63, .nul⟩) = false := by decide
theorem test_wf_scratchpad_window : Instr.wf (.lds ⟨.i32, 1, 0, 0, 0, 0, .nul, .nul⟩) = false := by decide
theorem test_wf_return : Instr.wf (.ret ⟨0, false, 0⟩) = false := by decide
theorem test_wf_regang : Instr.wf (.regang ⟨0, true, 0⟩) = false := by decide
theorem test_wf_source : Instr.wf (.cvt (.ty .b128) ⟨.f32, none, .nul, .nul⟩) = false := by decide
theorem test_wf_packed : Instr.wf (.cvt (.ty .f16x2) ⟨.f32, none, .nul, .nul⟩) = false := by decide
theorem test_wf_acquire_on_store : Instr.wf (.st ⟨.i32, 2, 15, 0, 1, 0, .nul, .nul⟩) = false := by decide
theorem test_wf_fan_target : Instr.wf (.mov ⟨.i32, .nul, .nul, .out 63, .nul⟩) = false := by decide

theorem test_wf_event_die : Instr.wf (.dieSplit 4) = false := by decide
theorem test_wf_event_queue : Instr.wf (.launchParse 64) = false := by decide
theorem test_wf_event_core : Instr.wf (.termFire 192) = false := by decide
theorem test_wf_event_entry : Instr.wf (.blockFire 0 256) = false := by decide
theorem test_wf_event_ring : Instr.wf (.ringStart 0 3) = false := by decide
theorem test_wf_event_member : Instr.wf (.taskSpawn 0 0 16 0) = false := by decide
theorem test_wf_event_pair : Instr.wf (.taskPairFree 0 0 0 2) = false := by decide
theorem test_wf_event_barrier : Instr.wf (.barTimeout 0 0) = false := by decide
theorem test_wf_event_address : Instr.wf (.hostMemWrite (2 ^ 52) [0]) = false := by decide
theorem test_wf_event_port : Instr.wf (.linkDown 12) = false := by decide
theorem test_wf_event_cell : Instr.wf (.cellServeKey 0 1024) = false := by decide
theorem test_wf_event_window : Instr.wf (.formatWindowWrite 16 0) = false := by decide
theorem test_wf_event_context : Instr.wf (.translationRootWrite 4096 none) = false := by decide
theorem test_wf_event_error_site : Instr.wf (.correctableError (.die 4)) = false := by decide
theorem test_wf_event_timer : Instr.wf (.crossbarTimerExpiry 0 4) = false := by decide
theorem test_wf_event_rule : Instr.wf (.ringLapLimit 0 0 64) = false := by decide
theorem test_wf_good : Instr.wf (.add ⟨.i8, some 100, .out 0, .nul⟩) = true := by decide

/-! ## Decoding -/

/-- Words that are no instruction, rejected by name (R79; R82 step 6). -/
theorem test_decode_rejects :
    decodeWord 0x4500_3FFF_E000_0000 = .error .opcodeUndef ∧ -- opcode 0x114
    decodeWord 0x2028_3FFF_E000_0000 = .error .badType ∧ -- ADD with type 0xA
    decodeWord 0x2749_FFFF_E000_0000 = .error .badModifier ∧ -- CMP with modifier 7
    decodeWord 0x2018_3FFF_F000_0000 = .error .badCount ∧ -- ADD with count 3
    decodeWord 0x2018_3FFF_E000_0001 = .error .badReserved ∧ -- ADD, plain, with bit 0
    decodeWord 0x2498_3FFF_D000_0020 = .error .badImmediate ∧ -- SHL.b32 by 32
    decodeWord 0x02C0_00FF_D000_0000 = .error .badTarget ∧ -- QUIT with a target
    decodeWord 0x0280_0000_0000_0000 = .error .badExit := by -- RET, direct
  decide

theorem test_decode_block : decodes [
    (0x0000_3FFF_C000_0000, .nop ⟨.i8, none, .nul, .nul⟩), -- NOP
    (0x0058_0203_41FF_C000, .mov ⟨.n32, .opnd 2 .a, .opnd 3 .b, .out 1, .nul⟩), -- MOV.b32 -> i2.a, i3.b, o1, nul
    (0x0088_023F_CFFF_FFFB, .const 0 ⟨.i32, some (BitVec.ofInt 28 (-5)), .opnd 2 .a, .nul⟩), -- CONST.i32 -5 -> i2.a
    (0x00DC_037F_D000_07F0, .consth ⟨.n64, some 2032, .opnd 3 .b, .nul⟩), -- CONSTH.b64 0x7F0 -> i3.b
    (0x0118_0103_2000_0000, .steer ⟨.n32, none, .opnd 1 .a, .opnd 3 .a⟩), -- STEER.b32 -> i1.a, i3.a
    (0x0158_01C3_A000_0000, .merge ⟨.n32, none, .out 1, .opnd 3 .c⟩), -- MERGE.b32 -> o1, i3.c *
    (0x01A8_023F_F000_0000, .select ⟨.f32, none, .opnd 2 .a, .nul⟩), -- SELECT.f32 -> i2.a *
    (0x01DC_017F_E000_0000, .nullify ⟨.n64, none, .opnd 1 .b, .nul⟩), -- NULLIFY.b64 -> i1.b *
    (0x0200_BFFF_FFFE_8000, .exit ⟨1, false, (BitVec.ofInt 32 (-6))⟩), -- EXIT 1, loop_top
    (0x0240_0000_0002_0000, .call ⟨0, false, 8⟩), -- CALL 0, fn
    (0x0280_C000_0000_0000, .ret ⟨1, true, 0⟩), -- RET 1
    (0x02C0_3FFF_D000_0000, .quit ⟨.i8, none, .nul, .nul⟩), -- QUIT
    (0x031C_013F_C000_0000, .idx ⟨.n64, none, .opnd 1 .a, .nul⟩), -- IDX.b64 -> i1.a
    (0x035C_023F_C000_000A, .spr ⟨.n64, some 10, .opnd 2 .a, .nul⟩)] = true := by -- SPR.b64 %cbase -> i2.a
  decide

theorem test_decode_integer : decodes [
    (0x2008_0200_DFFF_FF9C, .add ⟨.i32, some (BitVec.ofInt 28 (-100)), .opnd 2 .a, .out 0⟩), -- ADD.i32 -100 -> i2.a, o0
    (0x209C_00FF_D000_0001, .sub ⟨.n64, some 1, .out 0, .nul⟩), -- SUB.n64 1 -> o0 *
    (0x2100_043F_E000_0000, .adds ⟨.i8, none, .opnd 4 .a, .nul⟩), -- ADDS.i8 -> i4.a *
    (0x2154_047F_D000_0003, .subs ⟨.n16, some 3, .opnd 4 .b, .nul⟩), -- SUBS.n16 3 -> i4.b *
    (0x2058_0405_7000_0000, .addc ⟨.n32, none, .opnd 4 .a, .opnd 5 .b⟩), -- ADDC.b32 -> i4.a, i5.b
    (0x20DC_0502_F000_0000, .subb ⟨.n64, none, .opnd 5 .a, .out 2⟩), -- SUBB.n64 -> i5.a, o2 *
    (0x2184_01BF_E000_0000, .mul ⟨.i16, none, .opnd 1 .c, .nul⟩), -- MUL.i16 -> i1.c *
    (0x21D8_03FF_E000_0000, .mulh ⟨.n32, none, .out 3, .nul⟩), -- MULH.n32 -> o3 *
    (0x2208_00FF_E000_0007, .mad ⟨.i32, some 7, .out 0, .nul⟩), -- MAD.i32 7 -> o0
    (0x224C_023F_DFFF_FFFB, .min ⟨.i64, some (BitVec.ofInt 28 (-5)), .opnd 2 .a, .nul⟩), -- MIN.i64 -5 -> i2.a *
    (0x2290_027F_E000_0000, .max ⟨.n8, none, .opnd 2 .b, .nul⟩), -- MAX.n8 -> i2.b *
    (0x22C8_00FF_D000_0000, .abs ⟨.i32, none, .out 0, .nul⟩), -- ABS.i32 -> o0 *
    (0x230C_00FF_D000_0000, .neg ⟨.i64, none, .out 0, .nul⟩), -- NEG.i64 -> o0 *
    (0x237C_013F_E000_0000, .and ⟨.b128, none, .opnd 1 .a, .nul⟩), -- AND.b128 -> i1.a *
    (0x2398_013F_D000_00FF, .or ⟨.n32, some 255, .opnd 1 .a, .nul⟩), -- OR.n32 0xFF -> i1.a *
    (0x23C0_017F_E000_0000, .xor ⟨.i8, none, .opnd 1 .b, .nul⟩), -- XOR.i8 -> i1.b *
    (0x2418_01BF_E000_0000, .andn ⟨.n32, none, .opnd 1 .c, .nul⟩), -- ANDN.b32 -> i1.c *
    (0x245C_04FF_D000_0000, .not ⟨.n64, none, .out 4, .nul⟩), -- NOT.b64 -> o4 *
    (0x249C_033F_D000_0005, .shl ⟨.n64, some 5, .opnd 3 .a, .nul⟩), -- SHL.b64 5 -> i3.a
    (0x24D8_063F_E000_0000, .shr ⟨.n32, none, .opnd 6 .a, .nul⟩), -- SHR.n32 -> i6.a *
    (0x250C_067F_D000_003F, .sar ⟨.i64, some 63, .opnd 6 .b, .nul⟩), -- SAR.i64 63 -> i6.b *
    (0x2554_06BF_D000_0003, .rot ⟨.n16, some 3, .opnd 6 .c, .nul⟩), -- ROT.b16 3 -> i6.c *
    (0x2598_01FF_D000_0C04, .bfx ⟨.n32, some 3076, .out 1, .nul⟩), -- BFX.b32 0x0C04 -> o1
    (0x25DC_01FF_E000_0800, .bfi ⟨.n64, some 2048, .out 1, .nul⟩), -- BFI.b64 0x0800 -> o1 *
    (0x2618_027F_D000_0000, .popc ⟨.n32, none, .opnd 2 .b, .nul⟩), -- POPC.b32 -> i2.b
    (0x2648_013F_D000_0000, .clz ⟨.i32, none, .opnd 1 .a, .nul⟩), -- CLZ.i32 -> i1.a *
    (0x2690_013F_D000_0000, .ctz ⟨.n8, none, .opnd 1 .a, .nul⟩), -- CTZ.n8 -> i1.a *
    (0x26DC_013F_D000_0000, .brev ⟨.n64, none, .opnd 1 .a, .nul⟩), -- BREV.n64 -> i1.a *
    (0x2714_013F_D000_0000, .bswap ⟨.n16, none, .opnd 1 .a, .nul⟩), -- BSWAP.n16 -> i1.a *
    (0x2748_837F_D000_0000, .cmp .lt ⟨.i32, some 0, .opnd 3 .b, .nul⟩), -- CMP.i32.lt 0 -> i3.b
    (0x279C_073F_E000_0000, .clmul ⟨.n64, none, .opnd 7 .a, .nul⟩), -- CLMUL.b64 -> i7.a
    (0x27DC_073F_E000_0000, .clmulh ⟨.n64, none, .opnd 7 .a, .nul⟩), -- CLMULH.b64 -> i7.a *
    (0x280C_C33F_EFFF_FFF0, .lea 3 ⟨.i64, some (BitVec.ofInt 28 (-16)), .opnd 3 .a, .nul⟩), -- LEA.i64.x8 -16 -> i3.a
    (0x2858_80FF_D000_0000, .widf 2 ⟨.n32, none, .out 0, .nul⟩)] = true := by -- WIDF.b32.f2 -> o0
  decide

theorem test_decode_float : decodes [
    (0x4028_00C1_2000_0000, .fadd .rne ⟨.f32, none, .out 0, .opnd 1 .a⟩), -- FADD.f32 -> o0, i1.a *
    (0x4070_81FF_E000_0000, .fsub .rup ⟨.bf16x2, none, .out 1, .nul⟩), -- FSUB.bf16x2.rup -> o1 *
    (0x40A8_037F_D3F0_0000, .fmul .rne ⟨.f32, some 66060288, .opnd 3 .b, .nul⟩), -- FMUL.f32 0.5 -> i3.b
    (0x40E8_40FF_F000_0000, .ffma .rtz ⟨.f32, none, .out 0, .nul⟩), -- FFMA.f32.rtz -> o0
    (0x4120_00FF_E000_0000, .fmin ⟨.f16, none, .out 0, .nul⟩), -- FMIN.f16 -> o0 *
    (0x4168_00FF_D3F8_0000, .fmax ⟨.f32, some 66584576, .out 0, .nul⟩), -- FMAX.f32 1.0 -> o0 *
    (0x41AC_00FF_D000_0000, .fabs ⟨.f16x2, none, .out 0, .nul⟩), -- FABS.f16x2 -> o0 *
    (0x41E4_00FF_D000_0000, .fneg ⟨.bf16, none, .out 0, .nul⟩), -- FNEG.bf16 -> o0 *
    (0x4228_847F_E000_0000, .fcmp .lt ⟨.f32, none, .opnd 4 .b, .nul⟩), -- FCMP.f32.lt -> i4.b
    (0x4268_023F_D000_0000, .frcp ⟨.f32, none, .opnd 2 .a, .nul⟩), -- FRCP.f32 -> i2.a *
    (0x42A8_0203_5000_0000, .frsq ⟨.f32, none, .opnd 2 .a, .opnd 3 .b⟩), -- FRSQ.f32 -> i2.a, i3.b
    (0x4328_023F_D000_0000, .fexp2 ⟨.f32, none, .opnd 2 .a, .nul⟩), -- FEXP2.f32 -> i2.a *
    (0x4368_027F_D000_0000, .flog2 ⟨.f32, none, .opnd 2 .b, .nul⟩), -- FLOG2.f32 -> i2.b *
    (0x43A8_02BF_D000_0000, .fsinp ⟨.f32, none, .opnd 2 .c, .nul⟩), -- FSINP.f32 -> i2.c *
    (0x43E8_033F_D000_0000, .fcosp ⟨.f32, none, .opnd 3 .a, .nul⟩), -- FCOSP.f32 -> i3.a *
    (0x42E4_C37F_D000_0000, .fsqrt .rdn ⟨.bf16, none, .opnd 3 .b, .nul⟩), -- FSQRT.bf16.rdn -> i3.b *
    (0x442C_43BF_D000_0000, .frnd .rtz ⟨.f16x2, none, .opnd 3 .c, .nul⟩), -- FRND.f16x2.rtz -> i3.c *
    (0x4460_05FF_D000_0000, .fcls ⟨.f16, none, .out 5, .nul⟩), -- FCLS.f16 -> o5 *
    (0x44A8_01FF_DFFF_FFFD, .fscl .rne ⟨.f32, some (BitVec.ofInt 28 (-3)), .out 1, .nul⟩), -- FSCL.f32 -3 -> o1
    (0x44F0_00FF_F000_0000, .fdot2 .rne ⟨.bf16x2, none, .out 0, .nul⟩), -- FDOT2.bf16x2 -> o0
    (0x6036_80FF_D000_0000, .cvt (.ty .f32) ⟨.e4m3, none, .out 0, .nul⟩), -- CVT.e4m3.f32 -> o0
    (0x6070_02FF_E000_0000, .pack .rne ⟨.bf16x2, none, .out 2, .nul⟩), -- PACK.bf16x2 -> o2
    (0x60AC_0202_5000_0000, .unpk ⟨.f16x2, none, .opnd 2 .a, .opnd 2 .b⟩), -- UNPK.f16x2 -> i2.a, i2.b
    (0x60FC_033F_E000_0000, .lqd ⟨.b128, none, .opnd 3 .a, .nul⟩), -- LQD.b128 -> i3.a
    (0x6133_C0FF_E000_0000, .sclx ⟨.bf16x2, none, .out 0, .nul⟩)] = true := by -- SCLX.bf16x2.e8m0 -> o0
  decide

theorem test_decode_lanes : decodes [
    (0x7018_C43F_F000_0000, .shfl .xor ⟨.n32, none, .opnd 4 .a, .nul⟩), -- SHFL.b32.xor -> i4.a
    (0x705C_80FF_E000_0000, .vote .ballot ⟨.n64, none, .out 0, .nul⟩), -- VOTE.b64.ballot -> o0
    (0x70A8_01FF_E000_0000, .redux .add ⟨.f32, none, .out 1, .nul⟩), -- REDUX.f32.add -> o1
    (0x7100_027F_D000_0000, .elect false ⟨.i8, none, .opnd 2 .b, .nul⟩), -- ELECT.lo -> i2.b
    (0x70D8_00FF_F000_0000, .xshfl ⟨.n32, none, .out 0, .nul⟩), -- XSHFL.b32 -> o0
    (0x7140_7FFF_D000_0000, .mask true ⟨.i8, none, .nul, .nul⟩), -- MASK.keep -> nul
    (0x7180_8000_0001_0000, .regang ⟨1, false, 4⟩), -- REGANG 1, join
    (0x71C0_BFFF_D000_0000, .bar 2 ⟨.i8, none, .nul, .nul⟩), -- BAR 2
    (0x7201_7FFF_D000_0000, .arrv 5 ⟨.i8, none, .nul, .nul⟩)] = true := by -- ARRV 5
  decide

theorem test_decode_memory : decodes [
    (0x8018_033F_D250_0040, .ld ⟨.n32, 1, 2, 1, 1, 64, .opnd 3 .a, .nul⟩), -- LD.b32.acq.die [w2+0x40] -> i3.a
    (0x80A8_023F_DF00_0100, .lds ⟨.f32, 1, 15, 0, 0, 256, .opnd 2 .a, .nul⟩), -- LDS.f32 [a+0x100] -> i2.a
    (0x8118_027F_CF00_0140, .ldc ⟨.n32, 0, 15, 0, 0, 320, .opnd 2 .b, .nul⟩), -- LDC.b32 [%cbase+tbl] -> i2.b
    (0x8058_3FFF_E300_0010, .st ⟨.n32, 2, 3, 0, 0, 16, .nul, .nul⟩), -- ST.b32 [w3+0x10] -> nul
    (0x80DC_3FFF_EF00_0008, .sts ⟨.n64, 2, 15, 0, 0, 8, .nul, .nul⟩), -- STS.b64 [a+8] -> nul *
    (0x8140_7FFF_D100_0080, .pref true ⟨.i8, 1, 1, 0, 0, 128, .nul, .nul⟩), -- PREF.l2 [w1+0x80] -> nul *
    (0x8198_033F_E100_0008, .aadd ⟨.n32, 2, 1, 0, 0, 8, .opnd 3 .a, .nul⟩), -- AADD.n32 [w1+8] -> i3.a
    (0x81E8_033F_E180_0004, .afadd ⟨.f32, 2, 1, 2, 0, 4, .opnd 3 .a, .nul⟩), -- AFADD.f32.pkg [w1+4] -> i3.a *
    (0x820C_033F_EF00_0000, .amin ⟨.i64, 2, 15, 0, 0, 0, .opnd 3 .a, .nul⟩), -- AMIN.i64 [a] -> i3.a *
    (0x8248_033F_EF10_0000, .amax ⟨.i32, 2, 15, 0, 1, 0, .opnd 3 .a, .nul⟩), -- AMAX.i32.acq [a] -> i3.a *
    (0x8298_037F_EF00_0000, .aand ⟨.n32, 2, 15, 0, 0, 0, .opnd 3 .b, .nul⟩), -- AAND.n32 [a] -> i3.b *
    (0x82DC_037F_EF20_0000, .aor ⟨.n64, 2, 15, 0, 2, 0, .opnd 3 .b, .nul⟩), -- AOR.n64.rel [a] -> i3.b *
    (0x8318_037F_EF70_0000, .axor ⟨.n32, 2, 15, 1, 3, 0, .opnd 3 .b, .nul⟩), -- AXOR.n32.acqrel.die [a] -> i3.b *
    (0x8368_03BF_EF00_0000, .axchg ⟨.f32, 2, 15, 0, 0, 0, .opnd 3 .c, .nul⟩), -- AXCHG.f32 [a] -> i3.c *
    (0x839C_043F_FF00_0000, .acas ⟨.n64, 3, 15, 0, 0, 0, .opnd 4 .a, .nul⟩), -- ACAS.n64 [a] -> i4.a
    (0x83C1_3FFF_C000_0000, .fence 4 ⟨.i8, none, .nul, .nul⟩), -- FENCE.die -> nul
    (0x8400_3FFF_CF00_0000, .flsig false ⟨.i8, 0, 15, 0, 0, 0, .nul, .nul⟩), -- FLSIG
    (0x8440_00FF_D000_0100, .win ⟨.i8, some 256, .out 0, .nul⟩), -- WIN 0x100 -> o0
    (0x8480_7FFF_DF00_0000, .invl true ⟨.i8, 1, 15, 0, 0, 0, .nul, .nul⟩), -- INVL.all [a] -> nul
    (0x84C0_3FFF_D400_0040, .wbl ⟨.i8, 1, 4, 0, 0, 64, .nul, .nul⟩), -- WBL [w4+0x40] -> nul *
    (0x8500_0202_5000_0000, .llock ⟨.i8, 1, 0, 0, 0, 0, .opnd 2 .a, .opnd 2 .b⟩), -- LLOCK [w0+0] -> i2.a, i2.b
    (0x8540_023F_D000_0000, .ltry ⟨.i8, 1, 0, 0, 0, 0, .opnd 2 .a, .nul⟩), -- LTRY [w0+0] -> i2.a *
    (0x8580_3FFF_D000_0000, .lunlk ⟨.i8, 1, 0, 0, 0, 0, .nul, .nul⟩)] = true := by -- LUNLK [w0+0] -> nul
  decide

theorem test_decode_matrix : decodes [
    (0xA000_013F_C000_003F, .oclaim ⟨.i8, some 63, .opnd 1 .a, .nul⟩), -- OCLAIM 0x3F -> i1.a
    (0xA040_3FFF_D000_0000, .orlse ⟨.i8, none, .nul, .nul⟩), -- ORLSE -> nul
    (0xA080_3FFF_E200_0000, .ofill ⟨.i8, 2, 2, 0, 0, 0, .nul, .nul⟩), -- OFILL [w2+0] -> nul
    (0xA0E4_3FFF_E000_3F00, .mma false ⟨.bf16, some 16128, .nul, .nul⟩), -- MMA.bf16 0x3F00 -> nul
    (0xA100_3FFF_C000_0002, .accz ⟨.i8, some 2, .nul, .nul⟩), -- ACCZ 2 -> nul
    (0xA168_7FFF_E300_0000, .accfl true ⟨.f32, 2, 3, 0, 0, 0, .nul, .nul⟩), -- ACCFL.f32.add [w3+0] -> nul
    (0xA19C_00FF_E000_0000, .accrd ⟨.n64, none, .out 0, .nul⟩), -- ACCRD.b64 -> o0
    (0xA1C0_017F_C000_0021, .mstat ⟨.i8, some 33, .opnd 1 .b, .nul⟩)] = true := by -- MSTAT 33 -> i1.b
  decide

theorem test_decode_queues : decodes [
    (0xB000_3FFF_E000_0000, .qcfgBind ⟨.i8, none, .nul, .nul⟩), -- QCFG -> nul
    (0xB000_7FFF_E000_0000, .qcfgDeq ⟨.i8, none, .nul, .nul⟩), -- QCFG.deq -> nul *
    (0xB000_BFFF_E000_0000, .qcfgUndeq ⟨.i8, none, .nul, .nul⟩), -- QCFG.undeq -> nul *
    (0xB040_013F_C000_0003, .qlen ⟨.i8, some 3, .opnd 1 .a, .nul⟩), -- QLEN 3 -> i1.a
    (0xB080_3FFF_D000_0000, .cpyc ⟨.i8, none, .nul, .nul⟩), -- CPYC -> nul
    (0xB0C0_3FFF_D000_0000, .gthc ⟨.i8, none, .nul, .nul⟩), -- GTHC -> nul
    (0xB100_3FFF_D000_0000, .colc ⟨.i8, none, .nul, .nul⟩), -- COLC -> nul
    (0xB140_3FFF_E000_0000, .send ⟨.i8, none, .nul, .nul⟩), -- SEND -> nul
    (0xB180_037F_D000_0000, .dqpush ⟨.i8, none, .opnd 3 .b, .nul⟩), -- DQPUSH -> i3.b
    (0xB1C0_0102_4000_0000, .dqpop ⟨.i8, none, .opnd 1 .a, .opnd 2 .b⟩), -- DQPOP -> i1.a, i2.b
    (0xB200_0203_4000_0011, .dqsteal ⟨.i8, some 17, .opnd 2 .a, .opnd 3 .b⟩), -- DQSTEAL 17 -> i2.a, i3.b
    (0xB240_3FFF_E000_0000, .lnch ⟨.i8, none, .nul, .nul⟩), -- LNCH -> nul
    (0xB280_3FFF_E000_0000, .signl ⟨.i8, none, .nul, .nul⟩)] = true := by -- SIGNL -> nul
  decide

theorem test_decode_rings : decodes [
    (0xC000_3FFF_E000_0000, .xmatchOpen ⟨.i8, none, .nul, .nul⟩), -- XMATCH.open -> nul
    (0xC000_7FFF_E000_0000, .xmatchRule ⟨.i8, none, .nul, .nul⟩), -- XMATCH.rule -> nul
    (0xC000_BFFF_E000_0000, .xmatchJoin ⟨.i8, none, .nul, .nul⟩), -- XMATCH.join -> nul
    (0xC000_FFFF_E000_0000, .xmatchStart ⟨.i8, none, .nul, .nul⟩), -- XMATCH.start -> nul
    (0xC040_3FFF_C000_0040, .xclr ⟨.i8, some 64, .nul, .nul⟩), -- XCLR 0x40 -> nul
    (0xC080_3FFF_E000_0000, .xinj ⟨.i8, none, .nul, .nul⟩), -- XINJ -> nul
    (0xC0C0_3FFF_E000_0000, .xeject ⟨.i8, none, .nul, .nul⟩), -- XEJECT -> nul
    (0xC100_013F_C000_0005, .xcnt ⟨.i8, some 5, .opnd 1 .a, .nul⟩), -- XCNT 5 -> i1.a
    (0xC140_3FFF_C000_0002, .xsweep ⟨.i8, some 2, .nul, .nul⟩), -- XSWEEP 2 -> nul
    (0xC180_017F_C000_0040, .xstat ⟨.i8, some 64, .opnd 1 .b, .nul⟩)] = true := by -- XSTAT 0x40 -> i1.b
  decide

theorem test_decode_integrators : decodes [
    (0xD000_3FFF_E000_0000, .ipatch ⟨.i8, none, .nul, .nul⟩), -- IPATCH -> nul
    (0xD040_3FFF_E000_0000, .iset ⟨.i8, none, .nul, .nul⟩), -- ISET -> nul
    (0xD080_013F_C000_F000, .iget ⟨.i8, some 61440, .opnd 1 .a, .nul⟩), -- IGET 0xF000 -> i1.a
    (0xD0C0_3FFF_C000_1000, .istep ⟨.i8, some 4096, .nul, .nul⟩), -- ISTEP 0x1000 -> nul
    (0xD100_3FFF_C000_0011, .irun ⟨.i8, some 17, .nul, .nul⟩), -- IRUN 0x11 -> nul
    (0xD140_3FFF_C000_000F, .ihalt ⟨.i8, some 15, .nul, .nul⟩), -- IHALT 0xF -> nul
    (0xD180_3FFF_D000_0000, .isave ⟨.i8, none, .nul, .nul⟩), -- ISAVE -> nul
    (0xD1C0_3FFF_D000_0000, .irest ⟨.i8, none, .nul, .nul⟩), -- IREST -> nul
    (0xD200_3FFF_E000_0000, .iout ⟨.i8, none, .nul, .nul⟩)] = true := by -- IOUT -> nul
  decide

theorem test_decode_fabric : decodes [
    (0xE000_3FFF_D000_0000, .rtcfg ⟨.i8, none, .nul, .nul⟩), -- RTCFG -> nul
    (0xE040_3FFF_C000_0040, .rtswap ⟨.i8, some 64, .nul, .nul⟩), -- RTSWAP 0x40 -> nul
    (0xE080_3FFF_E000_0000, .rtsend ⟨.i8, none, .nul, .nul⟩), -- RTSEND -> nul
    (0xE0C0_3FFF_E000_0000, .qsc ⟨.i8, none, .nul, .nul⟩), -- QSC -> nul
    (0xE100_3FFF_E000_0000, .evcfg ⟨.i8, none, .nul, .nul⟩), -- EVCFG -> nul
    (0xE140_3FFF_C000_0003, .evarmArm ⟨.i8, some 3, .nul, .nul⟩), -- EVARM.arm 3 -> nul *
    (0xE140_413F_C000_0003, .evarmWait ⟨.i8, some 3, .opnd 1 .a, .nul⟩), -- EVARM.wait 3 -> i1.a
    (0xE180_3FFF_C000_0001, .evfire ⟨.i8, some 1, .nul, .nul⟩)] = true := by -- EVFIRE 1 -> nul
  decide

theorem test_decode_counters_and_faults : decodes [
    (0xF000_013F_C000_0102, .cntrd ⟨.i8, some 258, .opnd 1 .a, .nul⟩), -- CNTRD 0x102 -> i1.a
    (0xF040_3FFF_E000_0000, .cntset ⟨.i8, none, .nul, .nul⟩), -- CNTSET -> nul
    (0xF080_0102_0000_0000, .time ⟨.i8, none, .opnd 1 .a, .opnd 2 .a⟩), -- TIME -> i1.a, i2.a
    (0xF0C0_00FF_C000_0002, .enrd ⟨.i8, some 2, .out 0, .nul⟩), -- ENRD 2 -> o0
    (0xF100_3FFF_D000_0000, .enrsv ⟨.i8, none, .nul, .nul⟩), -- ENRSV -> nul
    (0xF140_3FFF_C000_0007, .trap ⟨.i8, some 7, .nul, .nul⟩), -- TRAP 7 -> nul
    (0xF180_3FFF_C000_0000, .brk ⟨.i8, none, .nul, .nul⟩), -- BRK -> nul
    (0xF1C0_033F_C000_0010, .hcall ⟨.i8, some 16, .opnd 3 .a, .nul⟩), -- HCALL 0x10 -> i3.a
    (0xF200_0101_4000_0000, .tret ⟨.i8, none, .opnd 1 .a, .opnd 1 .b⟩)] = true := by -- TRET -> i1.a, i1.b
  decide

/-! ## Results -/

/-- ADD.i8 -> o0 (R150, R152). -/
theorem test_add_i8_wraps : got 0x2000_00FF_E000_0000 0x7F 1 0 = some 0xFFFF_FF80 := by decide
/-- ADDS.i8 -> o0 (R152). -/
theorem test_adds_i8_saturates : got 0x2100_00FF_E000_0000 0x7F 1 0 = some 0x7F := by decide
/-- SUB.i64 -> o0 (R130, R150). -/
theorem test_sub_no_sign_extension : got 0x208C_00FF_E000_0000 0xFFFF_FFFF 0 0 = some 0xFFFF_FFFF := by decide
/-- SUBS.n16 -> o0 (R152). -/
theorem test_subs_n16_floor : got 0x2154_00FF_E000_0000 3 5 0 = some 0 := by decide
/-- ADDC.b32 -> o0, o1 (R153). -/
theorem test_addc_sum : got 0x2058_00C1_F000_0000 0xFFFF_FFFF 1 0 = some 0 := by decide
/-- ADDC.b32 -> o0, o1 (R153). -/
theorem test_addc_carry : gotAt 1 0x2058_00C1_F000_0000 0xFFFF_FFFF 1 0 = some 1 := by decide
/-- SUBB.b32 -> o0, o1 (R153). -/
theorem test_subb_difference : got 0x20D8_00C1_F000_0000 0 0 1 = some 0xFFFF_FFFF := by decide
/-- SUBB.b32 -> o0, o1 (R153). -/
theorem test_subb_borrow : gotAt 1 0x20D8_00C1_F000_0000 0 0 1 = some 1 := by decide
/-- MUL.i16 -> o0 (R154). -/
theorem test_mul_i16_low : got 0x2184_00FF_E000_0000 300 300 0 = some 0x5F90 := by decide
/-- MULH.n32 -> o0 (R154). -/
theorem test_mulh_n32 : got 0x21D8_00FF_E000_0000 0xFFFF_FFFF 0xFFFF_FFFF 0 = some 0xFFFF_FFFE := by decide
/-- MAD.i32 7 -> o0 (R154). -/
theorem test_mad_i32 : got 0x2208_00FF_E000_0007 3 4 9 = some 19 := by decide
/-- MIN.i64 -5 -> o0 (R155). -/
theorem test_min_i64_immediate : got 0x224C_00FF_DFFF_FFFB 0 0 0 = some 0xFFFF_FFFF_FFFF_FFFB := by decide
/-- MAX.n8 -> o0 (R155). -/
theorem test_max_n8_unsigned : got 0x2290_00FF_E000_0000 0x80 0x7F 0 = some 0x80 := by decide
/-- ABS.i32 -> o0 (R155). -/
theorem test_abs_i32_least : got 0x22C8_00FF_D000_0000 0x8000_0000 0 0 = some 0x8000_0000 := by decide
/-- NEG.i32 -> o0 (R155). -/
theorem test_neg_i32 : got 0x2308_00FF_D000_0000 1 0 0 = some 0xFFFF_FFFF := by decide
/-- AND.b128 -> o0 (R156). -/
theorem test_and_b128 : got 0x237C_00FF_E000_0000 (2 ^ 127 + 6) (2 ^ 127 + 3) 0 = some 0x8000_0000_0000_0000_0000_0000_0000_0002 := by decide
/-- OR.n32 -> o0 (R156). -/
theorem test_or_n32 : got 0x2398_00FF_E000_0000 0xF0 0x0F 0 = some 0xFF := by decide
/-- XOR.i8 -> o0 (R156). -/
theorem test_xor_i8 : got 0x23C0_00FF_E000_0000 0x80 0x01 0 = some 0xFFFF_FF81 := by decide
/-- ANDN.b32 -> o0 (R156). -/
theorem test_andn_b32 : got 0x2418_00FF_E000_0000 0xFF 0x0F 0 = some 0xF0 := by decide
/-- NOT.n8 -> o0 (R156). -/
theorem test_not_n8 : got 0x2450_00FF_D000_0000 0x0F 0 0 = some 0xF0 := by decide
/-- SHL.b32 -> o0 (R157). -/
theorem test_shl_by_width : got 0x2498_00FF_E000_0000 1 32 0 = some 0 := by decide
/-- SHR.n32 -> o0 (R157). -/
theorem test_shr_n32 : got 0x24D8_00FF_E000_0000 0x8000_0000 31 0 = some 1 := by decide
/-- SAR.i64 63 -> o0 (R157). -/
theorem test_sar_i64 : got 0x250C_00FF_D000_003F 0x8000_0000_0000_0000 0 0 = some 0xFFFF_FFFF_FFFF_FFFF := by decide
/-- ROT.b32 -> o0 (R157). -/
theorem test_rot_past_width : got 0x2558_00FF_E000_0000 0x8000_0001 33 0 = some 3 := by decide
/-- BFX.i32 0x0408 -> o0 (R158). -/
theorem test_bfx_signed : got 0x2588_00FF_D000_0408 0x0F00 0 0 = some 0xFFFF_FFFF := by decide
/-- BFX.b32 0x081E -> o0 (R158). -/
theorem test_bfx_past_top : got 0x2598_00FF_D000_081E 0xC000_0000 0 0 = some 3 := by decide
/-- BFI.b32 0x0804 -> o0 (R158). -/
theorem test_bfi_inserts : got 0x25D8_00FF_E000_0804 0xFFFF_FFFF 0x12 0 = some 0xFFFF_F12F := by decide
/-- POPC.b32 -> o0 (R159). -/
theorem test_popc : got 0x2618_00FF_D000_0000 0xFFFF_FFFF 0 0 = some 32 := by decide
/-- CLZ.b64 -> o0 (R159). -/
theorem test_clz_of_zero : got 0x265C_00FF_D000_0000 0 0 0 = some 64 := by decide
/-- CTZ.n8 -> o0 (R159). -/
theorem test_ctz_n8_of_zero : got 0x2690_00FF_D000_0000 0 0 0 = some 8 := by decide
/-- BREV.n16 -> o0 (R159). -/
theorem test_brev_n16 : got 0x26D4_00FF_D000_0000 1 0 0 = some 0x8000 := by decide
/-- BSWAP.n16 -> o0 (R159). -/
theorem test_bswap_n16 : got 0x2714_00FF_D000_0000 0x1234 0 0 = some 0x3412 := by decide
/-- CMP.i32.lt 0 -> o0 (R160). -/
theorem test_cmp_signed : got 0x2748_80FF_D000_0000 0xFFFF_FFFF 0 0 = some 1 := by decide
/-- CMP.n32.lt 0 -> o0 (R160). -/
theorem test_cmp_unsigned : got 0x2758_80FF_D000_0000 0xFFFF_FFFF 0 0 = some 0 := by decide
/-- CLMUL.b64 -> o0 (R161). -/
theorem test_clmul : got 0x279C_00FF_E000_0000 3 3 0 = some 5 := by decide
/-- CLMULH.b64 -> o0 (R161). -/
theorem test_clmulh : got 0x27DC_00FF_E000_0000 0x8000_0000_0000_0000 2 0 = some 1 := by decide
/-- LEA.i64.x8 -16 -> o0 (R162). -/
theorem test_lea_scales : got 0x280C_C0FF_EFFF_FFF0 0x100 2 0 = some 0x100 := by decide
/-- LEA.i64.x8 0 -> o0 (R162). -/
theorem test_lea_signed_index : got 0x280C_C0FF_E000_0000 0x100 0xFFFF_FFFF 0 = some 0xF8 := by decide
/-- WIDF.b32.f0 -> o0 (R163). -/
theorem test_widf_lane : got 0x2858_00FF_D000_0000 0xD 0 0 = some 5 := by decide
/-- CONST.b32 0x3F80_0000 -> o0 (R74, R138). -/
theorem test_const_shifted : got 0x0098_40FF_C3F8_0000 0 0 0 = some 0x3F80_0000 := by decide
/-- CONSTH.b64 0x7F0 -> o0 (R138). -/
theorem test_consth : got 0x00DC_00FF_D000_07F0 0xFFFF_FFFF_FFFF_FFFF 0 0 = some 0x0000_7F0F_FFFF_FFFF := by decide
/-- MOV.i8 -> o0, nul, nul, nul (R137). -/
theorem test_mov_i8 : got 0x0040_00FF_FFFF_C000 0x80 0 0 = some 0xFFFF_FF80 := by decide
/-- SELECT.b32 -> o0 (R141). -/
theorem test_select_takes_b : got 0x0198_00FF_F000_0000 1 2 0 = some 2 := by decide
/-- MERGE.b32 -> o0 (R140). -/
theorem test_merge_prefers_a : got 0x0158_00FF_E000_0000 1 2 0 = some 1 := by decide
/-- SPR.b32 %mask -> o0 (R148). -/
theorem test_spr_width : got 0x0358_00FF_C000_0009 0 0 0 = some 0xFF := by decide
/-- FADD.f32 -> o0 (R167). -/
theorem test_fadd_infinities : got 0x4028_00FF_E000_0000 0x7F80_0000 0xFF80_0000 0 = some 0x7FC0_0000 := by decide
/-- FADD.f32.rdn -> o0 (R109, R167). -/
theorem test_fadd_rdn_zero : got 0x4028_C0FF_E000_0000 0x3F80_0000 0xBF80_0000 0 = some 0x8000_0000 := by decide
/-- FSUB.f32 -> o0 (R167). -/
theorem test_fsub : got 0x4068_00FF_E000_0000 0x3F80_0000 0x4000_0000 0 = some 0xBF80_0000 := by decide
/-- FMUL.f32 -> o0 (R167). -/
theorem test_fmul_zero_infinity : got 0x40A8_00FF_E000_0000 0 0x7F80_0000 0 = some 0x7FC0_0000 := by decide
/-- FFMA.f32 -> o0 (R168). -/
theorem test_ffma_one_rounding : got 0x40E8_00FF_F000_0000 0x3F80_0001 0x3F7F_FFFE 0xBF80_0000 = some 0xA880_0000 := by decide
/-- FMIN.f32 -> o0 (R169). -/
theorem test_fmin_nan : got 0x4128_00FF_E000_0000 0x7F80_0001 0x4000_0000 0 = some 0x4000_0000 := by decide
/-- FMIN.f32 -> o0 (R169). -/
theorem test_fmin_zeros : got 0x4128_00FF_E000_0000 0 0x8000_0000 0 = some 0x8000_0000 := by decide
/-- FMAX.f32 -> o0 (R169). -/
theorem test_fmax_zeros : got 0x4168_00FF_E000_0000 0x8000_0000 0 0 = some 0 := by decide
/-- FABS.f32 -> o0 (R170). -/
theorem test_fabs_minus_one : got 0x41A8_00FF_D000_0000 0xBF80_0000 0 0 = some 0x3F80_0000 := by decide
/-- FNEG.f32 -> o0 (R170). -/
theorem test_fneg_nan : got 0x41E8_00FF_D000_0000 0xFFC0_0000 0 0 = some 0x7FC0_0000 := by decide
/-- FCMP.f32.ne -> o0 (R171). -/
theorem test_fcmp_ne_nan : got 0x4228_40FF_E000_0000 0x7FC0_0000 0x7FC0_0000 0 = some 1 := by decide
/-- FCMP.f32.eq -> o0 (R171). -/
theorem test_fcmp_eq_zeros : got 0x4228_00FF_E000_0000 0 0x8000_0000 0 = some 1 := by decide
/-- FRCP.f32 -> o0 (R113). -/
theorem test_frcp_infinity : got 0x4268_00FF_D000_0000 0xFF80_0000 0 0 = some 0x8000_0000 := by decide
/-- FRSQ.f32 -> o0 (R113). -/
theorem test_frsq_negative : got 0x42A8_00FF_D000_0000 0xBF80_0000 0 0 = some 0x7FC0_0000 := by decide
/-- FEXP2.f32 -> o0 (R113). -/
theorem test_fexp2_zero : got 0x4328_00FF_D000_0000 0x8000_0000 0 0 = some 0x3F80_0000 := by decide
/-- FLOG2.f32 -> o0 (R113). -/
theorem test_flog2_eight : got 0x4368_00FF_D000_0000 0x4100_0000 0 0 = some 0x4040_0000 := by decide
/-- FSINP.f32 -> o0 (R113). -/
theorem test_fsinp_half : got 0x43A8_00FF_D000_0000 0x3F00_0000 0 0 = some 0x3F80_0000 := by decide
/-- FCOSP.f32 -> o0 (R113). -/
theorem test_fcosp_one : got 0x43E8_00FF_D000_0000 0x3F80_0000 0 0 = some 0xBF80_0000 := by decide
/-- FSQRT.f32 -> o0 (R173). -/
theorem test_fsqrt_four : got 0x42E8_00FF_D000_0000 0x4080_0000 0 0 = some 0x4000_0000 := by decide
/-- FSQRT.f32 -> o0 (R173). -/
theorem test_fsqrt_minus_zero : got 0x42E8_00FF_D000_0000 0x8000_0000 0 0 = some 0x8000_0000 := by decide
/-- FRND.f32.rne -> o0 (R174). -/
theorem test_frnd_even : got 0x4428_00FF_D000_0000 0x4020_0000 0 0 = some 0x4000_0000 := by decide
/-- FRND.f32.rup -> o0 (R174, R108). -/
theorem test_frnd_rup : got 0x4428_80FF_D000_0000 0xBE80_0000 0 0 = some 0x8000_0000 := by decide
/-- FCLS.f32 -> o0 (R175). -/
theorem test_fcls_nan : got 0x4468_00FF_D000_0000 0x7FC0_0000 0 0 = some 0x100 := by decide
/-- FSCL.f32 -> o0 (R176). -/
theorem test_fscl_overflow : got 0x44A8_00FF_E000_0000 0x3F80_0000 200 0 = some 0x7F80_0000 := by decide
/-- FSCL.f32.rup -> o0 (R176, R108). -/
theorem test_fscl_rup_least : got 0x44A8_80FF_E000_0000 0x3F80_0000 0xFFFF_FF6A 0 = some 1 := by decide
/-- FDOT2.bf16x2 -> o0 (R177). -/
theorem test_fdot2 : got 0x44F0_00FF_F000_0000 0x3F80_4B80 0x3F80_3F80 0x3F80_0000 = some 0x4B80_0001 := by decide
/-- CVT.i32.f32 -> o0 (R178). -/
theorem test_cvt_truncates : got 0x600A_80FF_D000_0000 0xC06C_CCCD 0 0 = some 0xFFFF_FFFD := by decide
/-- CVT.n8.f32 -> o0 (R178). -/
theorem test_cvt_n8_floor : got 0x6012_80FF_D000_0000 0xBF80_0000 0 0 = some 0 := by decide
/-- PACK.bf16x2 -> o0 (R180). -/
theorem test_pack : got 0x6070_00FF_E000_0000 0x3F80_0000 0x4000_0000 0 = some 0x4000_3F80 := by decide
/-- UNPK.bf16x2 -> o0, o1 (R181). -/
theorem test_unpk_high : gotAt 1 0x60B0_00C1_D000_0000 0x4000_3F80 0 0 = some 0x4000_0000 := by decide
/-- LQD.b128 -> o0 (R182). -/
theorem test_lqd : got 0x60FC_00FF_E000_0000 1 0x7F 0 = some 0xBF00_3F00_3F00_3F00_3F00_3F00_3F00_BF00 := by decide
/-- LQD.b128 -> o0 (R182). -/
theorem test_lqd_saturates : got 0x60FC_00FF_E000_0000 0xFF80 0xFE 0 = some 0x7F7F_7F7F_7F7F_7F7F_7F7F_7F7F_7F7F_7F7F := by decide
/-- SCLX.f32.e8m0 -> o0 (R183). -/
theorem test_sclx : got 0x612B_C0FF_E000_0000 0x3F80_0000 0x80 0 = some 0x4000_0000 := by decide
/-- SPR.b64 %cbase -> o0 (R148). -/
theorem test_spr_position : got 0x035C_00FF_C000_000A 0 0 0 = some 0 := by decide
/-- TIME -> o0 (R371). -/
theorem test_time_at_reset : got 0xF080_00FF_C000_0000 0 0 0 = some 0 := by decide
/-- CNTRD 0 -> o0 (R371). -/
theorem test_cntrd_saturations : got 0xF000_00FF_C000_0200 0 0 0 = some 0 := by decide
/-- ENRD 0 -> o0 (R373). -/
theorem test_enrd_budget : got 0xF0C0_00FF_C000_0000 0 0 0 = some 0xFFFF_FFFF_FFFF_FFFF := by decide
/-- MASK.set -> o0 (R196). -/
theorem test_mask_set : got 0x7140_00FF_D000_0000 0x0F 0 0 = some 0x0F := by decide
/-- CNTRD -> o0 (R371). -/
theorem test_cntrd_undefined : raised 0xF000_00FF_D000_0000 0xFFF 0 0 = some .blockFormat := by decide
/-- ENRD -> o0 (R373). -/
theorem test_enrd_undefined : raised 0xF0C0_00FF_D000_0000 7 0 0 = some .blockFormat := by decide
/-- TRAP -> nul (R385). -/
theorem test_trap_number : raised 0xF140_3FFF_D000_0000 0x1_0000 0 0 = some .blockFormat := by decide
/-- ACCZ 0 -> nul (R267). -/
theorem test_accz_unclaimed : raised 0xA100_3FFF_C000_0000 0 0 0 = some .slotState := by decide
/-- DQPOP -> o0 (R298). -/
theorem test_dqpop_unbound : raised 0xB1C0_00FF_C000_0000 0 0 0 = some .queueUnbound := by decide
/-- ISET -> nul (R341). -/
theorem test_iset_unowned : raised 0xD040_3FFF_E000_0000 0 0 0 = some .slotState := by decide
/-- LDS.b32 [a] -> o0 (R243). -/
theorem test_lds_outside : raised 0x8098_00FF_DF00_0000 0 0 0 = some .accessViolation := by decide
/-- LD.b32 [a] -> o0 (R241). -/
theorem test_ld_misaligned : raised 0x8018_00FF_DF00_0000 2 0 0 = some .misaligned := by decide
/-- WIN -> o0 (R250). -/
theorem test_win_out_of_range : raised 0x8440_00FF_E000_0000 0x10_0000_0000_0000 0 0 = some .pageFault := by decide
/-- XSTAT -> o0 (R316). -/
theorem test_xstat_bad : raised 0xC180_00FF_D000_0000 0x41 0 0 = some .slotState := by decide
/-- ELECT.lo -> o0 (R187). -/
theorem test_wrong_members : raised 0x7100_00FF_D000_0000 0x1FF 0 0 = some .illegalConvergence := by decide
/-- RET 0 (R143). -/
theorem test_exit_misaligned : raised 0x0280_4000_0000_0000 8 0 0 = some .misaligned := by decide

/-! ## Witnesses -/

/-- An instruction's turn in the probe block with these operands. -/
def here (w : Word) (a b c : Token) : State := focusOn { readyWith w a b c with pick := none } 0 0 4 0

/-- The same with no particular operands. -/
def plainHere : State := here 0 (tok 0) (tok 0) (tok 0)

/-- The state has an instruction whose turn it is, and its site and place satisfy `f`. -/
def meets (s : State) (f : Site → Place → Bool) : Bool :=
  (site? s).any fun x => (x.place s).any fun p => f x p

/-- Its site and place exist. -/
theorem witness_site : meets plainHere (fun x _ => x.i == 0 && !x.st.trap) = true := by decide

/-- What `meets` says of a state as an equation. -/
theorem witness_place : ∃ x p, site? plainHere = some x ∧ x.place plainHere = some p := ⟨_, _, rfl, rfl⟩

theorem witness_StepKeepsMemoryCanonical : Memory.wf State.reset.mem = true ∧ ∃ t, step State.reset = .next t :=
  ⟨by decide, _, rfl⟩

theorem witness_StepRunsDecoded :
    let s := readyWith 0x2000_00FF_E000_0000 (tok 1) (tok 2) (tok 3)
    s.pick = some (.insn 0 0 4 0) ∧ readyWord s 0 0 4 0 = some 0x2000_00FF_E000_0000 ∧
      (decodeWord 0x2000_00FF_E000_0000).toOption = some (.add ⟨.i8, none, .out 0, .nul⟩) ∧
      readyWord s 0 0 4 1 = none ∧ (fired s).map (fun b => b.fired.has 0) = some true := by decide

theorem witness_StepRunsEvent :
    let s := { State.reset with pick := some (.event (.linkDown 0)) }
    let i := { readyWith 0x0000_3FFF_C000_0000 (tok 1) (tok 2) (tok 3) with pick := none }
    let r := { readyWith 0x2000_00FF_E000_0000 (tok 1) (tok 2) (tok 3) with pick := none }
    s.pick = some (.event (.linkDown 0)) ∧ State.reset.pick = none ∧ (after s).links[0]? = some false ∧
    (dueActs i).any (changes i) = true ∧ (dueActs r).any (changes r) = false ∧
    ((issue r 0 0 .scalar 5).map State.pick) = some (some (.insn 0 0 4 0)) ∧
    ((issue (modStrand r 0 fun v => { v with passed := 64 }) 0 0 .scalar 5).map fun u =>
      (get (Machine.core u 0).counted 7 0, (find u.strands 0).map Strand.passed)) = some (1, some 0) := by decide +kernel

/-- A host's write that meets a held line goes back to the inputs; a management request goes before the others of its kind. -/
theorem witness_held_input :
    let w := Instr.hostMemWrite 0x2000 [1]
    let h : HeldLine := ⟨0x2000, 4, 0, 0, 0, 0, false, 0⟩
    let s := { State.reset with pick := some (.event w), asked := true, inbox := [.linkDown 0], held := [h] }
    s.asked = true ∧ (does w { s with pick := none }).asked = false ∧ (after s).inbox = [.linkDown 0, w] ∧ (after s).mem = [] ∧
    putBack (.contextKill 3) [.linkDown 0, .contextKill 4] = [.linkDown 0, .contextKill 3, .contextKill 4] := by decide +kernel

theorem witness_DecodeOfEncode : ∃ p, (Instr.add ⟨.i8, some 100, .out 62, .nul⟩).parts = some p ∧
    (Instr.add ⟨.i8, some 100, .out 62, .nul⟩).wf = true := ⟨_, rfl, by decide⟩

theorem witness_EncodeOfDecode : ∃ i, decodeWord 0xFFFF_FFFF_FFFF_FFFF = .error .opcodeUndef ∧
    decodeWord 0x0200_BFFF_FFFE_8000 = .ok i := ⟨_, rfl, rfl⟩

theorem witness_OperandsAndTokens : Target.ok (.out 62) = true ∧ Target.ok (.opnd 63 .c) = true ∧ Target.ok .nul = true ∧
    (site? plainHere).isSome = true ∧ (Plain.mk .i32 (some 0xFFF_FFFF) .nul .nul).imm = some 0xFFF_FFFF := by decide

theorem witness_ConstantsMovesAndContext :
    meets plainHere (fun _ p => p.l.widths.sum ≤ 64 && p.l.widths.length ≤ 3) = true ∧
    (Plain.mk .n32 (some 13) .nul .nul).imm = some 13 ∧ ([3, 4] : List Nat).prod = 12 := by decide

theorem witness_SteerMergeSelectNullify : (site? plainHere).isSome = true := by decide
theorem witness_ArithmeticResult : (site? plainHere).isSome = true := by decide
theorem witness_CarryResult : (site? plainHere).isSome = true := by decide
theorem witness_MinMaxAndBitwiseResult : (site? plainHere).isSome = true := by decide
theorem witness_ShiftAndFieldResult : (site? plainHere).isSome = true := by decide
theorem witness_CountAndReverseResult : (site? plainHere).isSome = true := by decide
theorem witness_CompareAndCarryLessResult : (site? plainHere).isSome = true := by decide
theorem witness_AddressResult : meets plainHere (fun _ _ => true) = true := by decide

/-- Outside trap mode: no choice yet and an aligned address; a misaligned one; a lane that has chosen. -/
theorem witness_ExitChoices :
    meets (here 0 (tok 16) (tok 0) (tok 0)) (fun x _ => !x.st.trap && x.b.choices.isEmpty &&
      ((x.opnd 0).at_ 0).toNat % 16 == 0) = true ∧
    meets (here 0 (tok 8) (tok 0) (tok 0)) (fun x _ => (x.opnd 0).mask.has 0 && ((x.opnd 0).at_ 0).toNat % 16 != 0) = true ∧
    let s := here 0 (tok 16) (tok 0) (tok 0)
    ((site? s).map fun x => x.mod s fun b => { b with choices := [(0, .quit)] }).any (fun t =>
      meets t fun x _ => (x.opnd 0).mask.has 0 && !x.b.removed.has 0 && (find x.b.choices 0).isSome) = true := by decide

/-! ### Floating point -/

theorem witness_FloatExact : f32 ∈ Claim.formats ∧ 0x7F80_0000 < 2 ^ Claim.wd f32 ∧ Claim.mag e4m3 0x7E ≤ e4m3.top := by
  decide
theorem witness_RoundingIsCorrect : e5m2 ∈ Claim.formats := by decide
theorem witness_FloatArithmeticResult : (site? plainHere).isSome = true ∧ fmtOf .bf16x2 = bf16 := by decide
theorem witness_FloatOrderResult : (site? plainHere).isSome = true ∧ Ty.bf16x2 ∈ [Ty.f16, .bf16, .f32, .f16x2, .bf16x2] ∧
    Ty.f16 ∈ [Ty.f16, .bf16, .f32] ∧ Claim.lastNumber f32 < Claim.mag f32 0x7FC0_0000 := by decide
theorem witness_TableFunctionResult : (site? plainHere).isSome = true ∧
    Claim.mag f32 0x7F7F_FFFF ≤ f32.top ∧ Claim.mag f32 1 ≠ 0 ∧ Claim.neg f32 0x7F7F_FFFF = false := by decide
theorem witness_LogAndSineResult : (site? plainHere).isSome = true ∧ Claim.mag f32 0x3F00_0000 ≤ f32.top ∧
    ¬ Claim.mag f32 0x7F80_0000 ≤ f32.top := by decide
theorem witness_ConversionResult : (site? plainHere).isSome = true ∧ Ty.i8.signed = true ∧ Ty.n64.unsigned = true ∧
    Ty.e5m2 ∈ [Ty.f16, .bf16, .f32, .e4m3, .e5m2] ∧ Ty.f16x2 ∈ [Ty.f16x2, .bf16x2] := by decide
theorem witness_ScaledWeightResult : (site? plainHere).isSome = true ∧ Ty.b128 ∈ [Ty.bf16, .f32, .bf16x2, .b128] ∧
    (maskOf [tok 0, tok 1]).has 7 = true := by decide

/-! ### Lanes -/

/-- VOTE.n64.all with all eight lanes named: the first to arrive; a wrong mask names lane 8; an instance waits. -/
theorem witness_CollectiveArrival :
    let word := 0x705C_00FF_E000_0000
    let s := here word (tok 1) (tok 0xFF) (tok 0)
    meets s (fun x p => !x.sameOpen && p.g.replay.isEmpty && maskOf [x.opnd 0, x.opnd 1] != 0 &&
      !badMember x p.g (x.opnd 1).scalar64 && p.g.live == Mask.below 8 && p.g.parked.isEmpty && s.colls.isEmpty) = true ∧
    meets (here word (tok 1) (tok 0x1FF) (tok 0)) (fun x p => badMember x p.g (x.opnd 1).scalar64) = true ∧
    meets { s with colls := [⟨9, 3, 0, 0, 0xFF, 0, [], false⟩] } (fun x p => p.gk == 3 && x.b.addr == 0 && x.i == 0) = true := by
  decide

/-- The instance that the eight lanes of VOTE have filled. -/
theorem witness_CollectiveResult :
    let s := after (readyWith 0x705C_00FF_E000_0000 (tok 1) (tok 0xFF) (tok 0))
    s.colls.any (fun c => c.full && !c.offered && (groupFacts s c.group).isSome &&
      collInstr s c == some (.vote .all ⟨.n64, none, .out 0, .nul⟩)) = true := by decide

/-- BAR 1 of all eight lanes: arrives; names lane 8; leaves lane 7 out. -/
theorem witness_MaskRegangBarrier :
    meets (here 0 (tok 0xFF) (tok 0) (tok 0)) (fun x p => !x.st.trap && (x.opnd 0).mask != 0 &&
      Mask.within (x.opnd 0).mask (x.opnd 0).scalar64 && Mask.within (x.opnd 0).scalar64 p.g.live &&
      (p.g.bar 1).member.isNone && x.b.choices.isEmpty) = true ∧
    meets (here 0 (tok 0x1FF) (tok 0) (tok 0)) (fun x p => badMember x p.g (x.opnd 0).scalar64) = true ∧
    meets (here 0 (tok 0x7F) (tok 0) (tok 0)) (fun x _ => !Mask.within (x.opnd 0).mask (x.opnd 0).scalar64) = true := by
  decide

/-! ### Memory -/

/-- A writable 4 KiB page of context 0 at 0x1000, in HBM of die 0 at 0x2000. -/
def page : TlbEntry := ⟨0, 0x1000, 0x1000, 0x2007⟩

/-- An instruction's turn on a core whose TLB holds that page. -/
def mapped (w : Word) (a b c : Token) : State := modCore (here w a b c) 0 fun x => { x with tlb := [page] }

/-- The same with no particular operands. -/
def mapped0 : State := mapped 0 (tok 0) (tok 0) (tok 0)

/-- The checks of lane 0 pass for this memory word. -/
def lanePasses (s : State) (w : MemW) (size : Nat) (u : Use) : Bool :=
  meets s fun x p => match (laneCheck s x p.w.ctx w (x.opnd 0) size u 0).1 with
    | .ok _ => true
    | .error _ => false

/-- LD.b32 [a] and its like. -/
def memW (n : BitVec 2) : MemW := ⟨.n32, n, 15, 0, 0, 0, .out 0, .nul⟩

/-- A page hit below 2^52, in every column of the checks: readable, populated, aligned at the page's last word, and not. -/
theorem witness_AccessChecksInOrder :
    let s := mapped 0 (tok 0) (tok 0) (tok 0)
    (Machine.core s 0).tlb.find? (fun e => e.hits 0 0x1FFC) = some page ∧ populated 0x2FFC = true ∧ pteW page.pte = true ∧
    dieUp s 0 = true ∧ (vaCheck s 0 0 0x1FFC 4 .store).1.toOption.isSome = true ∧
    (vaCheck s 0 0 0x1FFE 4 .store).1 = .error (2, .misaligned) ∧
    winLimit (0x10 <<< 32 : Val) = 0x10 ∧ firstFailure [(0, .error (2, .misaligned)), (1, .ok ⟨0, 0, false, 0, 0, false, false⟩)] =
      some (2, 0, .misaligned) := by decide +kernel

/-- A context with a root whose table has no valid entry, and one with none. -/
theorem witness_PageWalks :
    let s := { State.reset with roots := [(0, 0x1_0000)] }
    find s.roots 0 = some 0x1_0000 ∧ (Machine.core s 0).tlb = [] ∧ s.ptlb = [] ∧ readPte s 0x1_0000 = .ok 0 ∧ pteV 0 = false ∧
    find State.reset.roots 0 = none ∧ walk s 0 0 = .fault .pageFault ∧
    walk { s with mem := writeLE s.mem 0x1_0000 8 0x3 } 0 0 = .fault .accessViolation := by decide +kernel

theorem witness_LoadsPerform :
    let s := mapped 0x8018_00FF_DF00_0000 (tok 0x1000) (tok 0) (tok 0)
    meets s (fun x _ => x.mayLoad && (x.opnd 0).mask != 0 && !x.meetsBuffered false 0x2000 4) = true ∧
    lanePasses s (memW 1) 4 .load = true ∧
    meets s (fun x _ => (x.performLoad s (⟨3, newGroup probeLaunch 2 0 0 0 0, 2, probeWg 1, 1, probeLaunch⟩ : Place)
      (memW 1) true 1 [] [] fun _ => 0).mem == s.mem) = true ∧
    ({ (probeLaunch : Launch) with scratch := 1 } : Launch).scratch = 1 := by decide

theorem witness_StoresBuffered :
    let s := mapped 0 (tok 0x1FFC) (tok 7) (tok 0)
    meets s (fun x _ => (x.opnd 0).mask &&& (x.opnd 1).mask != 0) = true ∧ lanePasses s (memW 2) 4 .store = true := by decide

/-- Four bytes of a line of die 0 on their way from core 0 of die 0, and from die 1. -/
def onItsWay (d n : Nat) : Posted :=
  ⟨9, 48 * d, d, 3, 1, 1, 0x2000, 0xF, 0x0403_0201, 0, 0, false, n, [], [], []⟩

theorem witness_StoreReachesHome :
    let s := { State.reset with posted := [onItsWay 0 0] }
    let r := { State.reset with posted := [onItsWay 1 1] }
    Memory.wf s.mem = true ∧ s.posted.find? (fun q => q.uid == 9) = some (onItsWay 0 0) ∧ dieUp s 0 = true ∧ s.held = [] ∧
    (s.posted.takeWhile fun q => q.uid != 9) = [] ∧ (onItsWay 0 0).stage = 0 ∧ (onItsWay 1 1).stage = 1 ∧
    r.posted.find? (fun q => q.uid == 9) = some (onItsWay 1 1) ∧
    (does (.homeStoreApply 9) { State.reset with posted := [onItsWay 1 0] }).posted.map Posted.stage = [1] := by decide +kernel

/-- An AADD of lane 0 on the word at 0x2000, about to perform at its home. -/
def atomReq : AtomReq := ⟨9, 0, 0, 4, 0, 0, .add, .n32, 0x2000, 0, 5, 0, 0, false, false⟩

theorem witness_AtomicsPerform :
    let s := mapped 0 (tok 0x1000) (tok 5) (tok 0)
    let r := { State.reset with atoms := [atomReq] }
    meets s (fun x _ => !x.storesOpen && x.i == 0) = true ∧ lanePasses s (memW 2) 4 .atomicI = true ∧
    Memory.wf r.mem = true ∧ r.atoms.find? (fun q => q.uid == 9) = some atomReq ∧ dieUp r 0 = true ∧ r.held = [] ∧
    poisoned r 0x2000 = false ∧ r.reqs = [] ∧ get r.pkgCache 0x2000 0 = 0 ∧
    readByte (does (.atomicHomePerform 9) r).mem 0x2000 = 5 := by decide

theorem witness_FencesAndCacheOperations :
    let s := mapped 0 (tok 0x1000) (tok 0) (tok 0)
    meets s (fun x p => x.earlier.isEmpty && !openBelow x.b x.i reads && storesVisible s p x.b.mask 4) = true ∧
    lanePasses s (memW 1) 1 .line = true ∧ s.posted = [] ∧
    meets { s with posted := [onItsWay 0 0] } (fun x p => !storesVisible { s with posted := [onItsWay 0 0] } p x.b.mask 4) =
      true ∧ (Machine.core s 0).tlb.find? (fun e => e.hits 0 0x1000) = some page := by decide

theorem witness_LockInstructions :
    let s := mapped 0 (tok 0x1000) (tok 0) (tok 0)
    lanePasses s (memW 1) 1 .lock = true ∧
    meets s (fun x p => (x.opnd 0).mask.lowest == some 0 && p.g.locks.isEmpty) = true := by decide

/-- A waiter for a lock of the line at 0x2000. -/
def waiter (u : Nat) : Waiter := ⟨u, 0, 0, 0, 0, 3, 0, 0xFF, 4, 0, 0, false, 0, 0⟩

theorem witness_LockService :
    let ask : LockMsg := .request (waiter 9) 0x2000 0 false false
    let s := { plainHere with lockMsgs := [ask] }
    let owned : Lock := ⟨0x2000, 0, some (waiter 8), [waiter 9], false, none, false⟩
    let r := { plainHere with locks := [owned], time := 1_000_000 }
    s.lockMsgs.find? (fun m => m.num == 9) = some ask ∧ dieUp s 0 = true ∧ lockOf s 0x2000 = none ∧
    lockTableFull s 0 0x2000 = false ∧ (lockOf (does (.lockRequestArrival 9) s) 0x2000).isSome = true ∧
    lockOf r 0x2000 = some owned ∧ waiterTableFull r 0 0x2000 = false ∧
    r.locks.findSome? (fun k => (k.waiters.find? fun w => w.uid == 9).map fun w => (k, w)) = some (owned, waiter 9) ∧
    r.lockLimit ≤ r.time.toNat ∧ (lockOf (does (.lockTimeout 9) r) 0x2000).map Lock.waiters = some [] ∧
    ({ owned with awaySince := some 0 } : Lock).awaySince = some 0 ∧ r.holdLimit ≤ r.time.toNat := by decide

theorem witness_CoherenceEvents :
    let q : LineReq := ⟨9, 0, 0, 0x2000, 0, 0, false, false, [], true, none⟩
    let s := { State.reset with reqs := [q] }
    let x : Drain := ⟨9, 0, 0, 0, 0, 0, 1, 0, [], [0], [(⟨0x2000, 0x1000, 8, 7, 0, 0⟩, false)], false, none⟩
    let r := { State.reset with drains := [x] }
    s.reqs.find? (fun k => k.uid == 9) = some q ∧ dieUp s 0 = true ∧ s.held = [] ∧ s.posted = [] ∧ kindAt 0x2000 ≠ .view ∧
    r.drains.find? (fun k => k.uid == 9) = some x ∧ removeNat x.dies 0 = [] ∧
    (does (.probeAct 0 0x2000) { State.reset with probes := [⟨0, 0x2000, none⟩] }).probes = [] := by decide

/-! ### The matrix engine, engines and queues -/

/-- Operand slots 0 and 1 and tile 0 of core 0 claimed by the probe's workgroup, whose launch may claim three slots. -/
def claims (s : State) : State := modLaunch (modCore s 0 fun c => { c with
  res := c.res.mapIdx fun n r => if n == 0 || n == 1 || n == 32 then { r with st := 1, owner := some (0, 2) } else r }) 1
  fun l => { l with oslots := 3 }

/-- Resource n of core 0 is claimed by the probe's workgroup. -/
def isMine (s : State) (n : Nat) : Bool :=
  (resOf (Machine.core s 0) n).st == 1 && (resOf (Machine.core s 0) n).owner == some (0, 2)

/-- A free slot and the last tile under a quota that is not full; claimed ones; control words at the ends of their ranges. -/
theorem witness_MatrixInstructions :
    let s := claims (mapped 0 (tok 0) (tok 1) (tok 0x1F00))
    meets s (fun x p => maskOf [x.opnd 0, x.opnd 1] != 0 && p.w.ctx == 0 && p.wk == 2 && p.l.oslots == 3 &&
      (x.sel (⟨.n32, some 0x3E, .out 0, .nul⟩ : Plain)).1 == 0x3E && x.b.mask != ~~~(0 : Mask) &&
      (x.opnd 0).mask.lowest == some 0 && (x.opnd 0).scalar64.toNat < 4) = true ∧
    isMine s 0 = true ∧ isMine s 1 = true ∧ isMine s 32 = true ∧ (resOf (Machine.core s 0) 35).st = 0 ∧
    (resOf (Machine.core s 0) 2).st = 0 ∧ (resOf (Machine.core s 0) 35).resv = none ∧
    resPoison (Machine.core s 0) 32 = false ∧ resPoison { (Machine.core s 0) with tilePoison := 1 } 32 = true := by decide

/-- A 64 KiB page of context 0 at 0x10000, in HBM of die 0 at 0x20000. -/
def page64 : TlbEntry := ⟨0, 0x1_0000, 0x1_0000, 0x2_0007⟩

/-- The probe's core with that page in its TLB. -/
def wide : State := modCore plainHere 0 fun x => { x with tlb := [page64] }

/-- A command of the probe's workgroup, first in line. -/
def cmd (op : MOp) (started : Bool) : MCmd := ⟨9, op, 0, 2, 1, 0, 0, [], started, none⟩

theorem witness_MatrixCommands :
    let s := modCore plainHere 0 fun c => { c with mq := [cmd (.accz 3) false] }
    let k := Machine.core s 0
    k.mq.find? (fun m => m.uid == 9) = some (cmd (.accz 3) false) ∧ (k.mq.takeWhile fun m => m.uid != 9) = [] ∧
    edgePending k 9 (cmd (.accz 3) false).foot.1 (cmd (.accz 3) false).foot.2 = false ∧ enginesBusy k < 2 ∧
    k.recbuf.length < 4 ∧ risingFrom 0 k.tiles = true ∧ mergesDone s 9 = true ∧ (cmd (.accz 3) true).started = true ∧
    recordsDue k < 4 ∧ olderReady s k 9 = false ∧ taskCopying s 0 = false ∧
    (∀ r < 128, (Machine.core wide 0).tlb.find? (fun e => e.hits 0 (0x1_0000 + 128 * r)) = some page64) ∧
    ((engineAcc wide 0 0 0x1_3F80 .load).toOption.map fun a => (a.home, kindAt a.pa)) = some (0, .hbm) := by decide +kernel

/-- A job that copies four bytes from 0x1000 to 0x1040 in context 0, with completion queue 15 and a record. -/
def copyCard : Card := ⟨1, 1, 15, 0, 4, 0x1000, 0x1040, 0, 0, 0, 7, 0, 0, 0⟩

/-- It as a job of core 0, started or not. -/
def copyJob (d : Card) (e : Option Nat) : Job :=
  ⟨9, .card d, 0, 2, 0, 0, [⟨.virt 0, 0x1000, 0x1004⟩], [⟨.virt 0, 0x1040, 0x1044⟩], [], e, none⟩

/-- A copy of one granule: idle and started; a reduction's merge at its home, and on its way through a port. -/
theorem witness_EngineJobs :
    let s := modCore (mapped 0 (tok 0) (tok 0) (tok 0)) 0 fun c => { c with jobs := [copyJob copyCard none] }
    let r := modCore s 0 fun c => { c with jobs := [copyJob copyCard (some 0)] }
    let here := cardSee 0 (copyJob copyCard (some 0)) copyCard r 0 4
    let m : Merge := ⟨9, [⟨8, 0, true, 0, 4⟩], 0, 0x2000, 1, .f32, 0, [(0, 1)], 0, false, false, 0, 3, 2, 10⟩
    let line : PortLine := ⟨7, 1, 0, 0, 3, 0x2000, .f32, 0, [(0, 1)], 0, false, [⟨6, 0, true, 0, 4⟩], 1, 2, 0, 10⟩
    (Machine.core s 0).jobs = [] ++ copyJob copyCard none :: [] ∧ enginesBusy (Machine.core s 0) < 2 ∧
    (Machine.core r 0).jobs.find? (fun e => e.uid == 9 && e.engine.isSome) = some (copyJob copyCard (some 0)) ∧
    writesBlocked r 0 0 0x1040 0x1044 = false ∧ ((engineAcc here 0 0 0x1040 .store).toOption.map fun a => a.pa) = some 0x2040 ∧
    recordsDue (Machine.core s 0) < 4 ∧ risingFrom 0 m.words = true ∧
    (List.range 4).all (fun o => (cardByte here 0 (copyJob copyCard (some 0)) copyCard o).toOption == some (0, false)) = true ∧
    0x1040 % 64 + 4 ≤ 64 ∧ m.ty.width = 32 ∧
    { s with merges := [m] }.merges.find? (fun e => e.uid == 9 && !e.viaPort) = some m ∧
    { s with merges := [{ m with viaPort := true }] }.merges.find? (fun e => e.uid == 9 && e.viaPort) = some { m with viaPort := true } ∧
    { s with portLines := [line] }.portLines.find? (fun q => q.uid == 7) = some line ∧ dieUp s 1 = true := by decide +kernel

theorem witness_QueueBindings :
    let bind := here 0 (tok 31) (tok (0x6 * 2 ^ 28)) (tok 0)
    meets bind (fun x _ => (x.opnd 0).mask != 0 && (x.opnd 1).scalar64.toNat / 2 ^ 28 == 6 &&
      (Machine.core bind x.core).deque.owner.isNone) = true ∧
    meets bind (fun x _ => (x.sel (⟨.n32, some 31, .out 0, .nul⟩ : Plain)).1 == 31) = true ∧
    (find bind.groups 3).isSome = true ∧ risingFrom 0 ((find bind.groups 3).map Group.qregs |>.getD []) = true := by decide +kernel

theorem witness_CardsAndMessages :
    let s := mapped 0 (tok 0x1000) (tok 0) (tok 0)
    let d := here 0 (tok 0x3BF) (tok 1) (tok 0)
    meets s (fun x p => (x.opnd 0).mask != 0 && !x.mustWait s p 0x1000 64 && !x.mustWait s p 0x1000 256 &&
      (x.b.bytes x.core p s 0x1000 64).1.toOption == some (List.replicate 64 0) && (queueOf s 0).ctx == p.w.ctx) = true ∧
    (vaCheck s 0 0 0x1FF8 8 .atomicI).1.toOption.isSome = true ∧ (vaCheck s 0 0 0x1FFC 8 .atomicI).1.toOption = none ∧
    meets d (fun x _ => (x.opnd 0).scalar64.toNat % 256 == 191 && (x.opnd 0).scalar64.toNat / 2 ^ 12 == 0) = true ∧
    dieUp d 3 = true ∧ kept 0xB140_3FFF_E000_0000 0x3BF 1 0 = some [.send 191 3 1] := by decide +kernel

theorem witness_ReceiveAndDeque :
    let q : RecvMsg := ⟨9, 191, 15, 5, 0, 0, 0, 0, 0⟩
    let s := modCore { plainHere with recvMsgs := [q] } 191 fun c => c.modRecv 15 fun r => { r with owner := some (0, 2) }
    s.recvMsgs.find? (fun e => e.uid == 9) = some q ∧ (s.recvMsgs.takeWhile fun e => e.uid != 9) = [] ∧
    (recvOf (Machine.core s 191) 15).owner = some (0, 2) ∧ (recvOf (Machine.core s 191) 15).items.length < 64 ∧
    (recvOf (Machine.core (does (.receiveArrival 9) s) 191) 15).items = [⟨5, none⟩] ∧
    let r := modCore plainHere 0 fun c => { c with deque := ⟨some (0, 2), [⟨8, none⟩], none⟩ }
    meets r (fun x p => (Machine.core r x.core).deque.owner == some (p.w.ctx, p.wk) && (x.opnd 0).mask != 0) = true ∧
    (Machine.core r 0).deque.entries = [] ++ ⟨8, none⟩ :: [] := by decide

/-! ### Rings -/

/-- Ring 0 of die 0 owned by the probe's workgroup, in state `st`. -/
def ringing (st : Nat) : State := modRing (mapped 0 (tok 0x1000) (tok 63) (tok 0)) 0 fun r => { r with st := st, owner := some (0, 2) }

/-- A rule of one pair of tiles, tile 0 against tile 63. -/
def oneRule : RuleDesc := ⟨0, 0, 0, 0, 0, 1, 63, 64, 1, 0⟩

theorem witness_RingInstructions :
    ([1, 2, 3, 7].all fun n => (ring (ringing n) 0).owner == some (0, 2) && (ring (ringing n) 0).st == n) = true ∧
    meets (ringing 1) (fun x p => p.w.ctx == 0 && p.wk == 2 && ringOf x.core == 0 && x.core % 16 == 0 &&
      (x.opnd 0).mask &&& (x.opnd 1).mask != 0 && !x.mustWait (ringing 1) p 0x1000 32) = true ∧
    ((modLaunch plainHere 1 fun l => { l with cores := true }).launches.map fun l => l.2.cores) = [true] ∧
    (ring plainHere 0).st = 0 ∧ quotaOn plainHere 15 ≤ 20 ∧ ((ring (ringing 1) 0).member 0).group = none ∧
    (find (ringing 1).wgs 2).map Wg.launch = some 1 := by decide

theorem witness_RingCommits :
    (ring plainHere 0).st = 0 ∧ ringSlotsFree plainHere 0 = true ∧ risingFrom 0 plainHere.cores = true ∧
    (Machine.core plainHere 15).res.length = 36 ∧ (ring (ringing 3) 0).owner = some (0, 2) ∧ (ring (ringing 3) 0).st = 3 := by
  decide

/-- Ring 0 with a task group on member 0, tile 0 in its first slot, tile 63 in its last, and the rule that matches them. -/
def meeting (st : Nat) : State := modRing (ringing st) 0 fun r => { r with
  rules := [(0, ⟨oneRule, [], 0, false⟩)]
  members := r.members.mapIdx fun n k =>
    { k with group := some 3, tags := if n = 0 then [(0, 0), (7, 63)] else [] } }

/-- A ring that may start; one whose tick is over; two tiles that meet with a pair to take them; an ended task. -/
theorem witness_RingEvents :
    let t := modRing (meeting 3) 0 fun r => { r with
      members := r.members.map fun k => { k with pairs := [⟨1, 7, 0, 0, 63, false, false⟩, ⟨2, 6, 0, 0, 63, false, true⟩] } }
    let u := modRing (modGroup t 3 fun g => { g with joined := some (0, 0), banks := [[0, 0, 0, 0], [0, 0, 0, 0]] }) 0 fun r => r
    ((ring (meeting 2) 0).st = 2 ∧ (ring (meeting 2) 0).members.all (fun k => k.group.isSome && k.fills.isEmpty) = true ∧
      (ring (meeting 2) 0).rules ≠ []) ∧
    ((ring (meeting 3) 0).st = 3 ∧ (ring (meeting 3) 0).scan = false ∧ (ring (meeting 3) 0).members.length = 16) ∧
    candidate (ring (meeting 3) 0) 0 63 = some (0, 0) ∧ idlePair (meeting 3) 0 0 = some 0 ∧
    find ((ring (meeting 3) 0).member 0).tags 7 = some 63 ∧ (freeEntries u 0).length = 255 ∧ (find u.groups 3).map Group.core = some 0 ∧
    spawnable u ((ring u 0).member 0) = true ∧ ((find u.wgs 2).map fun w => (w.st, w.leaving, w.stopped)) = some (.resident, false, false) ∧
    (((ring u 0).member 0).pair 1).ended = true ∧ pairRead (Machine.core u 0) 1 = false ∧
    (ring (modRing plainHere 0 fun r => { r with records := [⟨1, [], true⟩] }) 0).records = ⟨1, [], true⟩ :: [] ∧
    (ring (meeting 5) 0).st = 5 ∧ strandsOf plainHere 4 = [] ∧
    (ring (modRing (ringing 6) 0 fun r => { r with members := r.members.map fun k => { k with freed := true } }) 0).members.all
      (fun k => k.freed && k.group.isNone) = true := by decide +kernel

/-! ### The integrator field and the fabric -/

/-- Core 0's integrator field, owned by the probe's workgroup, changed by `f`. -/
def fieldOf (s : State) (f : Field → Field) : State :=
  modCore s 0 fun c => { c with field := f { c.field with owner := some (0, 2) } }

/-- An enabled cell of modulus 2, domain 0, with its five inputs constant. -/
def cell2 : Word := BitVec.ofNat 64 (2 ^ 63 + 2 ^ 57 + 510 * 2 ^ 40 + 510 * 2 ^ 30 + 510 * 2 ^ 20 + 510 * 2 ^ 10 + 510)

theorem witness_IntegratorInstructions :
    let s := fieldOf (here 0 (tok 0xF000) (tok 0) (tok 0)) id
    meets s (fun x p => (Machine.core s x.core).field.owner == some (p.w.ctx, p.wk) && (x.opnd 0).mask != 0 &&
      (x.opnd 0).mask &&& (x.opnd 1).mask != 0) = true ∧
    (Machine.core s 0).field.resv = [] ∧ (Machine.core s 0).field.restFail = false ∧
    ((Machine.core s 0).field.doms.getD 3 Domain.reset).st = 0 ∧ (Machine.core plainHere 0).field.owner = none ∧
    ((Machine.core (fieldOf s fun f => { f with doms := f.doms.set 3 { Domain.reset with st := 2 } }) 0).field.doms.getD 3
      Domain.reset).st = 2 := by decide

/-- A domain with one step pending; a patch job, a save and a restore that have started. -/
theorem witness_IntegratorEvents :
    let s := fieldOf plainHere fun f => { f with live := [(0, cell2)], doms := f.doms.set 0 { Domain.reset with pend := 1 } }
    let f := (Machine.core s 0).field
    let job : JobKind → Job := fun k => ⟨9, k, 0, 2, 0, 0, [], [], [], some 0, none⟩
    f.owner ≠ none ∧ risingFrom 0 f.y = true ∧ risingFrom 0 f.res = true ∧ risingFrom 0 f.cnt = true ∧ f.doms.length = 4 ∧
    (f.doms.getD 0 Domain.reset).st = 0 ∧ (f.doms.getD 0 Domain.reset).pend ≠ 0 ∧ f.ports.all (fun q => !q.en) = true ∧
    ([job (.ipatch 0x1000 383 1 false), job (.isave 0x1000 []), job (.irest 0x1000)].all fun j =>
      (Machine.core (modCore s 0 fun c => { c with jobs := [j] }) 0).jobs.find? (fun e => e.uid == j.uid && e.engine.isSome) ==
        some j) = true ∧
    ((fieldOf mapped0 id).mem = [] ∧ (engineByte mapped0 0 0 0x1FFF).toOption = some (0, false) ∧
      (engineByte mapped0 0 0 0x2000).toOption = none) := by decide +kernel

/-- A router cell of context 0 that adds two inputs and sends the sum to sink 15. -/
def adder : Cell := { Cell.reset with cfg := BitVec.ofNat 128 (2 ^ 127 + 1 * 2 ^ 123 + 1 * 2 ^ 121 + 1 * 2 ^ 101 + 0xC00F * 2 ^ 48) }

/-- Die 0 with that cell last in the array, and sink 15. -/
def fabric (s : State) : State := modDie s 0 fun d => { d with cells := [(1023, adder)], sinks := [(15, ⟨0, 0x1000⟩)] }

/-- The last edge of the last cell. -/
def edge : Nat := 2 ^ 15 + 16 * 1023

theorem witness_FabricInstructions :
    let s := fabric (here 0 (tok edge) (tok 7) (tok 0))
    let x := modCore s 0 fun c => { c with xbar := { c.xbar with owner := some (0, 2) } }
    meets s (fun x p => p.w.ctx == 0 && (x.opnd 0).scalar64.toNat == edge && (x.opnd 0).mask &&& (x.opnd 1).mask != 0 &&
      (Machine.core s x.core).xbar.owner.isNone && (Machine.core s x.core).xbar.resv.isEmpty) = true ∧
    (find (die s 0).cells 1023).map Cell.cfg = some adder.cfg ∧ find (die s 0).sinks 15 = some ⟨0, 0x1000⟩ ∧
    (Machine.core x 0).xbar.owner = some (0, 2) ∧ (die s 0).swaps = [] ∧ s.dies.length = 4 ∧
    kept 0xE080_3FFF_E000_0000 0xC00F 7 0 = some [] := by decide +kernel

/-- A token that reaches a cell with room, one that reaches a sink; a full key and an expired one; a swap; a clock. -/
theorem witness_FabricEvents :
    let t : RedTok := ⟨9, 0, edge, .data 0 1 2 false 5, 0, false⟩
    let q : RedTok := ⟨9, 0, 0xC00F, .data 0 1 2 false 5, 0, false⟩
    let s := { fabric plainHere with toks := [t] }
    let full := modDie s 0 fun d => { d with cells := [(1023, { adder with
      inputs := [[⟨.data 0 1 2 false 5, 0, 4⟩], [⟨.data 0 1 2 false 6, 0, 5⟩], [], []] })] }
    let w : Swap := ⟨8, 0, 15, 0⟩
    let x := modCore plainHere 0 fun c => { c with xbar := { c.xbar with owner := some (0, 2), clocks := [(0, 1)] } }
    let x := modDie x 0 fun d => { d with clk := 1 }
    s.toks = [] ++ t :: [] ∧ dieUp s 0 = true ∧
    ((find (die (does (.redTokenArrival 9) s) 0).cells 1023).map fun c => (c.inputs.getD 0 []).map Arrived.num) = some [s.uid] ∧
    ((does (.cellServeKey 0 1023) full).toks.map RedTok.edge) = [edge, 0xC00F] ∧
    (sinkAcc mapped0 0 0x1FF8).toOption = none ∧ { s with toks := [q] }.toks = [] ++ q :: [] ∧
    find (die s 0).sinks 15 = some ⟨0, 0x1000⟩ ∧ s.held = [] ∧
    (die (modDie s 0 fun d => { d with swaps := [w] }) 0).swaps.find? (fun v => v.uid == 8) = some w ∧
    risingFrom 0 (die s 0).cells = true ∧ (Machine.core x 0).xbar.owner ≠ none ∧ (Machine.core x 0).xbar.now = none ∧
    (Machine.core x 0).xbar.counters.length ≤ 16 ∧ (Machine.core x 0).xbar.timers.length = 4 ∧
    (Machine.core (does (.crossbarThreshold 0) x) 0).xbar.now = some 1 := by decide +kernel

/-! ### Counters, fire, commit, waits, launches -/

theorem witness_CountersAndCalls :
    let s := here 0 (tok 0x11F) (tok 0) (tok 0)
    let c : Call := ⟨9, 0, 0, 0, 0, 0, 3, [0], 0, []⟩
    let d : Damper := { Damper.reset with claims := [⟨none, 5, 1⟩] }
    meets s (fun x p => !x.st.trap && x.b.choices.isEmpty && x.b.removed == 0 && (x.opnd 0).mask != 0 &&
      p.l.energy == 0 && (x.sel (⟨.n32, some 0x602, .out 0, .nul⟩ : Plain)).1 == 0x602) = true ∧
    (Machine.core s 0).perf.length = 8 ∧ risingFrom 0 s.energy = true ∧ risingFrom 0 s.cores = true ∧
    (0 : Word).toNat < 10_000 * (Damper.reset.samples + 1) ∧ 10_000 * (Damper.reset.samples + 1) ≤ (10_000 : Word).toNat ∧
    10_000_000 * ((0 : Word).toNat + 1) ≤ (10_000_000 : Word).toNat ∧ d.claims = [⟨none, 5, 1⟩] ∧
    s.boot.powered = true ∧ s.boot.running = true ∧ { s with mailbox := [c] }.mailbox[0]? = some c ∧
    (find s.groups 3).isSome = true ∧ callTask s c = none := by decide +kernel

/-- The probe's block once its EXIT has resolved, complete. -/
def ended : State := modStrand plainHere 0 fun st => { st with blocks := st.blocks.map fun b =>
  { b with resolved := Mask.one 0, fired := Mask.one 0, choices := (List.range 8).map fun l => (l, .goto 32) } }

/-- The probe's block with a fault raised. -/
def faulty : State := modStrand plainHere 0 fun st =>
  { st with blocks := st.blocks.map fun b => { b with raised := some ⟨.slotState, 0, 1, 0, 0⟩ } }

/-- The probe's strand with no block in flight. -/
def between : State := modStrand mapped0 0 fun st => { st with blocks := [], pc := 0x1000 }

/-- The same, its turn after a resumption behind another strand's. -/
def twoTurns : State := { modStrand between 0 fun st => { st with turn := 2 } with
  strands := (modStrand between 0 fun st => { st with turn := 2 }).strands ++
    [(1, { Strand.start 3 1 0x1000 with turn := 1 })] }

theorem witness_FireCommitAndFault :
    ((placeOf between 0).map fun e => mayFire between 0 e.1 e.2) = some true ∧
    ((placeOf between 0).map fun e => !turnWaits between 0 e.1 e.2.wk && e.1.due.isNone) = some true ∧
    ((placeOf twoTurns 0).map fun e => mayFire twoTurns 0 e.1 e.2 && turnWaits twoTurns 0 e.1 e.2.wk) = some true ∧
    (find (does (.blockFire 0 0) (modStrand between 0 fun st => { st with due := some (.watchdog, none) })).strands 0).map Strand.st =
      some (.parked .watchdog) ∧
    ((placeOf between 0).map fun e => e.1.blocks.isEmpty && (blockAt between 0 e.1 e.2 0x1000).1.toOption.isNone) = some true ∧
    ((placeOf ended 0).map fun e => e.2.w.st == .resident && e.2.g.joined.isNone && e.1.blocks.all fun b =>
      b.raised.isNone && b.effects.isEmpty && b.stores.isEmpty && b.pops.isEmpty && b.writes.isEmpty && b.h.rel == 0 &&
      b.removed == 0 && (b.releases e.2).isEmpty && (atFire b).isEmpty && b.mask != 0 && b.resolved.has 0 && b.mask == Mask.below 8 && b.choices.length == 8) = some true ∧
    ((find faulty.strands 0).bind fun st => st.blocks.head?.bind Blk.raised) = some ⟨.slotState, 0, 1, 0, 0⟩ ∧
    (find (does (.faultTake 0 0) faulty).strands 0).map Strand.st = some (.parked .slotState) ∧
    ((placeOf (modGroup faulty 3 fun g => { g with tbase := 0x40 }) 0).map fun e => e.2.g.tbase != 0 && !e.1.trap) = some true ∧
    ((find plainHere.strands 0).bind fun st => st.blocks.head?.map fun b => b.waits.isEmpty && b.raised.isNone && !b.complete) =
      some true ∧
    (find (does (.blockStarvedDrain 0 0) (modStrand plainHere 0 fun st => { st with blocks := st.blocks.map fun b =>
      { b with slots := [], words := [0x2018_00FF_E000_0000] } })).strands 0).map Strand.st = some (.parked .blockStarved) := by decide +kernel

/-- A collective and an offer held past their limits; lanes at a label; a barrier all of whose lanes have arrived. -/
theorem witness_WaitsAndBarriers :
    let c : Collective := ⟨9, 3, 0, 0, 0xFF, 0, [], false⟩
    let late : State := { plainHere with colls := [c], time := 10_000_000 }
    let o : Offer := ⟨8, 0, 0, 0, 9, 0⟩
    let label := modStrand plainHere 0 fun st => { st with blocks := [], pc := 0x40, st := .label (Mask.below 8) 0 }
    let arrived := modGroup plainHere 3 fun g => { g with bars := [(1, ⟨Mask.below 8, none, 0, none, []⟩)] }
    late.colls.find? (fun d => d.uid == 9) = some c ∧ c.full = false ∧ c.since + late.barrierLimit ≤ late.time.toNat ∧
    (die (modDie late 0 fun d => { d with offers := [o] }) 0).offers.find? (fun e => e.uid == 8) = some o ∧
    o.since + late.xshflLimit ≤ late.time.toNat ∧
    (find label.groups 3).isSome = true ∧ ((find label.wgs 2).map fun w => w.st == .resident) = some true ∧
    labelMember label 3 0x40 = some (Mask.below 8) ∧ risingFrom 0 label.strands = true ∧
    (find (does (.regangComplete 3 0x40) label).strands 0).map Strand.st = some .ready ∧
    (find (does (.regangTimeout 3 0x40) { label with time := 10_000_000 }).strands 0).map Strand.st =
      some (.parked .barTimeout) ∧
    ((find plainHere.groups 3).map fun g => (g.bar 1).arrived == 0) = some true ∧
    ((find (settleBar arrived 2 1).wgs 2).map fun w => get w.barGen 1 0) = some 1 ∧
    ((find (does (.barTimeout 2 1) { (modWg plainHere 2 fun w => { w with barStart := [(1, 0)] }) with time := 10_000_000 }).wgs
      2).map Wg.broken) = some [1] := by decide +kernel

/-- A launch of one workgroup of one 8-lane group, handed over, that waits for die 0. -/
def waitingLaunch : Launch := { probeLaunch with ranges := [⟨0, 0, 1⟩] }

/-- The machine with that launch, number 1. -/
def waitingState : State := { State.reset with launches := [(1, waitingLaunch)], uid := 2 }

theorem witness_waitingFor : waitingFor waitingState 0 = [1] := by
  rw [waitingFor, show (waitingState.launches.filter fun e => e.2.dispatched && (nextNum e.2 0).isSome &&
    !returning waitingState e.2.queue 0 && !(chooseNew waitingState [] e.1 e.2 0).any fun r =>
      producerFirst waitingState e.1 e.2 0 (takenBy r)) = [(1, waitingLaunch)] by decide +kernel]
  simp

theorem witness_LaunchesAndWorkgroups :
    let q : Queue := { Queue.reset with enable := true }
    let s := { State.reset with queues := State.reset.queues.set 63 q, mem := writeByte [] (0x80_0000_0000 + 63 * 2 ^ 14 + 0xFF) 0xA5 }
    let r := { waitingState with queues := State.reset.queues.set 63 { q with fifo := [1] } }
    let u := modWg plainHere 2 fun w => { w with leaving := true }
    let e := modStrand u 0 fun st => { st with blocks := [] }
    (queueOf s 63).enable = true ∧ homeRead s (0x80_0000_0000 + 63 * 2 ^ 14 + 0xFF) 1 = 0xA5 ∧ Memory.wf s.mem = true ∧
    readByte (does (.launchParse 63) s).mem (0x80_0000_0000 + 63 * 2 ^ 14 + 0xFF) = 0xE1 ∧
    (queueOf r 63).fifo.head? = some 1 ∧ find r.launches 1 = some waitingLaunch ∧ waitingLaunch.waits = [] ∧
    dieOpen waitingState 0 = true ∧ nextNum waitingLaunch 0 = some 0 ∧
    (chooseNew waitingState [] 1 waitingLaunch 0).isSome = true ∧ outranked waitingState 0 0 = false ∧
    (find (does (.launchComplete 1) { State.reset with launches := [(1, probeLaunch)] }).launches 1) = none ∧
    ((find (does (.watchdog 2) { plainHere with time := 10_000_000_001 }).wgs 2).map Wg.stopped) = some true ∧
    find State.reset.roots 0 = none ∧ (find plainHere.wgs 2).isSome = true ∧ mayStop e 2 (probeWg 1) = false ∧
    ((find e.wgs 2).map fun w => mayStop e 2 w && w.saved.isEmpty) = some true ∧
    (queueOf s 63).owed = [] ∧ (die plainHere 0).holding = [] ∧ flushPending State.reset 1 = false ∧
    (queueOf { s with queues := s.queues.set 63 { q with enable := false, owed := [0x2000] } } 63).owed = [0x2000] ∧
    lineHeld s 0x2000 = false ∧ claimedBefore plainHere (probeWg 1) probeLaunch ([0], [(0, 0, 0)], []) = false ∧
    callOut plainHere 2 = false ∧ equalWaits plainHere (probeWg 1) probeLaunch = false := by decide +kernel

/-! ### Management, the package and the host -/

theorem witness_ManagementRequests :
    let parked := modStrand plainHere 0 fun st => { st with blocks := [], st := .parked .slotState }
    let rec_ := modStrand parked 0 fun st => { st with record := some (.held 9) }
    plainHere.boot.powered = true ∧ plainHere.boot.running = true ∧
    (find parked.strands 0).map (fun st => (st.record, st.st)) = some (none, .parked .slotState) ∧
    (find (does (.strandRedirect 0 0 0x40) parked).strands 0).map Strand.pc = some 0x40 ∧
    (find (does (.strandRedirect 0 0 0x41) parked).strands 0).map Strand.st = some (.parked .slotState) ∧
    recordHeld rec_ 0 = true ∧ recordHeld parked 0 = false ∧ risingFrom 0 parked.wgs = true ∧
    (does (.contextKill 0) parked).wgs = [] ∧
    (does (.shootdown 0 0x1FFF 0x2000) mapped0).cores.all (fun e => e.2.tlb.isEmpty) = true ∧
    (die State.reset 3).closing = false ∧ State.reset.asked = false ∧
    quietDie { State.reset with posted := [onItsWay 0 0] } 0 = false ∧
    (die State.reset 3).mode = .run ∧ quietDie State.reset 3 = true ∧ (die State.reset 3).resetting = none ∧
    (die (modDie State.reset 3 fun d => { d with resetting := some true, inReset := true }) 3).resetting = some true := by
  decide +kernel

theorem witness_PackageAndHost :
    let split := { State.reset with links := List.replicate 12 false }
    let hot := modDie State.reset 3 fun d => { d with mode := .ember, hot := true }
    let r : Record := ⟨7, 1, 1, 8, 0, 0, 0, 0, 0, 0, 0, 0, 0, 0, 0⟩
    State.reset.links[11]? = some true ∧ split.links.all (!·) = true ∧ (die split 3).inReset = false ∧
    (die (does (.dieSplit 3) split) 3).inReset = true ∧ (die hot 3).hot = true ∧ (die hot 3).mode = .ember ∧
    State.reset.boot.flash.authentic = true ∧
    (find (Machine.core (modCore State.reset 0 fun c => { c with l1 := [(0x2000, ⟨0, 0, none, 0⟩)] }) 0).l1 0x2000).isSome = true ∧
    (find plainHere.wgs 2).isSome = true ∧ Memory.wf State.reset.mem = true ∧ State.reset.held = [] ∧
    readByte (does (.hostMemWrite 0x7F_FFFF_FFFF [9]) State.reset).mem 0x7F_FFFF_FFFF = 9 ∧
    (die (modDie State.reset 3 fun d => { d with holding := [r] }) 3).holding = r :: [] ∧
    ((does (.eventRecordOffer 3) (modDie { State.reset with time := 1000 } 3 fun d => { d with holding := [{ r with type := 5, ncyc := 2 }, r] })).events.length = 2) ∧
    (find (die (does (.uncorrectableError (.copy 3 0x2040)) (modDie State.reset 3 fun d => { d with copies := [(0x2000, (0, 0))] })) 3).copies
      0x2000) = some (0, 2) ∧
    (find (does (.uncorrectableError (.pkg 0x2000)) { State.reset with pkgCache := [(0x2000, 0)] }).pkgCache 0x2000) = some 1 ∧
    ((does .getVersion { State.reset with boot := { Boot.reset with
      running := false, master := some 8, passed := [true, false, false, false, false] } }).out) = [.answer 2 8 1] ∧
    ((does (.eventQueueTake 1) { State.reset with events := [r] }).events = []) := by decide +kernel

theorem witness_InstructionFrames : Instr.spec (.nop ⟨.i8, none, .nul, .nul⟩) ≠ none ∧ (site? plainHere).isSome = true ∧
    risingFrom 0 plainHere.cores = true := by decide

/-! ### Further witnesses: the clauses at the ends of their ranges -/

/-- A launch record of one workgroup of one 8-lane group on die 0. -/
def recordBytes : List Nat := (List.range 256).map fun o =>
  if o = 0x18 || o = 0x1E then 3 else if o = 0x80 then 8
  else if o = 0x20 || o = 0x22 || o = 0x30 || o = 0x34 || o = 0x38 || o = 0x3C || o = 0x48 || o = 0x84 then 1 else 0

/-- The same with byte `o` set to `v`. -/
def recordWith (o v : Nat) : List Nat := recordBytes.set o v

/-- Every status of R28, each where the record breaks its rule alone. -/
theorem witness_recordStatus :
    let s := State.reset
    let off := modDie s 0 fun d => { d with mode := .off }
    let poor := { s with damper := { s.damper with budget := 0 } }
    recordBytes.length = 256 ∧ recordBytes.all (· < 256) = true ∧ recordStatus s 0 0 recordBytes = 0x5A ∧
    recordStatus s 0 0 (recordWith 0x27 1) = 0xE1 ∧ recordStatus s 0 0 (recordWith 0x48 2) = 0xE2 ∧
    recordStatus s 0 0 (recordWith 0x80 12) = 0xE2 ∧ recordStatus off 0 0 recordBytes = 0xE4 ∧
    fitOk (launchOf s 0 0 ((((recordWith 0x18 6).set 0x19 11).set 0x21 2).set 0x20 0)) = false ∧
    recordStatus poor 0 0 ((recordWith 0x1F 2).set 0xF8 1) = 0xE5 := by decide +kernel

/-- A lane that has chosen already gives a misaligned address too. -/
theorem witness_misaligned_second_choice :
    let s := here 0 (tok 8) (tok 0) (tok 0)
    ((site? s).map fun x => x.mod s fun b => { b with choices := [(0, .quit)] }).any (fun t =>
      meets t fun x _ => !x.st.trap && (x.opnd 0).mask.has 0 && !x.b.removed.has 0 && (find x.b.choices 0).isSome &&
        ((x.opnd 0).at_ 0).toNat % 16 != 0) = true := by decide +kernel

/-- A group that holds sixteen locks, and one that has come to hold the line for which it asks. -/
theorem witness_full_lock_set :
    let full := modGroup plainHere 3 fun g => { g with locks := (List.range 16).map fun n => ⟨0x4000 + 128 * n, 1, 0⟩ }
    let own := modGroup plainHere 3 fun g => { g with locks := [⟨0x2000, 0xFF, 0⟩] }
    setFull full 3 = true ∧ setFull plainHere 3 = false ∧ ownEntry own (waiter 9) 0x2000 = some ⟨0x2000, 0xFF, 0⟩ ∧
    ownEntry plainHere (waiter 9) 0x2000 = none ∧
    lockOf (grantTo ⟨0x2000, 0, none, [], false, none, false⟩ 0 [waiter 9] full) 0x2000 = none ∧
    (lockOf (grantTo ⟨0x2000, 0, none, [], false, none, false⟩ 2 [waiter 9] plainHere) 0x2000).isSome = true ∧
    ((find (does (.lockRequestArrival 9) { full with lockMsgs := [.request (waiter 9) 0x2000 0 false false] }).groups 3).map
      fun g => g.locks.length) = some 16 := by decide +kernel

/-- A line that the asking block's own atomics hold, and another block's. -/
theorem witness_held_line_request :
    let q : LineReq := ⟨9, 0, 0, 0x2000, 0, 0, false, true, [(4, 0, 0)], true, none⟩
    let s := { plainHere with reqs := [{ q with uid := 8, loads := [] }, q], held := [⟨0x2000, 4, 0, 0, 0, 0, false, 0⟩] }
    ofHolder s q = true ∧ ofHolder { s with held := [] } q = false ∧
    (does (.homeLineRequest 9) { s with held := [] }).reqs.map (fun r => r.reply.isSome) = [false, false] ∧
    (does (.homeLineRequest 9) s).reqs.map (fun r => r.reply.isSome) = [false, true] := by decide +kernel

/-- A claim that has been given up, and one that stands; a source line that a block holds. -/
theorem witness_claims_and_sources :
    let p : Place := ⟨3, newGroup probeLaunch 2 0 0 0 0, 2, probeWg 1, 1, probeLaunch⟩
    let s := { mapped0 with held := [⟨0x2000, 4, 0, 0, 0, 0, false, 0⟩] }
    claimed (Machine.core (claims plainHere) 0) p 1 = true ∧ claimed (Machine.core plainHere 0) p 1 = false ∧
    readsHeld s 0 0 0x1000 128 = true ∧ readsHeld s 0 0 0x1080 128 = false ∧ readsHeld mapped0 0 0 0x1000 128 = false ∧
    cardHeld s 0 (copyJob copyCard (some 0)) copyCard = true ∧ cardHeld mapped0 0 (copyJob copyCard (some 0)) copyCard = false ∧
    fetchHeld s 0 0 0x1000 = true ∧ fetchHeld mapped0 0 0 0x1000 = false ∧ homePoisoned { mapped0 with poison := [0x2000] } 0x2038 = true ∧ homePoisoned s 0x2038 = false ∧
    lineHeld s (lineOf (0x2040 % 2 ^ 51)) = true := by decide +kernel

/-- A deque from which an entry has been stolen in the present clock. -/
theorem witness_stolen_deque :
    let r := modCore plainHere 0 fun c => { c with deque := ⟨some (0, 2), [⟨8, none⟩], some 0⟩ }
    (Machine.core r 0).deque.stolen = some (die r 0).clk ∧ does (.dqpop ⟨.i8, none, .out 0, .nul⟩) r = r ∧
    (Machine.core plainHere 0).deque.stolen ≠ some (die plainHere 0).clk := by decide +kernel

/-- A posted record in the slot behind the last one, and a queue all of whose slots hold one. -/
theorem witness_next_post :
    let mark := fun k => 0x80_0000_0000 + 256 * k + 0xFF
    let s := { State.reset with mem := writeByte (writeByte [] (mark 1) 0xA5) (mark 2) 0xA5 }
    nextFree s 0 1 = 3 ∧ nextFree s 0 63 = 63 ∧ s.queues.length = 64 := by decide +kernel

/-- A ring whose owner and whose other task groups are of one launch; the record of a copy that a close abandons. -/
theorem witness_ring_commits :
    let r := modRing (meeting 3) 0 fun r => { r with
      rules := [(0, ⟨oneRule, [0], 1, false⟩)]
      members := r.members.map fun k => { k with pairs := [⟨1, 7, 0, 0, 63, false, false⟩, TaskPair.reset] } }
    ((ring r 0).owner.bind fun o => (find r.wgs o.2).map Wg.launch) = some 1 ∧ (ring r 0).st ≠ 0 ∧
    ((ring (modRing r 0 fun k => k.abandon fun q => q.st == 1) 0).rules.map fun e => e.2.met) = [[]] ∧
    ((ring r 0).member 1).group ≠ none ∧ ((ring (ringing 1) 0).member 0).group = none ∧
    (ring (meeting 3) 0).tickStart + (ring (meeting 3) 0).period ≤ (die (modDie (meeting 3) 0 fun d => { d with clk := 96 }) 0).clk := by decide +kernel

/-- A sweep's fetch that stands for its pair's number, and one whose pair has gone on. -/
theorem witness_sweep_fetch :
    let q : TaskPair := ⟨1, 9, 0, 0, 63, true, false⟩
    let s := modRing (meeting 3) 0 fun r => { r with members := r.members.map fun k => { k with pairs := [q, q] } }
    ((ring s 0).member 0).pair 1 = q ∧ q.st = 1 ∧ q.swept = true ∧ q.num = 9 ∧ q.num ≠ 8 ∧
    spawnable s ((ring s 0).member 0) = true ∧ (freeEntries s 0).length = 255 := by decide +kernel

/-- A field and a crossbar reserved by a block of the workgroup, and by one that is gone; clocks that they have not taken. -/
theorem witness_reservations_and_clocks :
    let s := modDie (fieldOf plainHere id) 0 fun d => { d with clk := 1 }
    let x := modCore s 0 fun c => { c with xbar := { c.xbar with owner := some (0, 2), clocks := [(5, 0x1000_0000)] } }
    wgOfBlk plainHere 4 = some 2 ∧ wgOfBlk plainHere 7 ≠ some 2 ∧ (Machine.core s 0).field.upTo < (die s 0).clk ∧
    (Machine.core x 0).xbar.upTo < (die x 0).clk ∧ ((Machine.core x 0).field.owner ≠ none ∧ ¬ (die x 0).clk ≤ (Machine.core x 0).field.upTo) ∧
    (get (Machine.core x 0).xbar.clocks 5 0).getLsbD 28 = true ∧ (get (Machine.core x 0).xbar.clocks 6 0).getLsbD 28 = false ∧
    (Machine.core (does (.integratorStep 0 0) s) 0).field.upTo = 1 := by decide +kernel

/-- A region of two cells that feed each other, silent; a token on its way to a sink that the swap changes; one to another. -/
theorem witness_region_loop :
    let loop (k n : Nat) : Nat × Cell := (k, { adder with cfg := BitVec.ofNat 128 (2 ^ 127 + 1 * 2 ^ 123 + 1 * 2 ^ 101 + (2 ^ 15 + 16 * n) * 2 ^ 48) })
    let w : Swap := ⟨8, 0, 0, 0⟩
    let s := modDie plainHere 0 fun d => { d with cells := [loop 0 1, loop 1 0], swaps := [w], sinkShadows := [(15, ⟨⟨0, 0x1000⟩, 0, 0⟩)] }
    let t : RedTok := ⟨9, 0, 0xC00F, .data 0 1 2 false 5, 0, false⟩
    regionSilent s 0 w = true ∧ sinkComing { s with toks := [t] } 0 w = true ∧
    sinkComing { s with toks := [{ t with edge := 0xC00E }] } 0 w = false ∧
    ((find (die (does (.drainTokenPass 0 1) s) 0).cells 1).bind Cell.drained) = some 8 := by decide +kernel

/-- A call whose lanes come before those of a commit in the same clock; a die whose copy of the time base is 8 ns behind. -/
theorem witness_calls_and_clocks :
    let c : Call := ⟨9, 0, 0, 0, 0, 0, 3, [0], 0, []⟩
    let s := { modGroup plainHere 3 fun g => { g with committed := some (0, 5) } with mailbox := [c] }
    let e := modDie { State.reset with time := 8 } 3 fun d => { d with mode := .ember, counted := [(0, 2)] }
    callLane s c = 0 ∧ (does (.hcallService 0 true) s) = s ∧ (does (.hcallService 0 true) { plainHere with mailbox := [c] }).mailbox = [] ∧
    (e.time - (die e 3).sample).toNat = 8 ∧ risingFrom 0 (die e 3).counted = true ∧ (die e 3).begins 8 false 0 = true ∧
    ((die e 3).newClock 8 0).sample = 2 ∧ ((die e 3).newClock 8 0).counters.getD 0 0 = 2 := by decide +kernel

/-- The probe's strand at a block of CONST.i32 0 -> i1.a and the word `w` at 0x1000, on an executable page. -/
def codeHere (h0 h1 w : Nat) : State :=
  let s := modCore between 0 fun c => { c with tlb := [⟨0, 0x1000, 0x1000, 0x200F⟩] }
  { s with mem := writeLE (writeLE (writeLE (writeLE [] 0x2000 8 h0) 0x2008 8 h1) 0x2010 8 0x0088_013F_C000_0000) 0x2018 8 w }

/-- What the checks of R82 make of it: a fault, or none. -/
def checked (s : State) : Option (Option (FaultCode × Nat × Nat)) :=
  (placeOf s 0).map fun e => match (blockAt s 0 e.1 e.2 0x1000).1 with
    | .ok _ => none
    | .error f => some f

/-- EXIT 0 makes a block that passes; a bad first header word; a mask that leaves the exit out; an undefined opcode; no exit; no
right to execute. -/
theorem witness_block_checks :
    [checked (codeHere 0xB040_0000_0000_0000 2 0x0200_0000_0000_0000), checked (codeHere 0xA040_0000_0000_0000 2 0x0200_0000_0000_0000),
      checked (codeHere 0xB040_0000_0000_0000 0 0x0200_0000_0000_0000), checked (codeHere 0xB040_0000_0000_0000 0 0x4500_3FFF_E000_0000),
      checked (codeHere 0xB040_0000_0000_0000 0 0x0000_3FFF_C000_0000), checked between] =
    [some none, some (some (.blockFormat, 0xFF, 0x1000)), some (some (.blockFormat, 0xFF, 0x1000)),
      some (some (.opcodeUndef, 1, 0x1000)), some (some (.blockFormat, 0xFF, 0x1000)),
      some (some (.accessViolation, 0xFF, 0x1000))] := by decide +kernel

/-- That block fires. -/
theorem witness_block_fires : ((find (does (.blockFire 0 0) (codeHere 0xB040_0000_0000_0000 2 0x0200_0000_0000_0000)).strands 0).map
    fun st => st.blocks.length) = some 1 := by decide +kernel

/-- A commit of higher lanes has gone before in the clock. -/
def late : State := modGroup ended 3 fun g => { g with committed := some (0, 5) }

/-- A faulted RTSWAP that discards, over the first of two marked columns. -/
def marked : State := modDie (modStrand faulty 0 fun st => { st with blocks := st.blocks.map fun b =>
  { b with effects := [(0, .rtswap 0 3 true)] } }) 0 fun d => { d with shadowBad := [(3, .blockFormat), (4, .blockFormat)] }

/-- A complete block in its turn. -/
theorem witness_commit_turns :
    ((placeOf ended 0).map fun e => e.1.blocks.all (commitReady ended 0 e.1 e.2)) = some true ∧
    ((placeOf ended 0).map fun e => e.2.g.committed.isNone && e.1.blocks.all fun b => b.h.rel == 0 && (b.releases e.2).isEmpty) =
      some true ∧ ((find (does (.blockCommit 0 0) ended).strands 0).map Strand.pc) = some 32 := by decide +kernel

/-- One whose turn has not come does not commit. -/
theorem witness_commit_waits : does (.blockCommit 0 0) late = late := by decide +kernel

/-- An RTSWAP that discards takes the marks of its columns with it. -/
theorem witness_discarded_marks : (die (does (.faultTake 0 0) marked) 0).shadowBad = [(4, .blockFormat)] := by decide +kernel

/-- Stores that a shootdown waits for; a die that thermal control holds; a record dropped and one held; a home that is OFF. -/
theorem witness_management_ends :
    let p := { onItsWay 0 0 with pages := [1] }
    let s := { plainHere with posted := [p] }
    let off := modDie State.reset 3 fun d => { d with mode := .off }
    let r : Record := ⟨7, 1, 1, 11, 0, 0, 1, 0, 0, 0, 0, 0, 0, 0, 6⟩
    let full := modDie { State.reset with time := 1000, events := List.replicate 4096 r } 3 fun d => { d with holding := [r] }
    rangeInUse s 0 0x1FFF 0x2000 = true ∧ rangeInUse s 0 0x2000 0x3000 = false ∧ (does (.shootdown 0 0x1000 0x2000) s).out = [] ∧
    (does (.shootdown 0 0x1000 0x2000) plainHere).out = [.reply 5 0] ∧ (does (.shootdown 0 0x1000 0x2000) s).asked = false ∧
    (die (does (.thermalThrottle 3) (modDie State.reset 3 fun d => { d with mode := .idle })) 3).hot = true ∧
    (does (.hostMemRead 0x7F_FFFF_FFFF 1) off).out = [.hostError 0x7F_FFFF_FFFF false] ∧
    (does (.hostMemWrite 0x7F_FFFF_FFFF [1]) off).out = [.hostError 0x7F_FFFF_FFFF true] ∧
    (die (does (.eventRecordOffer 3) full) 3).offered = 1000 ∧ full.time.toNat < 1000 + 1000 ∧
    stillUntaken [r] 3 (some (.dropped 5)) = none ∧ stillUntaken [r] 3 (some (.dropped 6)) = some (.dropped 6) ∧
    stillUntaken [r] 3 (some (.held 7)) = none ∧ stillUntaken [r] 3 (some (.held 8)) = some (.held 8) := by decide +kernel

end Sys2Proof.Tests
end

section
/-! SUPPORT. Masks, tokens and the four instructions that divide and join them (07_ref_block, R139 to R142): what a mask
and a token hold for one lane after each shared operation, then each instruction's token, then O11. -/

namespace Sys2Proof

/-! ## Masks, lane by lane -/

@[simp] theorem Mask.has_and (m k : Mask) (l : Nat) : Mask.has (m &&& k) l = (m.has l && k.has l) :=
  BitVec.getLsbD_and

@[simp] theorem Mask.has_or (m k : Mask) (l : Nat) : Mask.has (m ||| k) l = (m.has l || k.has l) :=
  BitVec.getLsbD_or

theorem Mask.has_zero (l : Nat) : Mask.has 0 l = false := BitVec.getLsbD_zero

/-- A lane of a mask is one of the 64. -/
theorem Mask.lt_of_has {m : Mask} {l : Nat} (h : m.has l = true) : l < 64 := BitVec.lt_of_getLsbD h

/-- Taking away `k` from `m`: the complement counts only among the 64 lanes, which every lane of `m` is. -/
theorem Mask.has_and_not (m k : Mask) (l : Nat) : Mask.has (m &&& ~~~k) l = (m.has l && !k.has l) := by
  cases h : m.has l
  · simp [h]
  · rw [Mask.has_and, h, Mask.has, BitVec.getLsbD_not]
    simp [Mask.lt_of_has h, Mask.has]

/-- A mask holding lane `n` alone. -/
theorem Mask.has_one (n l : Nat) : (Mask.one n).has l = decide (l < 64 ∧ l = n) := by
  rw [Bool.eq_iff_iff]
  simp [Mask.one, Mask.has]
  omega

@[simp] theorem Mask.mem_lanes {m : Mask} {l : Nat} : l ∈ m.lanes ↔ m.has l = true := by
  rw [Mask.lanes, List.mem_filter, List.mem_range]
  exact ⟨And.right, fun h => ⟨Mask.lt_of_has h, h⟩⟩

/-- What `m` contained in `k` says of a lane. -/
theorem Mask.has_of_within {m k : Mask} {l : Nat} (h : Mask.within m k = true) (hl : m.has l = true) : k.has l = true := by
  have hz : m &&& ~~~k = 0 := eq_of_beq h
  have hk := Mask.has_and_not m k l
  rw [hz, Mask.has_zero, hl] at hk
  simpa using hk.symm

/-! ## Values of a type -/

namespace Claim

/-- Every type fits the token it travels in, and every token fits 128 bits. -/
theorem width_le_tokenWidth (t : Ty) : t.width ≤ t.tokenWidth ∧ t.tokenWidth ≤ 128 := by
  cases t <;> decide

/-- What a token carries, cut to the type's width, is the value again (R130). -/
@[simp] theorem at_carried (t : Ty) (x : BitVec t.width) : at_ t (carried t x) = x := by
  obtain ⟨hw, ht⟩ := width_le_tokenWidth t
  apply BitVec.eq_of_getLsbD_eq
  intro i hi
  unfold at_ carried
  split
  · simp [hi, show i < t.tokenWidth by omega, show i < 128 by omega, BitVec.getElem_signExtend]
  · simp [hi, show i < 128 by omega]

theorem carried_inj (t : Ty) {x y : BitVec t.width} : carried t x = carried t y ↔ x = y :=
  ⟨fun h => by simpa using congrArg (at_ t) h, congrArg _⟩

end Claim

namespace Machine

open Sys2Proof.Claim

/-- The machine's way to carry a bit pattern is R130's: the value at the type's width, extended. -/
theorem carryBits_toNat (t : Ty) (v : Val) : carryBits t v.toNat = carried t (at_ t v) := by
  have hw : BitVec.ofInt t.width (v.toNat : Int) = at_ t v := by
    rw [BitVec.ofInt_natCast]; exact BitVec.ofNat_toNat _ v
  unfold carryBits carry carried
  rw [hw]
  split
  · exact BitVec.ofNat_toNat 128 ((at_ t v).signExtend t.tokenWidth)
  · exact BitVec.ofNat_toNat 128 (at_ t v)

/-! ## Tables of lanes -/

/-- A read of a lane of the mask that the table was made over. -/
theorem find_map_of_mem {α : Type} (f : Nat → α) {ls : List Nat} {l : Nat} (h : l ∈ ls) :
    find (ls.map fun k => (k, f k)) l = some (f l) := by
  induction ls with
  | nil => cases h
  | cons k ls ih =>
    by_cases hk : k = l
    · simp [find, hk]
    · simp [find, hk, ih ((List.mem_cons.mp h).resolve_left (Ne.symm hk))]

/-- A read at a key that a selection of the keys keeps. -/
theorem find_filter_key {α : Type} (m : KMap α) (p : Nat → Bool) {k : Nat} (h : p k = true) :
    find (m.filter fun e => p e.1) k = find m k := by
  induction m with
  | nil => rfl
  | cons e r ih =>
    obtain ⟨a, w⟩ := e
    by_cases hk : a = k
    · subst hk; simp [find, h]
    · cases ha : p a <;> simp [find, ha, hk, ih]

/-! ## Tokens, lane by lane -/

theorem Token.at_of_uni {t : Token} (h : t.uni = true) (l : Nat) : t.at_ l = t.val := by simp [Token.at_, h]

theorem laneTok_at (width : Nat) (f : Nat → Val) {m : Mask} {l : Nat} (h : m.has l = true) :
    (laneTok width m f).at_ l = f l := by
  simp [laneTok, Token.at_, get, find_map_of_mem f (Mask.mem_lanes.mpr h)]

/-- A token cut to a mask keeps the values of the lanes it still covers. -/
theorem cut_at (t : Token) {m : Mask} {l : Nat} (h : m.has l = true) : (t.cut m).at_ l = t.at_ l := by
  simp [Token.cut, Token.at_, get, find_filter_key t.lanes m.has h]

@[simp] theorem retype_width (t : Ty) (k : Token) : (retype t k).width = t.tokenWidth := rfl
@[simp] theorem retype_win (t : Ty) (k : Token) : (retype t k).win = (k.win && decide (t = .b128)) := rfl
@[simp] theorem retype_uni (t : Ty) (k : Token) : (retype t k).uni = k.uni := rfl
@[simp] theorem retype_mask (t : Ty) (k : Token) : (retype t k).mask = k.mask := rfl
@[simp] theorem retype_val (t : Ty) (k : Token) : (retype t k).val = carried t (at_ t k.val) := carryBits_toNat t k.val

/-- A token read at a type's width carries each lane's value at that width (R130). -/
@[simp] theorem retype_at (t : Ty) (k : Token) (l : Nat) : (retype t k).at_ l = carried t (at_ t (k.at_ l)) := by
  rw [← carryBits_toNat]
  cases hu : k.uni
  · cases hl : find k.lanes l
    · have h0 : carryBits t 0 = 0 := by cases t <;> decide
      simp [retype, Token.at_, get, hu, hl, h0]
    · simp [retype, Token.at_, get, hu, hl]
  · simp [retype, Token.at_, hu]

/-- The token of an operation lane by lane: a uniform one takes its value at one lane, which stands for all where the lanes
agree (R132). -/
theorem lanewise_mkTok (u : Bool) (width : Nat) (m : Mask) (f : Nat → Val) (hf : u = true → ∀ l k, f l = f k) :
    Lanewise (mkTok u width m f) width u m fun l v => v = f l := by
  cases u
  · exact ⟨rfl, rfl, rfl, rfl, fun l hl => laneTok_at width f hl⟩
  · exact ⟨rfl, rfl, rfl, rfl, fun l _ => hf rfl _ l⟩

/-- The window mark set aside changes no value. -/
theorem at_withoutWin (t : Token) (l : Nat) : ({ t with win := false } : Token).at_ l = t.at_ l := rfl

/-- The part of an operand, read at a type's width, that a mask keeps. -/
theorem lanewise_cut_retype (t : Ty) (k : Token) (m : Mask) :
    Lanewise { (retype t k).cut m with win := false } t.tokenWidth k.uni m fun l v => v = carried t (at_ t (k.at_ l)) :=
  ⟨rfl, rfl, rfl, rfl, fun l hl => by rw [at_withoutWin, cut_at _ hl, retype_at]⟩

/-! ## STEER (R139) -/

/-- Lanes gathered one by one into a mask. -/
theorem has_foldl_one (p : Nat → Bool) {ls : List Nat} (hls : ∀ k ∈ ls, k < 64) (r : Mask) (l : Nat) :
    (ls.foldl (fun r k => if p k then r ||| Mask.one k else r) r).has l = true ↔
      r.has l = true ∨ l ∈ ls ∧ p l = true := by
  induction ls generalizing r with
  | nil => simp
  | cons k ls ih =>
    rw [List.foldl_cons, ih (fun n hn => hls n (List.mem_cons_of_mem _ hn))]
    have hk := hls k List.mem_cons_self
    by_cases hl : l = k
    · subst hl; cases p l <;> simp [Mask.has_one, hk]
    · cases p k <;> simp [hl, Mask.has_one]

/-- STEER's true lanes: those of the mask whose condition is not zero on any bit it carries. -/
theorem has_trueLanes (c : Token) (m : Mask) (l : Nat) :
    (trueLanes c m).has l = (m.has l && decide (c.at_ l ≠ 0)) := by
  have hls : ∀ k ∈ m.lanes, k < 64 := fun k hk => Mask.lt_of_has (Mask.mem_lanes.mp hk)
  rw [Bool.eq_iff_iff, trueLanes, has_foldl_one (fun l => c.at_ l != 0) hls, Mask.mem_lanes, Mask.has_zero]
  simp

/-! ## MERGE (R140) -/

/-- The flag of MERGE's result, by R140's three cases. -/
def mergeUni (a b : Token) : Bool :=
  a.uni && b.uni && (Mask.within b.mask a.mask || a.mask == 0 || a.val == b.val)

/-- MERGE's value for a lane: a where it is present, b elsewhere. -/
def mergeAt (a b : Token) (l : Nat) : Val := if a.mask.has l then a.at_ l else b.at_ l

/-- MERGE's three tokens: a's value or b's for every lane of both masks, or lane by lane. -/
theorem mergeTok_cases (a b : Token) :
    (a.uni = true ∧ b.uni = true ∧ Mask.within b.mask a.mask = true ∧
      mergeTok a b = { a with mask := a.mask ||| b.mask }) ∨
    (a.uni = true ∧ b.uni = true ∧ (a.mask = 0 ∨ a.val = b.val) ∧
      mergeTok a b = { b with mask := a.mask ||| b.mask }) ∨
    (mergeUni a b = false ∧
      mergeTok a b = { laneTok a.width (a.mask ||| b.mask) (mergeAt a b) with win := a.win }) := by
  unfold mergeTok mergeUni
  cases ha : a.uni
  · exact .inr (.inr ⟨rfl, rfl⟩)
  cases hb : b.uni
  · exact .inr (.inr ⟨rfl, rfl⟩)
  cases hw : Mask.within b.mask a.mask
  · cases he : a.mask == 0 || a.val == b.val
    · exact .inr (.inr ⟨he, rfl⟩)
    · exact .inr (.inl ⟨rfl, rfl, by simpa using he, rfl⟩)
  · exact .inl ⟨rfl, rfl, rfl, rfl⟩

/-- MERGE's token for operands of one width. -/
theorem lanewise_mergeTok (a b : Token) (hw : b.width = a.width) :
    Lanewise { mergeTok a b with win := false } a.width (mergeUni a b) (a.mask ||| b.mask)
      fun l v => v = mergeAt a b l := by
  obtain ⟨ha, hb, hin, h⟩ | ⟨ha, hb, heq, h⟩ | ⟨hu, h⟩ := mergeTok_cases a b <;> rw [h]
  · refine ⟨rfl, rfl, by simp [mergeUni, ha, hb, hin], rfl, fun l hl => ?_⟩
    have hal : a.mask.has l = true := by
      rcases Bool.or_eq_true_iff.mp ((Mask.has_or ..).symm.trans hl) with hl | hl
      · exact hl
      · exact Mask.has_of_within hin hl
    rw [mergeAt, hal]; rfl
  · have hu : (a.mask == 0 || a.val == b.val) = true := by simpa using heq
    refine ⟨hw, rfl, by simp only [mergeUni, ha, hb, Bool.or_assoc, hu, Bool.or_true, Bool.and_self], rfl, fun l _ => ?_⟩
    rw [at_withoutWin, mergeAt]
    rcases heq with heq | heq
    · rw [heq, Mask.has_zero]; rfl
    · rw [Token.at_of_uni ha, heq, Token.at_of_uni hb, ite_self]
      exact Token.at_of_uni hb l
  · exact ⟨rfl, rfl, hu.symm, rfl, fun l hl => laneTok_at a.width (mergeAt a b) hl⟩

/-! ## SELECT (R141) -/

/-- The result mask of three operands (R131). -/
theorem maskOf_three (a b c : Token) : maskOf [a, b, c] = a.mask &&& b.mask &&& c.mask := by
  change ~~~(0 : Mask) &&& a.mask &&& b.mask &&& c.mask = _
  rw [BitVec.ofNat_eq_ofNat, BitVec.not_zero, BitVec.allOnes_and]

/-- Three operands are uniform together (R132). -/
theorem uniOf_three (a b c : Token) : uniOf [a, b, c] = (a.uni && b.uni && c.uni) := by
  simp [uniOf, Bool.and_assoc]

/-- SELECT's token for values a and b and choice c. -/
theorem lanewise_selectTok (a b c : Token) :
    Lanewise { selectTok a b c with win := false } a.width (a.uni && b.uni && c.uni) (a.mask &&& b.mask &&& c.mask)
      fun l v => v = if c.at_ l ≠ 0 then a.at_ l else b.at_ l := by
  obtain ⟨hwidth, -, huni, hmask, hlane⟩ := lanewise_mkTok (a.uni && b.uni && c.uni) a.width
    (a.mask &&& b.mask &&& c.mask) (fun l => if c.at_ l != 0 then a.at_ l else b.at_ l) fun h l k => by
      obtain ⟨⟨ha, hb⟩, hc⟩ : (a.uni = true ∧ b.uni = true) ∧ c.uni = true := by simpa using h
      simp only [Token.at_of_uni ha, Token.at_of_uni hb, Token.at_of_uni hc]
  exact ⟨hwidth, rfl, huni, hmask, fun l hl => (hlane l hl).trans (by simp)⟩

/-! ## The four instructions at their site -/

variable {s : State} {x : Site}

theorem exec_steer (w : Plain) (h : site? s = some x) :
    let a := retype w.ty (x.opnd 0)
    let b := x.opnd 1
    let m := a.mask &&& b.mask
    exec (.steer w) s = .next (x.mod s fun k =>
      k.finish x.i w.ta w.tb (a.cut (trueLanes b m)) (a.cut (m &&& ~~~trueLanes b m))) :=
  atSite_some _ h

theorem exec_merge (w : Plain) (h : site? s = some x) : exec (.merge w) s =
    .next (x.yield s w.ta w.tb (mergeTok (retype w.ty (x.opnd 0)) (retype w.ty (x.opnd 1)))) :=
  atSite_some _ h

theorem exec_select (w : Plain) (h : site? s = some x) : exec (.select w) s =
    .next (x.yield s w.ta w.tb (selectTok (retype w.ty (x.opnd 0)) (retype w.ty (x.opnd 1)) (x.opnd 2))) :=
  atSite_some _ h

theorem exec_nullify (w : Plain) (h : site? s = some x) : exec (.nullify w) s =
    .next (x.yield s w.ta w.tb ((retype w.ty (x.opnd 0)).cut ((x.opnd 0).mask &&& ~~~(x.opnd 1).mask))) :=
  atSite_some _ h

/-- R140's flag and values in the terms of the operands as delivered: two carried values are equal where the values at the
type's width are. -/
theorem mergeUni_retype (t : Ty) (a b : Token) : mergeUni (retype t a) (retype t b) =
    (a.uni && b.uni && (Mask.within b.mask a.mask || a.mask == 0 || decide (at_ t a.val = at_ t b.val))) := by
  have hv : ((retype t a).val == (retype t b).val) = decide (at_ t a.val = at_ t b.val) := by
    rw [retype_val, retype_val, Bool.eq_iff_iff, beq_iff_eq, carried_inj, decide_eq_true_iff]
  rw [mergeUni, hv]
  rfl

theorem mergeAt_retype (t : Ty) (a b : Token) (l : Nat) : mergeAt (retype t a) (retype t b) l =
    if a.mask.has l then carried t (at_ t (a.at_ l)) else carried t (at_ t (b.at_ l)) := by
  simp [mergeAt]

end Machine

open Machine Claim

/-- Settles O11: each instruction runs at its site, and its tokens are a cut of a (STEER, NULLIFY), MERGE's join or SELECT's
choice of the operands read at the type's width. -/
theorem steerMergeSelectNullify : Obligations.SteerMergeSelectNullify := by
  unfold Obligations.SteerMergeSelectNullify
  refine ⟨fun s x hx w => ⟨?steer, ?nullify⟩, fun s x hx w => ⟨?merge, ?select⟩⟩
  case steer =>
    refine ⟨_, _, _, _, exec_steer w hx, rfl, rfl, lanewise_cut_retype .., lanewise_cut_retype .., fun l => ?_, fun l => ?_⟩
    · simp [has_trueLanes]
    · rw [Mask.has_and_not, has_trueLanes]
      cases hm : (x.opnd 0).mask.has l && (x.opnd 1).mask.has l <;> simp [hm]
  case nullify => exact ⟨_, exec_nullify w hx, rfl, lanewise_cut_retype ..⟩
  case merge =>
    refine ⟨_, exec_merge w hx, ?_⟩
    have h := lanewise_mergeTok (retype w.ty (x.opnd 0)) (retype w.ty (x.opnd 1)) rfl
    simpa only [mergeUni_retype, mergeAt_retype, retype_width, retype_mask] using h
  case select =>
    refine ⟨_, exec_select w hx, rfl, ?_⟩
    have h := lanewise_selectTok (retype w.ty (x.opnd 0)) (retype w.ty (x.opnd 1)) (x.opnd 2)
    simpa only [uniOf_three, maskOf_three, retype_width, retype_uni, retype_mask, retype_at] using h

end Sys2Proof
end

section
/-! SUPPORT. Integer, bit and address instructions (08_ref_integer, R150 to R163): the machine's way to read an operand and to
carry a result in the terms of the statements, an operation lifted over the lanes of its operands, then each family of
instructions with the obligation it settles. -/

namespace Sys2Proof

namespace Claim

open Sys2Proof.Machine

/-- A token whose lanes satisfy `P` satisfies what follows from it. -/
theorem Lanewise.imp {t : Token} {width : Nat} {u : Bool} {m : Mask} {P Q : Nat → Val → Prop}
    (h : Lanewise t width u m P) (hPQ : ∀ l v, P l v → Q l v) : Lanewise t width u m Q :=
  ⟨h.hasWidth, h.noWindow, h.isUniform, h.hasMask, fun l hl => hPQ l _ (h.perLane l hl)⟩

end Claim

namespace Machine

open Sys2Proof.Claim

/-! ## Operands read and results carried (R102, R130, R150) -/

/-- The machine carries an exact result as R150 does: wrapped to the type's width, then extended. -/
theorem carry_eq_wrapped (t : Ty) (n : Int) : carry t n = wrapped t n := by
  unfold carry wrapped carried
  split
  · exact BitVec.ofNat_toNat 128 ((BitVec.ofInt t.width n).signExtend t.tokenWidth)
  · exact BitVec.ofNat_toNat 128 (BitVec.ofInt t.width n)

theorem carryBits_eq_carried (t : Ty) (n : Nat) : carryBits t n = carried t (BitVec.ofNat t.width n) := by
  rw [carryBits, carry_eq_wrapped, wrapped, BitVec.ofInt_natCast]

theorem ofNat_toNat_eq_at (t : Ty) (v : Val) : BitVec.ofNat t.width v.toNat = at_ t v := BitVec.ofNat_toNat _ v

theorem intOf_eq_val (t : Ty) (v : Val) : intOf t v = val t v := by
  rw [intOf, val, ofNat_toNat_eq_at, at_, BitVec.toNat_setWidth]

theorem signedOf_eq_toInt (t : Ty) (v : Val) : signedOf t v = (at_ t v).toInt := congrArg _ (ofNat_toNat_eq_at t v)

theorem natOf_eq_toNat (t : Ty) (v : Val) : natOf t v = (at_ t v).toNat := (BitVec.toNat_setWidth _ v).symm

/-- Wrapping an operand's exact value gives back its bits, signed or not. -/
@[simp] theorem ofInt_val (t : Ty) (v : Val) : BitVec.ofInt t.width (val t v) = at_ t v := by
  unfold val
  split
  · exact BitVec.ofInt_toInt
  · rw [BitVec.ofInt_natCast, BitVec.ofNat_toNat, BitVec.setWidth_eq]

theorem wrapped_val (t : Ty) (v : Val) : wrapped t (val t v) = carried t (at_ t v) := by
  rw [wrapped, ofInt_val]

/-- The low bits of a value, cut and widened again. -/
theorem lowBits_eq_setWidth {n : Nat} (h : n ≤ 128) (v : Val) : lowBits n v = (v.setWidth n).setWidth 128 := by
  have hp : 2 ^ n ≤ 2 ^ 128 := Nat.pow_le_pow_right (by omega) h
  have h0 : 0 < 2 ^ n := Nat.two_pow_pos n
  apply BitVec.eq_of_toNat_eq
  rw [lowBits, BitVec.toNat_and, BitVec.toNat_ofNat, Nat.mod_eq_of_lt (by omega), Nat.and_two_pow_sub_one_eq_mod,
    BitVec.toNat_setWidth, BitVec.toNat_setWidth, Nat.mod_eq_of_lt (a := v.toNat % 2 ^ n)]
  exact (Nat.mod_lt _ h0).trans_le hp

theorem width_le_128 (t : Ty) : t.width ≤ 128 := (width_le_tokenWidth t).1.trans (width_le_tokenWidth t).2

theorem valOf_eq_setWidth (t : Ty) (v : Val) : valOf t v = (at_ t v).setWidth 128 := lowBits_eq_setWidth (width_le_128 t) v

/-- Cutting a value to the type's width first changes none of its bits there. -/
@[simp] theorem at_valOf (t : Ty) (v : Val) : at_ t (valOf t v) = at_ t v := by
  rw [valOf_eq_setWidth, at_, BitVec.setWidth_setWidth_of_le _ (width_le_128 t), BitVec.setWidth_eq]

/-! ## One result per lane (R131, R132) -/

theorem maskOf_one (a : Token) : maskOf [a] = a.mask := by
  change ~~~(0 : Mask) &&& a.mask = _
  rw [BitVec.ofNat_eq_ofNat, BitVec.not_zero, BitVec.allOnes_and]

theorem maskOf_two (a b : Token) : maskOf [a, b] = a.mask &&& b.mask := by
  change maskOf [a] &&& b.mask = _
  rw [maskOf_one]

theorem uniOf_one (a : Token) : uniOf [a] = a.uni := by simp [uniOf]

theorem uniOf_two (a b : Token) : uniOf [a, b] = (a.uni && b.uni) := by simp [uniOf]

variable {P : Nat → Val → Prop} {width : Nat}

theorem lanewise_lift1 {f : Val → Val} {a : Token} (h : ∀ l, P l (f (a.at_ l))) :
    Lanewise (lift1 width f a) width (uniOf [a]) (maskOf [a]) P := by
  rw [uniOf_one, maskOf_one]
  refine (lanewise_mkTok a.uni width a.mask (fun l => f (a.at_ l)) fun ha l k => ?_).imp fun l v hv => hv ▸ h l
  rw [Token.at_of_uni ha, Token.at_of_uni ha]

theorem lanewise_lift2 {f : Val → Val → Val} {a b : Token} (h : ∀ l, P l (f (a.at_ l) (b.at_ l))) :
    Lanewise (lift2 width f a b) width (uniOf [a, b]) (maskOf [a, b]) P := by
  rw [uniOf_two, maskOf_two]
  refine (lanewise_mkTok _ width _ (fun l => f (a.at_ l) (b.at_ l)) fun hu l k => ?_).imp fun l v hv => hv ▸ h l
  obtain ⟨ha, hb⟩ : a.uni = true ∧ b.uni = true := by simpa using hu
  simp only [Token.at_of_uni ha, Token.at_of_uni hb]

theorem lanewise_lift3 {f : Val → Val → Val → Val} {a b c : Token} (h : ∀ l, P l (f (a.at_ l) (b.at_ l) (c.at_ l))) :
    Lanewise (lift3 width f a b c) width (uniOf [a, b, c]) (maskOf [a, b, c]) P := by
  rw [uniOf_three, maskOf_three]
  refine (lanewise_mkTok _ width _ (fun l => f (a.at_ l) (b.at_ l) (c.at_ l)) fun hu l k => ?_).imp fun l v hv => hv ▸ h l
  obtain ⟨⟨ha, hb⟩, hc⟩ : (a.uni = true ∧ b.uni = true) ∧ c.uni = true := by simpa using hu
  simp only [Token.at_of_uni ha, Token.at_of_uni hb, Token.at_of_uni hc]

/-! An instruction that runs at its site as a one-, two- or three-operand operation (R151). -/

variable {i : Instr} {s : State} {x : Site} {w : Plain} {kind : ImmKind}

theorem yields_un {f : Val → Val} (hi : exec i s = .next (x.un s w width f)) (h : ∀ l, P l (f ((x.opnd 0).at_ l))) :
    Yields i s x w.ta w.tb width [x.opnd 0] P :=
  ⟨_, hi, lanewise_lift1 h⟩

theorem yields_bin {f : Val → Val → Val} (hi : exec i s = .next (x.bin s w kind width f))
    (h : ∀ l, P l (f ((x.opnd 0).at_ l) ((x.last w 1 kind).at_ l))) :
    Yields i s x w.ta w.tb width [x.opnd 0, x.last w 1 kind] P :=
  ⟨_, hi, lanewise_lift2 h⟩

theorem yields_ter {f : Val → Val → Val → Val} (hi : exec i s = .next (x.ter s w kind width f))
    (h : ∀ l, P l (f ((x.opnd 0).at_ l) ((x.opnd 1).at_ l) ((x.last w 2 kind).at_ l))) :
    Yields i s x w.ta w.tb width [x.opnd 0, x.opnd 1, x.last w 2 kind] P :=
  ⟨_, hi, lanewise_lift3 h⟩

/-! ## Exact operations (R152 to R155) -/

variable (t : Ty) (a b c : Val)

theorem onInt1_eq (f : Int → Int) : onInt1 t f a = wrapped t (f (val t a)) := by
  rw [onInt1, carry_eq_wrapped, intOf_eq_val]

theorem onInt2_eq (f : Int → Int → Int) : onInt2 t f a b = wrapped t (f (val t a) (val t b)) := by
  rw [onInt2, carry_eq_wrapped, intOf_eq_val, intOf_eq_val]

theorem onInt3_eq (f : Int → Int → Int → Int) : onInt3 t f a b c = wrapped t (f (val t a) (val t b) (val t c)) := by
  rw [onInt3, carry_eq_wrapped, intOf_eq_val, intOf_eq_val, intOf_eq_val]

/-- R152: the signed and the unsigned sum have the same bits. -/
theorem wrapped_val_add : wrapped t (val t a + val t b) = carried t (at_ t a + at_ t b) := by
  rw [wrapped, BitVec.ofInt_add, ofInt_val, ofInt_val]

theorem wrapped_neg_val : wrapped t (-val t a) = carried t (-at_ t a) := by
  rw [wrapped, BitVec.ofInt_neg, ofInt_val]

/-- R152: the signed and the unsigned difference have the same bits. -/
theorem wrapped_val_sub : wrapped t (val t a - val t b) = carried t (at_ t a - at_ t b) := by
  rw [wrapped, Int.sub_eq_add_neg, BitVec.ofInt_add, BitVec.ofInt_neg, ofInt_val, ofInt_val, BitVec.sub_eq_add_neg]

/-- The two forms of saturation agree, since the least value of a type is at most its greatest (R105). -/
theorem satTo_eq_sat (n : Int) : satTo t n = sat t n := by
  have h1 : (0 : Int) < 2 ^ (t.width - 1) := by positivity
  have h2 : (0 : Int) < 2 ^ t.width := by positivity
  have hle : tyMin t ≤ tyMax t := by unfold tyMin tyMax; split <;> omega
  change max (tyMin t) (min (tyMax t) n) = if n < tyMin t then tyMin t else if tyMax t < n then tyMax t else n
  split_ifs <;> omega

theorem wrapped_min_val :
    wrapped t (min (val t a) (val t b)) = carried t (if val t a ≤ val t b then at_ t a else at_ t b) := by
  rw [min_def, apply_ite (wrapped t), wrapped_val, wrapped_val, apply_ite (carried t)]

theorem wrapped_max_val :
    wrapped t (max (val t a) (val t b)) = carried t (if val t b ≤ val t a then at_ t a else at_ t b) := by
  rw [max_comm, max_def, apply_ite (wrapped t), wrapped_val, wrapped_val, apply_ite (carried t)]

end Machine

open Machine Claim

/-- Settles O13: each operation is one on the exact values of its operands, wrapped; the sum and the difference of the values
wrap to those of the bit patterns. -/
theorem arithmeticResult : Obligations.ArithmeticResult := by
  unfold Obligations.ArithmeticResult
  intro s x hx w
  refine ⟨?add, ?sub, ?adds, ?subs, ?mul, ?mulh, ?mad⟩
  case add => exact yields_bin (atSite_some _ hx) fun l => (onInt2_eq ..).trans (wrapped_val_add ..)
  case sub => exact yields_bin (atSite_some _ hx) fun l => (onInt2_eq ..).trans (wrapped_val_sub ..)
  case adds => exact yields_bin (atSite_some _ hx) fun l => (onInt2_eq ..).trans (congrArg _ (satTo_eq_sat ..))
  case subs => exact yields_bin (atSite_some _ hx) fun l => (onInt2_eq ..).trans (congrArg _ (satTo_eq_sat ..))
  case mul => exact yields_bin (atSite_some _ hx) fun l => onInt2_eq ..
  case mulh => exact yields_bin (atSite_some _ hx) fun l => onInt2_eq ..
  case mad => exact yields_ter (atSite_some _ hx) fun l => onInt3_eq ..

end Sys2Proof
end

section
/-! SUPPORT. Carry and borrow (R153). -/

namespace Sys2Proof

namespace Machine

open Sys2Proof.Claim

/-- A condition's token is 1 where the condition holds and 0 where it does not. -/
theorem boolVal_spec {p : Prop} {k : Bool} (h : k = true ↔ p) : (p → boolVal k = 1) ∧ (¬ p → boolVal k = 0) :=
  ⟨fun hp => by rw [boolVal, if_pos (h.mpr hp)], fun hp => by rw [boolVal, if_neg (mt h.mp hp)]⟩

/-- The carry in, as the exact sum reads it: bit 0 of c. -/
theorem toNat_mod_two (c : Val) : ((c.toNat % 2 : Nat) : Int) = if c.getLsbD 0 then 1 else 0 := by
  rw [BitVec.getLsbD, Nat.testBit_zero]
  rcases Nat.mod_two_eq_zero_or_one c.toNat with h | h <;> simp [h]

variable (t : Ty) (a b c : Val)

theorem addcExact_eq : (addcExact t.width a b c : Int) =
    ((at_ t a).toNat : Int) + (at_ t b).toNat + if c.getLsbD 0 then 1 else 0 := by
  rw [addcExact, Nat.cast_add, Nat.cast_add, toNat_mod_two, at_, at_, BitVec.toNat_setWidth, BitVec.toNat_setWidth]

theorem subbExact_eq : subbExact t.width a b c =
    ((at_ t a).toNat : Int) - (at_ t b).toNat - if c.getLsbD 0 then 1 else 0 := by
  rw [subbExact, toNat_mod_two, at_, at_, BitVec.toNat_setWidth, BitVec.toNat_setWidth]

/-- The carry out (R153). -/
theorem carry_out_iff : decide (2 ^ t.width ≤ addcExact t.width a b c) = true ↔
    (2 : Int) ^ t.width ≤ ((at_ t a).toNat : Int) + (at_ t b).toNat + if c.getLsbD 0 then 1 else 0 := by
  rw [← addcExact_eq, decide_eq_true_iff]
  exact_mod_cast Iff.rfl

/-- The borrow out (R153). -/
theorem borrow_out_iff : decide (subbExact t.width a b c < 0) = true ↔
    ((at_ t a).toNat : Int) - (at_ t b).toNat - (if c.getLsbD 0 then 1 else 0) < 0 := by
  rw [← subbExact_eq, decide_eq_true_iff]

end Machine

open Machine Claim

/-- Settles O14: both tokens are functions of one exact sum or difference of the bit patterns. -/
theorem carryResult : Obligations.CarryResult := by
  unfold Obligations.CarryResult
  intro s x hx w
  refine ⟨?addc, ?subb⟩
  case addc =>
    refine ⟨_, _, atSite_some _ hx, lanewise_lift3 fun l => ?_, lanewise_lift3 fun l => boolVal_spec (carry_out_iff ..)⟩
    rw [carryBits, carry_eq_wrapped, addcExact_eq]
  case subb =>
    refine ⟨_, _, atSite_some _ hx, lanewise_lift3 fun l => ?_, lanewise_lift3 fun l => boolVal_spec (borrow_out_iff ..)⟩
    rw [carry_eq_wrapped, subbExact_eq]

end Sys2Proof
end

section
/-! SUPPORT. Minimum and maximum, absolute value, negation and the bitwise operations (R155, R156). -/

namespace Sys2Proof

namespace Machine

open Sys2Proof.Claim

variable (t : Ty) (a b : Val)

/-- A bitwise operation computed at 128 bits, where cutting to the type's width commutes with it. -/
theorem onBits2_eq {f : Val → Val → Val} {g : BitVec t.width → BitVec t.width → BitVec t.width}
    (h : ∀ u v, at_ t (f u v) = g (at_ t u) (at_ t v)) : onBits2 t f a b = carried t (g (at_ t a) (at_ t b)) := by
  rw [onBits2, carryBits_toNat, h, at_valOf, at_valOf]

theorem at_and : at_ t (a &&& b) = at_ t a &&& at_ t b := BitVec.setWidth_and
theorem at_or : at_ t (a ||| b) = at_ t a ||| at_ t b := BitVec.setWidth_or
theorem at_xor : at_ t (a ^^^ b) = at_ t a ^^^ at_ t b := BitVec.setWidth_xor
theorem at_not : at_ t (~~~a) = ~~~at_ t a := BitVec.setWidth_not (width_le_128 t)

theorem at_andn : at_ t (a &&& ~~~b) = at_ t a &&& ~~~at_ t b := by rw [at_and, at_not]

end Machine

open Machine Claim

/-- Settles O15: the exact operations wrap to the operand chosen or negated, and each bitwise one commutes with the cut to
the type's width. -/
theorem minMaxAndBitwiseResult : Obligations.MinMaxAndBitwiseResult := by
  unfold Obligations.MinMaxAndBitwiseResult
  intro s x hx w
  refine ⟨?min, ?max, ?abs, ?neg, ?and, ?or, ?xor, ?andn, ?not⟩
  case min => exact yields_bin (atSite_some _ hx) fun l => (onInt2_eq ..).trans (wrapped_min_val ..)
  case max => exact yields_bin (atSite_some _ hx) fun l => (onInt2_eq ..).trans (wrapped_max_val ..)
  case abs => exact yields_un (atSite_some _ hx) fun l => (onInt1_eq ..).trans (congrArg _ (Int.natCast_natAbs _))
  case neg => exact yields_un (atSite_some _ hx) fun l => (onInt1_eq ..).trans (wrapped_neg_val ..)
  case and => exact yields_bin (atSite_some _ hx) fun l => onBits2_eq _ _ _ (at_and _)
  case or => exact yields_bin (atSite_some _ hx) fun l => onBits2_eq _ _ _ (at_or _)
  case xor => exact yields_bin (atSite_some _ hx) fun l => onBits2_eq _ _ _ (at_xor _)
  case andn => exact yields_bin (atSite_some _ hx) fun l => onBits2_eq _ _ _ (g := fun u v => u &&& ~~~v) (at_andn _)
  case not => exact yields_un (atSite_some _ hx) fun l => (carryBits_toNat ..).trans (congrArg _ (at_not ..))

end Sys2Proof
end

section
/-! SUPPORT. Shifts, rotation and bit fields (R157, R158). -/

namespace Sys2Proof

namespace Machine

open Sys2Proof.Claim

/-! ## Powers of two as shifts -/

section

variable {n : Nat}

theorem ofNat_two_pow (k : Nat) : BitVec.ofNat n (2 ^ k) = BitVec.twoPow n k :=
  BitVec.eq_of_toNat_eq (by rw [BitVec.toNat_ofNat, BitVec.toNat_twoPow])

theorem ofNat_mul_two_pow (z k : Nat) : BitVec.ofNat n (z * 2 ^ k) = BitVec.ofNat n z <<< k := by
  rw [BitVec.ofNat_mul, ofNat_two_pow, BitVec.shiftLeft_eq_mul_twoPow]

theorem ofInt_mul_two_pow (z : Int) (k : Nat) : BitVec.ofInt n (z * 2 ^ k) = BitVec.ofInt n z <<< k := by
  have h : BitVec.ofInt n (2 ^ k) = BitVec.ofNat n (2 ^ k) := by
    rw [← BitVec.ofInt_natCast]; push_cast; rfl
  rw [BitVec.ofInt_mul, h, ofNat_two_pow, BitVec.shiftLeft_eq_mul_twoPow]

theorem ofNat_toNat_mul_two_pow (v : BitVec n) (k : Nat) : BitVec.ofNat n (v.toNat * 2 ^ k) = v <<< k := by
  rw [ofNat_mul_two_pow, BitVec.ofNat_toNat, BitVec.setWidth_eq]

theorem toNat_ushiftRight_eq_div (v : BitVec n) (k : Nat) : (v >>> k).toNat = v.toNat / 2 ^ k := by
  rw [BitVec.toNat_ushiftRight, Nat.shiftRight_eq_div_pow]

theorem ofNat_toNat_div_two_pow (v : BitVec n) (k : Nat) : BitVec.ofNat n (v.toNat / 2 ^ k) = v >>> k := by
  rw [← toNat_ushiftRight_eq_div, BitVec.ofNat_toNat, BitVec.setWidth_eq]

/-- What a shift to the left by k keeps and what a shift to the right by n - k keeps lie on either side of bit k. -/
theorem shiftLeft_and_ushiftRight (v : BitVec n) (k : Nat) : v <<< k &&& v >>> (n - k) = 0#n := by
  apply BitVec.eq_of_getLsbD_eq
  intro j hj
  rw [BitVec.getLsbD_and, BitVec.getLsbD_shiftLeft, BitVec.getLsbD_ushiftRight, BitVec.getLsbD_zero]
  by_cases hk : j < k
  · simp [hk]
  · rw [BitVec.getLsbD_of_ge v (n - k + j) (by omega), Bool.and_false]

/-- A mask of the low k bits, of at most n, keeps the value modulo 2^k. -/
theorem toNat_and_low_ones (v : BitVec n) {k : Nat} (h : k ≤ n) :
    (v &&& BitVec.ofNat n (2 ^ k - 1)).toNat = v.toNat % 2 ^ k := by
  have hk : 2 ^ k ≤ 2 ^ n := Nat.pow_le_pow_right (by omega) h
  have h0 : 0 < 2 ^ k := Nat.two_pow_pos k
  rw [BitVec.toNat_and, BitVec.toNat_ofNat, Nat.mod_eq_of_lt (by omega), Nat.and_two_pow_sub_one_eq_mod]

end

/-! ## Shifts (R157) -/

variable (t : Ty) (a b ctl : Val)

theorem low32_eq : low32 b = (b.extractLsb' 0 32).toNat := by
  rw [BitVec.extractLsb'_toNat, Nat.shiftRight_zero]; rfl

theorem carried_zero : carried t 0 = 0 := by cases t <;> decide

theorem shlVal_eq : shlVal t a b = carried t (at_ t a <<< (b.extractLsb' 0 32).toNat) := by
  rw [shlVal, ← low32_eq]
  split
  · next h => rw [BitVec.shiftLeft_eq_zero h]; exact (carried_zero t).symm
  · rw [carryBits_eq_carried, natOf_eq_toNat, ofNat_toNat_mul_two_pow]

theorem shrVal_eq : shrVal t a b = carried t (at_ t a >>> (b.extractLsb' 0 32).toNat) := by
  rw [shrVal, ← low32_eq]
  split
  · next h => rw [BitVec.ushiftRight_eq_zero h]; exact (carried_zero t).symm
  · rw [carryBits_eq_carried, natOf_eq_toNat, ofNat_toNat_div_two_pow]

theorem sarVal_eq : sarVal t a b =
    carried t ((at_ t a).sshiftRight (min (b.extractLsb' 0 32).toNat (t.width - 1))) := by
  rw [sarVal, carry_eq_wrapped, wrapped, signedOf_eq_toInt, low32_eq, BitVec.sshiftRight_eq, Int.shiftRight_eq_div_pow]
  push_cast
  rfl

/-- The two parts of a rotation do not overlap, so their sum is their union. -/
theorem rotVal_eq : rotVal t a b = carried t ((at_ t a).rotateLeft (b.extractLsb' 0 32).toNat) := by
  rw [rotVal, carryBits_eq_carried, natOf_eq_toNat, low32_eq, BitVec.ofNat_add, ofNat_toNat_mul_two_pow,
    ofNat_toNat_div_two_pow, BitVec.add_eq_or_of_and_eq_zero _ _ (shiftLeft_and_ushiftRight ..), BitVec.rotateLeft_def]

/-! ## Bit fields (R158) -/

/-- A control word's position. -/
def fieldPos (ctl : Val) : Nat := (ctl.extractLsb' 0 7).toNat

/-- A control word's length, cut to the type's width. -/
def fieldLen (t : Ty) (ctl : Val) : Nat := min (ctl.extractLsb' 8 7).toNat t.width

theorem fieldPos_eq : ctl.toNat % 128 = fieldPos ctl := by
  rw [fieldPos, BitVec.extractLsb'_toNat, Nat.shiftRight_zero]

theorem fieldLen_eq : min (ctl.toNat / 256 % 128) t.width = fieldLen t ctl := by
  rw [fieldLen, BitVec.extractLsb'_toNat, Nat.shiftRight_eq_div_pow]

/-- The field that BFX takes, zero above it. -/
def fieldOf (t : Ty) (a ctl : Val) : BitVec t.width :=
  (at_ t a >>> fieldPos ctl) &&& BitVec.ofNat t.width (2 ^ fieldLen t ctl - 1)

theorem toNat_fieldOf : (fieldOf t a ctl).toNat = natOf t a / 2 ^ fieldPos ctl % 2 ^ fieldLen t ctl := by
  rw [fieldOf, toNat_and_low_ones (k := fieldLen t ctl) _ (min_le_right ..), toNat_ushiftRight_eq_div, natOf_eq_toNat]

theorem bfxVal_eq : bfxVal t a ctl = carried t (if t.signed = true ∧ 0 < fieldLen t ctl then
    ((fieldOf t a ctl).setWidth (fieldLen t ctl)).signExtend t.width else fieldOf t a ctl) := by
  rw [bfxVal, fieldPos_eq, fieldLen_eq, ← toNat_fieldOf, BitVec.ofNat_toNat, carryBits_eq_carried, BitVec.ofNat_toNat,
    BitVec.setWidth_eq, carry_eq_wrapped, apply_ite (carried t)]
  simp only [Bool.and_eq_true, decide_eq_true_eq]
  rfl

/-- The bits that BFI replaces: a field cut at the type's width. -/
def fieldMask (t : Ty) (ctl : Val) : BitVec t.width := BitVec.ofNat t.width (2 ^ fieldLen t ctl - 1) <<< fieldPos ctl

theorem bfiVal_eq : bfiVal t a b ctl =
    carried t ((at_ t a &&& ~~~fieldMask t ctl) ||| ((at_ t b <<< fieldPos ctl) &&& fieldMask t ctl)) := by
  have hw : t.width ≤ 256 := (width_le_128 t).trans (by decide)
  have hm : BitVec.ofNat t.width ((2 ^ fieldLen t ctl - 1) * 2 ^ fieldPos ctl % 2 ^ t.width) = fieldMask t ctl := by
    rw [← BitVec.toNat_ofNat, BitVec.ofNat_toNat, BitVec.setWidth_eq, ofNat_mul_two_pow, fieldMask]
  rw [bfiVal, fieldPos_eq, fieldLen_eq, carryBits_eq_carried, BitVec.ofNat_toNat, BitVec.setWidth_or, BitVec.setWidth_and,
    BitVec.setWidth_and, BitVec.setWidth_not hw]
  simp only [BitVec.setWidth_ofNat_of_le hw, hm, natOf_eq_toNat, ofNat_toNat_mul_two_pow, BitVec.ofNat_toNat,
    BitVec.setWidth_setWidth_of_le _ hw, BitVec.setWidth_eq]

end Machine

open Machine Claim

/-- Settles O16: products and quotients by powers of two are shifts at the type's width, and a field is cut out or put in
under a mask of its bits. -/
theorem shiftAndFieldResult : Obligations.ShiftAndFieldResult := by
  unfold Obligations.ShiftAndFieldResult
  intro s x hx w
  refine ⟨?shl, ?shr, ?sar, ?rot, ?bfx, ?bfi⟩
  case shl => exact yields_bin (atSite_some _ hx) fun l => shlVal_eq ..
  case shr => exact yields_bin (atSite_some _ hx) fun l => shrVal_eq ..
  case sar => exact yields_bin (atSite_some _ hx) fun l => sarVal_eq ..
  case rot => exact yields_bin (atSite_some _ hx) fun l => rotVal_eq ..
  case bfx => exact yields_bin (atSite_some _ hx) fun l => bfxVal_eq ..
  case bfi => exact yields_ter (atSite_some _ hx) fun l => bfiVal_eq ..

end Sys2Proof
end

section
/-! SUPPORT. CMP and the carry-less product (R160, R161). -/

namespace Sys2Proof

namespace Machine

open Sys2Proof.Claim

theorem valOf_eq_zero (t : Ty) (v : Val) : valOf t v = 0 ↔ at_ t v = 0 := by
  rw [valOf_eq_setWidth, BitVec.toNat_eq, BitVec.toNat_eq (x := at_ t v), BitVec.toNat_setWidth_of_le (width_le_128 t)]
  rfl

/-- What CMP's condition says of the two exact values, or of the bits in common. -/
theorem icondHolds_iff (k : ICond) (t : Ty) (a b : Val) : icondHolds k t a b = true ↔
    match k with
    | .eq => val t a = val t b
    | .ne => val t a ≠ val t b
    | .lt => val t a < val t b
    | .le => val t a ≤ val t b
    | .gt => val t b < val t a
    | .ge => val t b ≤ val t a
    | .tst => at_ t a &&& at_ t b ≠ 0 := by
  unfold icondHolds
  simp only [intOf_eq_val]
  cases k
  case tst => exact bne_iff_ne.trans (not_congr ((valOf_eq_zero ..).trans (by rw [at_and])))
  case eq => exact beq_iff_eq
  case ne => exact bne_iff_ne
  all_goals exact decide_eq_true_iff

/-- Bits 63 to 0 of the carry-less product's first operand. -/
theorem lowBits_64 (v : Val) : lowBits 64 v = (v.extractLsb' 0 64).setWidth 128 := by
  rw [lowBits_eq_setWidth (by decide), BitVec.setWidth_eq_extractLsb' (x := v) (by decide)]

theorem ushiftRight_64 (v : BitVec 128) : v >>> 64 = (v.extractLsb' 64 64).setWidth 128 := by
  apply BitVec.eq_of_toNat_eq
  rw [BitVec.toNat_setWidth, BitVec.extractLsb'_toNat, BitVec.toNat_ushiftRight, Nat.shiftRight_eq_div_pow]
  omega

end Machine

open Machine Claim

/-- Settles O18: a comparison's token says whether its condition holds of the operands, and CLMUL and CLMULH cut one product. -/
theorem compareAndCarryLessResult : Obligations.CompareAndCarryLessResult := by
  unfold Obligations.CompareAndCarryLessResult
  intro s x hx w
  refine ⟨?eq, ?ne, ?lt, ?le, ?gt, ?ge, ?tst, ?clmul, ?clmulh⟩
  case clmul =>
    refine yields_bin (atSite_some _ hx) fun l => ?_
    rw [lowBits_64, clmulExact, lowBits_64]
  case clmulh =>
    refine yields_bin (atSite_some _ hx) fun l => ?_
    rw [ushiftRight_64, clmulExact, lowBits_64]
  all_goals exact yields_bin (atSite_some _ hx) fun l => boolVal_spec (icondHolds_iff ..)

end Sys2Proof
end

section
/-! SUPPORT. LEA and WIDF (R162, R163). -/

namespace Sys2Proof

namespace Machine

open Sys2Proof.Claim

/-- LEA's index as it enters the 64-bit sum: the low 32 bits of b, extended as the type's signedness says. -/
theorem ofInt_leaIndex (sgn : Bool) (b : Val) :
    BitVec.ofInt 64 (if sgn then (BitVec.ofNat 32 b.toNat).toInt else (low32 b : Nat)) =
      if sgn then (b.extractLsb' 0 32).signExtend 64 else (b.extractLsb' 0 32).setWidth 64 := by
  have hb : BitVec.ofNat 32 b.toNat = b.extractLsb' 0 32 := by
    rw [BitVec.ofNat_toNat, BitVec.setWidth_eq_extractLsb' (by decide)]
  have hn : low32 b = (b.extractLsb' 0 32).toNat := by rw [← hb, BitVec.toNat_ofNat]; rfl
  cases sgn
  · simp only [hn, Bool.false_eq_true, if_false]
    rw [BitVec.ofInt_natCast, BitVec.ofNat_toNat]
  · simp only [hb, if_true]
    rfl

theorem leaVal_eq (t : Ty) (scale : Nat) (a b c : Val) : leaVal t scale a b c =
    (a.setWidth 64 + (if t.signed then (b.extractLsb' 0 32).signExtend 64 else (b.extractLsb' 0 32).setWidth 64) <<< scale +
      c.setWidth 64 : BitVec 64).setWidth 128 := by
  rw [leaVal, carry_eq_wrapped]
  change (BitVec.ofInt 64 _).setWidth 128 = _
  rw [BitVec.ofInt_add, BitVec.ofInt_add, ofInt_mul_two_pow, ofInt_leaIndex, BitVec.ofInt_natCast, BitVec.ofInt_natCast,
    BitVec.ofNat_toNat, BitVec.ofNat_toNat]

/-- WIDF at its site, where the group's launch gives the widths. -/
theorem exec_widf {s : State} {x : Site} {p : Place} (k : BitVec 3) (w : Plain) (hx : site? s = some x)
    (hp : x.place s = some p) : exec (.widf k w) s =
      .next (x.un s w w.ty.tokenWidth fun a => carryBits w.ty (widField p.l.widths k.toNat a.toNat)) :=
  (atSite_some _ hx).trans (by rw [hp])

/-- Beyond the launch's widths a field is zero bits wide. -/
theorem widField_eq (ws : List Nat) (k : Nat) (a : Val) : widField ws k a.toNat =
    (a.setWidth 64).toNat / 2 ^ (ws.take k).sum % 2 ^ (if k < ws.length then ws.getD k 0 else 0) := by
  rw [widField, BitVec.toNat_setWidth]
  split
  · rfl
  · rw [List.getD_eq_default _ _ (by omega)]

end Machine

open Machine Claim

/-- Settles O19: LEA's sum wraps term by term to the 64-bit sum, and WIDF carries the field that the widths cut out. -/
theorem addressResult : Obligations.AddressResult := by
  unfold Obligations.AddressResult
  intro s x hx
  refine ⟨fun scale w => ?lea, fun k w p hp => ?widf⟩
  case lea => exact yields_ter (atSite_some _ hx) fun l => leaVal_eq ..
  case widf =>
    refine yields_un (exec_widf k w hx hp) fun l => ?_
    rw [carryBits, carry_eq_wrapped, widField_eq]

end Sys2Proof
end

section
/-! SUPPORT. Floating-point order (09_ref_float: R169 to R171, R175): operands and results element by element, what a pattern
stands for, the order of two patterns as integers, then each instruction on patterns, then O23. -/

namespace Sys2Proof

namespace Claim

open Sys2Proof.Machine

/-! ## Bits of a pattern (R104) -/

section

variable (f : Fmt) {p q : Nat}

theorem wd_sub_one : wd f - 1 = f.ebits + f.fbits := by unfold wd; omega

theorem two_pow_wd : 2 ^ wd f = 2 ^ (wd f - 1) * 2 := by
  rw [← pow_succ, wd_sub_one, wd]
  congr 1
  omega

theorem mag_lt (p : Nat) : mag f p < 2 ^ (wd f - 1) := Nat.mod_lt _ (Nat.two_pow_pos _)

variable {f}

/-- A pattern is its sign bit over its magnitude bits. -/
theorem pattern_eq (hp : p < 2 ^ wd f) : p = (if neg f p then 2 ^ (wd f - 1) else 0) + mag f p := by
  rw [two_pow_wd] at hp
  have hdiv : p / 2 ^ (wd f - 1) < 2 := Nat.div_lt_of_lt_mul hp
  have hsum := Nat.div_add_mod p (2 ^ (wd f - 1))
  rw [neg, mag, Nat.testBit_eq_decide_div_mod_eq, Nat.mod_eq_of_lt hdiv]
  rcases Nat.le_one_iff_eq_zero_or_eq_one.mp (Nat.lt_succ_iff.mp hdiv) with h | h
  all_goals rw [h] at hsum ⊢; simpa using hsum.symm

/-- Two patterns of one sign and one magnitude are the same. -/
theorem pattern_ext (hp : p < 2 ^ wd f) (hq : q < 2 ^ wd f) (hn : neg f p = neg f q) (hm : mag f p = mag f q) : p = q := by
  rw [pattern_eq hp, pattern_eq hq, hn, hm]

/-- Inverting the sign bit leaves the magnitude bits (R170). -/
theorem xor_sign (hp : p < 2 ^ wd f) :
    p ^^^ 2 ^ (wd f - 1) = (if neg f p then 0 else 2 ^ (wd f - 1)) + mag f p := by
  have hlt : p ^^^ 2 ^ (wd f - 1) < 2 ^ wd f :=
    Nat.xor_lt_two_pow hp (Nat.pow_lt_pow_right (by decide) (by unfold wd; omega))
  have hneg : neg f (p ^^^ 2 ^ (wd f - 1)) = !neg f p := by
    rw [neg, Nat.testBit_xor, Nat.testBit_two_pow_self, Bool.xor_true, neg]
  have hmag : mag f (p ^^^ 2 ^ (wd f - 1)) = mag f p := by
    rw [mag, Nat.xor_mod_two_pow, Nat.mod_self, Nat.xor_zero, mag]
  rw [pattern_eq hlt, hneg, hmag]
  cases neg f p <;> rfl

end

end Claim

namespace Machine

open Sys2Proof.Claim

/-! ## Operands and results element by element (R103, R166) -/

section

variable (t : Ty) (a b : Val)

theorem bitsOf_toNat (lo n : Nat) : bitsOf a.toNat lo n = (a.extractLsb' lo n).toNat := by
  rw [BitVec.extractLsb'_toNat, Nat.shiftRight_eq_div_pow, bitsOf]

theorem elem_of_packed (h : tyPacked t = true) (k : Nat) : elem t a k = bitsOf a.toNat (16 * k) 16 := by
  rw [elem, if_pos (by simpa [tyPacked] using h), bitsOf_toNat]

theorem elem_of_plain (h : tyPacked t = false) (k : Nat) : elem t a k = a.toNat % 2 ^ t.width := by
  rw [elem, if_neg (by simpa [tyPacked] using h), at_, BitVec.toNat_setWidth]

theorem tyPacked_of_plain : ∀ t ∈ [Ty.f16, .bf16, .f32], tyPacked t = false := by decide

theorem packed_of_packed (h : tyPacked t = true) (g : Nat → Nat) : packed t g = BitVec.ofNat 128 (g 0 + 2 ^ 16 * g 1) := by
  rw [packed, if_pos (by simpa [tyPacked] using h)]

theorem packed_of_plain (h : tyPacked t = false) (g : Nat → Nat) : packed t g = BitVec.ofNat 128 (g 0) := by
  rw [packed, if_neg (by simpa [tyPacked] using h)]

theorem bitsOf_zero (v n : Nat) : bitsOf v 0 n = v % 2 ^ n := by rw [bitsOf, pow_zero, Nat.div_one]

theorem elem1_eq (g : Nat → Nat) : elem1 t g a = packed t fun k => g (elem t a k) := by
  cases h : tyPacked t
  · rw [packed_of_plain t h, elem_of_plain t a h, elem1, if_neg (by simp [h]), bitsOf_zero]
  · rw [packed_of_packed t h, elem_of_packed t a h, elem_of_packed t a h, elem1, if_pos h]

theorem elem2_eq (g : Nat → Nat → Nat) : elem2 t g a b = packed t fun k => g (elem t a k) (elem t b k) := by
  cases h : tyPacked t
  · rw [packed_of_plain t h, elem_of_plain t a h, elem_of_plain t b h, elem2, if_neg (by simp [h]), bitsOf_zero,
      bitsOf_zero]
  · simp only [packed_of_packed t h, elem_of_packed t _ h, elem2, if_pos h]

/-- An element of these types is as wide as its format. -/
theorem wd_fmtOf : ∀ t ∈ [Ty.f16, .bf16, .f32, .f16x2, .bf16x2],
    wd (fmtOf t) = if tyPacked t = true then 16 else t.width := by decide

theorem elem_lt (ht : t ∈ [Ty.f16, .bf16, .f32, .f16x2, .bf16x2]) (k : Nat) : elem t a k < 2 ^ wd (fmtOf t) := by
  have h0 := Nat.two_pow_pos
  rw [wd_fmtOf t ht]
  cases h : tyPacked t
  · rw [elem_of_plain t a h, if_neg Bool.false_ne_true]
    exact Nat.mod_lt _ (h0 _)
  · rw [elem_of_packed t a h, if_pos rfl]
    exact Nat.mod_lt _ (h0 _)

end

/-! ## What a pattern stands for (R104) -/

/-- The significand of a finite magnitude: the fraction bits, with the leading one of a normal number. -/
def significand (f : Fmt) (g : Nat) : Nat := if g < 2 ^ f.fbits then g else g % 2 ^ f.fbits + 2 ^ f.fbits

/-- The exponent of a finite magnitude's last place: a subnormal number has that of the least normal one. -/
def exponent (f : Fmt) (g : Nat) : Int := (max 1 (g / 2 ^ f.fbits) : Nat) - f.bias - f.fbits

section

variable {f : Fmt} {p q : Nat}

theorem ofBits_of_nan (hp : isNan f p) : Fp.ofBits f p = .nan := by
  simp only [Fp.ofBits, ← wd_sub_one, ← mag.eq_def]
  unfold isNan lastNumber at hp
  cases hi : f.infs
  · rw [hi, if_neg Bool.false_ne_true] at hp
    simp [hp]
  · rw [hi, if_pos rfl] at hp
    simp [hp.ne', Nat.lt_of_succ_lt hp]

theorem ofBits_of_infinite (hp : infinite f p) : Fp.ofBits f p = .inf (neg f p) := by
  obtain ⟨hi, hm⟩ := hp
  simp only [Fp.ofBits, ← wd_sub_one, ← mag.eq_def, ← neg.eq_def]
  simp [hm, hi]

theorem ofBits_of_finite (hp : finite f p) :
    Fp.ofBits f p = .fin (neg f p) (significand f (mag f p)) (exponent f (mag f p)) := by
  have hm : ¬ f.top < mag f p := not_lt.mpr hp
  simp only [Fp.ofBits, ← wd_sub_one, ← mag.eq_def, ← neg.eq_def]
  rw [if_neg hm, significand, exponent]
  rcases lt_or_ge (mag f p) (2 ^ f.fbits) with hs | hs
  · simp [Nat.div_eq_of_lt hs, Nat.mod_eq_of_lt hs, hs]
  · have hd : 0 < mag f p / 2 ^ f.fbits := Nat.div_pos hs (Nat.two_pow_pos _)
    simp [hd.ne', not_lt.mpr hs, Nat.max_eq_right hd]

/-- A pattern is a NaN, an infinity or a finite number. -/
theorem pattern_cases (f : Fmt) (p : Nat) : isNan f p ∨ infinite f p ∨ finite f p := by
  rcases lt_trichotomy (mag f p) (f.top + 1) with h | h | h
  · exact .inr (.inr (Nat.lt_succ_iff.mp h))
  · cases hi : f.infs
    · exact .inl (by simp [isNan, lastNumber, hi, h])
    · exact .inr (.inl ⟨hi, h⟩)
  · exact .inl (by unfold isNan lastNumber; split <;> omega)

theorem ofBits_eq_nan_iff : Fp.ofBits f p = .nan ↔ isNan f p := by
  refine ⟨fun h => ?_, ofBits_of_nan⟩
  rcases pattern_cases f p with hp | hp | hp
  · exact hp
  · rw [ofBits_of_infinite hp] at h; cases h
  · rw [ofBits_of_finite hp] at h; cases h

theorem isNeg_ofBits (hp : ¬ isNan f p) : (Fp.ofBits f p).isNeg = neg f p := by
  rcases (pattern_cases f p).resolve_left hp with h | h
  · rw [ofBits_of_infinite h]; rfl
  · rw [ofBits_of_finite h]; rfl

/-! ## The order of finite magnitudes -/

variable {g h : Nat} {e : Int}

theorem significand_eq_zero : significand f g = 0 ↔ g = 0 := by
  have h0 : 0 < 2 ^ f.fbits := Nat.two_pow_pos _
  unfold significand
  split <;> omega

theorem significand_lt_iff : significand f g < 2 ^ f.fbits ↔ g < 2 ^ f.fbits := by
  unfold significand
  split <;> omega

theorem significand_lt (f : Fmt) (g : Nat) : significand f g < 2 ^ f.fbits * 2 := by
  have := Nat.mod_lt g (Nat.two_pow_pos f.fbits)
  unfold significand
  split <;> omega

/-- Two magnitudes with one exponent differ as their significands do. -/
theorem significand_add (f : Fmt) (g : Nat) :
    2 ^ f.fbits * max 1 (g / 2 ^ f.fbits) + significand f g = g + 2 ^ f.fbits := by
  have hsum := Nat.div_add_mod g (2 ^ f.fbits)
  unfold significand
  split
  next hs => rw [Nat.div_eq_of_lt hs]; simp [add_comm]
  next hs =>
    rw [Nat.max_eq_right (Nat.div_pos (not_lt.mp hs) (Nat.two_pow_pos _))]
    omega

/-- A finite magnitude as a multiple of 2^`e`. -/
def aligned (f : Fmt) (e : Int) (g : Nat) : Nat := significand f g * 2 ^ (exponent f g - e).toNat

theorem scaled_eq_aligned (n : Bool) : scaled n (significand f g) (exponent f g) e =
    if n then -(aligned f e g : Int) else (aligned f e g : Int) := by
  simp [scaled, aligned]

theorem aligned_eq_zero : aligned f e g = 0 ↔ g = 0 := by
  simp [aligned, significand_eq_zero]

/-- The greater magnitude is the greater number: by its significand under the same exponent, and under a greater exponent
because it is normal. -/
theorem aligned_lt_of_lt (hgh : g < h) (he : e ≤ exponent f g) : aligned f e g < aligned f e h := by
  have hdiv : g / 2 ^ f.fbits ≤ h / 2 ^ f.fbits := Nat.div_le_div_right hgh.le
  obtain ⟨d, hd⟩ := Nat.exists_eq_add_of_le (max_le_max_left 1 hdiv)
  have hexp : (exponent f h - e).toNat = d + (exponent f g - e).toNat := by
    unfold exponent at *
    omega
  rw [aligned, aligned, hexp, pow_add, ← mul_assoc]
  refine Nat.mul_lt_mul_of_pos_right ?_ (Nat.two_pow_pos _)
  rcases Nat.eq_zero_or_pos d with rfl | hpos
  · have hg := significand_add f g
    have hh := significand_add f h
    rw [hd, add_zero] at hh
    rw [pow_zero, mul_one]
    omega
  · have hnormal : 2 ^ f.fbits ≤ significand f h := by
      refine not_lt.mp fun hs => ?_
      rw [Nat.div_eq_of_lt (significand_lt_iff.mp hs)] at hd
      omega
    calc significand f g < 2 ^ f.fbits * 2 := significand_lt f g
      _ ≤ significand f h * 2 ^ d := Nat.mul_le_mul hnormal (Nat.le_self_pow hpos.ne' 2)

theorem aligned_lt_iff (hg : e ≤ exponent f g) (hh : e ≤ exponent f h) : aligned f e g < aligned f e h ↔ g < h := by
  refine ⟨fun hlt => ?_, fun hgh => aligned_lt_of_lt hgh hg⟩
  by_contra hn
  rcases (not_lt.mp hn).eq_or_lt with rfl | hlt'
  · exact lt_irrefl _ hlt
  · exact lt_asymm hlt (aligned_lt_of_lt hlt' hh)

/-! ## The order of two patterns (R171) -/

theorem scaled_lt_iff (hp : e ≤ exponent f (mag f p)) (hq : e ≤ exponent f (mag f q)) :
    scaled (neg f p) (significand f (mag f p)) (exponent f (mag f p)) e <
      scaled (neg f q) (significand f (mag f q)) (exponent f (mag f q)) e ↔ level f p < level f q := by
  have hlt := aligned_lt_iff hp hq
  have hgt := aligned_lt_iff hq hp
  have hp0 : aligned f e (mag f p) = 0 ↔ mag f p = 0 := aligned_eq_zero
  have hq0 : aligned f e (mag f q) = 0 ↔ mag f q = 0 := aligned_eq_zero
  rw [scaled_eq_aligned, scaled_eq_aligned, level, level]
  split_ifs <;> omega

theorem cmp_nan_left (x : Fp) : Fp.cmp .nan x = none := rfl

theorem cmp_nan_right (x : Fp) : Fp.cmp x .nan = none := by cases x <;> rfl

theorem cmp_inf_inf (x y : Bool) : Fp.cmp (.inf x) (.inf y) = some (if x = y then .eq else if x then .lt else .gt) := rfl

theorem cmp_inf_fin (x n : Bool) (m : Nat) (e : Int) : Fp.cmp (.inf x) (.fin n m e) = some (if x then .lt else .gt) := rfl

theorem cmp_fin_inf (x n : Bool) (m : Nat) (e : Int) : Fp.cmp (.fin n m e) (.inf x) = some (if x then .gt else .lt) := rfl

theorem compare_def (a b : Int) : compare a b = if a < b then .lt else if a = b then .eq else .gt := rfl

theorem compare_congr {a b c d : Int} (hlt : a < b ↔ c < d) (hgt : b < a ↔ d < c) : compare a b = compare c d := by
  have heq : a = b ↔ c = d := by omega
  simp only [compare_def, hlt, heq]

theorem level_of_infinite (hp : infinite f p) :
    level f p = if neg f p then -((f.top : Int) + 1) else (f.top : Int) + 1 := by
  rw [level, hp.2, Nat.cast_add_one]

theorem level_bounds_of_finite (hp : finite f p) : -(f.top : Int) ≤ level f p ∧ level f p ≤ f.top := by
  unfold finite level at *
  split <;> omega

/-- Numbers stand in the order of their magnitude bits taken with their signs. -/
theorem cmp_ofBits (hp : ¬ isNan f p) (hq : ¬ isNan f q) :
    Fp.cmp (Fp.ofBits f p) (Fp.ofBits f q) = some (compare (level f p) (level f q)) := by
  rcases (pattern_cases f p).resolve_left hp with hp | hp <;> rcases (pattern_cases f q).resolve_left hq with hq | hq
  · rw [ofBits_of_infinite hp, ofBits_of_infinite hq, level_of_infinite hp, level_of_infinite hq, cmp_inf_inf, compare_def]
    grind
  · rw [ofBits_of_infinite hp, ofBits_of_finite hq, level_of_infinite hp, cmp_inf_fin, compare_def]
    have := level_bounds_of_finite hq
    grind
  · rw [ofBits_of_finite hp, ofBits_of_infinite hq, level_of_infinite hq, cmp_fin_inf, compare_def]
    have := level_bounds_of_finite hp
    grind
  · rw [ofBits_of_finite hp, ofBits_of_finite hq, Fp.cmp]
    exact congrArg some (compare_congr (scaled_lt_iff (min_le_left ..) (min_le_right ..))
      (scaled_lt_iff (min_le_right ..) (min_le_left ..)))

theorem cmp_ofBits_of_nan (h : isNan f p ∨ isNan f q) : Fp.cmp (Fp.ofBits f p) (Fp.ofBits f q) = none := by
  rcases h with h | h
  · rw [ofBits_of_nan h, cmp_nan_left]
  · rw [ofBits_of_nan h, cmp_nan_right]

/-! ## Minimum and maximum (R169) -/

/-- FMIN (`true`) keeps its first operand when its rank is at most the other's, FMAX when it is at least that. -/
def prefers : Bool → Int → Int → Prop
  | true => fun m n => m ≤ n
  | false => fun m n => n ≤ m

/-- Ranks refine the order of FCMP by the sign of a zero. -/
theorem rank_lt_iff : rank f p < rank f q ↔
    level f p < level f q ∨ level f p = level f q ∧ neg f p = true ∧ neg f q = false := by
  unfold rank level
  cases neg f p <;> cases neg f q <;> simp <;> omega

theorem rank_inj (hp : p < 2 ^ wd f) (hq : q < 2 ^ wd f) (h : rank f p = rank f q) : p = q := by
  unfold rank at h
  split_ifs at h with hn hn' hn'
  · exact pattern_ext hp hq (hn.trans hn'.symm) (by omega)
  · omega
  · omega
  · exact pattern_ext hp hq (by simp [hn, hn']) (by omega)

variable {least : Bool}

theorem minMax_of_nan_of_nan (hp : isNan f p) (hq : isNan f q) : minMax least f p q = f.canon := by
  simp only [minMax, cmp_ofBits_of_nan (.inl hp), if_pos (ofBits_of_nan hp), if_pos (ofBits_of_nan hq)]

theorem minMax_of_nan_left (hq' : q < 2 ^ wd f) (hp : isNan f p) (hq : ¬ isNan f q) : minMax least f p q = q := by
  simp only [minMax, cmp_ofBits_of_nan (.inl hp), if_pos (ofBits_of_nan hp), if_neg (mt ofBits_eq_nan_iff.mp hq)]
  exact Nat.mod_eq_of_lt hq'

theorem minMax_of_nan_right (hp' : p < 2 ^ wd f) (hp : ¬ isNan f p) (hq : isNan f q) : minMax least f p q = p := by
  simp only [minMax, cmp_ofBits_of_nan (.inr hq), if_neg (mt ofBits_eq_nan_iff.mp hp)]
  exact Nat.mod_eq_of_lt hp'

/-- The machine goes by the order of FCMP, and where that finds two numbers equal by the sign of the first: together, by
rank. -/
theorem minMax_of_numbers (hp' : p < 2 ^ wd f) (hq' : q < 2 ^ wd f) (hp : ¬ isNan f p) (hq : ¬ isNan f q) :
    minMax least f p q = if rank f p < rank f q then (if least then p else q) else if least then q else p := by
  have hw : f.width = wd f := rfl
  rw [minMax, cmp_ofBits hp hq, isNeg_ofBits hp, hw, Nat.mod_eq_of_lt hp', Nat.mod_eq_of_lt hq']
  rcases lt_trichotomy (rank f p) (rank f q) with h | h | h
  · rw [if_pos h]
    rcases rank_lt_iff.mp h with hl | ⟨hl, hn, -⟩
    · rw [compare_lt_iff_lt.mpr hl]
    · rw [compare_eq_iff_eq.mpr hl, hn]
      cases least <;> rfl
  · cases rank_inj hp' hq' h
    rw [compare_eq_iff_eq.mpr rfl]
    split_ifs <;> rfl
  · rw [if_neg h.asymm]
    rcases rank_lt_iff.mp h with hl | ⟨hl, -, hn⟩
    · rw [compare_gt_iff_gt.mpr hl]
    · rw [compare_eq_iff_eq.mpr hl.symm, hn]
      cases least <;> rfl

/-- R169's table: `r` for the operands `p` and `q`, of which the first is kept when it is the better. -/
def Picks (f : Fmt) (better : Int → Int → Prop) (p q r : Nat) : Prop :=
  (isNan f p → isNan f q → r = f.canon) ∧ (isNan f p → ¬ isNan f q → r = q) ∧
  (¬ isNan f p → isNan f q → r = p) ∧
  (¬ isNan f p → ¬ isNan f q → better (rank f p) (rank f q) → r = p) ∧
  (¬ isNan f p → ¬ isNan f q → ¬ better (rank f p) (rank f q) → r = q)

theorem minMax_picks (least : Bool) (hp' : p < 2 ^ wd f) (hq' : q < 2 ^ wd f) :
    Picks f (prefers least) p q (minMax least f p q) := by
  refine ⟨minMax_of_nan_of_nan, minMax_of_nan_left hq', minMax_of_nan_right hp', fun hp hq h => ?better,
    fun hp hq h => ?worse⟩
  all_goals rw [minMax_of_numbers hp' hq' hp hq]
  case better =>
    cases least
    · exact if_neg (not_lt.mpr h)
    · rcases (show rank f p ≤ rank f q from h).lt_or_eq with h | h
      · exact if_pos h
      · rw [rank_inj hp' hq' h, ite_self, if_pos rfl]
  case worse =>
    cases least
    · exact if_pos (not_le.mp h)
    · exact if_neg (mt le_of_lt h)

/-! ## Signs, conditions and classes (R170, R171, R175) -/

theorem signBits_eq (turn : Bool) (hp : p < 2 ^ wd f) : signBits f turn p =
    if lastNumber f < mag f p then f.canon else if turn then p ^^^ 2 ^ (wd f - 1) else mag f p := by
  simp only [signBits, ofBits_eq_nan_iff, isNan, ← wd_sub_one, ← mag.eq_def, ← neg.eq_def, xor_sign hp]
  cases turn <;> cases neg f p <;> simp

/-- What FCMP's condition says of two numbers, beside whether one of the operands is a NaN. -/
def fcondSays : FCond → Int → Int → Prop
  | .eq => fun m n => m = n
  | .ne => fun m n => m ≠ n
  | .lt => fun m n => m < n
  | .le => fun m n => m ≤ n
  | .gt => fun m n => n < m
  | .ge => fun m n => n ≤ m
  | .un => fun _ _ => False
  | .ord => fun _ _ => True

theorem fcondHolds_compare (c : FCond) (m n : Int) : fcondHolds c (some (compare m n)) = true ↔ fcondSays c m n := by
  rw [compare_def]
  unfold fcondSays
  cases c <;> (dsimp only; split_ifs <;> simp [fcondHolds] <;> omega)

theorem fcondHolds_none (c : FCond) : fcondHolds c none = true ↔ c = .un ∨ c = .ne := by
  cases c <;> decide

theorem fcondHolds_cmp (c : FCond) (f : Fmt) (p q : Nat) : fcondHolds c (Fp.cmp (Fp.ofBits f p) (Fp.ofBits f q)) = true ↔
    if c = .un ∨ c = .ne then (isNan f p ∨ isNan f q) ∨ fcondSays c (level f p) (level f q)
    else ¬ (isNan f p ∨ isNan f q) ∧ fcondSays c (level f p) (level f q) := by
  by_cases h : isNan f p ∨ isNan f q
  · rw [cmp_ofBits_of_nan h, fcondHolds_none]
    simp [h]
  · obtain ⟨hp, hq⟩ := not_or.mp h
    rw [cmp_ofBits hp hq, fcondHolds_compare]
    simp [h]

/-- The bit of FCLS's token for a pattern. -/
def classBit (f : Fmt) (p : Nat) : Nat :=
  let m := mag f p
  let n := neg f p
  if lastNumber f < m then 8
  else if m = f.top + 1 then (if n then 0 else 7)
  else if 2 ^ f.fbits ≤ m then (if n then 1 else 6)
  else if 0 < m then (if n then 2 else 5)
  else (if n then 3 else 4)

theorem classBits_eq (f : Fmt) (p : Nat) : classBits f p = 2 ^ classBit f p := by
  unfold classBits classBit
  rcases pattern_cases f p with h | h | h
  · rw [ofBits_of_nan h]
    simp only [if_pos (show lastNumber f < mag f p from h)]
  · rw [ofBits_of_infinite h]
    obtain ⟨hi, hm⟩ := h
    cases neg f p <;> simp [lastNumber, hi, hm]
  · rw [ofBits_of_finite h]
    have hlast : ¬ lastNumber f < mag f p := by unfold lastNumber finite at *; split <;> omega
    have hinf : mag f p ≠ f.top + 1 := by unfold finite at h; omega
    simp only [significand_eq_zero, significand_lt_iff, if_neg hlast, if_neg hinf]
    rcases Nat.eq_zero_or_pos (mag f p) with h0 | h0
    · cases neg f p <;> simp [h0]
    · rcases lt_or_ge (mag f p) (2 ^ f.fbits) with hs | hs
      · cases neg f p <;> simp [h0, h0.ne', hs, not_le.mpr hs]
      · cases neg f p <;> simp [h0.ne', hs, not_lt.mpr hs]

end

end Machine

open Machine Claim

/-- Settles O23: each result is a function of the patterns, whose order is that of their magnitude bits taken with their
signs. -/
theorem floatOrderResult : Obligations.FloatOrderResult := by
  unfold Obligations.FloatOrderResult
  intro s x hx w ht
  have hlt := fun v k => elem_lt w.ty v ht k
  refine ⟨?fmin, ?fmax, ?fabs, ?fneg, fun hplain => ?plain⟩
  case fmin =>
    exact yields_bin (atSite_some _ hx) fun l =>
      ⟨_, elem2_eq .., fun k _ => minMax_picks true (hlt ..) (hlt ..)⟩
  case fmax =>
    exact yields_bin (atSite_some _ hx) fun l =>
      ⟨_, elem2_eq .., fun k _ => minMax_picks false (hlt ..) (hlt ..)⟩
  case fabs => exact yields_un (atSite_some _ hx) fun l => ⟨_, elem1_eq .., fun k _ => signBits_eq false (hlt ..)⟩
  case fneg => exact yields_un (atSite_some _ hx) fun l => ⟨_, elem1_eq .., fun k _ => signBits_eq true (hlt ..)⟩
  case plain =>
    have hty := tyPacked_of_plain _ hplain
    refine ⟨?eq, ?ne, ?lt, ?le, ?gt, ?ge, ?un, ?ord, ?fcls⟩
    case fcls =>
      refine yields_un (atSite_some _ hx) fun l => ?_
      rw [elem1_eq, packed_of_plain _ hty, classBits_eq]
      rfl
    all_goals
      refine yields_bin (atSite_some _ hx) fun l => ?_
      rw [← elem_of_plain _ _ hty 0, ← elem_of_plain _ _ hty 0]
      exact ⟨_, fcondHolds_cmp .., boolVal_spec Iff.rfl⟩

end Sys2Proof
end
